-- ==== Sys2Proof/Word.lean ====
section
/-! DEFINITION. The words of the Z9 and the one container of the model: a sparse map held as plain data.
R2: bits are numbered from 0, the least significant; multi-byte values in memory are little-endian. -/

namespace Sys2Proof

abbrev Byte := BitVec 8
abbrev W32 := BitVec 32
abbrev W64 := BitVec 64
/-- A program counter (R79): a 56-bit virtual address; bits [2:0] hold the slot. -/
abbrev Pc := BitVec 56
/-- One bit per lane of a sheaf; a sheaf has at most 64 lanes (R9). -/
abbrev Mask := BitVec 64
/-- A bound of a 32-bit register (R48). -/
abbrev EB16 := BitVec 16
/-- A bound of a scalar, of an even-odd pair or of a stored element (R49). -/
abbrev EB32 := BitVec 32

/-- A sparse map from numbers, as a list of pairs: plain data, so states can be compared. -/
abbrev SMap (α : Type) := List (Nat × α)

namespace SMap

/-- The value at key `k`, if the map lists one. -/
def get? {α : Type} (m : SMap α) (k : Nat) : Option α :=
  match m with
  | [] => none
  | (j, a) :: r => if j = k then some a else get? r k

/-- The value at key `k`, or what an unlisted key reads as. -/
def getD {α : Type} (m : SMap α) (k : Nat) (d : α) : α := (SMap.get? m k).getD d

/-- Drop every entry of key `k`. -/
def erase {α : Type} (m : SMap α) (k : Nat) : SMap α := List.filter (fun p => p.1 != k) m

/-- Insert in rising key order. -/
def insertSorted {α : Type} (m : SMap α) (k : Nat) (a : α) : SMap α :=
  match m with
  | [] => [(k, a)]
  | (j, b) :: r => if k < j then (k, a) :: (j, b) :: r else (j, b) :: insertSorted r k a

/-- Set key `k` to `a`, keeping the keys rising. -/
def set {α : Type} (m : SMap α) (k : Nat) (a : α) : SMap α := insertSorted (SMap.erase m k) k a

/-- Change the value at key `k`, starting from `d` where none is listed. -/
def update {α : Type} (m : SMap α) (k : Nat) (d : α) (f : α → α) : SMap α :=
  SMap.set m k (f (SMap.getD m k d))

/-- Set key `k`, listing nothing where the value is what an unlisted key reads as. -/
def setC {α : Type} [DecidableEq α] (m : SMap α) (k : Nat) (d a : α) : SMap α :=
  if a = d then SMap.erase m k else SMap.set m k a

/-- The canonical form: keys strictly rising, and no entry equal to `d`. -/
def wf {α : Type} [DecidableEq α] (m : SMap α) (d : α) : Bool :=
  decide (List.Pairwise (fun p q : Nat × α => p.1 < q.1) m) && List.all m (fun p => decide (p.2 ≠ d))

end SMap

/-- Per-lane data: entry `l` belongs to lane `l`. -/
def lane {α : Type} (xs : List α) (l : Nat) (d : α) : α := xs.getD l d

/-- Build per-lane data for `n` lanes. -/
def lanesOf {α : Type} (n : Nat) (f : Nat → α) : List α := (List.range n).map f

/-- Is lane `l` in the mask? -/
def Mask.has (m : Mask) (l : Nat) : Bool := m.getLsbD l

/-- The mask of the lanes below `n` on which `p` holds. -/
def Mask.of (n : Nat) (p : Nat → Bool) : Mask :=
  (List.range n).foldl (fun acc l => if p l then acc ||| BitVec.ofNat 64 (2 ^ l) else acc) 0

/-- The lanes of a mask in ascending order. -/
def Mask.list (m : Mask) : List Nat := (List.range 64).filter (fun l => m.getLsbD l)

/-- Number of lanes in a mask. -/
def Mask.count (m : Mask) : Nat := (Mask.list m).length

end Sys2Proof
end

