-- ==== Sys2Proof/Config.lean ====
section
/-! DEFINITION. What an implementation fixes, and the free values.
A free value is a constant with no body: nothing can evaluate it, so a claim holds whatever it is. -/

namespace Sys2Proof.Config

/-- A free value, applied to the counter `freeCtr` of the state: the contents of an undefined tile (R260), and every
other value the spec leaves open after an operation that goes on. -/
opaque freeValue : Nat → W64

/-- How far a core's cycle counter stands ahead of the device's (R300): counters of different cores are not aligned, and the spec
fixes no difference between them. -/
opaque clkAhead : Nat → W64

/-- Which built cores of a die are disabled: `fuseDrop d k` picks the k-th of the eight among those still standing (R7, R337 fix their
number, not which they are). -/
opaque fuseDrop : Nat → Nat → Nat

/-- Compute dies (R6). -/
def dies : Nat := 8
/-- Enabled cores of a die (R7). -/
def coresPerDie : Nat := 72
/-- Sheaf slots of a quadrant (R8). -/
def sheafSlots : Nat := 16
/-- Resident lanes of a quadrant (R8, R13). -/
def lanesPerQuad : Nat := 512
/-- Lane registers of a quadrant (R8, R13). -/
def laneRegsPerQuad : Nat := 16384
/-- Scratchpad bytes of a core (R8). -/
def scratchPerCore : Nat := 524288
/-- Accumulator tiles of a core (R8). -/
def tilesPerCore : Nat := 256
/-- Slots in which the end of a restore routine's text is looked for (R302). -/
def routineSlots : Nat := 4096
/-- Cycles from one commit round to the next (R226). -/
def roundCycles : Nat := 16
/-- Instructions of a chunk (R220). -/
def chunkInstrs : Nat := 1024
/-- Distinct lines a chunk may write, read, and vector registers it may write (R220). -/
def chunkWrites : Nat := 32
def chunkReads : Nat := 256
def chunkVregs : Nat := 24
/-- Entries of an endpoint (R241). -/
def endpointEntries : Nat := 16
/-- Engine commands and LNCH instructions of a chunk (R245, R286). -/
def chunkCmds : Nat := 16
def chunkLnch : Nat := 4
/-- Released children of a partition that have not started (R287). -/
def childLimit : Nat := 4096
/-- Commands an engine's command queue holds. DESIGN CHOICE (log 12): R245 speaks of the queue and gives no size. -/
def engineQueue : Nat := 64

/-- Binary places to which an irrational function value is known before it is rounded. UNVERIFIED (log 13): R148 asks for the
correctly rounded value; no argument of F64 is known to need more. -/
def fnDigits : Nat := 1200

end Sys2Proof.Config
end

