-- ==== Sys2Proof/Syntax/Fields.lean ====
section
/-! DEFINITION. The fields of an instruction word as names: type codes, rounding modes, unit classes,
memory widths, orders, scopes, and the operand selectors of R88. -/

namespace Sys2Proof

/-- Type codes and format tags (R35). -/
inductive Ty where
  | i32 | n32 | i64 | n64 | f32 | f64 | f16x2 | bf16x2 | e4m3x4 | e5m2x4 | q4nx8 | i8x4 | n8x4
  | f6hi | f6lo | raw
  deriving DecidableEq, Repr

/-- The type a 4-bit code names (R35). -/
def Ty.ofCode (c : BitVec 4) : Ty :=
  match c.toNat with
  | 0 => .i32 | 1 => .n32 | 2 => .i64 | 3 => .n64 | 4 => .f32 | 5 => .f64 | 6 => .f16x2
  | 7 => .bf16x2 | 8 => .e4m3x4 | 9 => .e5m2x4 | 10 => .q4nx8 | 11 => .i8x4 | 12 => .n8x4
  | 13 => .f6hi | 14 => .f6lo | _ => .raw

/-- The code of a type (R35). -/
def Ty.code (t : Ty) : BitVec 4 :=
  match t with
  | .i32 => 0 | .n32 => 1 | .i64 => 2 | .n64 => 3 | .f32 => 4 | .f64 => 5 | .f16x2 => 6
  | .bf16x2 => 7 | .e4m3x4 => 8 | .e5m2x4 => 9 | .q4nx8 => 10 | .i8x4 => 11 | .n8x4 => 12
  | .f6hi => 13 | .f6lo => 14 | .raw => 15

/-- Is the type held in an even pair (R35)? -/
def Ty.is64 (t : Ty) : Bool := t = .i64 || t = .n64 || t = .f64

/-- Rounding modes (R46). -/
inductive Rm where
  | rn | rz | ru | rd
  deriving DecidableEq, Repr

def Rm.ofCode (c : BitVec 2) : Rm :=
  match c.toNat with | 0 => .rn | 1 => .rz | 2 => .ru | _ => .rd

def Rm.code (r : Rm) : BitVec 2 := match r with | .rn => 0 | .rz => 1 | .ru => 2 | .rd => 3

/-- Unit classes (R63); `rsv` is the reserved code 3. -/
inductive UClass where
  | auto | full | cheap | rsv
  deriving DecidableEq, Repr

def UClass.ofCode (c : BitVec 2) : UClass :=
  match c.toNat with | 0 => .auto | 1 => .full | 2 => .cheap | _ => .rsv

def UClass.code (u : UClass) : BitVec 2 := match u with | .auto => 0 | .full => 1 | .cheap => 2 | .rsv => 3

/-- Scopes of a memory instruction (R96); `rsv` is the reserved code 3. -/
inductive Scope where
  | dev | pod | sys | rsv
  deriving DecidableEq, Repr

def Scope.ofCode (c : BitVec 2) : Scope :=
  match c.toNat with | 0 => .dev | 1 => .pod | 2 => .sys | _ => .rsv

def Scope.code (u : Scope) : BitVec 2 := match u with | .dev => 0 | .pod => 1 | .sys => 2 | .rsv => 3

/-- Orders of a memory instruction (R96). -/
inductive Order where
  | rlx | acq | rel | ar
  deriving DecidableEq, Repr

def Order.ofCode (c : BitVec 2) : Order :=
  match c.toNat with | 0 => .rlx | 1 => .acq | 2 => .rel | _ => .ar

def Order.code (u : Order) : BitVec 2 := match u with | .rlx => 0 | .acq => 1 | .rel => 2 | .ar => 3

/-- Widths of a memory access (R96, R199); `rsv` is the reserved code 7. -/
inductive MWidth where
  | b8 | b16 | b32 | b64 | b128 | x2 | x4 | rsv
  deriving DecidableEq, Repr

def MWidth.ofCode (c : BitVec 3) : MWidth :=
  match c.toNat with
  | 0 => .b8 | 1 => .b16 | 2 => .b32 | 3 => .b64 | 4 => .b128 | 5 => .x2 | 6 => .x4 | _ => .rsv

def MWidth.code (u : MWidth) : BitVec 3 :=
  match u with
  | .b8 => 0 | .b16 => 1 | .b32 => 2 | .b64 => 3 | .b128 => 4 | .x2 => 5 | .x4 => 6 | .rsv => 7

/-- The specials of R14 and R89, in the order of their selectors. -/
inductive Special where
  | lane | sheaf | width | teamx | teamy | teamz | fieldx | fieldy | fieldz | core | die | part | ctx
  deriving DecidableEq, Repr

def Special.ofNum (n : Nat) : Special :=
  match n with
  | 0 => .lane | 1 => .sheaf | 2 => .width | 3 => .teamx | 4 => .teamy | 5 => .teamz
  | 6 => .fieldx | 7 => .fieldy | 8 => .fieldz | 9 => .core | 10 => .die | 11 => .part | _ => .ctx

def Special.num (s : Special) : Nat :=
  match s with
  | .lane => 0 | .sheaf => 1 | .width => 2 | .teamx => 3 | .teamy => 4 | .teamz => 5
  | .fieldx => 6 | .fieldy => 7 | .fieldz => 8 | .core => 9 | .die => 10 | .part => 11 | .ctx => 12

/-- A 10-bit operand selector (R88). A field an entry does not use holds `v 0`, selector 0. -/
inductive Sel where
  | v (n : BitVec 8)
  | s (n : BitVec 6)
  | l (n : BitVec 2)
  | q (n : BitVec 4)
  | c (n : BitVec 4)
  | p (n : BitVec 4)
  | imm
  | immF
  | special (k : Special)
  | rsv (raw : BitVec 10)
  deriving DecidableEq, Repr

/-- Is this 10-bit value one of R88's reserved selectors? -/
def selReserved (r : BitVec 10) : Bool :=
  let n := r.toNat
  (0x144 ≤ n && n < 0x150) || (0x182 ≤ n && n < 0x1C0) || 0x1CD ≤ n

/-- The operand a 10-bit value names (R88). -/
def Sel.ofBits (r : BitVec 10) : Sel :=
  let n := r.toNat
  if n < 0x100 then .v (BitVec.ofNat 8 n)
  else if n < 0x140 then .s (BitVec.ofNat 6 n)
  else if n < 0x144 then .l (BitVec.ofNat 2 n)
  else if n < 0x150 then .rsv r
  else if n < 0x160 then .q (BitVec.ofNat 4 n)
  else if n < 0x170 then .c (BitVec.ofNat 4 n)
  else if n < 0x180 then .p (BitVec.ofNat 4 n)
  else if n = 0x180 then .imm
  else if n = 0x181 then .immF
  else if n < 0x1C0 then .rsv r
  else if n < 0x1CD then .special (Special.ofNum (n - 0x1C0))
  else .rsv r

/-- The 10-bit value of a selector (R88). -/
def Sel.bits (x : Sel) : BitVec 10 :=
  match x with
  | .v n => BitVec.ofNat 10 n.toNat
  | .s n => BitVec.ofNat 10 (0x100 + n.toNat)
  | .l n => BitVec.ofNat 10 (0x140 + n.toNat)
  | .q n => BitVec.ofNat 10 (0x150 + n.toNat)
  | .c n => BitVec.ofNat 10 (0x160 + n.toNat)
  | .p n => BitVec.ofNat 10 (0x170 + n.toNat)
  | .imm => 0x180
  | .immF => 0x181
  | .special k => BitVec.ofNat 10 (0x1C0 + k.num)
  | .rsv r => r

/-- A selector field that holds 0. -/
def Sel.isZero (x : Sel) : Bool := x = .v 0

/-- Guard and the NW and CX bits (R83). -/
structure Hd where
  pg : BitVec 4
  pn : Bool
  nw : Bool
  cx : Bool
  deriving DecidableEq, Repr

/-- The selector fields and the immediate (R83). -/
structure Opn where
  d : Sel
  sa : Sel
  sb : Sel
  sc : Sel
  imm : W32
  deriving DecidableEq, Repr

/-- M of the floating-point class (R96). -/
structure FMod where
  ty : Ty
  uc : UClass
  rm : Rm
  deriving DecidableEq, Repr

/-- M of the integer class (R96). -/
structure IMod where
  ty : Ty
  sub : BitVec 3
  sat : Bool
  deriving DecidableEq, Repr

/-- M of the memory class (R96). -/
structure MMod where
  hi : Bool
  scope : Scope
  order : Order
  width : MWidth
  deriving DecidableEq, Repr

def FMod.ofBits (m : BitVec 8) : FMod :=
  ⟨Ty.ofCode (m.extractLsb' 4 4), UClass.ofCode (m.extractLsb' 2 2), Rm.ofCode (m.extractLsb' 0 2)⟩

def FMod.bits (m : FMod) : BitVec 8 := m.ty.code ++ m.uc.code ++ m.rm.code

def IMod.ofBits (m : BitVec 8) : IMod :=
  ⟨Ty.ofCode (m.extractLsb' 4 4), m.extractLsb' 1 3, m.getLsbD 0⟩

def IMod.bits (m : IMod) : BitVec 8 := m.ty.code ++ m.sub ++ BitVec.ofBool m.sat

def MMod.ofBits (m : BitVec 8) : MMod :=
  ⟨m.getLsbD 7, Scope.ofCode (m.extractLsb' 5 2), Order.ofCode (m.extractLsb' 3 2), MWidth.ofCode (m.extractLsb' 0 3)⟩

def MMod.bits (m : MMod) : BitVec 8 := BitVec.ofBool m.hi ++ m.scope.code ++ m.order.code ++ m.width.code

/-- What a peer asks of this device's memory (R235, R321): a line; a store of elements of `len` bytes with their bounds, on an ordered
channel or not (the sending device, its channel's key, the sequence number); an atomic with its operation, or a CAS. -/
inductive PeerReq where
  | load
  | store (len : Nat) (els : List (W64 × EB32)) (chan : Option (Nat × Nat × Nat))
  | atomic (op : BitVec 3) (ty : Ty) (x : W64) (bnd : EB32)
  | cas (ty : Ty) (cmp : W64) (x : W64) (bnd : EB32)
  deriving DecidableEq, Repr

/-- A flit as it comes to a port (R325, R329): the port and the flit's number in its sender's order. -/
structure FlitIn where
  port : Nat
  num : Nat
  deriving DecidableEq, Repr

/-- A port that has trained, with the neighbour it reaches (R326). -/
structure LinkEnd where
  port : Nat
  nbr : Nat
  deriving DecidableEq, Repr

/-- A device number that the fabric manager assigns, with the ports that lead to it (R320, R326). -/
structure Arrival where
  dev : Nat
  via : List Nat
  deriving DecidableEq, Repr

end Sys2Proof
end

