-- ==== Sys2Proof/Machine/Num.lean ====
section
/-! DEFINITION. Exact values, the number formats of R39, rounding (R46, R57) and the bound arithmetic of R50.
A number is exact (a rational) until a helper rounds it (R106). -/

namespace Sys2Proof.Machine

/-- 2 to an integer power. -/
def pow2 (e : Int) : Rat :=
  if 0 ≤ e then ((2 ^ e.toNat : Nat) : Rat) else mkRat 1 (2 ^ (-e).toNat)

/-- The exponent of the leading bit of a positive rational. -/
def ilog2 (q : Rat) : Int :=
  let e : Int := (Nat.log2 q.num.natAbs : Int) - (Nat.log2 q.den : Int)
  if pow2 e ≤ q then e else e - 1

/-- The integer part of a non-negative rational, and whether it is the whole of it. -/
def ratFloor (q : Rat) : Nat := q.num.toNat / q.den
def ratCeil (q : Rat) : Nat := (q.num.toNat + q.den - 1) / q.den

/-- A value of a floating-point format: a NaN, an infinity, or a sign and a magnitude. -/
inductive FVal where
  | nan
  | inf (neg : Bool)
  | fin (neg : Bool) (q : Rat)
  deriving DecidableEq, Repr

/-- The signed value of a finite number. -/
def FVal.rat (x : FVal) : Rat :=
  match x with
  | .fin n q => if n then -q else q
  | _ => 0

def FVal.isNan (x : FVal) : Bool := match x with | .nan => true | _ => false
def FVal.isInf (x : FVal) : Bool := match x with | .inf _ => true | _ => false
def FVal.isFin (x : FVal) : Bool := match x with | .fin _ _ => true | _ => false
def FVal.neg (x : FVal) : Bool := match x with | .nan => false | .inf n => n | .fin n _ => n
def FVal.flip (x : FVal) : FVal := match x with | .nan => .nan | .inf n => .inf (!n) | .fin n q => .fin (!n) q
def FVal.isZero (x : FVal) : Bool := match x with | .fin _ q => q = 0 | _ => false

/-- A signed rational as a value; zero is +0. -/
def FVal.ofRat (q : Rat) : FVal := if q < 0 then .fin true (-q) else .fin false q

/-- A floating-point format of R39. -/
structure Fmt where
  ebits : Nat
  fbits : Nat
  /-- has infinities -/
  hasInf : Bool := true
  /-- has a NaN -/
  hasNan : Bool := true
  deriving DecidableEq, Repr

def Fmt.f64 : Fmt := { ebits := 11, fbits := 52 }
def Fmt.f32 : Fmt := { ebits := 8, fbits := 23 }
def Fmt.f16 : Fmt := { ebits := 5, fbits := 10 }
def Fmt.bf16 : Fmt := { ebits := 8, fbits := 7 }
def Fmt.e4m3 : Fmt := { ebits := 4, fbits := 3, hasInf := false }
def Fmt.e5m2 : Fmt := { ebits := 5, fbits := 2 }
def Fmt.f6 : Fmt := { ebits := 3, fbits := 2, hasInf := false, hasNan := false }

def Fmt.bias (f : Fmt) : Int := 2 ^ (f.ebits - 1) - 1
def Fmt.emin (f : Fmt) : Int := 1 - f.bias
def Fmt.prec (f : Fmt) : Int := f.fbits + 1
/-- The largest finite magnitude (R39). -/
def Fmt.maxFin (f : Fmt) : Rat :=
  if f.hasInf then (2 - pow2 (-f.fbits)) * pow2 f.bias
  else if f.hasNan then (2 - pow2 (1 - f.fbits)) * pow2 (f.bias + 1)
  else (2 - pow2 (-f.fbits)) * pow2 (f.bias + 1)
/-- The canonical NaN (R39). -/
def Fmt.nanBits (f : Fmt) : Nat :=
  if f.hasInf then (2 ^ f.ebits - 1) * 2 ^ f.fbits + 2 ^ (f.fbits - 1)
  else if f.hasNan then (2 ^ f.ebits - 1) * 2 ^ f.fbits + (2 ^ f.fbits - 1) else 0

/-- The value an encoding stands for (R39). -/
def Fmt.decode (f : Fmt) (b : Nat) : FVal :=
  let s : Bool := b / 2 ^ (f.ebits + f.fbits) % 2 = 1
  let ex := b / 2 ^ f.fbits % 2 ^ f.ebits
  let fr := b % 2 ^ f.fbits
  if ex = 0 then .fin s ((fr : Rat) * pow2 (f.emin - f.fbits))
  else if ex = 2 ^ f.ebits - 1 ∧ f.hasInf then (if fr = 0 then .inf s else .nan)
  else if ex = 2 ^ f.ebits - 1 ∧ f.hasNan ∧ !f.hasInf ∧ fr = 2 ^ f.fbits - 1 then .nan
  else .fin s (((2 ^ f.fbits + fr : Nat) : Rat) * pow2 ((ex : Int) - f.bias - f.fbits))

/-- The sign bit's weight. -/
def Fmt.signBit (f : Fmt) (neg : Bool) : Nat := if neg then 2 ^ (f.ebits + f.fbits) else 0

/-- The encoding of a magnitude the format holds exactly. -/
def Fmt.encodeFin (f : Fmt) (neg : Bool) (q : Rat) : Nat :=
  if q = 0 then f.signBit neg
  else
    let e := max (ilog2 q) f.emin
    let m := ratFloor (q * pow2 (f.fbits - e))
    f.signBit neg + (if m < 2 ^ f.fbits then m else ((e - f.emin).toNat + 1) * 2 ^ f.fbits + (m - 2 ^ f.fbits))

/-- The encoding of a value the format holds. -/
def Fmt.encode (f : Fmt) (x : FVal) : Nat :=
  match x with
  | .nan => f.nanBits
  | .inf n => if f.hasInf then f.signBit n + (2 ^ f.ebits - 1) * 2 ^ f.fbits else f.encodeFin n f.maxFin
  | .fin n q => f.encodeFin n q

/-- Round a non-negative magnitude, of a number of sign `neg`, to an integer (R46). -/
def rndInt (rm : Rm) (neg : Bool) (q : Rat) : Nat :=
  let n := ratFloor q
  let fr := q - (n : Rat)
  let up := match rm with
    | .rn => decide (1 < fr * 2) || (decide (fr * 2 = 1) && n % 2 = 1)
    | .rz => false
    | .ru => !neg && decide (0 < fr)
    | .rd => neg && decide (0 < fr)
  if up then n + 1 else n

/-- A rounded result: its value in the format, whether it is exact, and whether the exact value exceeds the largest finite
magnitude (B-NAN of R59). -/
structure Rounded where
  val : FVal
  exact : Bool
  ovf : Bool
  deriving DecidableEq, Repr

/-- Round a finite exact value once to a format (R46), with R41's saturation where the format has no infinity. -/
def rndFin (f : Fmt) (rm : Rm) (neg : Bool) (q : Rat) : Rounded :=
  if q = 0 then ⟨.fin neg 0, true, false⟩
  else
    let e := max (ilog2 q) f.emin
    let r : Rat := ((rndInt rm neg (q * pow2 (f.fbits - e)) : Nat) : Rat) * pow2 (e - f.fbits)
    let ovf := decide (f.maxFin < q)
    if r ≤ f.maxFin then ⟨.fin neg r, decide (r = q), ovf⟩
    else
      let toInf := f.hasInf && (match rm with | .rn => true | .rz => false | .ru => !neg | .rd => neg)
      ⟨if toInf then .inf neg else .fin neg f.maxFin, false, true⟩

/-- Round any value to a format: infinities stay, or saturate where the format has none (R41); NaN is canonical (R40), +0 in a
format without one. -/
def rnd (f : Fmt) (rm : Rm) (x : FVal) : Rounded :=
  match x with
  | .nan => ⟨if f.hasNan then .nan else .fin false 0, false, true⟩
  | .inf n => if f.hasInf then ⟨.inf n, true, false⟩ else ⟨.fin n f.maxFin, false, true⟩
  | .fin n q => rndFin f rm n q

/-- E(r) of R57. -/
def Fmt.expOf (f : Fmt) (r : FVal) : Int :=
  match r with
  | .fin _ q => if q = 0 then f.emin else max (ilog2 q) f.emin
  | _ => f.emin

/-- ρ of a FULL result (R57). -/
def rhoFull (f : Fmt) (rm : Rm) (r : Rounded) : Rat :=
  if r.exact then 0
  else match rm with
    | .rn => pow2 (f.expOf r.val - f.prec)
    | _ => pow2 (f.expOf r.val - f.prec + 1)

/-! Extended non-negative reals, `none` being infinity, rounded up to 22 bits (R50). -/

abbrev X := Option Rat

/-- Round up to a 22-bit significand. -/
def up22 (q : Rat) : Rat :=
  if q = 0 then 0
  else
    let e := ilog2 q
    ((ratCeil (q * pow2 (21 - e)) : Nat) : Rat) * pow2 (e - 21)

/-- Round down to a 22-bit significand (R149: a divisor). -/
def dn22 (q : Rat) : Rat :=
  if q = 0 then 0
  else
    let e := ilog2 q
    ((ratFloor (q * pow2 (21 - e)) : Nat) : Rat) * pow2 (e - 21)

def xadd (a b : X) : X :=
  match a, b with
  | some p, some q => some (up22 (p + q))
  | _, _ => none

def xmul (a b : X) : X :=
  match a, b with
  | some p, some q => some (up22 (p * q))
  | some p, none => if p = 0 then some 0 else none
  | none, some q => if q = 0 then some 0 else none
  | none, none => none

/-- Quotient by a divisor already rounded down. -/
def xdiv (a b : X) : X :=
  match a, b with
  | some p, some q => if q = 0 then none else some (up22 (p / q))
  | some _, none => some 0
  | none, _ => none

/-- A difference used as a divisor, rounded down; infinity less a finite quantity is infinite. -/
def xsubDn (a b : X) : X :=
  match a, b with
  | some p, some q => some (dn22 (p - q))
  | _, _ => none

def xle (a b : X) : Bool :=
  match a, b with
  | some p, some q => decide (p ≤ q)
  | _, none => true
  | none, some _ => false

def xmax (a b : X) : X := if xle a b then b else a
def xmin (a b : X) : X := if xle a b then a else b

/-- An integer square root by Newton's iteration, rounded down. -/
def isqrtGo : Nat → Nat → Nat → Nat
  | 0, _, x => x
  | k + 1, n, x =>
    let y := (x + n / x) / 2
    if y < x then isqrtGo k n y else x

def isqrt (n : Nat) : Nat := if n = 0 then 0 else isqrtGo 2000 n (2 ^ (Nat.log2 n / 2 + 1))

/-- A square root to `k` binary places, with a half of the last place added where it is not exact, so that any
coarser rounding of it is a rounding of the true root. -/
def sqrtRat (k : Nat) (q : Rat) : Rat :=
  let n := ratFloor (q * pow2 (2 * k))
  let r := isqrt n
  if (r * r : Rat) = q * pow2 (2 * k) then (r : Rat) * pow2 (-k) else ((2 * r + 1 : Nat) : Rat) * pow2 (-(k : Int) - 1)

/-- A number of binary places that leaves at least 64 significant bits of the root of `q`. -/
def sqrtPlaces (q : Rat) : Nat := if q = 0 then 0 else (64 - ilog2 q / 2).toNat + 2

def xsqrt (a : X) : X := a.map (fun q => up22 (sqrtRat (sqrtPlaces q) q))
def xsqrtDn (a : X) : X := a.map (fun q => dn22 (sqrtRat (sqrtPlaces q) q))

/-- |x| as an operand of a bound rule: rounded up to 22 bits (R50 step 1). -/
def FVal.mag (x : FVal) : X :=
  match x with
  | .nan => some 0
  | .inf _ => none
  | .fin _ q => some (up22 q)

/-- |x| exactly. -/
def FVal.abs (x : FVal) : X :=
  match x with
  | .nan => some 0
  | .inf _ => none
  | .fin _ q => some q

end Sys2Proof.Machine
end

