-- ==== Sys2Proof/Machine/Fn.lean ====
section
/-! DEFINITION. The exact values of the special functions (R148), as rationals: exact where the value is rational, and
otherwise known to `Config.fnDigits` binary places with a half of the last place added, so that rounding the rational
once rounds the function value once (R146). -/

namespace Sys2Proof.Machine

/-- Fixed-point numbers of `fnDigits` binary places, as naturals. -/
def fxOne : Nat := 2 ^ Config.fnDigits

/-- A fixed-point number with a half of the last place added. -/
def fxSticky (n : Nat) : Rat := mkRat (2 * n + 1 : Nat) (2 * fxOne)

/-- ln((1+z)/(1-z))/2 by its series, z in fixed point, `pw` the current power. -/
def fxAtanhGo : Nat → Nat → Nat → Nat → Nat → Nat
  | 0, _, _, _, acc => acc
  | n + 1, z2, pw, k, acc => if pw = 0 then acc else fxAtanhGo n z2 (pw * z2 / fxOne) (k + 2) (acc + pw / k)

def fxAtanh (z : Nat) : Nat := fxAtanhGo 800 (z * z / fxOne) z 1 0

/-- ln 2 = 2·atanh(1/3). -/
def fxLn2 : Nat := 2 * fxAtanh (fxOne / 3)

/-- The exponential series, y in fixed point. -/
def fxExpGo : Nat → Nat → Nat → Nat → Nat → Nat
  | 0, _, _, _, acc => acc
  | n + 1, y, t, k, acc => if t = 0 then acc else fxExpGo n y (t * y / fxOne / k) (k + 1) (acc + t)

def fxExp (y : Nat) : Nat := fxExpGo 800 y fxOne 1 0

/-- A rational below 1 in fixed point. -/
def fxOf (q : Rat) : Nat := ratFloor (q * (fxOne : Rat))

/-- The floor of a signed rational. -/
def ratFloorZ (q : Rat) : Int := q.num / (q.den : Int)

/-- 2^x. UNVERIFIED (log 13). -/
def fnExp2 (x : Rat) : Rat :=
  let n := ratFloorZ x
  let f := x - (n : Rat)
  if f = 0 then pow2 n else fxSticky (fxExp (fxOf f * fxLn2 / fxOne)) * pow2 n

/-- log2 x for x > 0. -/
def fnLog2 (x : Rat) : Rat :=
  let e := ilog2 x
  let m := x * pow2 (-e)
  if m = 1 then (e : Rat) else (e : Rat) + fxSticky (2 * fxAtanh (fxOf ((m - 1) / (m + 1))) * fxOne / fxLn2)

/-- atan(1/n) by its alternating series. -/
def fxAtanGo : Nat → Nat → Nat → Nat → Bool → Int → Int
  | 0, _, _, _, _, acc => acc
  | k + 1, n2, pw, j, s, acc =>
    if pw = 0 then acc else fxAtanGo k n2 (pw / n2) (j + 2) (!s) (if s then acc - (pw / j : Nat) else acc + (pw / j : Nat))

def fxAtanInv (n : Nat) : Int := fxAtanGo 800 (n * n) (fxOne / n) 1 false 0

/-- π by Machin's formula. -/
def fxPi : Nat := (16 * fxAtanInv 5 - 4 * fxAtanInv 239).toNat

/-- sin(y)/y by its series, `y2` the square of y in fixed point. -/
def fxSincGo : Nat → Nat → Nat → Nat → Bool → Int → Int
  | 0, _, _, _, _, acc => acc
  | n + 1, y2, t, k, s, acc =>
    if t = 0 then acc
    else fxSincGo n y2 (t * y2 / fxOne / ((k + 1) * (k + 2))) (k + 2) (!s) (if s then acc - (t : Int) else acc + (t : Int))

/-- sin(πu) for 0 < u < 1/2, relative to u. -/
def fnSinSmall (u : Rat) : Rat :=
  let y := fxPi * fxOf u / fxOne
  u * mkRat fxPi fxOne * fxSticky (fxSincGo 400 (y * y / fxOne) fxOne 1 false 0).toNat

/-- sin(πx) for a magnitude x: sign and magnitude; zero where x is an integer. -/
def fnSinPi (x : Rat) : Bool × Rat :=
  let u := x - 2 * ((ratFloor (x / 2) : Nat) : Rat)
  let neg := decide (1 < u)
  let v := if 1 ≤ u then u - 1 else u
  let w := if mkRat 1 2 < v then 1 - v else v
  if w = 0 then (false, 0) else if w = mkRat 1 2 then (neg, 1) else (neg, fnSinSmall w)

/-- cos(πx) for a magnitude x. For w below 2^-100 the cosine is 1 less a positive amount below
2^-190, which every format rounds as it rounds 1 less w²; above it the series is known to far more places than 1 less the cosine needs. -/
def fnCosPi (x : Rat) : Bool × Rat :=
  let u := x - 2 * ((ratFloor (x / 2) : Nat) : Rat)
  let v := if 1 < u then 2 - u else u
  let neg := decide (mkRat 1 2 < v)
  let w := if mkRat 1 2 < v then 1 - v else v
  if w = 0 then (neg, 1) else if w = mkRat 1 2 then (false, 0)
  else if w < pow2 (-100) then (neg, 1 - w * w) else (neg, fnSinSmall (mkRat 1 2 - w))

/-- √x: exact where the root is rational. -/
def fnSqrt (x : Rat) : Rat := sqrtRat ((256 - ilog2 x / 2).toNat + 2) x

end Sys2Proof.Machine
end

