-- ==== Sys2Proof/Syntax.lean ====
section
/-! DEFINITION. The instructions and events of the Z9: one constructor per row of the opcode table.
An encoded instruction carries the guard and flag bits, the selector fields with the immediate, and its M byte read
under its opcode's class (R83, R96, R98). An event of the device carries what its occurrence fixes. -/

namespace Sys2Proof

inductive Instr where
  | nop (h : Hd) (o : Opn) (m : BitVec 8)
  | bra (h : Hd) (o : Opn) (m : BitVec 8)
  | jmp (h : Hd) (o : Opn) (m : BitVec 8)
  | jmpr (h : Hd) (o : Opn) (m : BitVec 8)
  | call (h : Hd) (o : Opn) (m : BitVec 8)
  | ret (h : Hd) (o : Opn) (m : BitVec 8)
  | exit (h : Hd) (o : Opn) (m : BitVec 8)
  | brd (h : Hd) (o : Opn) (m : BitVec 8)
  | safept (h : Hd) (o : Opn) (m : BitVec 8)
  | yield (h : Hd) (o : Opn) (m : BitVec 8)
  | cclose (h : Hd) (o : Opn) (m : BitVec 8)
  | iadd (h : Hd) (o : Opn) (m : IMod)
  | isub (h : Hd) (o : Opn) (m : IMod)
  | imul (h : Hd) (o : Opn) (m : IMod)
  | imulh (h : Hd) (o : Opn) (m : IMod)
  | imad (h : Hd) (o : Opn) (m : IMod)
  | imin (h : Hd) (o : Opn) (m : IMod)
  | imax (h : Hd) (o : Opn) (m : IMod)
  | iabs (h : Hd) (o : Opn) (m : IMod)
  | bitAnd (h : Hd) (o : Opn) (m : IMod)
  | bitOr (h : Hd) (o : Opn) (m : IMod)
  | bitXor (h : Hd) (o : Opn) (m : IMod)
  | bitNot (h : Hd) (o : Opn) (m : IMod)
  | shl (h : Hd) (o : Opn) (m : IMod)
  | shr (h : Hd) (o : Opn) (m : IMod)
  | sar (h : Hd) (o : Opn) (m : IMod)
  | bfe (h : Hd) (o : Opn) (m : IMod)
  | bfi (h : Hd) (o : Opn) (m : IMod)
  | popc (h : Hd) (o : Opn) (m : IMod)
  | clz (h : Hd) (o : Opn) (m : IMod)
  | brev (h : Hd) (o : Opn) (m : IMod)
  | isetp (h : Hd) (o : Opn) (m : IMod)
  | sel (h : Hd) (o : Opn) (m : IMod)
  | mov (h : Hd) (o : Opn) (m : IMod)
  | movi (h : Hd) (o : Opn) (m : IMod)
  | lea (h : Hd) (o : Opn) (m : IMod)
  | plop (h : Hd) (o : Opn) (m : BitVec 8)
  | pmov (h : Hd) (o : Opn) (m : BitVec 8)
  | vote (h : Hd) (o : Opn) (m : BitVec 8)
  | shfl (h : Hd) (o : Opn) (m : BitVec 8)
  | rdlane (h : Hd) (o : Opn) (m : BitVec 8)
  | wrlane (h : Hd) (o : Opn) (m : BitVec 8)
  | sredux (h : Hd) (o : Opn) (m : BitVec 8)
  | matchLanes (h : Hd) (o : Opn) (m : BitVec 8)
  | fadd (h : Hd) (o : Opn) (m : FMod)
  | fsub (h : Hd) (o : Opn) (m : FMod)
  | fmul (h : Hd) (o : Opn) (m : FMod)
  | ffma (h : Hd) (o : Opn) (m : FMod)
  | fmin (h : Hd) (o : Opn) (m : FMod)
  | fmax (h : Hd) (o : Opn) (m : FMod)
  | fsetp (h : Hd) (o : Opn) (m : FMod)
  | fclass (h : Hd) (o : Opn) (m : FMod)
  | frcp (h : Hd) (o : Opn) (m : FMod)
  | frsq (h : Hd) (o : Opn) (m : FMod)
  | fsqrt (h : Hd) (o : Opn) (m : FMod)
  | fdiv (h : Hd) (o : Opn) (m : FMod)
  | fexp2 (h : Hd) (o : Opn) (m : FMod)
  | flog2 (h : Hd) (o : Opn) (m : FMod)
  | fsinpi (h : Hd) (o : Opn) (m : FMod)
  | fcospi (h : Hd) (o : Opn) (m : FMod)
  | cvt (h : Hd) (o : Opn) (m : FMod)
  | cvtq (h : Hd) (o : Opn) (m : FMod)
  | pack (h : Hd) (o : Opn) (m : FMod)
  | unpk (h : Hd) (o : Opn) (m : FMod)
  | qdeq (h : Hd) (o : Opn) (m : FMod)
  | dot2 (h : Hd) (o : Opn) (m : FMod)
  | dot4 (h : Hd) (o : Opn) (m : FMod)
  | f6join (h : Hd) (o : Opn) (m : FMod)
  | frnd (h : Hd) (o : Opn) (m : FMod)
  | fscl (h : Hd) (o : Opn) (m : FMod)
  | bget (h : Hd) (o : Opn) (m : BitVec 8)
  | bset (h : Hd) (o : Opn) (m : BitVec 8)
  | badd (h : Hd) (o : Opn) (m : BitVec 8)
  | bmax (h : Hd) (o : Opn) (m : BitVec 8)
  | bchk (h : Hd) (o : Opn) (m : BitVec 8)
  | bclr (h : Hd) (o : Opn) (m : BitVec 8)
  | bmode (h : Hd) (o : Opn) (m : BitVec 8)
  | ld (h : Hd) (o : Opn) (m : MMod)
  | st (h : Hd) (o : Opn) (m : MMod)
  | lds (h : Hd) (o : Opn) (m : MMod)
  | sts (h : Hd) (o : Opn) (m : MMod)
  | ldf (h : Hd) (o : Opn) (m : MMod)
  | ste (h : Hd) (o : Opn) (m : MMod)
  | feset (h : Hd) (o : Opn) (m : MMod)
  | ldk (h : Hd) (o : Opn) (m : MMod)
  | pref (h : Hd) (o : Opn) (m : MMod)
  | atom (h : Hd) (o : Opn) (m : MMod)
  | cas (h : Hd) (o : Opn) (m : MMod)
  | red (h : Hd) (o : Opn) (m : MMod)
  | fence (h : Hd) (o : Opn) (m : MMod)
  | sealRegion (h : Hd) (o : Opn) (m : MMod)
  | unsealRegion (h : Hd) (o : Opn) (m : MMod)
  | hint (h : Hd) (o : Opn) (m : MMod)
  | waita (h : Hd) (o : Opn) (m : MMod)
  | bari (h : Hd) (o : Opn) (m : BitVec 8)
  | bara (h : Hd) (o : Opn) (m : BitVec 8)
  | barw (h : Hd) (o : Opn) (m : BitVec 8)
  | barq (h : Hd) (o : Opn) (m : BitVec 8)
  | xacq (h : Hd) (o : Opn) (m : BitVec 8)
  | xrel (h : Hd) (o : Opn) (m : BitVec 8)
  | lnch (h : Hd) (o : Opn) (m : BitVec 8)
  | qbind (h : Hd) (o : Opn) (m : BitVec 8)
  | qstat (h : Hd) (o : Opn) (m : BitVec 8)
  | mma (h : Hd) (o : Opn) (m : BitVec 8)
  | mzero (h : Hd) (o : Opn) (m : BitVec 8)
  | mload (h : Hd) (o : Opn) (m : BitVec 8)
  | mdrain (h : Hd) (o : Opn) (m : BitVec 8)
  | gath (h : Hd) (o : Opn) (m : BitVec 8)
  | spcmp (h : Hd) (o : Opn) (m : BitVec 8)
  | cpy (h : Hd) (o : Opn) (m : BitVec 8)
  | cpym (h : Hd) (o : Opn) (m : BitVec 8)
  | wtc (h : Hd) (o : Opn) (m : BitVec 8)
  | wto (h : Hd) (o : Opn) (m : BitVec 8)
  | trap (h : Hd) (o : Opn) (m : BitVec 8)
  | eret (h : Hd) (o : Opn) (m : BitVec 8)
  | srd (h : Hd) (o : Opn) (m : BitVec 8)
  | swr (h : Hd) (o : Opn) (m : BitVec 8)
  | clk (h : Hd) (o : Opn) (m : BitVec 8)
  | bkpt (h : Hd) (o : Opn) (m : BitVec 8)
  | sleep (h : Hd) (o : Opn) (m : BitVec 8)
  /-- QUADRANT_ISSUE: one cycle of quadrant `quad` of core `core` (core numbers are 72·die + R7's number). -/
  | quadrantIssue (core : Nat) (quad : Nat)
  /-- NW_LOCK_EXPIRE: the lock of R94 ends. -/
  | nwLockExpire (core : Nat) (quad : Nat)
  /-- LINE_REFETCH: the line at virtual line address `line` is dropped and fetched once more (R77). -/
  | lineRefetch (core : Nat) (line : Nat)
  /-- PAGE_WALK: a walk of the page tables of `ctx` for `va`. -/
  | pageWalk (ctx : Nat) (va : Nat)
  /-- COMMIT_ROUND: one round of the root reeve. -/
  | commitRound
  /-- PRIORITY_TOKEN_TAKE: a chunk squashed four times takes its die's token. -/
  | priorityTokenTake (sheaf : Nat)
  /-- BOUNDARY_PERFORM: the pending boundary instruction of a sheaf is performed. -/
  | boundaryPerform (sheaf : Nat)
  /-- POD_RELEASE: the pending release of a sheaf is performed. -/
  | podRelease (sheaf : Nat)
  /-- ACCESS_COMPLETION: a remote or system access completes. -/
  | accessCompletion (id : Nat)
  /-- LDF_COMPLETE: a waiting LDF lane is tried. -/
  | ldfComplete (sheaf : Nat) (lane : Nat)
  /-- STE_COMPLETE: a waiting STE lane is tried. -/
  | steComplete (sheaf : Nat) (lane : Nat)
  /-- WAITA_COMPLETE: a waiting WAITA lane whose word was changed is tested. -/
  | waitaComplete (sheaf : Nat) (lane : Nat)
  /-- WAITA_POLL: the waiting WAITA lanes on remote and system words are tested. -/
  | waitaPoll (sheaf : Nat)
  /-- XACQ_GRANT: the oldest waiting XACQ of a reservation is served. -/
  | xacqGrant (team : Nat) (quad : Nat)
  /-- COUNTER_WAIT_WAKE: the counter waits of a sheaf are tested. -/
  | counterWaitWake (sheaf : Nat)
  /-- QUEUE_POP_WAKE: the queue waits of a sheaf are tested. -/
  | queuePopWake (sheaf : Nat)
  /-- SLEEP_EXPIRE: a sleeping lane's cycles have passed. -/
  | sleepExpire (sheaf : Nat) (lane : Nat)
  /-- YIELD_EXPIRE: a yielding sheaf's cycles have passed. -/
  | yieldExpire (sheaf : Nat)
  /-- MMA_PERFORM: the matrix engine performs an MMA. -/
  | mmaPerform (team : Nat) (cmd : Nat)
  /-- TILE_FILL_PERFORM: the matrix engine performs an MZERO or an MLOAD. -/
  | tileFillPerform (team : Nat) (cmd : Nat)
  /-- MDRAIN_PERFORM: the matrix engine performs an MDRAIN. -/
  | mdrainPerform (team : Nat) (cmd : Nat)
  /-- ENGINE_QUEUE_PUSH: an engine pushes one entry to a sheaf's endpoint. -/
  | engineQueuePush (team : Nat) (cmd : Nat)
  /-- COPY_PERFORM: the copy engine performs a CPY. -/
  | copyPerform (team : Nat) (cmd : Nat)
  /-- CPYM_MMA_ISSUE: a CPYM's copy has landed and its MMA is issued. -/
  | cpymMmaIssue (team : Nat) (cmd : Nat)
  /-- GATHER_PERFORM: the gather unit performs a GATH. -/
  | gatherPerform (team : Nat) (cmd : Nat)
  /-- HANDLER_ENTRY: a sheaf whose prefix has committed enters its handler. -/
  | handlerEntry (sheaf : Nat)
  /-- TEAM_SWAP_OUT: a team whose fault was PAGE leaves its core. -/
  | teamSwapOut (team : Nat)
  /-- TRESUME_WRITE: a write of TRESUME. -/
  | tresumeWrite (val : W64)
  /-- PREEMPT_REQUEST: the launch unit asks a team to pre-empt. -/
  | preemptRequest (team : Nat)
  /-- SAVE_ROUTINE_START: the parked sheaves of a team start their save routines. -/
  | saveRoutineStart (team : Nat)
  /-- TEAM_SUSPEND: a team whose save routines have ended is suspended. -/
  | teamSuspend (team : Nat)
  /-- TEAM_PLACE: the distributor places a team on a core, or on a pair named by its even core. -/
  | teamPlace (team : Nat) (core : Nat)
  /-- SHEAF_END: a sheaf whose lanes have exited and whose chunks have committed ends. -/
  | sheafEnd (sheaf : Nat)
  /-- TEAM_END: a team ends. -/
  | teamEnd (team : Nat)
  /-- DOORBELL: a write of `size` bytes at offset `off` of the doorbell aperture. -/
  | doorbell (off : Nat) (size : Nat) (val : W64)
  /-- QD0_WRITE: a write of QD0 of a queue. -/
  | qd0Write (q : Nat) (val : W64)
  /-- QD1_WRITE: a write of QD1 of a queue. -/
  | qd1Write (q : Nat) (val : W64)
  /-- KERNEL: the launch unit takes the KERNEL packet at the head of a queue. -/
  | kernelPkt (q : Nat)
  /-- WAIT: the launch unit takes the WAIT packet at the head of a queue. -/
  | waitPkt (q : Nat)
  /-- WAIT_POLL: the word of a waiting packet is tested again. -/
  | waitPoll (q : Nat)
  /-- SIGNAL: the launch unit takes the SIGNAL packet at the head of a queue. -/
  | signalPkt (q : Nat)
  /-- CHILD_PACKET_READ: the launch unit reads the oldest released child's packet of a partition. -/
  | childPacketRead (part : Nat)
  /-- TLBICMD: a write of TLBICMD. -/
  | tlbicmd (val : W64)
  /-- TLB_INVALIDATE_DONE: the invalidation under way completes. -/
  | tlbInvalidateDone
  /-- PARTCFG: a write of PARTCFG. -/
  | partcfg (val : W64)
  /-- PARTSW: a write of PARTSWp. -/
  | partsw (p : Nat) (val : W64)
  /-- PARTITION_SWITCH_DONE: the switch of a partition completes. -/
  | partitionSwitchDone (p : Nat)
  /-- GO: DEVCMD with OP GO. -/
  | go
  /-- RESET: DEVCMD with OP RESET. -/
  | reset
  /-- QUIESCE: DEVCMD with OP QUIESCE. -/
  | quiesce
  /-- COLD_RESET: PERST# on the host link. -/
  | coldReset
  /-- BRINGUP_PHASE_DONE: the phase ends; `absent` are the dies whose links failed, `fail` a failure code or 0. -/
  | bringupPhaseDone (absent : Byte) (fail : Byte)
  /-- REGISTER_WRITE: an aligned 8-byte write of the register aperture. -/
  | registerWrite (off : Nat) (val : W64)
  /-- TELEMETRY_CLEAR: a write of a telemetry counter. -/
  | telemetryClear (k : Nat)
  /-- PWRLIM: a write of PWRLIM. -/
  | pwrlim (val : W64)
  /-- POWER_CONTROL_TICK: one millisecond of the power controller with the power measured, in W and mW, and the temperature. -/
  | powerControlTick (inst : Nat) (milli : Nat) (temp : Nat)
  /-- PORTSTAT: a write of PORTSTAT of a port. -/
  | portstat (p : Nat) (val : W64)
  /-- KEYCMD: a write of KEYCMD of a port. -/
  | keycmd (p : Nat) (val : W64)
  /-- KEY_SLOT_WRITE: a write of one word of a key slot. -/
  | keySlotWrite (p : Nat) (rx : Bool) (idx : Nat) (word : Nat) (val : W64)
  /-- FLIT_RECEIVE: a flit arrives at a port. -/
  | flitReceive (p : FlitIn) (key : Nat) (crcOk : Bool) (tagOk : Bool)
  /-- FLIT_REPLAY: a port replays its unacknowledged flits. -/
  | flitReplay (p : Nat)
  /-- FLIT_ACK: the neighbour acknowledges the oldest flit of a port. -/
  | flitAck (p : Nat)
  /-- LANE_FAIL: a lane of a port fails. -/
  | laneFail (p : Nat) (lane : Nat)
  /-- LINK_UP: a port trains. -/
  | linkUp (p : LinkEnd)
  /-- PEER_DEPART: a device number departs. -/
  | peerDepart (dev : Nat)
  /-- PEER_ARRIVE: a device number arrives. -/
  | peerArrive (dev : Arrival)
  /-- PEER_REQUEST: a peer's load, store or atomic on this device's memory. -/
  | peerRequest (pa : Nat) (req : PeerReq)
  /-- RED_GROUP_APPLY: a combined group of a reduction window reaches this device. -/
  | redGroupApply (pa : Nat) (op : BitVec 3) (ty : Ty) (x : W64) (bnd : EB32)
  /-- REMOTE_TIMEOUT: a remote access is not answered within 2 ms. -/
  | remoteTimeout (id : Nat)
  /-- SYSTEM_ACCESS_TIMEOUT: a system access gets no completion within 50 ms. -/
  | systemAccessTimeout (id : Nat)
  /-- HOST_READ: a CXL.mem read by the host. -/
  | hostRead (pa : Nat) (size : Nat)
  /-- HOST_WRITE: a CXL.mem write by the host, or a write of host or pool memory by its owner. -/
  | hostWrite (pa : Nat) (bytes : List Byte) (poison : Bool)
  /-- HOST_SNOOP: the host takes back a line this device holds. -/
  | hostSnoop (pa : Nat)
  /-- BACK_INVALIDATE: a pool takes back a line this device holds. -/
  | backInvalidate (pa : Nat)
  /-- SOFT_ERROR: an error that ECC or parity meets, at a numbered kind of place (R72, R73, R306). -/
  | softError (site : Nat) (a : Nat) (b : Nat) (c : Nat)
  /-- DIE_LOSS: a compute die is lost. -/
  | dieLoss (d : Nat)
  /-- LINE_EVICTION: a held line leaves the die L2. -/
  | lineEviction (key : Nat)
  /-- PREEMPTION_LIMIT_EXPIRE: a team did not park within the limit. -/
  | preemptionLimitExpire (team : Nat)
  deriving DecidableEq, Repr

end Sys2Proof
end

