-- ==== Sys2Proof/WellFormed.lean ====
section
/-! DEFINITION. What the instruction word must satisfy before anything of the state is looked at: check 3 of R87, that is
R85 and R86 with the reserved M and IMM values of every entry. An instruction that is not well-formed traps ILLOP. -/

namespace Sys2Proof

/-- How an entry uses IMM. -/
inductive ImmUse where
  | no                      -- the entry does not use IMM
  | sel                     -- IMM is used when a source selects 0x180 or 0x181
  | own (ok : Bool)         -- the entry's own fields; `ok` says they hold no reserved value
  deriving DecidableEq, Repr

/-- What an entry uses, and the conditions of R86 on it. -/
structure Use where
  d : Bool := false
  sa : Bool := false
  sb : Bool := false
  sc : Bool := false
  imm : ImmUse := .no
  /-- writes a vector or scalar destination through D (R86) -/
  prod : Bool := false
  /-- a closing instruction (R221) -/
  closing : Bool := false
  /-- requires PG = 15 and PN = 0 -/
  noGuard : Bool := false
  /-- the M byte and the other fields hold no reserved value -/
  ok : Bool := true

/-- Is a selector one of the two immediates? -/
def Sel.isImm (x : Sel) : Bool := x = .imm || x = .immF

/-- R85 and R86 over what an entry uses. -/
def wordOk (h : Hd) (o : Opn) (u : Use) : Bool :=
  (u.d || o.d.isZero) && (u.sa || o.sa.isZero) && (u.sb || o.sb.isZero) && (u.sc || o.sc.isZero)
  && (match u.imm with
      | .no => o.imm = 0
      | .sel => (u.sa && o.sa.isImm) || (u.sb && o.sb.isImm) || (u.sc && o.sc.isImm) || o.imm = 0
      | .own ok => ok)
  && !(h.pg = 15 && h.pn)
  && (!h.nw || (u.prod && !u.closing && !h.cx))
  && (!u.noGuard || (h.pg = 15 && !h.pn))
  && u.ok

/-- Bits [hi:lo] of IMM as a number. -/
def immBits (o : Opn) (hi lo : Nat) : Nat := o.imm.toNat / 2 ^ lo % 2 ^ (hi + 1 - lo)

/-- Every bit of an M byte outside `mask` is 0. -/
def mOnly (m : BitVec 8) (mask : BitVec 8) : Bool := m &&& ~~~mask = 0

def Ty.isIn (t : Ty) (l : List Ty) : Bool := l.contains t

def tInt : List Ty := [.i32, .n32, .i64, .n64]
def tInt8 : List Ty := [.i32, .n32, .i64, .n64, .i8x4, .n8x4]
def tFlt : List Ty := [.f32, .f64, .f16x2, .bf16x2]
def tF : List Ty := [.f32, .f64]
def tNum : List Ty := [.i32, .n32, .i64, .n64, .f32, .f64]
def tNarrow : List Ty := [.f16x2, .bf16x2, .e4m3x4, .e5m2x4, .i8x4, .n8x4]

/-- Elements of a packed format (R42). -/
def Ty.elems (t : Ty) : Nat :=
  match t with
  | .f16x2 | .bf16x2 => 2
  | .e4m3x4 | .e5m2x4 | .i8x4 | .n8x4 => 4
  | .q4nx8 => 8
  | _ => 1

/-- The type code held in IMM bits [lo+3:lo]. -/
def immTy (o : Opn) (lo : Nat) : Ty := Ty.ofCode (BitVec.ofNat 4 (immBits o (lo + 3) lo))

/-- Integer class (R118): the types admitted, whether SAT is admitted, the subfield condition. -/
def intUse (m : IMod) (tys : List Ty) (sat : Bool) (sub : Bool) (u : Use) : Use :=
  { u with imm := .sel, prod := true, ok := u.ok && m.ty.isIn tys && (sat || !m.sat) && sub }

/-- Floating-point class (R138): the types admitted and whether the entry rounds. -/
def fltUse (m : FMod) (tys : List Ty) (rounds : Bool) (u : Use) : Use :=
  { u with prod := true, ok := u.ok && m.ty.isIn tys && m.uc ≠ .rsv && (rounds || (m.uc = .auto && m.rm = .rn)) }

/-- The address fields of R196. `sbOther`: the entry uses SB for something else than an index (XI must be 0).
`base`: the form `[s + ofs]`, XB must be 1 and XI 0. `aux` says the AUX field is well-formed. -/
def memUse (o : Opn) (m : MMod) (base sbOther aux : Bool) (orders : List Order) (anyScope : Bool)
    (u : Use) : Use :=
  let xb := o.imm.getLsbD 27
  let xi := o.imm.getLsbD 28
  let scl := immBits o 31 29
  { u with
    sa := xb
    sb := sbOther || xi
    imm := .own (decide (scl ≤ 4) && (xi || scl = 0) && aux && (!base || (xb && !xi)))
    ok := u.ok && m.scope ≠ .rsv && m.width ≠ .rsv && orders.contains m.order && (anyScope || m.scope = .dev) }

/-- The width an atomic's or a wait's type asks for (R210). -/
def tyWidth (t : Ty) : MWidth := if t.is64 then .b64 else .b32

/-- MMA and CPYM (R252, R254, R255, R267). -/
def mmaUse (o : Opn) (m : BitVec 8) (cpym : Bool) : Use :=
  let ty := Ty.ofCode (m.extractLsb' 4 4)
  let isInt := ty = .i8x4 || ty = .n8x4
  let scaled := o.imm.getLsbD 16
  let ga := o.imm.getLsbD 17
  { sa := !ga, sb := true, sc := scaled, noGuard := true
    imm := .own (immBits o 31 28 = 0 && (scaled || (immBits o 15 10 = 0 && immBits o 9 8 = 0))
      && !(cpym && ga) && !(ga && ty = .f6hi)
      && (if ty = .q4nx8 then scaled && immBits o 9 8 ≠ 3 else !scaled || ty = .e4m3x4 || ty = .e5m2x4))
    ok := ty.isIn [.bf16x2, .e4m3x4, .e5m2x4, .f6hi, .q4nx8, .i8x4, .n8x4, .f64]
      && m.extractLsb' 2 2 ≠ 3 && (!isInt || m.extractLsb' 2 2 = 0) && (isInt || !m.getLsbD 1) }

/-- M of SREDUX (R136). -/
def sreduxOk (m : BitVec 8) : Bool :=
  let ty := Ty.ofCode (m.extractLsb' 4 4)
  let op := m.extractLsb' 2 2
  ty.isIn tNum && op ≠ 3 && ((ty.isIn tF && op = 0) || m.extractLsb' 0 2 = 0)

/-- What each entry uses (the field tables of the reference chapters). Events have no word. -/
def Instr.use (i : Instr) : Option (Hd × Opn × Use) :=
  match i with
  | .nop h o m => some (h, o, { ok := m = 0 })
  | .bra h o m => some (h, o, { imm := .own true, ok := m = 0 })
  | .jmp h o m => some (h, o, { sa := true, ok := m = 0 })
  | .jmpr h o m => some (h, o, { sa := true, ok := m = 0 })
  | .call h o m => some (h, o, { d := true, imm := .own true, prod := true, ok := m = 0 })
  | .ret h o m => some (h, o, { sa := true, ok := m = 0 })
  | .exit h o m => some (h, o, { closing := true, ok := m = 0 })
  | .brd h o m => some (h, o, { imm := .own true, ok := m = 0 && !h.pn })
  | .safept h o m => some (h, o, { closing := true, noGuard := true, ok := m = 0 })
  | .yield h o m => some (h, o, { imm := .own (immBits o 31 8 = 0), noGuard := true, ok := m = 0 })
  | .cclose h o m => some (h, o, { closing := true, noGuard := true, ok := m = 0 })
  | .iadd h o m => some (h, o, intUse m tInt8 true (m.sub = 0) { d := true, sa := true, sb := true })
  | .isub h o m => some (h, o, intUse m tInt8 true (m.sub = 0) { d := true, sa := true, sb := true })
  | .imul h o m => some (h, o, intUse m tInt true (m.sub = 0) { d := true, sa := true, sb := true })
  | .imulh h o m => some (h, o, intUse m tInt false (m.sub = 0) { d := true, sa := true, sb := true })
  | .imad h o m => some (h, o, intUse m tInt true (m.sub = 0) { d := true, sa := true, sb := true, sc := true })
  | .imin h o m => some (h, o, intUse m tInt8 false (m.sub = 0) { d := true, sa := true, sb := true })
  | .imax h o m => some (h, o, intUse m tInt8 false (m.sub = 0) { d := true, sa := true, sb := true })
  | .iabs h o m => some (h, o, intUse m [.i32, .i64, .i8x4] true (m.sub = 0) { d := true, sa := true })
  | .bitAnd h o m => some (h, o, intUse m tInt false (m.sub = 0) { d := true, sa := true, sb := true })
  | .bitOr h o m => some (h, o, intUse m tInt false (m.sub = 0) { d := true, sa := true, sb := true })
  | .bitXor h o m => some (h, o, intUse m tInt false (m.sub = 0) { d := true, sa := true, sb := true })
  | .bitNot h o m => some (h, o, intUse m tInt false (m.sub = 0) { d := true, sa := true })
  | .shl h o m => some (h, o, intUse m tInt false (m.sub = 0) { d := true, sa := true, sb := true })
  | .shr h o m => some (h, o, intUse m tInt false (m.sub = 0) { d := true, sa := true, sb := true })
  | .sar h o m => some (h, o, intUse m tInt false (m.sub = 0) { d := true, sa := true, sb := true })
  | .bfe h o m => some (h, o, intUse m tInt false (m.sub = 0) { d := true, sa := true, sb := true })
  | .bfi h o m => some (h, o, intUse m tInt false (m.sub = 0) { d := true, sa := true, sb := true, sc := true })
  | .popc h o m => some (h, o, intUse m tInt false (m.sub = 0) { d := true, sa := true })
  | .clz h o m => some (h, o, intUse m tInt false (m.sub = 0) { d := true, sa := true })
  | .brev h o m => some (h, o, intUse m tInt false (m.sub = 0) { d := true, sa := true })
  | .isetp h o m => some (h, o, { (intUse m tInt false (decide (m.sub.toNat ≤ 5)) { d := true, sa := true, sb := true }) with prod := false })
  | .sel h o m => some (h, o, { d := true, sa := true, sb := true, sc := true, imm := .sel, prod := true, ok := m.sub = 0 && !m.sat })
  | .mov h o m => some (h, o, { d := true, sa := true, imm := .sel, prod := true, ok := m.sub = 0 && !m.sat })
  | .movi h o m => some (h, o, { d := true, imm := .own true, prod := true, ok := m.ty ≠ .f6hi && m.ty ≠ .f6lo && !m.sat && (m.sub = 0 || (m.sub = 1 && m.ty.is64)) })
  | .lea h o m => some (h, o, { d := true, sa := true, sb := true, imm := .own true, prod := true, ok := m.ty.isIn tInt && decide (m.sub.toNat ≤ 4) && !m.sat })
  | .plop h o _ => some (h, o, { d := true, sa := true, sb := true, sc := true })
  | .pmov h o m => some (h, o, { d := true, sa := true, prod := m = 1, ok := decide (m.toNat < 3) })
  | .vote h o m => some (h, o, { d := true, sa := true, prod := m = 3, ok := decide (m.toNat < 4) })
  | .shfl h o m => some (h, o, { d := true, sa := true, sb := true, sc := m.getLsbD 2, imm := .sel, prod := true, ok := mOnly m 0x0F })
  | .rdlane h o m => some (h, o, { d := true, sa := true, sb := true, imm := .sel, prod := true, ok := mOnly m 8 })
  | .wrlane h o m => some (h, o, { d := true, sa := true, sb := true, imm := .sel, prod := true, ok := mOnly m 8 })
  | .sredux h o m => some (h, o, { d := true, sa := true, imm := .sel, prod := true, ok := sreduxOk m })
  | .matchLanes h o m => some (h, o, { d := true, sa := true, imm := .sel, prod := true, ok := mOnly m 8 })
  | .fadd h o m => some (h, o, fltUse m tFlt true { d := true, sa := true, sb := true, imm := .sel })
  | .fsub h o m => some (h, o, fltUse m tFlt true { d := true, sa := true, sb := true, imm := .sel })
  | .fmul h o m => some (h, o, fltUse m tFlt true { d := true, sa := true, sb := true, imm := .sel })
  | .ffma h o m => some (h, o, fltUse m tFlt true { d := true, sa := true, sb := true, sc := true, imm := .sel })
  | .fmin h o m => some (h, o, fltUse m tFlt false { d := true, sa := true, sb := true, imm := .sel })
  | .fmax h o m => some (h, o, fltUse m tFlt false { d := true, sa := true, sb := true, imm := .sel })
  | .fsetp h o m => some (h, o, { d := true, sa := true, sb := true, imm := .sel, ok := m.ty.isIn tF && (m.uc = .auto || m.uc = .full) })
  | .fclass h o m => some (h, o, fltUse m tF false { d := true, sa := true, imm := .sel })
  | .frcp h o m => some (h, o, fltUse m tF true { d := true, sa := true, imm := .sel })
  | .frsq h o m => some (h, o, fltUse m tF true { d := true, sa := true, imm := .sel })
  | .fsqrt h o m => some (h, o, fltUse m tF true { d := true, sa := true, imm := .sel })
  | .fdiv h o m => some (h, o, fltUse m tF true { d := true, sa := true, sb := true, imm := .sel })
  | .fexp2 h o m => some (h, o, fltUse m tF true { d := true, sa := true, imm := .sel })
  | .flog2 h o m => some (h, o, fltUse m tF true { d := true, sa := true, imm := .sel })
  | .fsinpi h o m => some (h, o, fltUse m tF true { d := true, sa := true, imm := .sel })
  | .fcospi h o m => some (h, o, fltUse m tF true { d := true, sa := true, imm := .sel })
  | .cvt h o m => some (h, o, fltUse m tNum true { d := true, sa := true, imm := .own (immBits o 31 4 = 0 && (immTy o 0).isIn tNum) })
  | .cvtq h o m => some (h, o, fltUse m (.q4nx8 :: tNarrow) true { d := true, sa := true, sb := true, sc := true, imm := .own (immBits o 31 7 = 0 && (immTy o 0).isIn tF && decide (immBits o 6 4 < m.ty.elems)) })
  | .pack h o m => some (h, o, fltUse m tNarrow true { d := true, sa := true, sb := true, sc := m.ty.elems = 4, imm := .own (immBits o 31 1 = 0 && (m.ty.elems = 4 || immBits o 0 0 = 0)), ok := m.ty.isIn [.f16x2, .bf16x2, .e4m3x4, .e5m2x4] || m.rm = .rn })
  | .unpk h o m => some (h, o, fltUse m tNarrow false { d := true, sa := true, imm := .own (immBits o 31 3 = 0 && decide (immBits o 2 0 < m.ty.elems)) })
  | .qdeq h o m => some (h, o, fltUse m tF true { d := true, sa := true, sb := true, sc := true, imm := .own (immBits o 31 5 = 0) })
  | .dot2 h o m => some (h, o, fltUse m [.f32] true { d := true, sa := true, sb := true, sc := true, imm := .own (immBits o 31 4 = 0 && (immTy o 0).isIn [.f16x2, .bf16x2]) })
  | .dot4 h o m => some (h, o, fltUse m [.f32] true { d := true, sa := true, sb := true, sc := true, imm := .own (immBits o 31 4 = 0 && (immTy o 0).isIn [.e4m3x4, .e5m2x4]) })
  | .f6join h o m => some (h, o, { d := true, sa := true, sb := true, prod := true, imm := .own (immBits o 31 2 = 0), ok := m = ⟨.e4m3x4, .auto, .rn⟩ })
  | .frnd h o m => some (h, o, fltUse m tFlt true { d := true, sa := true, imm := .sel })
  | .fscl h o m => some (h, o, fltUse m tFlt true { d := true, sa := true, sb := true, imm := .sel })
  | .bget h o m => some (h, o, { d := true, sa := true, imm := .sel, prod := true, ok := mOnly m 9 })
  | .bset h o m => some (h, o, { d := true, sa := true, sb := true, imm := .sel, prod := true, ok := mOnly m 9 })
  | .badd h o m => some (h, o, { d := true, sa := true, sb := true, imm := .sel, prod := true, ok := mOnly m 8 })
  | .bmax h o m => some (h, o, { d := true, sa := true, sb := true, imm := .sel, prod := true, ok := mOnly m 8 })
  | .bchk h o m => some (h, o, { d := !m.getLsbD 0, sa := true, sb := true, imm := .sel, ok := mOnly m 9 })
  | .bclr h o m => some (h, o, { d := true, sa := true, imm := .sel, prod := true, ok := mOnly m 8 })
  | .bmode h o m => some (h, o, { d := m.getLsbD 2, sa := true, imm := .sel, noGuard := true, prod := m.getLsbD 2, ok := mOnly m 7 && m.extractLsb' 0 2 ≠ 3 })
  | .ld h o m => some (h, o, memUse o m false false (immBits o 26 20 = 0) [.rlx, .acq] true { d := true, prod := true, ok := !m.hi || m.width = .b8 || m.width = .b16 })
  | .st h o m => some (h, o, memUse o m false false (immBits o 23 20 = 0 && (m.hi || immBits o 26 24 = 0)) [.rlx, .rel] true { sc := true })
  | .lds h o m => some (h, o, memUse o m false false (immBits o 26 20 = 0) [.rlx] false { d := true, prod := true, ok := !m.hi || m.width = .b8 || m.width = .b16 })
  | .sts h o m => some (h, o, memUse o m false false (immBits o 26 20 = 0) [.rlx] false { sc := true, ok := !m.hi })
  | .ldf h o m => some (h, o, memUse o m false false (immBits o 26 20 = 0) [.rlx] false { d := true, closing := true, ok := m.width = .b32 || m.width = .b64 })
  | .ste h o m => some (h, o, memUse o m false false (immBits o 26 20 = 0) [.rlx] false { sc := true, closing := true, ok := !m.hi && (m.width = .b32 || m.width = .b64) })
  | .feset h o m => some (h, o, memUse o m false false (immBits o 26 20 = 0) [.rlx] false { ok := m.width = .b32 || m.width = .b64 })
  | .ldk h o m => some (h, o, memUse o m true false (immBits o 26 20 = 0) [.rlx] false { d := true, prod := true, ok := !m.hi && (m.width = .b32 || m.width = .b64) })
  | .pref h o m => some (h, o, memUse o m false false (immBits o 26 20 = 0) [.rlx] false { ok := m.width = .b8 })
  | .atom h o m => some (h, o, memUse o m false false ((immTy o 20).isIn tNum && decide (immBits o 26 24 ≤ 6) && !((immTy o 20).isIn tF && decide (3 ≤ immBits o 26 24) && decide (immBits o 26 24 ≤ 5))) [.rlx, .acq, .rel, .ar] (!m.hi) { d := true, sc := true, prod := true, closing := true, ok := m.width = tyWidth (immTy o 20) })
  | .cas h o m => some (h, o, memUse o m true true ((immTy o 20).isIn tNum && immBits o 24 24 = 0 && decide (immBits o 26 25 ≤ 1)) [.rlx, .acq, .rel, .ar] (!m.hi) { d := true, sc := true, prod := true, closing := true, ok := m.width = tyWidth (immTy o 20) })
  | .red h o m => some (h, o, memUse o m false false ((immTy o 20).isIn tNum && decide (immBits o 26 24 ≤ 5) && !((immTy o 20).isIn tF && decide (3 ≤ immBits o 26 24))) [.rlx, .rel] (!m.hi) { sc := true, closing := true, ok := m.width = tyWidth (immTy o 20) })
  | .fence h o m => some (h, o, { closing := true, noGuard := true, ok := !m.hi && m.scope ≠ .rsv && m.order ≠ .rlx && m.width = .b8 })
  | .sealRegion h o m => some (h, o, memUse o m true false (immBits o 26 20 = 0) [.rlx] false { closing := true, noGuard := true, ok := !m.hi && m.width = .b8 && h.cx })
  | .unsealRegion h o m => some (h, o, memUse o m true false (immBits o 26 20 = 0) [.rlx] false { closing := true, noGuard := true, ok := !m.hi && m.width = .b8 && h.cx })
  | .hint h o m => some (h, o, memUse o m true false (immBits o 23 20 = 0 && decide (immBits o 26 24 ≤ 3)) [.rlx] false { ok := !m.hi && m.width = .b8 })
  | .waita h o m => some (h, o, memUse o m false false ((immTy o 20).isIn tInt && decide (immBits o 26 24 ≤ 5)) [.rlx, .acq] true { d := true, sc := true, closing := true, ok := !m.hi && m.width = tyWidth (immTy o 20) })
  | .bari h o m => some (h, o, { sa := true, imm := .sel, closing := true, noGuard := true, ok := mOnly m 0x0F })
  | .bara h o m => some (h, o, { d := true, closing := true, noGuard := true, ok := mOnly m 0x0F })
  | .barw h o m => some (h, o, { closing := true, noGuard := true, ok := mOnly m 0x0F })
  | .barq h o m => some (h, o, { sa := true, imm := .sel, closing := true, noGuard := true, ok := mOnly m 0x0F })
  | .xacq h o m => some (h, o, { closing := true, noGuard := true, ok := mOnly m 0x0F && m ≠ 0 })
  | .xrel h o m => some (h, o, { closing := true, noGuard := true, ok := mOnly m 0x0F && m ≠ 0 })
  | .lnch h o m => some (h, o, { sa := true, ok := mOnly m 3 })
  | .qbind h o m => some (h, o, { d := true, noGuard := true, ok := mOnly m 7 && decide (m.toNat ≤ 5) })
  | .qstat h o m => some (h, o, { d := true, sa := true, prod := true, ok := mOnly m 3 && m ≠ 3 })
  | .mma h o m => some (h, o, mmaUse o m false)
  | .mzero h o m => some (h, o, { noGuard := true, imm := .own (immBits o 31 18 = 0), ok := (Ty.ofCode (m.extractLsb' 4 4)).isIn [.i32, .f32, .f64] && m.extractLsb' 0 4 = 0 })
  | .mload h o m => some (h, o, { sa := true, noGuard := true, imm := .own (immBits o 31 18 = 0), ok := (Ty.ofCode (m.extractLsb' 4 4)).isIn [.i32, .f32, .f64] && m.extractLsb' 1 3 = 0 })
  | .mdrain h o m => some (h, o, { sa := true, sb := o.imm.getLsbD 9, sc := o.imm.getLsbD 8, noGuard := true, imm := .own (immBits o 31 31 = 0 && !(Ty.ofCode (m.extractLsb' 4 4) = .raw && o.imm.getLsbD 8)), ok := (Ty.ofCode (m.extractLsb' 4 4)).isIn [.i32, .n32, .f32, .f64, .f16x2, .bf16x2, .e4m3x4, .e5m2x4, .i8x4, .n8x4, .raw] && m.extractLsb' 0 2 ≠ 3 && (Ty.ofCode (m.extractLsb' 4 4) ≠ .raw || m.extractLsb' 2 2 = 0) })
  | .gath h o m => some (h, o, { sa := true, sb := true, noGuard := true, imm := .own (immBits o 31 16 = 0 && immBits o 15 0 ≠ 0 && immBits o 5 0 = 0), ok := m = 0 })
  | .spcmp h o m => some (h, o, { d := true, sa := true, imm := .sel, prod := true, ok := (Ty.ofCode (m.extractLsb' 4 4)).isIn [.f16x2, .bf16x2, .e4m3x4, .e5m2x4, .i8x4] && m.extractLsb' 1 3 = 0 })
  | .cpy h o m => some (h, o, { sa := true, sb := o.imm.getLsbD 5, sc := o.imm.getLsbD 5 || o.imm.getLsbD 6, d := o.imm.getLsbD 6, noGuard := true, imm := .own (immBits o 31 7 = 0), ok := m = 0 })
  | .cpym h o m => some (h, o, mmaUse o m true)
  | .wtc h o m => some (h, o, { sa := true, sb := true, imm := .sel, closing := true, noGuard := true, ok := m = 0 })
  | .wto h o m => some (h, o, { sa := true, sb := true, imm := .sel, closing := true, noGuard := true, ok := m = 0 })
  | .trap h o m => some (h, o, { imm := .own true, closing := true, ok := m = 0 })
  | .eret h o m => some (h, o, { noGuard := true, ok := mOnly m 1 })
  | .srd h o m => some (h, o, { d := true, prod := true, closing := true, imm := .own (immBits o 31 12 = 0), ok := m = 0 })
  | .swr h o m => some (h, o, { sa := true, closing := true, noGuard := true, imm := .own (immBits o 31 12 = 0), ok := m = 0 })
  | .clk h o m => some (h, o, { d := true, prod := true, ok := m = 0 })
  | .bkpt h o m => some (h, o, { imm := .own true, ok := m = 0 })
  | .sleep h o m => some (h, o, { imm := .own (immBits o 31 16 = 0 && immBits o 15 0 ≠ 0), ok := m = 0 })
  | .quadrantIssue _ _ => none
  | .nwLockExpire _ _ => none
  | .lineRefetch _ _ => none
  | .pageWalk _ _ => none
  | .commitRound => none
  | .priorityTokenTake _ => none
  | .boundaryPerform _ => none
  | .podRelease _ => none
  | .accessCompletion _ => none
  | .ldfComplete _ _ => none
  | .steComplete _ _ => none
  | .waitaComplete _ _ => none
  | .waitaPoll _ => none
  | .xacqGrant _ _ => none
  | .counterWaitWake _ => none
  | .queuePopWake _ => none
  | .sleepExpire _ _ => none
  | .yieldExpire _ => none
  | .mmaPerform _ _ => none
  | .tileFillPerform _ _ => none
  | .mdrainPerform _ _ => none
  | .engineQueuePush _ _ => none
  | .copyPerform _ _ => none
  | .cpymMmaIssue _ _ => none
  | .gatherPerform _ _ => none
  | .handlerEntry _ => none
  | .teamSwapOut _ => none
  | .tresumeWrite _ => none
  | .preemptRequest _ => none
  | .saveRoutineStart _ => none
  | .teamSuspend _ => none
  | .teamPlace _ _ => none
  | .sheafEnd _ => none
  | .teamEnd _ => none
  | .doorbell _ _ _ => none
  | .qd0Write _ _ => none
  | .qd1Write _ _ => none
  | .kernelPkt _ => none
  | .waitPkt _ => none
  | .waitPoll _ => none
  | .signalPkt _ => none
  | .childPacketRead _ => none
  | .tlbicmd _ => none
  | .tlbInvalidateDone => none
  | .partcfg _ => none
  | .partsw _ _ => none
  | .partitionSwitchDone _ => none
  | .go => none
  | .reset => none
  | .quiesce => none
  | .coldReset => none
  | .bringupPhaseDone _ _ => none
  | .registerWrite _ _ => none
  | .telemetryClear _ => none
  | .pwrlim _ => none
  | .powerControlTick _ _ _ => none
  | .portstat _ _ => none
  | .keycmd _ _ => none
  | .keySlotWrite _ _ _ _ _ => none
  | .flitReceive _ _ _ _ => none
  | .flitReplay _ => none
  | .flitAck _ => none
  | .laneFail _ _ => none
  | .linkUp _ => none
  | .peerDepart _ => none
  | .peerArrive _ => none
  | .peerRequest _ _ => none
  | .redGroupApply _ _ _ _ _ => none
  | .remoteTimeout _ => none
  | .systemAccessTimeout _ => none
  | .hostRead _ _ => none
  | .hostWrite _ _ _ => none
  | .hostSnoop _ => none
  | .backInvalidate _ => none
  | .softError _ _ _ _ => none
  | .dieLoss _ => none
  | .lineEviction _ => none
  | .preemptionLimitExpire _ => none

/-- Well-formed: an encoded instruction that passes check 3 of R87, or an event. DEDUCED (log 32). -/
def Instr.wf (i : Instr) : Bool :=
  match i.use with
  | some (h, o, u) => wordOk h o u
  | none => true

end Sys2Proof
end

