-- ==== Sys2Proof/Decode.lean ====
section
/-! DEFINITION. The decoder and the encoder, from R83, R84 and the opcode map of R98.
`decode` is total on every 96-bit word and rejects by name; `encode` is written from the same tables. -/

namespace Sys2Proof

/-- Why a word is no instruction: check 3 of R87 raises ILLOP in every case (R85, R86). -/
inductive DecodeError where
  | unassignedOpcode (opc : BitVec 8)
  | reservedBit15
  | illFormed
  deriving DecidableEq, Repr

/-- The fields of a word (R83). -/
structure Raw where
  opc : BitVec 8
  pg : BitVec 4
  pn : Bool
  nw : Bool
  cx : Bool
  rsv : Bool
  d : BitVec 10
  sa : BitVec 10
  sb : BitVec 10
  sc : BitVec 10
  m : BitVec 8
  imm : BitVec 32
  deriving DecidableEq, Repr

/-- The fields of an instruction word (R83, R84). -/
def Raw.ofWord (w : BitVec 96) : Raw :=
  { opc := w.extractLsb' 0 8, pg := w.extractLsb' 8 4, pn := w.getLsbD 12, nw := w.getLsbD 13, cx := w.getLsbD 14
    rsv := w.getLsbD 15, d := w.extractLsb' 16 10, sa := w.extractLsb' 26 10, sb := w.extractLsb' 36 10
    sc := w.extractLsb' 46 10, m := w.extractLsb' 56 8, imm := w.extractLsb' 64 32 }

/-- The word that holds the fields (R83, R84). -/
def Raw.toWord (r : Raw) : BitVec 96 :=
  r.imm ++ r.m ++ r.sc ++ r.sb ++ r.sa ++ r.d ++ BitVec.ofBool r.rsv ++ BitVec.ofBool r.cx ++ BitVec.ofBool r.nw
    ++ BitVec.ofBool r.pn ++ r.pg ++ r.opc

/-- Guard and flag bits of a word. -/
def Raw.hd (r : Raw) : Hd := ⟨r.pg, r.pn, r.nw, r.cx⟩

/-- Selectors and immediate of a word (R88). -/
def Raw.opn (r : Raw) : Opn := ⟨Sel.ofBits r.d, Sel.ofBits r.sa, Sel.ofBits r.sb, Sel.ofBits r.sc, r.imm⟩

/-- The instruction of an opcode (R98), its M byte read under the opcode's class (R96). -/
def Instr.ofOp (opc : BitVec 8) (h : Hd) (o : Opn) (m : BitVec 8) : Option Instr :=
  match opc.toNat with
  | 0x01 => some (.nop h o m)
  | 0x02 => some (.bra h o m)
  | 0x03 => some (.jmp h o m)
  | 0x04 => some (.jmpr h o m)
  | 0x05 => some (.call h o m)
  | 0x06 => some (.ret h o m)
  | 0x07 => some (.exit h o m)
  | 0x08 => some (.brd h o m)
  | 0x09 => some (.safept h o m)
  | 0x0A => some (.yield h o m)
  | 0x0B => some (.cclose h o m)
  | 0x10 => some (.iadd h o (IMod.ofBits m))
  | 0x11 => some (.isub h o (IMod.ofBits m))
  | 0x12 => some (.imul h o (IMod.ofBits m))
  | 0x13 => some (.imulh h o (IMod.ofBits m))
  | 0x14 => some (.imad h o (IMod.ofBits m))
  | 0x15 => some (.imin h o (IMod.ofBits m))
  | 0x16 => some (.imax h o (IMod.ofBits m))
  | 0x17 => some (.iabs h o (IMod.ofBits m))
  | 0x18 => some (.bitAnd h o (IMod.ofBits m))
  | 0x19 => some (.bitOr h o (IMod.ofBits m))
  | 0x1A => some (.bitXor h o (IMod.ofBits m))
  | 0x1B => some (.bitNot h o (IMod.ofBits m))
  | 0x1C => some (.shl h o (IMod.ofBits m))
  | 0x1D => some (.shr h o (IMod.ofBits m))
  | 0x1E => some (.sar h o (IMod.ofBits m))
  | 0x1F => some (.bfe h o (IMod.ofBits m))
  | 0x20 => some (.bfi h o (IMod.ofBits m))
  | 0x21 => some (.popc h o (IMod.ofBits m))
  | 0x22 => some (.clz h o (IMod.ofBits m))
  | 0x23 => some (.brev h o (IMod.ofBits m))
  | 0x24 => some (.isetp h o (IMod.ofBits m))
  | 0x25 => some (.sel h o (IMod.ofBits m))
  | 0x26 => some (.mov h o (IMod.ofBits m))
  | 0x27 => some (.movi h o (IMod.ofBits m))
  | 0x28 => some (.lea h o (IMod.ofBits m))
  | 0x30 => some (.plop h o m)
  | 0x31 => some (.pmov h o m)
  | 0x32 => some (.vote h o m)
  | 0x33 => some (.shfl h o m)
  | 0x34 => some (.rdlane h o m)
  | 0x35 => some (.wrlane h o m)
  | 0x36 => some (.sredux h o m)
  | 0x37 => some (.matchLanes h o m)
  | 0x40 => some (.fadd h o (FMod.ofBits m))
  | 0x41 => some (.fsub h o (FMod.ofBits m))
  | 0x42 => some (.fmul h o (FMod.ofBits m))
  | 0x43 => some (.ffma h o (FMod.ofBits m))
  | 0x44 => some (.fmin h o (FMod.ofBits m))
  | 0x45 => some (.fmax h o (FMod.ofBits m))
  | 0x46 => some (.fsetp h o (FMod.ofBits m))
  | 0x47 => some (.fclass h o (FMod.ofBits m))
  | 0x48 => some (.frcp h o (FMod.ofBits m))
  | 0x49 => some (.frsq h o (FMod.ofBits m))
  | 0x4A => some (.fsqrt h o (FMod.ofBits m))
  | 0x4B => some (.fdiv h o (FMod.ofBits m))
  | 0x4C => some (.fexp2 h o (FMod.ofBits m))
  | 0x4D => some (.flog2 h o (FMod.ofBits m))
  | 0x4E => some (.fsinpi h o (FMod.ofBits m))
  | 0x4F => some (.fcospi h o (FMod.ofBits m))
  | 0x50 => some (.cvt h o (FMod.ofBits m))
  | 0x51 => some (.cvtq h o (FMod.ofBits m))
  | 0x52 => some (.pack h o (FMod.ofBits m))
  | 0x53 => some (.unpk h o (FMod.ofBits m))
  | 0x54 => some (.qdeq h o (FMod.ofBits m))
  | 0x55 => some (.dot2 h o (FMod.ofBits m))
  | 0x56 => some (.dot4 h o (FMod.ofBits m))
  | 0x57 => some (.f6join h o (FMod.ofBits m))
  | 0x58 => some (.frnd h o (FMod.ofBits m))
  | 0x59 => some (.fscl h o (FMod.ofBits m))
  | 0x60 => some (.bget h o m)
  | 0x61 => some (.bset h o m)
  | 0x62 => some (.badd h o m)
  | 0x63 => some (.bmax h o m)
  | 0x64 => some (.bchk h o m)
  | 0x65 => some (.bclr h o m)
  | 0x66 => some (.bmode h o m)
  | 0x70 => some (.ld h o (MMod.ofBits m))
  | 0x71 => some (.st h o (MMod.ofBits m))
  | 0x72 => some (.lds h o (MMod.ofBits m))
  | 0x73 => some (.sts h o (MMod.ofBits m))
  | 0x74 => some (.ldf h o (MMod.ofBits m))
  | 0x75 => some (.ste h o (MMod.ofBits m))
  | 0x76 => some (.feset h o (MMod.ofBits m))
  | 0x77 => some (.ldk h o (MMod.ofBits m))
  | 0x78 => some (.pref h o (MMod.ofBits m))
  | 0x79 => some (.atom h o (MMod.ofBits m))
  | 0x7A => some (.cas h o (MMod.ofBits m))
  | 0x7B => some (.red h o (MMod.ofBits m))
  | 0x7C => some (.fence h o (MMod.ofBits m))
  | 0x7D => some (.sealRegion h o (MMod.ofBits m))
  | 0x7E => some (.unsealRegion h o (MMod.ofBits m))
  | 0x7F => some (.hint h o (MMod.ofBits m))
  | 0x80 => some (.waita h o (MMod.ofBits m))
  | 0x90 => some (.bari h o m)
  | 0x91 => some (.bara h o m)
  | 0x92 => some (.barw h o m)
  | 0x93 => some (.barq h o m)
  | 0x94 => some (.xacq h o m)
  | 0x95 => some (.xrel h o m)
  | 0x96 => some (.lnch h o m)
  | 0xA0 => some (.qbind h o m)
  | 0xA1 => some (.qstat h o m)
  | 0xA2 => some (.mma h o m)
  | 0xA3 => some (.mzero h o m)
  | 0xA4 => some (.mload h o m)
  | 0xA5 => some (.mdrain h o m)
  | 0xA6 => some (.gath h o m)
  | 0xA7 => some (.spcmp h o m)
  | 0xA8 => some (.cpy h o m)
  | 0xA9 => some (.cpym h o m)
  | 0xAA => some (.wtc h o m)
  | 0xAB => some (.wto h o m)
  | 0xC0 => some (.trap h o m)
  | 0xC1 => some (.eret h o m)
  | 0xC2 => some (.srd h o m)
  | 0xC3 => some (.swr h o m)
  | 0xC4 => some (.clk h o m)
  | 0xC5 => some (.bkpt h o m)
  | 0xC6 => some (.sleep h o m)
  | _ => none

/-- The word of an instruction, field by field; an event has none. -/
def Raw.of (opc : BitVec 8) (h : Hd) (o : Opn) (m : BitVec 8) : Raw :=
  { opc := opc, pg := h.pg, pn := h.pn, nw := h.nw, cx := h.cx, rsv := false
    d := o.d.bits, sa := o.sa.bits, sb := o.sb.bits, sc := o.sc.bits, m := m, imm := o.imm }

/-- The fields of an encoded instruction (R83, R98). -/
def Instr.toRaw (i : Instr) : Option Raw :=
  match i with
  | .nop h o m => some (.of 0x01 h o m)
  | .bra h o m => some (.of 0x02 h o m)
  | .jmp h o m => some (.of 0x03 h o m)
  | .jmpr h o m => some (.of 0x04 h o m)
  | .call h o m => some (.of 0x05 h o m)
  | .ret h o m => some (.of 0x06 h o m)
  | .exit h o m => some (.of 0x07 h o m)
  | .brd h o m => some (.of 0x08 h o m)
  | .safept h o m => some (.of 0x09 h o m)
  | .yield h o m => some (.of 0x0A h o m)
  | .cclose h o m => some (.of 0x0B h o m)
  | .iadd h o m => some (.of 0x10 h o m.bits)
  | .isub h o m => some (.of 0x11 h o m.bits)
  | .imul h o m => some (.of 0x12 h o m.bits)
  | .imulh h o m => some (.of 0x13 h o m.bits)
  | .imad h o m => some (.of 0x14 h o m.bits)
  | .imin h o m => some (.of 0x15 h o m.bits)
  | .imax h o m => some (.of 0x16 h o m.bits)
  | .iabs h o m => some (.of 0x17 h o m.bits)
  | .bitAnd h o m => some (.of 0x18 h o m.bits)
  | .bitOr h o m => some (.of 0x19 h o m.bits)
  | .bitXor h o m => some (.of 0x1A h o m.bits)
  | .bitNot h o m => some (.of 0x1B h o m.bits)
  | .shl h o m => some (.of 0x1C h o m.bits)
  | .shr h o m => some (.of 0x1D h o m.bits)
  | .sar h o m => some (.of 0x1E h o m.bits)
  | .bfe h o m => some (.of 0x1F h o m.bits)
  | .bfi h o m => some (.of 0x20 h o m.bits)
  | .popc h o m => some (.of 0x21 h o m.bits)
  | .clz h o m => some (.of 0x22 h o m.bits)
  | .brev h o m => some (.of 0x23 h o m.bits)
  | .isetp h o m => some (.of 0x24 h o m.bits)
  | .sel h o m => some (.of 0x25 h o m.bits)
  | .mov h o m => some (.of 0x26 h o m.bits)
  | .movi h o m => some (.of 0x27 h o m.bits)
  | .lea h o m => some (.of 0x28 h o m.bits)
  | .plop h o m => some (.of 0x30 h o m)
  | .pmov h o m => some (.of 0x31 h o m)
  | .vote h o m => some (.of 0x32 h o m)
  | .shfl h o m => some (.of 0x33 h o m)
  | .rdlane h o m => some (.of 0x34 h o m)
  | .wrlane h o m => some (.of 0x35 h o m)
  | .sredux h o m => some (.of 0x36 h o m)
  | .matchLanes h o m => some (.of 0x37 h o m)
  | .fadd h o m => some (.of 0x40 h o m.bits)
  | .fsub h o m => some (.of 0x41 h o m.bits)
  | .fmul h o m => some (.of 0x42 h o m.bits)
  | .ffma h o m => some (.of 0x43 h o m.bits)
  | .fmin h o m => some (.of 0x44 h o m.bits)
  | .fmax h o m => some (.of 0x45 h o m.bits)
  | .fsetp h o m => some (.of 0x46 h o m.bits)
  | .fclass h o m => some (.of 0x47 h o m.bits)
  | .frcp h o m => some (.of 0x48 h o m.bits)
  | .frsq h o m => some (.of 0x49 h o m.bits)
  | .fsqrt h o m => some (.of 0x4A h o m.bits)
  | .fdiv h o m => some (.of 0x4B h o m.bits)
  | .fexp2 h o m => some (.of 0x4C h o m.bits)
  | .flog2 h o m => some (.of 0x4D h o m.bits)
  | .fsinpi h o m => some (.of 0x4E h o m.bits)
  | .fcospi h o m => some (.of 0x4F h o m.bits)
  | .cvt h o m => some (.of 0x50 h o m.bits)
  | .cvtq h o m => some (.of 0x51 h o m.bits)
  | .pack h o m => some (.of 0x52 h o m.bits)
  | .unpk h o m => some (.of 0x53 h o m.bits)
  | .qdeq h o m => some (.of 0x54 h o m.bits)
  | .dot2 h o m => some (.of 0x55 h o m.bits)
  | .dot4 h o m => some (.of 0x56 h o m.bits)
  | .f6join h o m => some (.of 0x57 h o m.bits)
  | .frnd h o m => some (.of 0x58 h o m.bits)
  | .fscl h o m => some (.of 0x59 h o m.bits)
  | .bget h o m => some (.of 0x60 h o m)
  | .bset h o m => some (.of 0x61 h o m)
  | .badd h o m => some (.of 0x62 h o m)
  | .bmax h o m => some (.of 0x63 h o m)
  | .bchk h o m => some (.of 0x64 h o m)
  | .bclr h o m => some (.of 0x65 h o m)
  | .bmode h o m => some (.of 0x66 h o m)
  | .ld h o m => some (.of 0x70 h o m.bits)
  | .st h o m => some (.of 0x71 h o m.bits)
  | .lds h o m => some (.of 0x72 h o m.bits)
  | .sts h o m => some (.of 0x73 h o m.bits)
  | .ldf h o m => some (.of 0x74 h o m.bits)
  | .ste h o m => some (.of 0x75 h o m.bits)
  | .feset h o m => some (.of 0x76 h o m.bits)
  | .ldk h o m => some (.of 0x77 h o m.bits)
  | .pref h o m => some (.of 0x78 h o m.bits)
  | .atom h o m => some (.of 0x79 h o m.bits)
  | .cas h o m => some (.of 0x7A h o m.bits)
  | .red h o m => some (.of 0x7B h o m.bits)
  | .fence h o m => some (.of 0x7C h o m.bits)
  | .sealRegion h o m => some (.of 0x7D h o m.bits)
  | .unsealRegion h o m => some (.of 0x7E h o m.bits)
  | .hint h o m => some (.of 0x7F h o m.bits)
  | .waita h o m => some (.of 0x80 h o m.bits)
  | .bari h o m => some (.of 0x90 h o m)
  | .bara h o m => some (.of 0x91 h o m)
  | .barw h o m => some (.of 0x92 h o m)
  | .barq h o m => some (.of 0x93 h o m)
  | .xacq h o m => some (.of 0x94 h o m)
  | .xrel h o m => some (.of 0x95 h o m)
  | .lnch h o m => some (.of 0x96 h o m)
  | .qbind h o m => some (.of 0xA0 h o m)
  | .qstat h o m => some (.of 0xA1 h o m)
  | .mma h o m => some (.of 0xA2 h o m)
  | .mzero h o m => some (.of 0xA3 h o m)
  | .mload h o m => some (.of 0xA4 h o m)
  | .mdrain h o m => some (.of 0xA5 h o m)
  | .gath h o m => some (.of 0xA6 h o m)
  | .spcmp h o m => some (.of 0xA7 h o m)
  | .cpy h o m => some (.of 0xA8 h o m)
  | .cpym h o m => some (.of 0xA9 h o m)
  | .wtc h o m => some (.of 0xAA h o m)
  | .wto h o m => some (.of 0xAB h o m)
  | .trap h o m => some (.of 0xC0 h o m)
  | .eret h o m => some (.of 0xC1 h o m)
  | .srd h o m => some (.of 0xC2 h o m)
  | .swr h o m => some (.of 0xC3 h o m)
  | .clk h o m => some (.of 0xC4 h o m)
  | .bkpt h o m => some (.of 0xC5 h o m)
  | .sleep h o m => some (.of 0xC6 h o m)
  | .quadrantIssue _ _ => none
  | .nwLockExpire _ _ => none
  | .lineRefetch _ _ => none
  | .pageWalk _ _ => none
  | .commitRound => none
  | .priorityTokenTake _ => none
  | .boundaryPerform _ => none
  | .podRelease _ => none
  | .accessCompletion _ => none
  | .ldfComplete _ _ => none
  | .steComplete _ _ => none
  | .waitaComplete _ _ => none
  | .waitaPoll _ => none
  | .xacqGrant _ _ => none
  | .counterWaitWake _ => none
  | .queuePopWake _ => none
  | .sleepExpire _ _ => none
  | .yieldExpire _ => none
  | .mmaPerform _ _ => none
  | .tileFillPerform _ _ => none
  | .mdrainPerform _ _ => none
  | .engineQueuePush _ _ => none
  | .copyPerform _ _ => none
  | .cpymMmaIssue _ _ => none
  | .gatherPerform _ _ => none
  | .handlerEntry _ => none
  | .teamSwapOut _ => none
  | .tresumeWrite _ => none
  | .preemptRequest _ => none
  | .saveRoutineStart _ => none
  | .teamSuspend _ => none
  | .teamPlace _ _ => none
  | .sheafEnd _ => none
  | .teamEnd _ => none
  | .doorbell _ _ _ => none
  | .qd0Write _ _ => none
  | .qd1Write _ _ => none
  | .kernelPkt _ => none
  | .waitPkt _ => none
  | .waitPoll _ => none
  | .signalPkt _ => none
  | .childPacketRead _ => none
  | .tlbicmd _ => none
  | .tlbInvalidateDone => none
  | .partcfg _ => none
  | .partsw _ _ => none
  | .partitionSwitchDone _ => none
  | .go => none
  | .reset => none
  | .quiesce => none
  | .coldReset => none
  | .bringupPhaseDone _ _ => none
  | .registerWrite _ _ => none
  | .telemetryClear _ => none
  | .pwrlim _ => none
  | .powerControlTick _ _ _ => none
  | .portstat _ _ => none
  | .keycmd _ _ => none
  | .keySlotWrite _ _ _ _ _ => none
  | .flitReceive _ _ _ _ => none
  | .flitReplay _ => none
  | .flitAck _ => none
  | .laneFail _ _ => none
  | .linkUp _ => none
  | .peerDepart _ => none
  | .peerArrive _ => none
  | .peerRequest _ _ => none
  | .redGroupApply _ _ _ _ _ => none
  | .remoteTimeout _ => none
  | .systemAccessTimeout _ => none
  | .hostRead _ _ => none
  | .hostWrite _ _ _ => none
  | .hostSnoop _ => none
  | .backInvalidate _ => none
  | .softError _ _ _ _ => none
  | .dieLoss _ => none
  | .lineEviction _ => none
  | .preemptionLimitExpire _ => none

/-- Decode a 96-bit instruction word: R85 and R86, check 3 of R87. -/
def decode (w : BitVec 96) : Except DecodeError Instr :=
  let r := Raw.ofWord w
  match Instr.ofOp r.opc r.hd r.opn r.m with
  | none => .error (.unassignedOpcode r.opc)
  | some i => if r.rsv then .error .reservedBit15 else if i.wf then .ok i else .error .illFormed

/-- The word of an encoded instruction. -/
def encode (i : Instr) : Option (BitVec 96) := i.toRaw.map Raw.toWord

/-- The instruction the decoder reads from a word given as a number, bit 0 the least significant bit of W0. -/
def decodeTableWord (nbits w : Nat) : Option Instr :=
  match decode (BitVec.ofNat 96 (w % 2 ^ nbits)) with
  | .ok i => some i
  | .error _ => none

/-- A selector value a decoder can produce: `rsv` holds only reserved values. -/
def Sel.canonical (x : Sel) : Bool :=
  match x with
  | .rsv r => selReserved r
  | _ => true

/-- The selectors of an encoded instruction are ones a decoder can produce. -/
def Opn.canonical (o : Opn) : Bool := o.d.canonical && o.sa.canonical && o.sb.canonical && o.sc.canonical

/-- An instruction word's selectors are canonical; an event has none. -/
def Instr.canonical (i : Instr) : Bool :=
  match i.use with
  | some (_, o, _) => o.canonical
  | none => true

/-- Is this an encoded instruction? -/
def Instr.encoded (i : Instr) : Bool := i.use.isSome

end Sys2Proof
end

