-- ==== Sys2Proof/Machine/State.lean ====
section
/-! DEFINITION. The state of the device, as plain data, and the state right after reset.
Sparse maps list only what differs from what an unlisted key reads as. -/

namespace Sys2Proof.Machine

/-- Why a run stops. -/
inductive Fault where
  /-- Raised by HOST_READ, HOST_WRITE and PEER_REQUEST: the physical address is reserved in the local map (R170), so no
  storage answers. Safe: the hardware may do something else, and no claim holds past it. -/
  | noSuchAddress (pa : Nat)
  deriving DecidableEq, Repr

/-- Why an instruction has no meaning. -/
inductive Refusal where
  /-- Raised by `exec` for an instruction whose meaning is not written yet. Safe: nothing is claimed past it. -/
  | notModelled (mnemonic : String)
  deriving DecidableEq, Repr

/-- Memory as cells: addresses strictly rising, no cell equal to what an unlisted address reads as. -/
abbrev Memory := List Host.Cell

/-- A vector register (R30, R31): per-lane words and shadows, one tag and one width flag. An unlisted lane reads 0. -/
structure VReg where
  val : List W32 := []
  sh : List EB16 := []
  tag : Ty := .raw
  wf : Bool := false
  deriving DecidableEq, Repr

/-- A scalar register (R30, R33). -/
structure SReg where
  val : W64 := 0
  bnd : EB32 := 0
  tag : Ty := .raw
  deriving DecidableEq, Repr

/-- A predicate (R34): a value bit and a doubt bit per lane. -/
structure PReg where
  val : Mask := 0
  doubt : Mask := 0
  deriving DecidableEq, Repr

/-- A producer a sheaf has issued, kept for the fallback of R93. `w64`: its destination is a pair; `stale`: the sheaf has written its
destination since. -/
structure Prod where
  dst : Sel
  nw : Bool
  w64 : Bool := false
  stale : Bool := false
  deriving DecidableEq, Repr

/-- What a chunk's checkpoint saves (R223), R242's bindings among it, and whether a save or restore routine runs (R301, R302). -/
structure Regs where
  v : SMap VReg := []
  s : SMap SReg := []
  p : SMap PReg := []
  allow : W32 := 0
  pc : List Pc := []
  exited : Mask := 0
  qbind : SMap Nat := []
  prods : List Prod := []
  routine : Bool := false
  deriving DecidableEq, Repr

/-- The frame registers of R291. -/
structure Frame where
  cause : W64 := 0
  epc : W64 := 0
  addr : W64 := 0
  lanes : W64 := 0
  info : W64 := 0
  deriving DecidableEq, Repr

/-- A condition a lane waits on (R15). -/
inductive Wait where
  | ldf (d : Sel) (w64 keep : Bool) (ofs : Nat)
  | ste (w64 : Bool) (ofs : Nat) (x : W64) (b : EB32)
  | waita (d : Sel) (ty : Ty) (cc : Nat) (acq : Bool) (scope : Scope) (va : Nat) (x : W64)
  | bar (b : Nat) (ph : Bool)
  | wtc (c n : Nat)
  | wto (c k : Nat)
  | xacq (mask : BitVec 4) (id : Nat)
  | sleep (wake : Nat)
  | pop (q : Nat)
  deriving DecidableEq, Repr

/-- A line (R173): a line of the local map, a decoded line of coded storage (its LB64 slot, and how it was reached: its
stream's address and rate, its context and region entry), a scratchpad line of a team, a counter of a team (R247 tracks it
as a scratchpad line), a line of system or of remote memory. -/
inductive Line where
  | mem (n : Nat)
  | coded (slot stream rate ctx ridx : Nat)
  | sp (team n : Nat)
  | ctr (team c : Nat)
  | sys (n : Nat)
  | rem (n : Nat)
  deriving DecidableEq, Repr

/-- An element stored: its place in the line and its bound. -/
structure Elem where
  ofs : Nat
  len : Nat
  bnd : EB32
  deriving DecidableEq, Repr

/-- The name that identifies a line (R173): of a coded line the LB64 slot alone. -/
def Line.name (l : Line) : Line := match l with | .coded slot _ _ _ _ => .coded slot 0 0 0 0 | _ => l

/-- What one instruction or one engine element writes into one line. -/
structure LineWrite where
  line : Line
  bytes : List (Nat × Byte) := []
  elems : List Elem := []
  wide : Bool := false
  untracked : Bool := false
  deriving DecidableEq, Repr

/-- The contents of a line. -/
structure LineData where
  bytes : List Byte := []
  lb : W64 := 0
  poison : Bool := false
  /-- the poison marks of a system line's two halves (R317) -/
  halfPoi : Bool × Bool := (false, false)
  /-- elements of a coded line whose decoded value overflowed: their bound is infinite (R190) -/
  lostEls : List Nat := []
  /-- elements of a coded line that held stores have written, with their stored bounds (R192) -/
  fresh : List (Nat × EB32) := []
  deriving DecidableEq, Repr

/-- A queue entry (R241). -/
structure Entry where
  w64 : Bool
  val : List W64
  bnd : List EB32
  tag : Ty
  deriving DecidableEq, Repr

/-- An endpoint: its entries, of which the first `retained` have been popped by chunks not committed (R244). -/
structure Endpoint where
  entries : List Entry := []
  retained : Nat := 0
  deriving DecidableEq, Repr

/-- Where a fragment comes from (R255). -/
inductive FragSrc where
  | queue
  | sp (ofs : Nat)
  | latch
  deriving DecidableEq, Repr

/-- The operands of a SCALED MMA captured at issue (R254): the scale register pair's words and bounds, S and its bound. -/
structure Scales where
  cb : List W32
  cbBnd : List EB16
  ca : List W32
  caBnd : List EB16
  sup : W32
  supBnd : EB32
  bsel : Nat
  deriving DecidableEq, Repr

/-- The operands of an MMA captured at issue (R255). -/
structure MmaArgs where
  ty : Ty
  uc : UClass
  sat : Bool
  z : Bool
  a : FragSrc
  b : FragSrc
  scales : Option Scales := none
  deriving DecidableEq, Repr

/-- A shape record (R264). Extents are counts; strides are in elements. -/
structure Shape where
  saddr : Nat
  ssp : Bool
  daddr : Nat
  dsp : Bool
  ext : List Nat
  sstr : List Int
  dstr : List Int
  esz : Nat
  drop : Bool
  deriving DecidableEq, Repr

/-- The operands of an MDRAIN captured at issue (R259). -/
structure DrainArgs where
  ty : Ty
  rm : Rm
  kind : Nat
  dst : Nat
  pitch : Nat
  record : Option Nat
  scale : Option (W32 × EB32)
  deriving DecidableEq, Repr

/-- An engine command (R248). A GATH's indices and a CPY's value carry whether they are poisoned (R74). -/
inductive CmdKind where
  | mma (a : MmaArgs)
  | mzero (ty : Ty)
  | mload (ty : Ty) (gl : Bool) (addr : Nat)
  | mdrain (a : DrainArgs)
  | gath (base stride : Nat) (idx : Option (List (Nat × Bool)))
  | cpy (r : Shape) (fw : Option (Nat × W32)) (crp : Option W32) (poi : Bool)
  | cpym (r : Shape) (a : MmaArgs)
  deriving DecidableEq, Repr

/-- How far a released command has come: a drain under way or a CPYM whose copy has landed is `copied`; `sent` waits for
acknowledgements. -/
inductive CmdStage where
  | released | copied | sent | pushing | done
  deriving DecidableEq, Repr

/-- An engine command held by a chunk or released: who issued it, what it captured, and how far it has come. `row` is the next
row or element (R250), `got` the elements an MLOAD has read, `stream` what is left to push, `epoch` the number of
phases of its LINK barrier completed at its release (R257). -/
structure Cmd where
  sheaf : Nat
  pc : Pc
  allow : W32
  kind : CmdKind
  tile : Nat := 0
  link : Option Nat := none
  rel : Bool := false
  ctr : Option Nat := none
  id : Nat := 0
  num : Nat := 0
  stage : CmdStage := .released
  row : Nat := 0
  got : List (Nat × Option Rat × Bool) := []
  stream : List Entry := []
  epoch : Nat := 0
  phases : List Nat := []
  stopped : Bool := false
  /-- a drain that has faulted and has not completed (R308) -/
  faulted : Bool := false
  deriving DecidableEq, Repr

/-- What a chunk holds until its commit, in program order (R222). -/
inductive Held where
  | store (w : LineWrite)
  | fe (team : Nat) (word : Nat) (set : Bool)
  | cmd (c : Cmd)
  | push (ep : Nat) (e : Entry)
  | lnch (va : Nat) (prio : Nat)
  deriving DecidableEq, Repr

/-- A chunk (R219 to R224): the lines it read and wrote, those tracked at the core apart, what it holds, and its checkpoint. -/
structure Chunk where
  id : Nat
  /-- the oldest chunk not committed when this one opened (R347) -/
  behind : Nat := 0
  count : Nat := 0
  reads : List Line := []
  writes : List Line := []
  coreReads : List Line := []
  coreWrites : List Line := []
  vregs : List Nat := []
  held : List Held := []
  pops : SMap Nat := []
  cmds : Nat := 0
  lnch : Nat := 0
  pages : List Nat := []
  regions : List (Nat × Bool) := []
  ckpt : Regs := {}
  ckWaits : SMap Wait := []
  squashes : Nat := 0
  closed : Bool := false
  deriving DecidableEq, Repr

/-- A bypass-latch entry (R92). -/
structure Latch where
  sheaf : Nat
  dst : Sel
  nw : Bool
  w64 : Bool
  tag : Ty
  /-- the tag of the lanes not written -/
  oldTag : Ty := .raw
  val : List W64
  bnd : List EB32
  lanes : Mask
  held : Bool
  /-- a remote or system load's entry whose value has not returned -/
  awaits : Bool := false
  deriving DecidableEq, Repr

/-- An instruction being issued: the sheaf, the path's lanes, the PC, the registers, the latches and how much of the
open chunk, by its number, is held, as they stood before the older instruction of the same cycle wrote (R20), whether it is performed at a boundary,
whether its release is done, whether its remote or system access has completed, whether another PC group stood beside it at its
pick (R15), and its pass count before the pick (R19). -/
structure Path where
  sheaf : Nat
  lanes : Mask
  pc : Pc
  snap : Option Regs := none
  lat : Option (List Latch) := none
  vis : Option (Nat × Nat) := none
  atBoundary : Bool := false
  released : Bool := false
  arrived : Bool := false
  /-- the round of an atomic on device memory has come (R211, R233) -/
  inRound : Bool := false
  /-- the number at which an instruction that waits for its access or its round issued (R211, R235) -/
  num : Nat := 0
  split : Bool := false
  pass : Nat := 0
  deriving DecidableEq, Repr

/-- A raised cause with everything the frame records (R87, R291), the addresses that its access has tried to translate, and those for which it
has read the region table (R307). -/
structure Trap where
  cause : Nat
  check : Nat := 0
  lanes : Mask := 0
  addr : W64 := 0
  akind : Nat := 0
  ridx : Option Nat := none
  opnd : Nat := 0
  tag : Nat := 0
  icode : W32 := 0
  die : Nat := 0
  walks : List Nat := []
  tables : List Nat := []
  deriving DecidableEq, Repr

/-- Why a sheaf issues nothing although lanes are eligible. -/
inductive Pend where
  | idle
  /-- a boundary or irrevocable instruction, or an ERET, waits for the earlier chunks (R200, R298) -/
  | boundary (p : Path)
  /-- a release waits to be performed before the instruction of the path (R235, R237) -/
  | release (p : Path) (sys : Bool) (upto : Nat)
  /-- a FENCE waits at its scope (R237) -/
  | fence (rel acq sys : Bool) (upto : Nat)
  /-- a trap waits for its prefix to commit (R230) -/
  | trap (t : Trap) (p : Path)
  /-- a remote or system access waits for its value (R232) -/
  | access (id : Nat)
  /-- an atomic waits for the round in which its home performs it, in the order of `n` (R211, R233); `due`: the round has come -/
  | atomic (n : Nat) (p : Path) (due : Bool)
  deriving DecidableEq, Repr

/-- The gather latch of a quadrant (R262). -/
structure GatherLatch where
  sheaf : Nat
  bytes : List Byte
  bnds : List (Option Rat)
  poison : List Bool
  deriving DecidableEq, Repr

/-- A sheaf (R9, R223, R291, R294). -/
structure Sheaf where
  team : Nat := 0
  idx : Nat := 0
  core : Nat := 0
  quad : Nat := 0
  slot : Nat := 0
  regs : Regs := {}
  chunks : List Chunk := []
  nextChunk : Nat := 1
  waits : SMap Wait := []
  gate : SMap Nat := []
  hm : Bool := false
  tg : Mask := 0
  savedPc : List Pc := []
  savedWaits : SMap Wait := []
  frame : Frame := {}
  ext : BitVec 4 := 0
  eps : SMap Endpoint := []
  pend : Pend := .idle
  pickWait : Nat := 0
  yieldUntil : Nat := 0
  passes : SMap Nat := []
  parked : Option Pc := none
  closeNext : Bool := false
  /-- the sheaf's last instruction was an NW producer (R94, R95) -/
  nwLast : Bool := false
  /-- its quadrant's gather latch, while its team is out of its core -/
  gath : Option GatherLatch := none
  ended : Bool := false
  /-- the other path of a cycle in which a remote or system access has issued: it issues after the access (R19, R200) -/
  young : List Path := []
  /-- chunks squashed with an older one: their numbers and squashes, until each opens again (R228, R229) -/
  redo : List (Nat × Nat) := []
  deriving DecidableEq, Repr

/-- A named barrier (R282). `phases` counts its completed phases, for R257. -/
structure Bar where
  exp : Nat := 0
  arr : Nat := 0
  ph : Bool := false
  phases : Nat := 0
  deriving DecidableEq, Repr

/-- A completion counter (R30, R251). `late` are the numbers completed above the done count. -/
structure Counter where
  issued : Nat := 0
  done : Nat := 0
  late : List Nat := []
  deriving DecidableEq, Repr

/-- An accumulator tile (R30, R62): 256 words row by row, 16 row bounds, its format. -/
structure Tile where
  words : List W32 := []
  bnds : List EB16 := []
  fmt : Option Ty := none
  defined : Bool := false
  deriving DecidableEq, Repr

/-- Where a team stands. -/
inductive TeamStatus where
  | waiting       -- handed to the distributor, not placed
  | resident
  | faulted       -- a PAGE fault: being swapped out (R303)
  | swapped       -- in its swap slot
  | resumed       -- serviced, waiting to be placed again (R304)
  | saving        -- its save routines run (R301)
  | suspended     -- waiting to be placed again for its restore routines (R302)
  | ended
  deriving DecidableEq, Repr

/-- What the kernel object header gives (R274). -/
structure Header where
  entry : Nat := 0
  width : Nat := 16
  pair : Bool := false
  bounds : Bool := true
  regs : Nat := 8
  xpool : Nat := 0
  acc : Nat := 0
  scratch : Nat := 0
  allow : W32 := 0
  trappc : Nat := 0
  sptab : List (Nat × Nat × Nat) := []
  deriving DecidableEq, Repr

/-- A team (R10, R278). `core` is its core, or the even core of its pair; cores are numbered 72·die + R7's number. -/
structure Team where
  launch : Nat := 0
  index : Nat := 0
  ctx : Nat := 0
  part : Nat := 0
  core : Nat := 0
  sheaves : Nat := 1
  hdr : Header := {}
  status : TeamStatus := .waiting
  sp : Memory := []
  splb : SMap W64 := []
  spfe : SMap Bool := []
  sppoi : SMap Bool := []
  ctrs : SMap Counter := []
  bars : SMap Bar := []
  dn : SMap Mask := []
  tiles : SMap Tile := []
  cmds : List Cmd := []
  xq : List (Nat × BitVec 4 × Nat) := []
  preq : Bool := false
  savea : Nat := 0
  area : Option Nat := none
  slot : Option Nat := none
  fault : Option (Trap × Path × Bool) := none
  restore : List (Nat × Nat) := []
  /-- its save routines have started and it is not suspended yet (R301) -/
  inSave : Bool := false
  lastChild : List Nat := []
  deriving DecidableEq, Repr

/-- A launch (R271, R276, R279). `ready`: a child's waits are over (R276, R287). -/
structure Launch where
  queue : Nat := 0
  pkt : Nat := 0
  prio : Nat := 0
  ctx : Nat := 0
  part : Nat := 0
  hdr : Header := {}
  fx : Nat := 1
  fy : Nat := 1
  fz : Nat := 1
  sheaves : Nat := 1
  stagger : Nat := 0
  argp : Nat := 0
  imgb : Nat := 0
  kobj : Nat := 0
  done : Nat := 0
  started : Nat := 0
  ended : Nat := 0
  lastStart : SMap Nat := []
  after : List Nat := []
  dep : Nat := 0
  child : Bool := false
  ready : Bool := false
  completed : Bool := false
  deriving DecidableEq, Repr

/-- A child launch released and not yet read (R287). -/
structure Child where
  launch : Nat
  parent : Nat
  team : Nat
  va : Nat
  prio : Nat
  deriving DecidableEq, Repr

/-- A queue of the launch unit (R269, R270): its four descriptor words, the indices, the index recorded while EN is 0, the
packets taken and not completed. -/
structure Queue where
  d0 : W64 := 0
  d1 : W64 := 6
  d2 : W64 := 0
  d3 : W64 := 0
  widx : Nat := 0
  ridx : Nat := 0
  taken : Nat := 0
  recorded : Option Nat := none
  running : List (Nat × Nat) := []
  waiting : Bool := false
  turn : Nat := 0
  deriving DecidableEq, Repr

/-- A translation held in a core's TLB or in the green's unit (R174, R176): `bits` of the page, the leaf entry. -/
structure TlbEntry where
  ctx : Nat
  page : Nat
  bits : Nat
  leaf : W64
  deriving DecidableEq, Repr

/-- A region entry held in a region cache (R180, R185): the words 0x00 to 0x18, those of 0x28 to 0x38 for their reserved bits, and the address
ranges of it that another valid entry of the table covered when it was read (R181). -/
structure RegEntry where
  ctx : Nat
  idx : Nat
  w0 : W64
  w1 : W64
  w2 : W64
  w3 : W64
  w5 : W64 := 0
  w6 : W64 := 0
  w7 : W64 := 0
  amb : List (Nat × Nat) := []
  deriving DecidableEq, Repr

/-- A core's own state (R8, R17, R18, R92, R94, R174, R185). Quadrant data are keyed by the quadrant. -/
structure Core where
  latches : SMap (List Latch) := []
  lock : SMap (Nat × Nat) := []
  busy : SMap (List Nat) := []
  gather : SMap GatherLatch := []
  icache : List (Nat × Nat × List Byte) := []
  refetched : List (Nat × Nat) := []
  tlb : List TlbEntry := []
  regions : List RegEntry := []
  deriving DecidableEq, Repr

/-- An atomic operation of one lane that an entry carries, to be carried out when the entry is published (R211, R214, R233): the operation's
code, or 7 for a CAS with its compared bits, the element's place in the line, the operand with its bound and whether that is poisoned, whether bounds are carried and
STRICT is set, and whether the old value is owed to a peer. -/
structure PubOp where
  op : Nat
  ty : Ty
  cmp : W64 := 0
  ofs : Nat
  x : W64
  bnd : Option Rat
  poi : Bool := false
  bnds : Bool
  strict : Bool := false
  reply : Bool := false
  deriving DecidableEq, Repr

/-- A published entry waiting for its round (R233): the write, the sheaf whose boundary instruction made it and whose chunks see it, the team
it comes from, the sheaf that has made it with its first chunk that must follow it (R234), whether its home is the green (R235, R310), the
address whose contributor is acknowledged when it is applied (R324), the engine command it belongs to, the scratchpad word of a team that it
sets full (R266), the operation still to be carried out, and whether the write is that of an atomic whose old value has been taken at its
home, so that nothing else may be stored there before it (R211). -/
structure Pub where
  w : LineWrite
  own : Option Nat := none
  team : Option Nat := none
  maker : Option (Nat × Nat) := none
  green : Bool := false
  ack : Option Nat := none
  cmd : Option Nat := none
  full : Option (Nat × Nat) := none
  op : Option PubOp := none
  decided : Bool := false
  deriving DecidableEq, Repr

/-- A remote or system access in flight (R232): a load or an atomic whose path is performed when the access completes; a store; a RED
with its operation and type. -/
inductive FlightKind where
  | value (p : Path)
  | store (w : LineWrite)
  | red (op : Nat) (ty : Ty)
  deriving DecidableEq, Repr

/-- An access in flight: who issued it, its other addresses where its lanes reach several lines, and a RED's lanes as physical address, operand and bound, in lane order; the engine command
a store belongs to; for a system line, the mode and the target its window gave at issue (R313). -/
structure Flight where
  id : Nat
  sheaf : Nat
  team : Nat
  ctx : Nat
  pc : Pc
  lanes : Mask
  pa : Nat
  also : List Nat := []
  kind : FlightKind
  vals : List (Nat × W64 × EB32) := []
  chan : Option Nat := none
  cmd : Option Nat := none
  win : Option (Nat × Nat) := none
  deriving DecidableEq, Repr

/-- A 64-byte half of a system line held in a die L2 (R314, R315), and the target it came from. -/
structure SysHalf where
  bytes : List Byte
  owned : Bool
  dirty : Bool
  poison : Bool
  key : Option Nat := none
  deriving DecidableEq, Repr

/-- A key slot of a port (R328): its words, and the flits sent under its key. -/
structure KeySlot where
  words : SMap W64 := []
  count : Nat := 0
  deriving DecidableEq, Repr

/-- A flit sent and not acknowledged. -/
structure Flit where
  key : Nat
  iv : Nat
  deriving DecidableEq, Repr

/-- An Ouvhel port (R325 to R329): `nbr` names the neighbour that it has trained with (R326), `rxNum` is the number of the flit it accepts
next, and `newFrom` that of the first flit it has seen under the other key index (R329). -/
structure Port where
  up : Bool := false
  fail : BitVec 3 := 0
  spared : Bool := false
  crcerr : Nat := 0
  replay : Nat := 0
  txki : Nat := 0
  rxki : Nat := 0
  nbr : Nat := 0
  rxNum : Nat := 0
  newFrom : Option Nat := none
  tx : SMap KeySlot := []
  rx : SMap KeySlot := []
  unacked : List Flit := []
  tagfails : Nat := 0
  deriving DecidableEq, Repr

/-- A context's hint ring as the green holds it (R319). -/
structure HintRing where
  base : W64 := 0
  wi : Nat := 0
  ri : Nat := 0
  dropped : Nat := 0
  deriving DecidableEq, Repr

/-- A partition (R288, R341): its context, whether a switch is under way and to what. -/
structure Partition where
  ctx : Option Nat := none
  busy : Bool := false
  idle : Bool := false
  staged : Bool := false
  next : Nat := 0
  deriving DecidableEq, Repr

/-- What the device says to the outside. -/
inductive Out where
  | msix (vector : Nat)
  | data (bytes : List Byte) (poison : Bool)
  | peerData (bytes : List Byte) (lb : W64) (poison : Bool)
  | peerError
  | peerAck (pa : Nat)
  | limitReport (team : Nat)
  deriving DecidableEq, Repr

/-- The state of the device. -/
structure State where
  /-- cycles of the arithmetic clock since reset (R300) and rounds of the reeve (R226) -/
  cycle : Nat := 0
  round : Nat := 0
  /-- DEVSTAT, FEATACK, CTXTB (R334 to R339) -/
  phase : Nat := 0
  failCode : Byte := 0
  absent : Byte := 0
  featack : List W64 := [0, 0, 0, 0]
  ctxtb : W64 := 0
  fuse : SMap (W64 × W64) := []
  /-- PARTCFG and the partitions (R340, R341) -/
  partcfg : W64 := 0
  parts : SMap Partition := []
  /-- PWRLIM, PWRCFG, PWRSTAT, PWRMEAS (R342) and telemetry (R344) -/
  pwrlim : W64 := 0x07D0
  pwrcfg : W64 := 0x000A0000
  target : Nat := 2000
  clkMhz : Nat := 700
  /-- the clock that the next commit-round boundary brings (R343) -/
  clkNext : Nat := 700
  /-- the power of the last milliseconds in mW, the latest first, at most 1,000 (R342) -/
  samples : List Nat := []
  pwrFloor : Bool := false
  energy : Nat := 0
  avg : Nat := 0
  inst : Nat := 0
  tele : List W64 := [0, 0, 0, 0, 0, 0]
  /-- TLBIVA, TLBICMD (R179), TRESUME (R341) -/
  tlbiva : W64 := 0
  tlbicmd : W64 := 0x10
  tresume : W64 := 0
  /-- SYSWINA, SYSWINB (R312), the event ring (R330), DEVNUM (R320), REDWIN (R323) -/
  sysA : SMap W64 := []
  sysB : SMap W64 := []
  ringBase : W64 := 0
  ringWi : W64 := 0
  ringRi : W64 := 0
  ringDropped : Nat := 0
  devnum : Nat := 0
  peers : List Nat := []
  /-- the ports through which the fabric manager routes a device number (R320, R326) -/
  routes : SMap (List Nat) := []
  redwin : SMap W64 := []
  ports : SMap Port := []
  /-- queues, launches, teams, sheaves, cores -/
  queues : SMap Queue := []
  launches : SMap Launch := []
  children : SMap (List Child) := []
  teams : SMap Team := []
  sheaves : SMap Sheaf := []
  cores : SMap Core := []
  /-- the green's translation unit (R175) -/
  gtlb : List TlbEntry := []
  gregions : List RegEntry := []
  ended : List Nat := []
  hints : SMap HintRing := []
  /-- the local map: bytes, LB64 by line, poison by line (R51, R74, R170) -/
  mem : Memory := []
  lb : SMap W64 := []
  poison : SMap Bool := []
  /-- the model's record of the coded blocks, by LB64 slot, that an encode has cleared of the mark of a storage line (R74, log 86) -/
  blockClean : List (Nat × Nat) := []
  /-- lines whose last write-back to the green is older than their contents: what the green holds (R235) -/
  green : SMap LineData := []
  /-- host, pool and peer memory outside the package, and its poison by half -/
  ext : Memory := []
  extPoison : SMap Bool := []
  extLb : SMap W64 := []
  /-- outside the package too: the ports whose peer has accepted LINKENC (R338). DESIGN CHOICE (log 102) -/
  peerEnc : List Nat := []
  pubs : List Pub := []
  remHeld : SMap LineData := []
  sysHeld : SMap SysHalf := []
  flights : List Flight := []
  chanSeq : SMap Nat := []
  /-- ordered channels as the home sees them (R322): device, channel key, next sequence number; stores that came early -/
  chanNext : List (Nat × Nat × Nat) := []
  chanHeld : List (Nat × Nat × Nat × LineWrite) := []
  /-- accesses below this number have gone out through a port -/
  sentUpTo : Nat := 0
  /-- priority tokens: die to the holder's sheaf and chunk with the number at which it took the token; sheaves whose holder gained
  precedence (R229) -/
  tokens : SMap (Nat × Nat × Nat) := []
  precedence : List Nat := []
  nextId : Nat := 1
  /-- the instructions of the current issue, older first; events and inputs to come -/
  issue : List Path := []
  agenda : List Instr := []
  out : List Out := []
  /-- the model's own field: counts the free values taken -/
  freeCtr : Nat := 0
  deriving DecidableEq, Repr

/-- The machine right after reset: PHASE 0 of R336, with nothing placed and nothing listed. DESIGN CHOICE (log 1). -/
def State.reset : State := {}

end Sys2Proof.Machine
end

