-- ==== Sys2Proof/Machine/Bound.lean ====
section
/-! DEFINITION. Bounds: the encodings of R48 and R49, the line bounds of R51 to R56, and the value of a bound with its poison. -/

namespace Sys2Proof.Machine

/-- A bound: its value, infinity being `none`, and whether it is poisoned (R48, R74). -/
structure Bnd where
  x : X := some 0
  poi : Bool := false
  deriving DecidableEq, Repr

def Bnd.zero : Bnd := {}
def Bnd.lost : Bnd := { x := none }
def Bnd.poison : Bnd := { x := none, poi := true }
def Bnd.isZero (b : Bnd) : Bool := b.x = some 0
def Bnd.isInf (b : Bnd) : Bool := b.x = none
def Bnd.of (x : X) : Bnd := { x := x }
def Bnd.max (a b : Bnd) : Bnd := { x := xmax a.x b.x, poi := a.poi || b.poi }

/-- R48. -/
def Bnd.ofEb16 (b : EB16) : Bnd :=
  let e : Nat := b.toNat / 256
  let f : Nat := b.toNat % 256
  if e = 255 then (if f = 255 then .poison else .lost)
  else if e = 0 then (if f = 0 then .zero else .of (some (pow2 (-126))))
  else .of (some (((256 + f : Nat) : Rat) * pow2 ((e : Int) - 135)))

/-- R49. -/
def Bnd.ofEb32 (b : EB32) : Bnd :=
  let e : Nat := b.toNat / 2 ^ 21
  let f : Nat := b.toNat % 2 ^ 21
  if e = 2047 then (if f = 2 ^ 21 - 1 then .poison else .lost)
  else if e = 0 then .zero
  else .of (some (((2 ^ 21 + f : Nat) : Rat) * pow2 ((e : Int) - 1044)))

/-- A positive bound rounded up to `1 + fb` bits: the exponent of the leading bit and the significand. -/
def ebParts (fb : Nat) (q : Rat) : Int × Nat :=
  let e := ilog2 q
  let m := ratCeil (q * pow2 (fb - e))
  if m = 2 ^ (fb + 1) then (e + 1, 2 ^ fb) else (e, m)

/-- The encoding of R48, rounding up (R50 step 4). -/
def Bnd.eb16 (b : Bnd) : EB16 :=
  if b.poi then 0xFFFF else
  match b.x with
  | none => 0xFF00
  | some q =>
    if q = 0 then 0 else
    let (e, m) := ebParts 8 q
    if e < -126 then 0x0100
    else if 127 < e then 0xFF00
    else BitVec.ofNat 16 ((e + 127).toNat * 256 + (m - 256))

/-- The encoding of R49, rounding up (R50 step 4). -/
def Bnd.eb32 (b : Bnd) : EB32 :=
  if b.poi then 0xFFFFFFFF else
  match b.x with
  | none => 0xFFE0FF00
  | some q =>
    if q = 0 then 0 else
    let (e, m) := ebParts 21 q
    if e < -1022 then 0x00200000
    else if 1023 < e then 0xFFE0FF00
    else BitVec.ofNat 32 ((e + 1023).toNat * 2 ^ 21 + (m - 2 ^ 21))

/-- An EB32 rounded up to EB16, and an EB16 widened (R50). -/
def eb32to16 (b : EB32) : EB16 := (Bnd.ofEb32 b).eb16
def eb16to32 (b : EB16) : EB32 := (Bnd.ofEb16 b).eb32

/-! Line bounds (R51 to R54). -/

def lbKind (w : W64) : Nat := w.toNat / 2 ^ 60 % 4
def lbExp (w : W64) : Nat := w.toNat % 2 ^ 12
def lbCode (w : W64) (g : Nat) : Nat := w.toNat / 2 ^ (12 + 6 * g) % 64

/-- The group bound a code stands for (R52). -/
def lbValue (e c : Nat) : X :=
  if c = 0 then some 0
  else if c = 63 then none
  else some (mkRat (4 + (c - 1) % 4 : Nat) 4 * pow2 ((e : Int) - 2047 - (((c - 1) / 4 : Nat) : Int)))

/-- The bound of group `g` of an LB64. -/
def lbGroup (w : W64) (g : Nat) : X := lbValue (lbExp w) (lbCode w g)

/-- The smallest E for which a finite bound is expressible (R53 step 2). -/
def lbExpFor (q : Rat) : Nat :=
  if q = 0 then 0
  else
    let e := ilog2 q
    ((if q ≤ mkRat 7 4 * pow2 e then e else e + 1) + 2047).toNat

/-- The code of the smallest expressible value not below a bound (R53 step 3). -/
def lbCodeFor (e : Nat) (x : X) : Nat :=
  match x with
  | none => 63
  | some q =>
    if q = 0 then 0
    else
      let l := ilog2 q
      let m := ratCeil (q * pow2 (2 - l))
      let k : Int := (e : Int) - 2047 - l
      let k' : Int := if m = 8 then k - 1 else k
      let m' : Nat := if m = 8 then 0 else m - 4
      if 15 < k' then 61
      else if k' = 15 ∧ 2 ≤ m' then 57
      else (1 + 4 * k' + m').toNat

/-- An LB64 from its fields. -/
def lbMake (kind e : Nat) (codes : List Nat) : W64 :=
  BitVec.ofNat 64 (kind * 2 ^ 60 + e + ((List.range 8).map (fun g => codes.getD g 0 * 2 ^ (12 + 6 * g))).sum)

/-- The largest finite bound of the groups. -/
def xmaxFin (l : List X) : Rat := l.foldl (fun a x => match x with | none => a | some q => max a q) 0

/-- R53: all eight group bounds given. -/
def lbWhole (kind : Nat) (gs : List X) : W64 :=
  let e := lbExpFor (xmaxFin gs)
  lbMake kind e (gs.map (lbCodeFor e))

/-- R54: `full g` says every byte of group `g` is written, `new g` the largest bound stored there, `none` where nothing is. -/
def lbPartial (w : W64) (kind : Nat) (full : Nat → Bool) (new : Nat → Option X) : W64 :=
  let gs : List X := (List.range 8).map (fun g =>
    match new g with
    | none => lbGroup w g
    | some b => if full g then b else xmax (lbGroup w g) b)
  let need := lbExpFor (xmaxFin gs)
  if lbExp w < need then lbMake kind need (gs.map (lbCodeFor need))
  else lbMake kind (lbExp w) ((List.range 8).map (fun g =>
    match new g with
    | none => lbCode w g
    | some _ => lbCodeFor (lbExp w) (gs.getD g (some 0))))

/-- The largest bound of the elements of a group, if any element touches it; poison counts as infinite here, since the line's
mark carries it (R74). -/
def groupMax (es : List Elem) (g : Nat) : Option X :=
  es.foldl (fun a e =>
    if e.ofs / 16 ≤ g ∧ g ≤ (e.ofs + e.len - 1) / 16 then
      let b := (Bnd.ofEb32 e.bnd).x
      some (match a with | none => b | some x => xmax x b)
    else a) none

/-- Does a byte list cover every offset from `lo` up to `lo + n - 1`? -/
def covers (bs : List (Nat × Byte)) (lo n : Nat) : Bool :=
  (List.range n).all (fun k => bs.any (fun b => b.1 = lo + k))

/-- Is any stored element poisoned? -/
def anyPoison (es : List Elem) : Bool := es.any (fun e => (Bnd.ofEb32 e.bnd).poi)

/-- The LB64 after a write into a line (R53, R54, R56). `coded`: a coded-block line, whose KIND stays 11. -/
def lbAfter (coded : Bool) (old : W64) (w : LineWrite) : W64 :=
  let kind := if coded then 3 else if w.wide then 2 else 1
  if w.untracked then 0
  else if covers w.bytes 0 128 then lbWhole kind ((List.range 8).map (fun g => (groupMax w.elems g).getD (some 0)))
  else if lbKind old = 0 then old
  else lbPartial old kind (fun g => covers w.bytes (16 * g) 16) (groupMax w.elems)

/-- The bound of bytes `ofs` to `ofs + len - 1` of a line (R55); an element of a coded line that the chunk has written keeps its stored
bound (R192). -/
def lineBound (strict : Bool) (d : LineData) (ofs len : Nat) : Bnd :=
  if d.poison || (d.halfPoi.1 && decide (ofs < 64)) || (d.halfPoi.2 && decide (64 < ofs + len)) then .poison
  else match d.fresh.find? (fun e => e.1 = ofs / 8) with
  | some e => .ofEb32 e.2
  | none =>
  if d.lostEls.contains (ofs / 8) then .lost
  else if lbKind d.lb = 0 then (if strict then .lost else .zero)
  else .of (((List.range 8).filter (fun g => ofs / 16 ≤ g && g ≤ (ofs + len - 1) / 16)).foldl
    (fun a g => xmax a (lbGroup d.lb g)) (some 0))

/-- Is a line one of system memory? -/
def Line.isSys (l : Line) : Bool := match l with | .sys _ => true | _ => false

/-- The poison mark of half `k` of a system line after a write (R314, R317). DEDUCED (log 52). -/
def halfAfter (w : LineWrite) (k : Nat) (old : Bool) : Bool :=
  anyPoison (w.elems.filter (fun e => decide (e.ofs < 64 * k + 64) && decide (64 * k < e.ofs + e.len)))
  || (old && !covers w.bytes (64 * k) 64)

/-- A line after a write: bytes, LB64, poison marks (R53, R54, R74, R317). A write that covers the line clears its mark; DESIGN CHOICE
(log 85): what covers is one instruction's, one element's or one row's write, never several of them together. -/
def LineData.write (d : LineData) (coded : Bool) (w : LineWrite) : LineData :=
  { bytes := (List.range 128).map (fun k => ((w.bytes.reverse.find? (fun b => b.1 = k)).map (·.2)).getD (d.bytes.getD k 0))
    lb := lbAfter coded d.lb w
    poison := !w.line.isSys && (anyPoison w.elems || (d.poison && !covers w.bytes 0 128))
    halfPoi := if w.line.isSys then (halfAfter w 0 d.halfPoi.1, halfAfter w 1 d.halfPoi.2) else (false, false)
    lostEls := d.lostEls.filter (fun i => !w.elems.any (fun e => e.ofs / 8 = i))
    fresh := if coded then (w.elems.reverse.map (fun e => (e.ofs / 8, e.bnd))) ++ d.fresh else [] }

end Sys2Proof.Machine
end

