-- ==== Sys2Proof/Machine/Codec.lean ====
section
/-! DEFINITION. The FBC block codec (R187 to R191), bit for bit. A stream is a list of bits, bit 0 first. -/

namespace Sys2Proof.Machine

/-- A field of `w` bits, bit 0 first (R187). -/
def bitsOf (w n : Nat) : List Bool := (List.range w).map (fun k => n.testBit k)

/-- The number a list of bits stands for, bit 0 first. -/
def bitsNat (l : List Bool) : Nat := l.foldr (fun b a => (if b then 1 else 0) + 2 * a) 0

/-- S4 and its inverse (R189 step 2, R190). -/
def s4 (x0 x1 x2 x3 : Int) : Int × Int × Int × Int :=
  let h0 := x1 - x0
  let l0 := x0 + h0 / 2
  let h1 := x3 - x2
  let l1 := x2 + h1 / 2
  let hh := l1 - l0
  (l0 + hh / 2, hh, h0, h1)

def s4inv (ll hh h0 h1 : Int) : Int × Int × Int × Int :=
  let l0 := ll - hh / 2
  let l1 := l0 + hh
  let x0 := l0 - h0 / 2
  let x2 := l1 - h1 / 2
  (x0, x0 + h0, x2, x2 + h1)

/-- The coefficients c0 to c15 of sixteen integers (R189 steps 3 to 5). -/
def coeffs (q : List Int) : List Int :=
  let g := fun k => s4 (q.getD (4 * k) 0) (q.getD (4 * k + 1) 0) (q.getD (4 * k + 2) 0) (q.getD (4 * k + 3) 0)
  let (a0, b0, c0, d0) := g 0
  let (a1, b1, c1, d1) := g 1
  let (a2, b2, c2, d2) := g 2
  let (a3, b3, c3, d3) := g 3
  let (p, r, s, t) := s4 a0 a1 a2 a3
  [p, r, s, t, b0, b1, b2, b3, c0, d0, c1, d1, c2, d2, c3, d3]

/-- The sixteen integers of the coefficients (R190). -/
def uncoeffs (c : List Int) : List Int :=
  let at' := fun k => c.getD k 0
  let (a0, a1, a2, a3) := s4inv (at' 0) (at' 1) (at' 2) (at' 3)
  let g := fun a b k =>
    let (w, x, y, z) := s4inv a b (at' (8 + 2 * k)) (at' (9 + 2 * k))
    [w, x, y, z]
  g a0 (at' 4) 0 ++ g a1 (at' 5) 1 ++ g a2 (at' 6) 2 ++ g a3 (at' 7) 3

/-- The planes from `k` plane downward, `n` of them, `sig` saying which coefficients are significant (R189 step 6). -/
def encPlanes (c : List Int) : Nat → Nat → List Bool → List Bool
  | 0, _, _ => []
  | n + 1, k, sig =>
    let bit := fun (x : Int) => x.natAbs.testBit k
    let pairs := c.zip sig
    let a := (pairs.filter (·.2)).map (fun p => bit p.1)
    let rest := (pairs.filter (fun p => !p.2)).map (·.1)
    let grp := rest.any bit
    let b := if rest.isEmpty then [] else [grp]
    let d := if grp then rest.flatMap (fun x => if bit x then [true, decide (x < 0)] else [false]) else []
    a ++ b ++ d ++ encPlanes c n (k - 1) (pairs.map (fun p => p.2 || bit p.1))

/-- The biased exponent of a finite non-zero F64, a subnormal counting as 1 (R188). -/
def biasedExp (q : Rat) : Nat := if q = 0 then 1 else (max (ilog2 q) (-1022) + 1023).toNat

/-- Encode sixteen values at `r` bits a value (R188, R189). -/
def fbcEncode (r : Nat) (v : List FVal) : List Bool :=
  let n := 16 * r
  let finite := v.filter (fun x => x.isFin && !x.isZero)
  let emax := finite.foldl (fun a x => max a (biasedExp (x.abs.getD 0))) 0
  let special := v.any (fun x => !x.isFin)
  let zero := v.all FVal.isZero
  let q : List Int := v.map (fun x => match x with
    | .fin neg m =>
      let t : Int := ratFloor (m * pow2 (1080 - (emax : Int)))
      if neg then -t else t
    | _ => 0)
  let c := coeffs q
  let top := c.foldl (fun a x => max a (Nat.log2 x.natAbs)) 0
  let bot := ((List.range (top + 1)).find? (fun k => c.any (fun x => x.natAbs.testBit k))).getD 0
  let body := bitsOf 6 top ++ bitsOf 6 bot ++ encPlanes c (top + 1 - bot) top (List.replicate 16 false)
  let bits :=
    if zero then bitsOf 2 1
    else if special then
      bitsOf 2 2 ++ bitsOf 11 emax ++ v.map (fun x => !x.isFin)
        ++ (v.filter (fun x => !x.isFin)).flatMap (fun x => bitsOf 2 (match x with | .inf false => 0 | .inf true => 1 | _ => 2))
        ++ (if emax = 0 then [] else body)
    else bitsOf 2 0 ++ bitsOf 11 emax ++ body
  (bits ++ List.replicate n false).take n

/-- A coefficient as the decoder rebuilds it: significant, its received magnitude and sign, the lowest plane received for it,
the lowest plane at which a 0 was received for it while it was not significant. -/
structure Coef where
  sig : Bool := false
  mag : Nat := 0
  neg : Bool := false
  low : Nat := 0
  zeroAt : Option Nat := none
  deriving DecidableEq, Repr

/-- Read the bit of plane `k` of every significant coefficient (R189 step 6a). -/
def decSig (k : Nat) : List Coef → List Bool → List Coef × List Bool
  | [], bs => ([], bs)
  | c :: cs, bs =>
    if c.sig then
      match bs with
      | [] => (c :: cs, [])
      | b :: bs' =>
        let (r, z) := decSig k cs bs'
        ({ c with mag := c.mag + (if b then 2 ^ k else 0), low := k } :: r, z)
    else
      let (r, z) := decSig k cs bs
      (c :: r, z)

/-- Read the bits and signs of the coefficients not significant before plane `k` (step 6c). `fresh` lists which those are. -/
def decNew (k : Nat) : List (Coef × Bool) → List Bool → List Coef × List Bool
  | [], bs => ([], bs)
  | (c, fresh) :: cs, bs =>
    if fresh then
      match bs with
      | [] => (c :: cs.map (·.1), [])
      | false :: bs' =>
        let (r, z) := decNew k cs bs'
        ({ c with zeroAt := some k } :: r, z)
      | [true] => (c :: cs.map (·.1), [])
      | true :: s :: bs' =>
        let (r, z) := decNew k cs bs'
        ({ c with sig := true, mag := 2 ^ k, neg := s, low := k } :: r, z)
    else
      let (r, z) := decNew k cs bs
      (c :: r, z)

/-- One plane (R189 step 6, R190). -/
def decPlane (k : Nat) (cs : List Coef) (bs : List Bool) : List Coef × List Bool :=
  let fresh := cs.map (fun c => !c.sig)
  let (cs1, bs1) := decSig k cs bs
  if fresh.any id then
    match bs1 with
    | [] => (cs1, [])
    | false :: bs2 => (cs1.map (fun c => if c.sig then c else { c with zeroAt := some k }), bs2)
    | true :: bs2 => decNew k (cs1.zip fresh) bs2
  else (cs1, bs1)

def decPlanes : Nat → Nat → List Coef → List Bool → List Coef
  | 0, _, cs, _ => cs
  | n + 1, k, cs, bs =>
    let (cs1, bs1) := decPlane k cs bs
    decPlanes n (k - 1) cs1 bs1

/-- The rebuilt coefficient (R190). -/
def Coef.value (bot : Nat) (c : Coef) : Int :=
  if c.sig then
    let m := c.mag + (if bot < c.low then 2 ^ (c.low - 1) else 0)
    if c.neg then -(m : Int) else m
  else 0

/-- The coefficient's term of Ec (R191). -/
def Coef.term (top bot : Nat) (c : Coef) : Nat :=
  if c.sig then (if bot < c.low then 2 ^ (c.low - 1) else 0)
  else match c.zeroAt with | some t => 2 ^ t | none => 2 ^ (top + 1)

/-- A decoded block: poisoned, or sixteen values with what R191 needs of them. -/
structure Decoded where
  poison : Bool := false
  vals : List FVal := []
  ovf : List Bool := []
  emax : Nat := 0
  ec : Nat := 0
  deriving DecidableEq, Repr

def Decoded.bad : Decoded := { poison := true, vals := List.replicate 16 .nan, ovf := List.replicate 16 true }

/-- The planes, from P on, of a block whose exponent is known (R190). -/
def fbcBody (emax : Nat) (bs : List Bool) : Option (List Rounded × Nat) :=
  let top := bitsNat (bs.take 6)
  let bot := bitsNat ((bs.drop 6).take 6)
  if bs.length < 12 ∨ 59 < top ∨ top < bot then none
  else
    let cs := decPlanes (top + 1 - bot) top (List.replicate 16 {}) (bs.drop 12)
    let xs := uncoeffs (cs.map (Coef.value bot))
    let vals := xs.map (fun x => rndFin .f64 .rn (decide (x < 0)) ((x.natAbs : Rat) * pow2 ((emax : Int) - 1080)))
    some (vals, cs.foldl (fun a c => max a (c.term top bot)) 0)

/-- Put the specials of a special block into place (R190). `cs` are the pairs of code bits, `i` the position. -/
def placeSpecials : List Bool → List Bool → List FVal → List FVal
  | [], _, vs => vs
  | _, _, [] => []
  | false :: ms, cs, v :: vs => v :: placeSpecials ms cs vs
  | true :: ms, cs, _ :: vs =>
    (match bitsNat (cs.take 2) with | 0 => FVal.inf false | 1 => .inf true | _ => .nan) :: placeSpecials ms (cs.drop 2) vs

/-- Decode a stream (R190). -/
def fbcDecode (bs : List Bool) : Decoded :=
  let kind := bitsNat (bs.take 2)
  let emax := bitsNat ((bs.drop 2).take 11)
  let b2 := bs.drop 13
  if kind = 1 then { vals := List.replicate 16 (.fin false 0), ovf := List.replicate 16 false }
  else if kind = 3 then .bad
  else if kind = 0 then
    if emax = 0 ∨ emax = 2047 then .bad
    else match fbcBody emax b2 with
      | none => .bad
      | some (vs, ec) => { vals := vs.map (·.val), ovf := vs.map (fun r => r.val.isInf), emax := emax, ec := ec }
  else
    let mask := b2.take 16
    let nsp := (mask.filter id).length
    let codes := (b2.drop 16).take (2 * nsp)
    let b3 := b2.drop (16 + 2 * nsp)
    if emax = 2047 ∨ nsp = 0 ∨ b2.length < 16 + 2 * nsp then .bad
    else if emax = 0 then
      { vals := placeSpecials mask codes (List.replicate 16 (.fin false 0)), ovf := List.replicate 16 false }
    else match fbcBody emax b3 with
      | none => .bad
      | some (vs, ec) =>
        { vals := placeSpecials mask codes (vs.map (·.val)), ovf := (vs.zip mask).map (fun p => p.1.val.isInf && !p.2)
          emax := emax, ec := ec }

/-- δi of an encode (R191): `v` the value encoded, `d` the decoded one. -/
def codecBound (dec : Decoded) (v d : FVal) : X :=
  if !v.isFin then some 0
  else if v.rat = d.rat ∧ d.isFin then some 0
  else if !d.isFin then none
  else
    let a := xmul (xadd (xmul (some 4) (some (dec.ec : Rat))) (some 7)) (some (pow2 ((dec.emax : Int) - 1080)))
    xadd a (some (pow2 ((biasedExp (d.abs.getD 0) : Int) - 1076)))

/-- The bytes of a stream: stream bit j is bit j & 7 of byte j >> 3 (R178). -/
def streamBytes (bs : List Bool) : List Byte :=
  (List.range (bs.length / 8)).map (fun k => BitVec.ofNat 8 (bitsNat ((bs.drop (8 * k)).take 8)))

def streamBits (l : List Byte) : List Bool := l.flatMap (fun b => bitsOf 8 b.toNat)

end Sys2Proof.Machine
end

