-- ==== Sys2Proof/Machine/Mem.lean ====
section
/-! DEFINITION. Memory: bytes in canonical form, physical addresses (R169, R170), context descriptors (R339), page tables
(R176 to R178), region entries (R180 to R183), and lines as every level of the memory shows them (R171 to R173). -/

namespace Sys2Proof.Machine

/-! Numbers in the order of a key. -/

/-- Insert a number where its key stands, after those of the same key. -/
def insertBy (key : Nat → Nat) (a : Nat) : List Nat → List Nat
  | [] => [a]
  | b :: r => if key b ≤ key a then b :: insertBy key a r else a :: b :: r

/-- A list in rising order of a key; equal keys keep their order. -/
def sortBy (key : Nat → Nat) (l : List Nat) : List Nat := l.foldl (fun r a => insertBy key a r) []

/-! Bytes. An unlisted address reads 0: every location is written with 0 at bring-up (R336). -/

/-- The byte at an address. DESIGN CHOICE (log 8). -/
def Memory.get (m : Memory) (a : Nat) : Byte :=
  match m with
  | [] => 0
  | (b, x) :: r => if b = a then x else Memory.get r a

/-- Write a byte, keeping addresses rising and listing no zero. -/
def Memory.put (m : Memory) (a : Nat) (x : Byte) : Memory :=
  match m with
  | [] => if x = 0 then [] else [(a, x)]
  | (b, y) :: r =>
    if a < b then (if x = 0 then (b, y) :: r else (a, x) :: (b, y) :: r)
    else if a = b then (if x = 0 then r else (a, x) :: r)
    else (b, y) :: Memory.put r a x

/-- The canonical form: every key of the tail above the head's, no byte 0. -/
def Memory.wfFrom (lo : Nat) (m : Memory) : Bool :=
  match m with
  | [] => true
  | (a, x) :: r => decide (lo ≤ a) && decide (x ≠ 0) && Memory.wfFrom (a + 1) r

def Memory.wf (m : Memory) : Bool := Memory.wfFrom 0 m

/-- `n` bytes from an address on. -/
def Memory.read (m : Memory) (a n : Nat) : List Byte := (List.range n).map (fun k => Memory.get m (a + k))

/-- Write bytes from an address on. -/
def Memory.write (m : Memory) (a : Nat) (bs : List Byte) : Memory :=
  match bs with
  | [] => m
  | b :: r => Memory.write (Memory.put m a b) (a + 1) r

/-- Write bytes at offsets from an address. -/
def Memory.writeAt (m : Memory) (a : Nat) (bs : List (Nat × Byte)) : Memory :=
  bs.foldl (fun acc p => Memory.put acc (a + p.1) p.2) m

/-- The little-endian number of a list of bytes (R2). -/
def leNat (bs : List Byte) : Nat := bs.foldr (fun b a => b.toNat + 256 * a) 0

/-- The `n` little-endian bytes of a number. -/
def leBytes (n v : Nat) : List Byte := (List.range n).map (fun k => BitVec.ofNat 8 (v / 256 ^ k))

/-- Bits [hi:lo] of a number. -/
def bitsAt (v hi lo : Nat) : Nat := v / 2 ^ lo % 2 ^ (hi + 1 - lo)

def State.rd64 (s : State) (pa : Nat) : Nat := leNat (Memory.read s.mem pa 8)

/-- Lay bytes at a physical address over a line that the green holds. -/
def LineData.patch (d : LineData) (n pa : Nat) (bs : List Byte) : LineData :=
  { d with bytes := (List.range 128).map (fun k =>
      let a := 128 * n + k
      if pa ≤ a ∧ a < pa + bs.length then bs.getD (a - pa) 0 else d.bytes.getD k 0) }

/-- A write by hardware of local memory that is at the green at once: every copy the green holds shows it too (R193, R235). -/
def State.through (s : State) (pa : Nat) (bs : List Byte) : State :=
  { s with mem := Memory.write s.mem pa bs, green := s.green.map (fun g => (g.1, g.2.patch g.1 pa bs)) }

def State.wr64 (s : State) (pa v : Nat) : State := s.through pa (leBytes 8 v)

/-! Physical addresses. -/

/-- Bytes of one HBM4 stack (R170). -/
def stackBytes : Nat := 0x1800000000
/-- The granary's first offset (R170). -/
def granaryBase : Nat := 0xC000000000
/-- Bytes of the granary carve (R340). -/
def State.carve (s : State) : Nat := bitsAt s.partcfg.toNat 6 3 * 0x4000000

/-- Is an offset of the local map backed by storage (R170)? DESIGN CHOICE (log 7). -/
def State.localOk (s : State) (o : Nat) : Bool := decide (o < granaryBase + s.carve)

def paRemote (pa : Nat) : Bool := decide (2 ^ 51 ≤ pa)
def paSystem (pa : Nat) : Bool := decide (2 ^ 50 ≤ pa) && decide (pa < 2 ^ 51)

/-- Is a physical address one R169 and R170 do not reserve? DESIGN CHOICE (log 113): no remote address is reserved, whatever its offset names in
the other device's map. -/
def State.paOk (s : State) (pa : Nat) : Bool := paRemote pa || paSystem pa || s.localOk pa

/-- The die whose stack serves a local address (R6, R170); the granary is no die's. -/
def paDie (pa : Nat) : Option Nat := if pa < granaryBase then some (pa / stackBytes) else none

def State.dieAbsent (s : State) (d : Nat) : Bool := s.absent.getLsbD d

/-- The device a remote address names, and the offset in its local map (R169). -/
def remDev (pa : Nat) : Nat := bitsAt pa 50 40
def remOfs (pa : Nat) : Nat := bitsAt pa 39 0

/-- The die of this device whose stack serves a physical address: by way of the fabric too, where it names this device's own number (R169). -/
def State.dieAt (s : State) (pa : Nat) : Option Nat := paDie (if paRemote pa && remDev pa = s.devnum then remOfs pa else pa)

/-! Contexts (R339). -/

def State.descAddr (s : State) (ctx : Nat) : Nat := bitsAt s.ctxtb.toNat 51 6 * 64 + 64 * ctx

/-- The lost die, if any, whose stack holds an address: it is never served (R307, R335). -/
def State.lostAt (s : State) (pa : Nat) : Option Nat := (s.dieAt pa).filter s.dieAbsent

/-- A field of a context's descriptor. On a lost die nothing is served, and the descriptor counts as not valid. DEDUCED (log 87). -/
def State.desc (s : State) (ctx hi lo : Nat) : Nat :=
  if (s.lostAt (s.descAddr ctx)).isSome then 0 else bitsAt (leNat (Memory.read s.mem (s.descAddr ctx) 64)) hi lo

def State.ptRoot (s : State) (ctx : Nat) : Nat := s.desc ctx 51 12 * 4096
def State.regionBase (s : State) (ctx : Nat) : Nat := s.desc ctx 179 142 * 2 ^ 14
def State.recordAddr (s : State) (ctx : Nat) : Nat := s.desc ctx 243 198 * 64

/-- Valid and not malformed (R339). DESIGN CHOICE (log 120): a descriptor is malformed where a reserved bit is set, SAVELOG2 lies outside 12 to
24, or SAVEV is not a multiple of 64 KiB. -/
def State.descOk (s : State) (ctx : Nat) : Bool :=
  s.desc ctx 63 63 = 1 && s.desc ctx 61 52 = 0 && s.desc ctx 11 0 = 0 && s.desc ctx 69 64 = 0 && s.desc ctx 127 114 = 0
  && s.desc ctx 141 128 = 0 && s.desc ctx 191 180 = 0 && s.desc ctx 197 192 = 0 && s.desc ctx 255 244 = 0
  && s.desc ctx 278 256 = 0 && s.desc ctx 319 308 = 0 && s.desc ctx 335 320 = 0 && s.desc ctx 383 372 = 0
  && s.desc ctx 399 389 = 0 && s.desc ctx 447 432 = 0
  && decide (12 ≤ s.desc ctx 388 384) && decide (s.desc ctx 388 384 ≤ 24) && s.desc ctx 471 456 = 0

def State.feat (s : State) (w b : Nat) : Bool := (s.featack.getD w 0).getLsbD b

/-- The trusted-bounds flag (R164, R338). -/
def State.trusted (s : State) (ctx : Nat) : Bool := s.desc ctx 62 62 = 1 && s.feat 0 8

/-- The touched-dies mask (R307), byte 56 of the descriptor. DEDUCED (log 51). -/
def State.diesMask (s : State) (ctx : Nat) : Nat := s.desc ctx 455 448

def State.touchDie (s : State) (ctx d : Nat) : State :=
  let m := s.diesMask ctx
  if m.testBit d || s.dieAbsent d || (s.lostAt (s.descAddr ctx)).isSome then s
  else { s with mem := Memory.put s.mem (s.descAddr ctx + 56) (BitVec.ofNat 8 (m + 2 ^ d)) }

def State.touchPa (s : State) (ctx pa : Nat) : State :=
  match s.dieAt pa with
  | some d => s.touchDie ctx d
  | none => s

/-! Translation. -/

/-- The rates of a coded leaf or entry (R176). -/
def rateOf (code : Nat) : Nat := [8, 12, 16, 24, 32].getD code 0

/-- The outcome of a walk (R177): a leaf with the bits of its page; not present; malformed at a physical address; a table or page on
a die that is lost (R307). -/
inductive Walk where
  | leaf (e : Nat) (bits : Nat)
  | page
  | malformed (pa : Nat)
  | dieLost (d : Nat)
  deriving DecidableEq, Repr

/-- The levels of R176: the low VA bit indexed, how many bits, whether a leaf may stand there. -/
def levels : List (Nat × Nat × Bool) := [(48, 8, false), (39, 9, false), (30, 9, true), (21, 9, true), (16, 5, true)]

/-- Is a leaf entry of a page of `bits` bits well-formed (R177)? -/
def State.leafOk (s : State) (e bits : Nat) : Bool :=
  let pa := bitsAt e 51 12 * 4096
  let size := 2 ^ bits
  if e.testBit 8 then
    let r := bitsAt e 11 9
    let len := size * rateOf r / 64
    decide (r ≤ 4) && s.feat 1 r && decide (pa < granaryBase) && decide (pa / stackBytes = (pa + len - 1) / stackBytes)
  else
    pa % size = 0 && s.paOk pa && s.paOk (pa + size - 1)
      && (decide (2 ^ 50 ≤ pa) || decide (pa + size ≤ granaryBase) || decide (granaryBase ≤ pa))

/-- Walk from a table on (R176, R177). DEDUCED (log 50). -/
def State.walkFrom (s : State) (va : Nat) : List (Nat × Nat × Bool) → Nat → Walk
  | [], _ => .page
  | (lo, n, leafHere) :: rest, table =>
    let ea := table + 8 * (va / 2 ^ lo % 2 ^ n)
    match paDie ea with
    | none => .malformed ea
    | some d =>
      if s.dieAbsent d then .dieLost d
      else
        let e := s.rd64 ea
        if !e.testBit 0 then .page
        else if bitsAt e 63 52 ≠ 0 ∨ bitsAt e 7 6 ≠ 0 ∨ e.testBit 2 then .malformed ea
        else if e.testBit 1 then
          (if leafHere && s.leafOk e lo then .leaf e lo else .malformed ea)
        else if rest.isEmpty ∨ bitsAt e 11 2 ≠ 0 then .malformed ea
        else s.walkFrom va rest (bitsAt e 51 12 * 4096)

def State.walk (s : State) (ctx va : Nat) : Walk :=
  match s.lostAt (s.descAddr ctx) with
  | some d => .dieLost d
  | none => s.walkFrom va levels (s.ptRoot ctx)

/-- Find a held translation. -/
def tlbFind (t : List TlbEntry) (ctx va : Nat) : Option TlbEntry :=
  t.find? (fun e => e.ctx = ctx && e.page = va / 2 ^ e.bits)

/-- Where an access is translated: a core's TLB, or the green's unit (R174, R175). -/
inductive Port0 where
  | core (c : Nat)
  | green
  deriving DecidableEq, Repr

def State.core (s : State) (c : Nat) : Core := SMap.getD s.cores c {}
def State.setCore (s : State) (c : Nat) (x : Core) : State := { s with cores := SMap.set s.cores c x }
def State.tlbOf (s : State) (p : Port0) : List TlbEntry := match p with | .core c => (s.core c).tlb | .green => s.gtlb
def State.regCacheOf (s : State) (p : Port0) : List RegEntry := match p with | .core c => (s.core c).regions | .green => s.gregions

/-- The leaf that maps an address: the held one, or the walk's (R174). -/
def State.xlate (s : State) (p : Port0) (ctx va : Nat) : Walk :=
  match tlbFind (s.tlbOf p) ctx va with
  | some e => .leaf e.leaf.toNat e.bits
  | none => s.walk ctx va

/-- Hold the translation of an address, and count its page's stack as touched. -/
def State.fillTlb (s : State) (p : Port0) (ctx va : Nat) : State :=
  match tlbFind (s.tlbOf p) ctx va with
  | some _ => s
  | none =>
    match s.walk ctx va with
    | .leaf e bits =>
      let ent : TlbEntry := ⟨ctx, va / 2 ^ bits, bits, BitVec.ofNat 64 e⟩
      match p with
      | .core c => s.setCore c { s.core c with tlb := ent :: (s.core c).tlb }
      | .green => { s with gtlb := ent :: s.gtlb }
    | _ => s

/-- Count the stacks that the tables of a walk lie on (R307). -/
def State.walkFromTouch (s : State) (ctx va : Nat) : List (Nat × Nat × Bool) → Nat → State
  | [], _ => s
  | (lo, n, _) :: rest, table =>
    let ea := table + 8 * (va / 2 ^ lo % 2 ^ n)
    match paDie ea with
    | none => s
    | some d =>
      if s.dieAbsent d then s
      else
        let s1 := s.touchDie ctx d
        let e := s1.rd64 ea
        if e.testBit 0 && !e.testBit 1 then s1.walkFromTouch ctx va rest (bitsAt e 51 12 * 4096) else s1

/-- Count the stacks of the walk that an access makes where its translation is not held (R174, R307). -/
def State.walkTouch (s : State) (ctx va : Nat) (p : Port0) : State :=
  match tlbFind (s.tlbOf p) ctx va with
  | some _ => s
  | none => s.walkFromTouch ctx va levels (s.ptRoot ctx)

/-- The physical address a plain leaf gives. -/
def leafPa (e bits va : Nat) : Nat := bitsAt e 51 12 * 4096 + va % 2 ^ bits

/-! Regions (R180, R181). -/

def RegEntry.base (e : RegEntry) : Nat := bitsAt e.w0.toNat 55 16 * 2 ^ 16
def RegEntry.size (e : RegEntry) : Nat := bitsAt e.w1.toNat 39 0 * 2 ^ 16
def RegEntry.state (e : RegEntry) : Nat := bitsAt e.w0.toNat 5 4
def RegEntry.sealed (e : RegEntry) : Bool := e.w0.getLsbD 11
def RegEntry.rate (e : RegEntry) : Nat := bitsAt e.w0.toNat 10 8
def RegEntry.absB (e : RegEntry) : EB32 := BitVec.ofNat 32 (bitsAt e.w2.toNat 63 32)
def RegEntry.relB (e : RegEntry) : EB16 := BitVec.ofNat 16 (bitsAt e.w2.toNat 31 16)
def RegEntry.bside (e : RegEntry) : Nat := bitsAt e.w3.toNat 51 3 * 8
def RegEntry.covers (e : RegEntry) (va : Nat) : Bool := decide (e.base ≤ va) && decide (va < e.base + e.size)

def stRO : Nat := 0
def stPRIV : Nat := 1
def stSHARED : Nat := 2
def stCODED : Nat := 3

/-- R181's malformed entries, with what R338 adds. -/
def State.regMalformed (s : State) (e : RegEntry) : Bool :=
  let w0 := e.w0.toNat
  bitsAt w0 63 56 ≠ 0 || bitsAt w0 15 12 ≠ 0 || bitsAt w0 7 6 ≠ 0 || bitsAt w0 3 1 ≠ 0 || bitsAt e.w1.toNat 63 40 ≠ 0
  || bitsAt e.w2.toNat 15 0 ≠ 0 || bitsAt e.w3.toNat 63 52 ≠ 0 || bitsAt e.w3.toNat 2 0 ≠ 0
  || bitsAt e.w5.toNat 63 32 ≠ 0 || e.w6 ≠ 0 || e.w7 ≠ 0
  || e.size = 0
  || (e.state ≠ stCODED && e.rate ≠ 0)
  || (e.state = stCODED && (decide (4 < e.rate) || e.bside = 0 || !s.feat 0 1 || !s.feat 1 e.rate))
  || (e.sealed && e.state ≠ stRO)

/-- An entry as it stands in memory. -/
def State.regAt (s : State) (ctx i : Nat) : RegEntry :=
  let b := s.regionBase ctx + 64 * i
  let w := fun (k : Nat) => BitVec.ofNat 64 (s.rd64 (b + k))
  { ctx := ctx, idx := i, w0 := w 0, w1 := w 8, w2 := w 16, w3 := w 24, w5 := w 40, w6 := w 48, w7 := w 56 }

/-- The indices whose V bit stands in memory: the cells of the table at a multiple of 64 with bit 0 set. -/
def State.regValidIdx (s : State) (ctx : Nat) : List Nat :=
  if s.descOk ctx then
    s.mem.filterMap (fun c =>
      let b := s.regionBase ctx
      if b ≤ c.1 ∧ c.1 < b + 256 * 64 ∧ (c.1 - b) % 64 = 0 ∧ c.2.getLsbD 0 then some ((c.1 - b) / 64) else none)
  else []

/-- The entries of a context that the region cache holds. -/
def State.regHeld (s : State) (p : Port0) (ctx : Nat) : List RegEntry := (s.regCacheOf p).filter (fun e => e.ctx = ctx)

/-- The valid entries of the table in memory that the region cache does not hold. -/
def State.regRest (s : State) (p : Port0) (ctx : Nat) : List RegEntry :=
  ((s.regValidIdx ctx).filter (fun i => !(s.regHeld p ctx).any (fun e => e.idx = i))).map (s.regAt ctx)

/-- A held entry for each valid entry of an address that it stands for: for two where another covered the address when it was read (R181). -/
def RegEntry.copies (e : RegEntry) (va : Nat) : List RegEntry :=
  if e.amb.any (fun r => decide (r.1 ≤ va) && decide (va < r.2)) then [e, e] else [e]

/-- The valid entries that cover an address: the held ones; the table is read where none is held (R185). A SIZE of 0 covers nothing. -/
def State.regCover (s : State) (p : Port0) (ctx va : Nat) : List RegEntry :=
  match (s.regHeld p ctx).filter (fun e => e.covers va) with
  | [] => (s.regRest p ctx).filter (fun e => e.covers va)
  | held => held.flatMap (fun e => e.copies va)

/-- Do two entries cover a common address? -/
def RegEntry.meets (a b : RegEntry) : Bool := decide (a.base < b.base + b.size) && decide (b.base < a.base + a.size)

/-- The entry as the region cache holds it: with the ranges of it that other valid entries of the table cover (R181). -/
def State.regEntryFor (s : State) (e : RegEntry) : RegEntry :=
  { e with amb := (((s.regValidIdx e.ctx).filter (fun k => k ≠ e.idx)).map (s.regAt e.ctx)).filterMap (fun g =>
      if e.meets g then some (max e.base g.base, min (e.base + e.size) (g.base + g.size)) else none) }

/-- Where none is held that covers an address, the table is read, and its stack counts as touched (R307): the entries that cover the
address are held, at most 64 (R185). -/
def State.fillReg (s0 : State) (p : Port0) (ctx va : Nat) : State :=
  if (s0.regHeld p ctx).any (fun g => g.covers va) then s0
  else
    let s := s0.touchPa ctx (s0.regionBase ctx)
    let new := ((s.regRest p ctx).filter (fun e => e.covers va)).map s.regEntryFor
    let add := fun (l : List RegEntry) => (new ++ l).take 64
    match p with
    | .core c => s.setCore c { s.core c with regions := add (s.core c).regions }
    | .green => { s with gregions := add s.gregions }

/-! Where an access goes. -/

/-- A translated access: the line and offset, the region entry if one covers it, the leaf's physical address. -/
structure Loc where
  line : Line
  ofs : Nat
  pa : Nat
  reg : Option RegEntry
  deriving DecidableEq, Repr

def Loc.state (l : Loc) : Nat := match l.reg with | some e => e.state | none => stSHARED
def Loc.priv (l : Loc) : Bool := l.state = stPRIV
def Loc.ro (l : Loc) : Bool := l.state = stRO
def Loc.isCoded (l : Loc) : Bool := l.state = stCODED
def Loc.irrevocable (l : Loc) : Bool := match l.line with | .sys _ => true | .rem _ => true | _ => false

/-- The kinds of access that R177 and R182 tell apart. -/
inductive Acc where
  | load | store | atomic | casFail | fetch
  deriving DecidableEq, Repr

/-- A failed access: its cause (R289) and what the frame records of it. -/
structure AccFault where
  cause : Nat
  addr : Nat
  akind : Nat := 1
  ridx : Option Nat := none
  die : Nat := 0
  /-- the address an engine has tried to translate (R307) -/
  tried : Option Nat := none
  deriving DecidableEq, Repr

def cILLOP : Nat := 0x01
def cILLOPND : Nat := 0x02
def cTARGET : Nat := 0x03
def cFETCHPAR : Nat := 0x04
def cFORMAT : Nat := 0x05
def cBUDGET : Nat := 0x06
def cBOUNDLOST : Nat := 0x07
def cALIGN : Nat := 0x08
def cREGION : Nat := 0x09
def cATYPE : Nat := 0x0A
def cXREG : Nat := 0x0B
def cLATCH : Nat := 0x0C
def cQUEUE : Nat := 0x0D
def cSWTRAP : Nat := 0x0E
def cBKPT : Nat := 0x0F
def cPAGE : Nat := 0x20
def cPERM : Nat := 0x21
def cPOISON : Nat := 0x22
def cREMOTE : Nat := 0x23
def cDIELOST : Nat := 0x24

/-- The line and offset a leaf gives an address (R169, R173, R178, R183). -/
def locOf (ctx e bits va : Nat) (reg : Option RegEntry) : Loc :=
  if e.testBit 8 then
    let r := rateOf (bitsAt e 11 9)
    let o := va % 2 ^ bits
    let stream := bitsAt e 51 12 * 4096 + o / 128 * (2 * r)
    match reg with
    | some g => ⟨.coded (g.bside + (va - g.base) / 128 * 8) stream r ctx g.idx, va % 128, stream, reg⟩
    | none => ⟨.coded 0 stream r ctx 0, va % 128, stream, reg⟩
  else
    let pa := leafPa e bits va
    let line := if paRemote pa then Line.rem (pa / 128) else if paSystem pa then .sys (pa / 128) else .mem (pa / 128)
    ⟨line, va % 128, pa, reg⟩

/-- R177's and R307's outcomes of a translation for an access. -/
def State.xlateFor (s : State) (p : Port0) (ctx va : Nat) (a : Acc) : Except AccFault (Nat × Nat) :=
  match s.xlate p ctx va with
  | .page => .error { cause := cPAGE, addr := va }
  | .malformed pa => .error { cause := cPERM, addr := pa, akind := 3 }
  | .dieLost d => .error { cause := cDIELOST, addr := va, die := d }
  | .leaf e bits =>
    let r := e.testBit 3
    let w := e.testBit 4
    let x := e.testBit 5
    let ok := match a with | .load | .casFail => r | .store => w | .atomic => r && w | .fetch => x
    if ok then .ok (e, bits) else .error { cause := cPERM, addr := va }

/-- The lost die that the region table of a context stands on, or the descriptor that gives its place (R307). -/
def State.tableLost (s : State) (ctx : Nat) : Option Nat := (s.lostAt (s.descAddr ctx)).or (s.lostAt (s.regionBase ctx))

/-- The same, where no held entry answers for an address and the table would be read. -/
def State.regLost (s : State) (p : Port0) (ctx va : Nat) : Option Nat :=
  if (s.regHeld p ctx).any (fun g => g.covers va) then none else s.tableLost ctx

/-- Count the region table's stack where the table is read for an address (R307). -/
def State.tableTouch (s : State) (p : Port0) (ctx va : Nat) : State :=
  if (s.regHeld p ctx).any (fun g => g.covers va) then s else s.touchPa ctx (s.regionBase ctx)

/-- Count the stacks that an access touches before it fails: those of its walk, and the region table's where it is read (R307). -/
def State.tryTouch (s : State) (p : Port0) (ctx va : Nat) : State :=
  let s1 := s.walkTouch ctx va p
  match s.xlate p ctx va with
  | .leaf _ _ => s1.tableTouch p ctx va
  | _ => s1

/-- The region that covers an address: none, one, or a REGION fault (R181, R183). Where no held entry answers, the table's die must be
served (R307). -/
def State.regionFor (s : State) (p : Port0) (ctx va e : Nat) : Except AccFault (Option RegEntry) :=
  match s.regLost p ctx va with
  | some d => .error { cause := cDIELOST, addr := va, die := d }
  | none =>
  match s.regCover p ctx va with
  | [] => if e.testBit 8 then .error { cause := cREGION, addr := va } else .ok none
  | [g] =>
    if s.regMalformed g then .error { cause := cREGION, addr := va, ridx := some g.idx }
    else if e.testBit 8 then
      (if g.state = stCODED ∧ g.rate = bitsAt e 11 9 then .ok (some g)
       else .error { cause := cREGION, addr := va, ridx := some g.idx })
    else if g.state = stCODED then .error { cause := cREGION, addr := va, ridx := some g.idx }
    else .ok (some g)
  | g :: _ => .error { cause := cREGION, addr := va, ridx := some g.idx }

/-! System windows (R312, R313). -/

def State.winOk (s : State) (w : Nat) : Bool :=
  let a := (SMap.getD s.sysA w 0).toNat
  let b := (SMap.getD s.sysB w 0).toNat
  let tgt := bitsAt a 62 60
  let mode := bitsAt a 59 58
  a.testBit 63 && bitsAt a 57 50 = 0 && bitsAt a 29 20 = 0 && bitsAt b 63 52 = 0 && bitsAt b 29 0 = 0
  && decide (tgt ≤ 4) && decide (mode ≤ 2) && bitsAt a 19 0 ≠ 0
  && (if mode = 0 then tgt = 0 && s.feat 0 2 else decide (1 ≤ tgt) && s.feat 0 3)

/-- The windows a system address lies in. DEDUCED (log 83). -/
def State.windows (s : State) (pa : Nat) : List Nat :=
  let o := pa % 2 ^ 50
  (List.range 16).filter (fun w =>
    let a := (SMap.getD s.sysA w 0).toNat
    let base := bitsAt a 49 30 * 2 ^ 30
    s.winOk w && decide (base ≤ o) && decide (o < base + bitsAt a 19 0 * 2 ^ 30))

/-- The window's mode and the target address, as one key of `ext`: target port × 2^52 + address. -/
def State.winTarget (s : State) (pa : Nat) : Option (Nat × Nat) :=
  match s.windows pa with
  | [w] =>
    let a := (SMap.getD s.sysA w 0).toNat
    let b := (SMap.getD s.sysB w 0).toNat
    some (bitsAt a 59 58, bitsAt a 62 60 * 2 ^ 52 + bitsAt b 51 30 * 2 ^ 30 + (pa % 2 ^ 50 - bitsAt a 49 30 * 2 ^ 30))
  | _ => none

/-- The key in `ext` of a byte of a peer's local map. -/
def remKey (pa : Nat) : Nat := 2 ^ 60 + pa % 2 ^ 51
/-! Lines. -/

/-- A line of the local map as the die L2 and the levels above show it. -/
def State.memLine (s : State) (n : Nat) : LineData :=
  { bytes := Memory.read s.mem (128 * n) 128, lb := SMap.getD s.lb n 0, poison := SMap.getD s.poison n false }

/-- A line as the green's memory-side cache holds it: as of its last write-back (R235, R310). -/
def State.greenLine (s : State) (n : Nat) : LineData := SMap.getD s.green n (s.memLine n)

/-- The mark of a coded line's poison is kept beside its LB64 slot. -/
def codedPoisonKey (slot : Nat) : Nat := 2 ^ 50 + slot / 8

def valBytes (v : FVal) : List Byte := leBytes 8 (Fmt.f64.encode v)

/-- The lines of the local map that hold a block's stream and its LB64 slot. -/
def codedHomes (slot stream rate : Nat) : List Nat :=
  slot / 128 :: (List.range ((stream + 2 * rate - 1) / 128 + 1 - stream / 128)).map (fun k => stream / 128 + k)

/-- The marked lines of HBM4 that still poison a coded block (R74, R306). DEDUCED (log 86): an encode with no poisoned element clears
the mark for its own block; the line's other blocks keep it until the line is rewritten. -/
def State.blockMarks (s : State) (slot stream rate : Nat) : List Nat :=
  (codedHomes slot stream rate).filter (fun n => SMap.getD s.poison n false && !s.blockClean.contains (slot, n))

/-- A line of HBM4 is marked anew, or no longer marked: no block is cleared of its mark. -/
def State.markAnew (s : State) (n : Nat) (new : Bool) : State :=
  if new then { s with blockClean := s.blockClean.filter (fun p => p.2 ≠ n) } else s

/-- A decoded line of coded storage (R186, R190), poisoned where its block or a line of HBM4 that holds it is marked (R74, R306). -/
def State.codedLine (s : State) (slot stream rate : Nat) : LineData :=
  let d := fbcDecode (streamBits (Memory.read s.mem stream (2 * rate)))
  { bytes := d.vals.flatMap valBytes
    lb := BitVec.ofNat 64 (s.rd64 slot)
    poison := d.poison || SMap.getD s.poison (codedPoisonKey slot) false
      || !(s.blockMarks slot stream rate).isEmpty
    lostEls := if d.poison then [] else (List.range 16).filter (fun i => d.ovf.getD i false) }

def State.team (s : State) (t : Nat) : Team := SMap.getD s.teams t {}
def State.setTeam (s : State) (t : Nat) (x : Team) : State := { s with teams := SMap.set s.teams t x }

/-- The LB64 of every scratchpad line at team start (R168). -/
def spLb0 : W64 := 0x1000000000000000

def Team.spLine (t : Team) (n : Nat) : LineData :=
  { bytes := Memory.read t.sp (128 * n) 128, lb := SMap.getD t.splb n spLb0, poison := SMap.getD t.sppoi n false }

/-- A half of a system line as the owner outside the package has it, at the target a window gives. -/
def State.sysHomeAt (s : State) (win : Option (Nat × Nat)) : SysHalf :=
  match win with
  | some (mode, key) =>
    { bytes := Memory.read s.ext key 64, owned := mode ≠ 2, dirty := false, poison := SMap.getD s.extPoison (key / 64) false
      key := some key }
  | none => { bytes := List.replicate 64 0, owned := false, dirty := false, poison := false }

def State.sysHome (s : State) (h : Nat) : SysHalf := s.sysHomeAt (s.winTarget (64 * h))

/-- A half as this device reads it: the held one, or a fetch (R314). -/
def State.sysHalf (s : State) (h : Nat) : SysHalf := (SMap.get? s.sysHeld h).getD (s.sysHome h)

def State.sysLine (s : State) (n : Nat) : LineData :=
  let a := s.sysHalf (2 * n)
  let b := s.sysHalf (2 * n + 1)
  { bytes := a.bytes ++ b.bytes, lb := 0, halfPoi := (a.poison, b.poison) }

/-- A remote line as its home holds it. A number that is this device's own is its own local map, through the fabric (R169, R235). -/
def State.remHome (s : State) (n : Nat) : LineData :=
  let pa := 128 * n
  if remDev pa = s.devnum then s.greenLine (remOfs pa / 128)
  else { bytes := Memory.read s.ext (remKey pa) 128, lb := SMap.getD s.extLb (remKey pa / 128) 0
         poison := SMap.getD s.extPoison (remKey pa / 64) false }

def State.remLine (s : State) (n : Nat) : LineData := (SMap.get? s.remHeld n).getD (s.remHome n)

/-- The committed contents of any line. -/
def State.line (s : State) (l : Line) : LineData :=
  match l with
  | .mem n => s.memLine n
  | .coded slot stream rate _ _ => s.codedLine slot stream rate
  | .sp t n => (s.team t).spLine n
  | .ctr _ _ => {}
  | .sys n => s.sysLine n
  | .rem n => s.remLine n

/-- Is a line a coded-block line? -/
def Line.isCoded (l : Line) : Bool := match l with | .coded _ _ _ _ _ => true | _ => false

/-- Lay writes over a line, in order. -/
def overlay (d : LineData) (l : Line) (ws : List LineWrite) : LineData :=
  ws.foldl (fun a w => if w.line.name = l.name then a.write l.isCoded w else a) d

/-- Store a whole line of the local map, keeping what the green holds of it until it is written back (R235). -/
def State.setMemLine (s : State) (n : Nat) (d : LineData) : State :=
  { s with
    green := if (SMap.get? s.green n).isSome then s.green else SMap.set s.green n (s.memLine n)
    mem := Memory.write s.mem (128 * n) d.bytes
    lb := SMap.setC s.lb n 0 d.lb
    poison := SMap.setC s.poison n false d.poison }

def State.setSpLine (s : State) (t n : Nat) (d : LineData) : State :=
  let x := s.team t
  s.setTeam t { x with
    sp := Memory.write x.sp (128 * n) d.bytes
    splb := SMap.setC x.splb n spLb0 d.lb
    sppoi := SMap.setC x.sppoi n false d.poison }

/-- The sixteen values of a decoded line. -/
def lineVals (d : LineData) : List FVal :=
  (List.range 16).map (fun i => Fmt.f64.decode (leNat ((d.bytes.drop (8 * i)).take 8)))

/-- Add to a region entry's ENC and EMASS (R191). -/
def State.countEncode (s : State) (ctx ridx : Nat) (dmax : X) : State :=
  let b := s.regionBase ctx + 64 * ridx
  let enc := s.rd64 (b + 0x20)
  let em := Bnd.ofEb32 (BitVec.ofNat 32 (s.rd64 (b + 0x28)))
  let em' : Bnd := if dmax = some 0 then em else { em with x := xadd em.x dmax }
  (s.wr64 (b + 0x20) ((enc + 1) % 2 ^ 64)).wr64 (b + 0x28) (if dmax = some 0 then s.rd64 (b + 0x28) else em'.eb32.toNat)

/-- Encode a coded line that writes have left with new contents (R193, R195): `d` the line after the writes, `bnd i` the bound of
element i before the encode, `off` whether the kernel carries no bounds. The written-back copy is at the green at once. -/
def State.encodeLine (s : State) (slot stream rate ctx ridx : Nat) (d : LineData) (bnd : Nat → Bnd) (off : Bool) : State :=
  let v := lineVals d
  let bits := fbcEncode rate v
  let dec := fbcDecode bits
  let delta := (List.range 16).map (fun i => codecBound dec (v.getD i .nan) (dec.vals.getD i .nan))
  let dmax := delta.foldl xmax (some 0)
  let nb := (List.range 16).map (fun i => xadd (bnd i).x (delta.getD i (some 0)))
  let lb := if off then 0 else lbWhole 3 ((List.range 8).map (fun g => xmax (nb.getD (2 * g) none) (nb.getD (2 * g + 1) none)))
  let poi := (List.range 16).any (fun i => (bnd i).poi)
  let s1 := { s.through stream (streamBytes bits) with
    poison := SMap.setC s.poison (codedPoisonKey slot) false poi
    blockClean := if poi then s.blockClean else (s.blockMarks slot stream rate).map (fun n => (slot, n)) ++ s.blockClean }
  (s1.wr64 slot lb.toNat).countEncode ctx ridx dmax

/-- The bound of element i of a coded line after writes: that of the last write of it, else the line's (R193 step 1). -/
def codedElemBnd (old : LineData) (ws : List LineWrite) (i : Nat) : Bnd :=
  match (ws.flatMap (·.elems)).reverse.find? (fun e => e.ofs / 8 = i) with
  | some e => Bnd.ofEb32 e.bnd
  | none => lineBound false old (8 * i) 8

/-- Apply writes of one chunk, or of one published entry, to one line (R222, R193, R233). `off`: bounds off. -/
def State.applyLine (s : State) (l : Line) (ws : List LineWrite) (off : Bool) : State :=
  match l with
  | .mem n =>
    let d := overlay (s.memLine n) l ws
    (s.setMemLine n d).markAnew n (!d.poison || ws.any (fun w => anyPoison w.elems))
  | .coded slot stream rate ctx ridx =>
    let old := s.codedLine slot stream rate
    s.encodeLine slot stream rate ctx ridx (overlay old l ws) (codedElemBnd old ws) off
  | .sp t n => s.setSpLine t n (overlay ((s.team t).spLine n) l ws)
  | .ctr _ _ => s
  | .sys _ => s
  | .rem _ => s

/-- The distinct lines of a list of writes, in order of first appearance. -/
def linesOf (ws : List LineWrite) : List Line :=
  ws.foldl (fun a w => if a.any (fun l => l.name = w.line.name) then a else a ++ [w.line]) []

/-- Apply a list of writes, line by line. -/
def State.applyWrites (s : State) (ws : List LineWrite) (off : Bool) : State :=
  (linesOf ws).foldl (fun a l => a.applyLine l (ws.filter (fun w => w.line.name = l.name)) off) s

end Sys2Proof.Machine
end

