-- ==== Sys2Proof/Machine/Ops.lean ====
section
/-! DEFINITION. The named operations over the state: sheaves, chunks, latches, the view of memory a sheaf has, register writes,
taking an exception (R292, R295) and returning from one (R298), and the end of an instruction. -/

namespace Sys2Proof.Machine

abbrev Outcome := Host.Outcome State Fault Refusal

/-! Sheaves and paths. -/

def State.sheaf (s : State) (i : Nat) : Sheaf := SMap.getD s.sheaves i {}
def State.setSheaf (s : State) (i : Nat) (x : Sheaf) : State := { s with sheaves := SMap.set s.sheaves i x }
def State.updSheaf (s : State) (i : Nat) (f : Sheaf → Sheaf) : State := s.setSheaf i (f (s.sheaf i))
def State.updTeam (s : State) (t : Nat) (f : Team → Team) : State := s.setTeam t (f (s.team t))
def State.updCore (s : State) (c : Nat) (f : Core → Core) : State := s.setCore c (f (s.core c))

/-- The path whose instruction is executed: the first of the issue. -/
def State.cur (s : State) : Path := s.issue.headD { sheaf := 0, lanes := 0, pc := 0 }

/-- The current path's sheaf and team. -/
def State.csh (s : State) : Sheaf := s.sheaf s.cur.sheaf
def State.ctm (s : State) : Team := s.team s.csh.team
def State.width (s : State) : Nat := s.ctm.hdr.width
def State.launch (s : State) (l : Nat) : Launch := SMap.getD s.launches l {}

/-- The registers an instruction reads: as they stood before the older instruction of its cycle wrote (R20). -/
def State.rregs (s : State) : Regs := s.cur.snap.getD s.csh.regs

/-- The lanes of a sheaf of a given width. -/
def allLanes (w : Nat) : Mask := Mask.of w (fun _ => true)

/-- The lanes of a sheaf that have not exited (R16). -/
def State.live (s : State) (i : Nat) : Mask := allLanes (s.team (s.sheaf i).team).hdr.width &&& ~~~(s.sheaf i).regs.exited

/-- Are bounds carried (R70, R338)? -/
def State.boundsOn (s : State) : Bool := s.ctm.hdr.bounds && s.feat 0 0

/-- The PC of the next slot (R79). -/
def nextPc (pc : Pc) : Pc :=
  if pc.extractLsb' 0 3 = 4 then (pc &&& ~~~(0x3F : Pc)) + 64 else pc + 1

/-- A malformed PC (R79). -/
def pcMalformed (pc : Nat) : Bool := pc / 8 % 8 ≠ 0 || decide (4 < pc % 8)

def Regs.pcOf (r : Regs) (l : Nat) : Pc := lane r.pc l 0
def setLanes {α : Type} (w : Nat) (xs : List α) (d : α) (m : Mask) (x : α) : List α :=
  lanesOf w (fun l => if Mask.has m l then x else lane xs l d)

/-- Is the partition of a team running the team's context (R288, R305)? -/
def State.partRuns (s : State) (part ctx : Nat) : Bool :=
  let p := SMap.getD s.parts part {}
  p.ctx = some ctx && !p.busy

/-- Does a team's partition run it? -/
def State.teamRuns (s : State) (t : Nat) : Bool := s.partRuns (s.team t).part (s.team t).ctx

/-! Predicates (R34). -/

def Regs.pred (r : Regs) (n : BitVec 4) : PReg :=
  if n = 15 then { val := ~~~(0 : Mask), doubt := 0 } else SMap.getD r.p n.toNat {}

/-- The lanes of the path whose guard value bit is true (R85, R106). -/
def State.active (s : State) (h : Hd) : Mask :=
  let v := (s.rregs.pred h.pg).val
  s.cur.lanes &&& (if h.pn then ~~~v else v)

/-- The lanes of the path whose guard predicate is doubtful (R67). -/
def State.doubtful (s : State) (h : Hd) : Mask := s.cur.lanes &&& (s.rregs.pred h.pg).doubt

/-! ALLOW (R65). -/

def State.allow (s : State) : W32 := s.rregs.allow
def allowFxc (a : W32) : Bool := a.getLsbD 20
def allowDtrap (a : W32) : Bool := a.getLsbD 19
def allowStrict (a : W32) : Bool := a.getLsbD 18
def allowPolicy (a : W32) : Nat := bitsAt a.toNat 17 16
def allowTau (a : W32) : EB16 := BitVec.ofNat 16 a.toNat
/-- The values R65 and R165 refuse. -/
def allowBad (a : W32) : Bool := bitsAt a.toNat 31 21 ≠ 0 || allowPolicy a = 3

/-! Chunks (R219 to R223). -/

def Sheaf.openChunk? (x : Sheaf) : Option Chunk :=
  match x.chunks.getLast? with
  | some c => if c.closed then none else some c
  | none => none

/-- Change the last chunk. -/
def Sheaf.updLast (x : Sheaf) (f : Chunk → Chunk) : Sheaf :=
  match x.chunks.getLast? with
  | some c => { x with chunks := x.chunks.dropLast ++ [f c] }
  | none => x

/-- The chunk that opens next, with the checkpoint of R223: one squashed with an older one opens again as itself (R228). -/
def Sheaf.newChunk (x : Sheaf) : Chunk :=
  let id := (x.redo.head?.map (·.1)).getD x.nextChunk
  { id := id, behind := (x.chunks.head?.map (·.id)).getD id, ckpt := x.regs, ckWaits := x.waits, squashes := (x.redo.head?.map (·.2)).getD 0 }

/-- Open a chunk at this instruction unless one is open (R219). -/
def Sheaf.ensureOpen (x : Sheaf) : Sheaf :=
  match x.openChunk? with
  | some _ => x
  | none =>
    { x with chunks := x.chunks ++ [x.newChunk]
             nextChunk := if x.redo.isEmpty then x.nextChunk + 1 else x.nextChunk
             redo := x.redo.tail }

/-- Close the open chunk; one without an instruction vanishes, and so does one that would have opened again here. A pre-emption request's
close of it is done with (R230). -/
def Sheaf.close (x : Sheaf) : Sheaf :=
  match x.openChunk? with
  | some c =>
    { (if c.count = 0 then { x with chunks := x.chunks.dropLast } else x.updLast (fun c => { c with closed := true })) with closeNext := false }
  | none => { x with redo := x.redo.tail }

/-- Does a chunk hold an instruction, or did it before a squash? -/
def Chunk.stands (c : Chunk) : Bool := decide (c.count ≠ 0) || c.closed || decide (c.squashes ≠ 0)

/-- May lane `l` of a sheaf, after a wait that completed, issue again: the chunks that stood at its completion have committed, and no
chunk is open that opened before they had (R347)? -/
def Sheaf.gateOpen (x : Sheaf) (l : Nat) : Bool :=
  match SMap.get? x.gate l with
  | some g => !x.chunks.any (fun c => c.stands && (decide (c.id ≤ g) || (!c.closed && decide (c.behind ≤ g))))
      && !x.redo.any (fun r => decide (r.1 ≤ g))
  | none => true

/-- The eligible lanes of a sheaf (R15). -/
def State.eligible (s : State) (i : Nat) : Mask :=
  let x := s.sheaf i
  let live := s.live i
  Mask.of 64 (fun l => Mask.has live l && (SMap.get? x.waits l).isNone && x.gateOpen l)

/-- Is the sheaf convergent at the current instruction (R15): is its path the one PC group of the eligible lanes? -/
def State.convergent (s : State) : Bool := !s.cur.split && s.cur.lanes = s.eligible s.cur.sheaf

/-- Has the sheaf a chunk not committed that holds an instruction? -/
def Sheaf.uncommitted (x : Sheaf) : Bool := x.chunks.any (fun c => c.count ≠ 0 || c.closed)

/-- Drop an open chunk that holds nothing, and one that has not opened again. -/
def Sheaf.dropEmpty (x : Sheaf) : Sheaf :=
  match x.openChunk? with
  | some c => { x with chunks := if c.count = 0 then x.chunks.dropLast else x.chunks, redo := [] }
  | none => { x with redo := [] }

/-- Does a live lane of a sheaf sleep? -/
def State.sleeps (s : State) (i : Nat) : Bool :=
  (Mask.list (s.live i)).any (fun l => match SMap.get? (s.sheaf i).waits l with | some (.sleep _) => true | _ => false)

/-- With no chunk left and no lane eligible or asleep, no chunk opens again that was squashed with an older one: it had no instruction left.
DEDUCED (log 117). -/
def State.forgetRedo (s : State) (i : Nat) : State :=
  if (s.sheaf i).chunks.isEmpty && s.eligible i = 0 && !s.sleeps i then s.updSheaf i (fun x => { x with redo := [] }) else s

/-! What a sheaf sees of memory (R203, R222). -/

def Held.write? (h : Held) : Option LineWrite := match h with | .store w => some w | _ => none

/-- The writes of the sheaf's boundary instructions that wait for their round, then those of its chunks, oldest first (R222, R233, R234);
a younger instruction sees what the chunks held before its cycle (R20): all of those before the one numbered there, and of that one its
first writes. -/
def State.heldWrites (s : State) (sh : Nat) (vis : Option (Nat × Nat)) : List LineWrite :=
  let cut := fun (c : Chunk) => match vis with
    | some (k, n) => if c.id < k then c.held else if c.id = k then c.held.take n else []
    | none => c.held
  (s.pubs.filter (fun p => p.own = some sh)).map (·.w) ++ (s.sheaf sh).chunks.flatMap (fun c => (cut c).filterMap Held.write?)

/-- A line as the current sheaf sees it: its own held stores over the committed line (R222). DEDUCED (log 56). -/
def State.viewLine (s : State) (l : Line) : LineData :=
  overlay (s.line l) l (s.heldWrites s.cur.sheaf s.cur.vis)

/-- Enter a line that is read (R224, R225). -/
def Chunk.addRead (c : Chunk) (l : Line) (atCore : Bool) : Chunk :=
  if atCore then (if c.coreReads.contains l then c else { c with coreReads := l :: c.coreReads })
  else (if c.reads.contains l then c else { c with reads := l :: c.reads })

def Chunk.addWrite (c : Chunk) (l : Line) (atCore : Bool) : Chunk :=
  if atCore then (if c.coreWrites.contains l then c else { c with coreWrites := l :: c.coreWrites })
  else (if c.writes.contains l then c else { c with writes := l :: c.writes })

def Chunk.hold (c : Chunk) (h : Held) : Chunk := { c with held := c.held ++ [h] }

/-- Note a translation used, for the invalidations of R179. -/
def Chunk.use (c : Chunk) (va : Nat) : Chunk :=
  if c.pages.contains (va / 2 ^ 16) then c else { c with pages := (va / 2 ^ 16) :: c.pages }

/-- Note a region read or stored, for SEAL and UNSEAL (R216). -/
def Chunk.useRegion (c : Chunk) (r : Option RegEntry) (st : Bool) : Chunk :=
  match r with
  | some e => if c.regions.contains (e.idx, st) then c else { c with regions := (e.idx, st) :: c.regions }
  | none => c

def State.updOpen (s : State) (f : Chunk → Chunk) : State := s.updSheaf s.cur.sheaf (fun x => x.updLast f)

/-! Latches (R92, R93). -/

def State.chain (s : State) : List Latch :=
  s.cur.lat.getD (SMap.getD (s.core s.csh.core).latches s.csh.quad [])

/-- Mark every entry of a sheaf lost (R93). -/
def State.loseLatches (s : State) (sh : Nat) : State :=
  s.updCore (s.sheaf sh).core (fun c =>
    { c with latches := c.latches.map (fun q => (q.1, q.2.map (fun e => if e.sheaf = sh then { e with held := false } else e))) })

/-- What a latch read yields. -/
inductive LatchRead where
  | held (e : Latch)
  | fallback (d : Sel)
  | lost

def State.latchRead (s : State) (n : Nat) : LatchRead :=
  let ch := s.chain
  if decide (n < ch.length) && (ch.take (n + 1)).all (fun e => e.sheaf = s.cur.sheaf && e.held) then
    match ch[n]? with | some e => .held e | none => .lost
  else
    match s.rregs.prods[n]? with
    | some p => if p.nw || p.stale then .lost else .fallback p.dst
    | none => .lost

/-- Do two destinations, a pair where the flag says so, name a common register? -/
def selOverlap (a : Sel) (aw : Bool) (b : Sel) (bw : Bool) : Bool :=
  match a, b with
  | .v i, .v j =>
    let i := i.toNat
    let j := j.toNat
    decide (i < j + (if bw then 2 else 1)) && decide (j < i + (if aw then 2 else 1))
  | .s i, .s j => i = j
  | _, _ => false

/-- A write of a destination makes the fallback of every earlier producer to it stale (R93). -/
def Regs.stale (r : Regs) (d : Sel) (w64 : Bool) : Regs :=
  { r with prods := r.prods.map (fun p => if selOverlap p.dst p.w64 d w64 then { p with stale := true } else p) }

/-! Register access. -/

def Regs.vreg (r : Regs) (n : Nat) : VReg := SMap.getD r.v n {}
def Regs.sreg (r : Regs) (n : Nat) : SReg := SMap.getD r.s n {}

/-- The EB32 of the pair a register belongs to (R31). -/
def Regs.pairEb (r : Regs) (n l : Nat) : EB32 :=
  let lo := n / 2 * 2
  lane (r.vreg (lo + 1)).sh l 0 ++ lane (r.vreg lo).sh l 0

/-- The bound of a 32-bit read of a vector register (R32). -/
def Regs.vBnd32 (r : Regs) (n l : Nat) : Bnd :=
  if (r.vreg n).wf then Bnd.ofEb16 (eb32to16 (r.pairEb n l)) else Bnd.ofEb16 (lane (r.vreg n).sh l 0)

/-- The bound of a 64-bit read of a pair (R32). -/
def Regs.vBnd64 (r : Regs) (n l : Nat) : Bnd :=
  if (r.vreg n).wf && (r.vreg (n + 1)).wf then Bnd.ofEb32 (r.pairEb n l) else (r.vBnd32 n l).max (r.vBnd32 (n + 1) l)

def Regs.vVal32 (r : Regs) (n l : Nat) : Nat := (lane (r.vreg n).val l 0).toNat
def Regs.vVal64 (r : Regs) (n l : Nat) : Nat := r.vVal32 n l + 2 ^ 32 * r.vVal32 (n + 1) l

/-- Write one 32-bit register on some lanes: value, shadow, tag, width flag (R31, R36). -/
def Regs.putV (r : Regs) (w n : Nat) (m : Mask) (val : Nat → Nat) (sh : Nat → EB16) (tag : Ty) (wf : Bool) : Regs :=
  let o := r.vreg n
  let x : VReg :=
    { val := lanesOf w (fun l => if Mask.has m l then BitVec.ofNat 32 (val l) else lane o.val l 0)
      sh := lanesOf w (fun l => if Mask.has m l then sh l else lane o.sh l 0), tag := tag, wf := wf }
  { r with v := SMap.set r.v n x }

/-- Write a register, or an even pair, on some lanes. -/
def Regs.putVec (r : Regs) (w n : Nat) (w64 : Bool) (m : Mask) (res : Nat → Nat × Bnd) (tag : Ty) : Regs :=
  if m = 0 then r
  else if w64 then
    let lo := fun l => ((res l).2.eb32).extractLsb' 0 16
    let hi := fun l => ((res l).2.eb32).extractLsb' 16 16
    (r.putV w n m (fun l => (res l).1 % 2 ^ 32) lo tag true).putV w (n + 1) m (fun l => (res l).1 / 2 ^ 32) hi tag true
  else r.putV w n m (fun l => (res l).1) (fun l => (res l).2.eb16) tag false

/-- Write a scalar (R33): a 32-bit I32 value is sign-extended, any other zero-extended. -/
def Regs.putS (r : Regs) (n : Nat) (w64 : Bool) (val : Nat) (b : Bnd) (tag : Ty) : Regs :=
  let x : W64 := if w64 then BitVec.ofNat 64 val
    else if tag = .i32 then (BitVec.ofNat 32 val).signExtend 64 else (BitVec.ofNat 32 val).setWidth 64
  { r with s := SMap.set r.s n ⟨x, b.eb32, tag⟩ }

/-- Write a predicate's bits on some lanes; p15 discards them (R34). -/
def Regs.putP (r : Regs) (n : BitVec 4) (m val doubt : Mask) : Regs :=
  if n = 15 then r
  else
    let o := r.pred n
    { r with p := SMap.set r.p n.toNat ⟨(o.val &&& ~~~m) ||| (val &&& m), (o.doubt &&& ~~~m) ||| (doubt &&& m)⟩ }

/-- The vector registers a write through D touches. -/
def vregsOf (d : Sel) (cnt : Nat) : List Nat :=
  match d with | .v n => (List.range cnt).map (fun k => n.toNat + k) | _ => []

/-- Note vector registers written in the open chunk (R223). -/
def Chunk.addVregs (c : Chunk) (ns : List Nat) : Chunk :=
  { c with vregs := ns.foldl (fun a n => if a.contains n then a else n :: a) c.vregs }

/-! Queue endpoints (R241 to R245). -/

def Sheaf.endpoint (x : Sheaf) (e : Nat) : Endpoint := SMap.getD x.eps e {}
def Endpoint.avail (e : Endpoint) : Nat := e.entries.length - e.retained
def Regs.boundTo (r : Regs) (q : Nat) : Nat := SMap.getD r.qbind q 0

/-- Pushes to an endpoint held by the sheaf's chunks. -/
def Sheaf.heldPushes (x : Sheaf) (ep : Nat) : Nat :=
  (x.chunks.map (fun c => (c.held.filter (fun h => match h with | .push e _ => e = ep | _ => false)).length)).sum

/-- Pop one entry: it is retained for the open chunk (R244). -/
def State.popEndpoint (s : State) (ep : Nat) : State :=
  (s.updSheaf s.cur.sheaf (fun x =>
    { x with eps := SMap.update x.eps ep {} (fun e => { e with retained := e.retained + 1 }) })).updOpen
    (fun c => { c with pops := SMap.update c.pops ep 0 (· + 1) })

/-! Code lines: TGT (R76, R80). -/

/-- Is a device number reachable (R320, R333)? -/
def State.reachable (s : State) (pa : Nat) : Bool := s.feat 0 4 && (remDev pa = s.devnum || s.peers.contains (remDev pa))

/-- Is a place served to a fetch: on no lost die, in one window, on a device that can be reached (R307, R313, R320)? -/
def State.served (s : State) (l : Loc) : Bool :=
  (s.lostAt l.pa).isNone &&
    (match l.line with | .sys _ => decide ((s.windows l.pa).length = 1) | .rem _ => s.reachable l.pa | _ => true)

/-- The 64 bytes of the code line that holds a virtual address, if it can be fetched. -/
def State.codeLine (s : State) (core ctx va : Nat) : Option (List Byte) :=
  let la := va / 64
  match (s.core core).icache.find? (fun e => e.1 = ctx && e.2.1 = la) with
  | some e => some e.2.2
  | none =>
    match s.xlateFor (.core core) ctx (64 * la) .fetch with
    | .error _ => none
    | .ok (e, bits) =>
      if e.testBit 8 then none
      else
        let l := locOf ctx e bits (64 * la) none
        if s.served l then some (((s.line l.line).bytes.drop l.ofs).take 64) else none

/-- Does a transfer to this PC trap TARGET (R80)? A line that cannot be fetched does not fail here: its fetch faults. DEDUCED (log 35). -/
def State.targetBad (s : State) (core ctx pc : Nat) : Bool :=
  pcMalformed pc ||
  (match s.codeLine core ctx pc with
   | some bs => !(bs.getD 60 0).getLsbD (pc % 8)
   | none => false)

/-! Squash (R228). -/

/-- Has the instruction that waits issued, so that nothing undoes it: an access on its way, or an atomic before its round (R200)? -/
def Pend.performing (p : Pend) : Bool := match p with | .access _ | .atomic _ _ _ => true | _ => false

/-- Restore the state saved at the opening of chunk `k` (by position) and drop what it and later chunks hold. The chunk stands
open again, with one squash more, and a later chunk will open again after it, squashed as well (R227, R228). A wait begun since is ended; a
completion since is kept, since it is written into the checkpoints as well (R347). DESIGN CHOICE (log 126): the entry of an NW load that belongs
to no chunk, issued just before, is lost as every latch is (R93), and the reader traps LATCH, since no re-execution repeats the load. -/
def Sheaf.squash (x : Sheaf) (k : Nat) : Sheaf :=
  match x.chunks[k]? with
  | none => x
  | some c =>
    let gone := x.chunks.drop k
    let back := fun (ep : Nat) => (gone.map (fun g => SMap.getD g.pops ep 0)).sum
    { x with
      regs := c.ckpt
      chunks := x.chunks.take k ++ [{ id := c.id, behind := c.behind, ckpt := c.ckpt, ckWaits := c.ckWaits, squashes := c.squashes + 1 }]
      redo := ((gone.drop 1).filter Chunk.stands).map (fun g => (g.id, g.squashes + 1)) ++ x.redo
      waits := x.waits.filter (fun w => SMap.get? c.ckWaits w.1 = some w.2)
      eps := x.eps.map (fun e => (e.1, { e.2 with retained := e.2.retained - back e.1 }))
      pend := if x.pend.performing then x.pend else .idle
      young := if x.pend.performing then x.young else []
      nwLast := false
      parked := none }

def State.squash (s : State) (i k : Nat) : State := (s.updSheaf i (fun x => x.squash k)).loseLatches i

/-- Squash every chunk of a sheaf from the first for which `f` holds. -/
def State.squashIf (s : State) (i : Nat) (f : Chunk → Bool) : State :=
  match ((s.sheaf i).chunks).findIdx? f with
  | some k => s.squash i k
  | none => s

/-! The outside: interrupts and records. -/

/-- DEDUCED (log 79). -/
def State.emit (s : State) (o : Out) : State := { s with out := s.out ++ [o] }

def State.sheafIds (s : State) : List Nat := s.sheaves.map (·.1)

/-- Bytes written by the green itself to local memory: at the green at once, the line untracked (R56); chunks that have read the line are
squashed (R227). The stack of a lost die is not served (R307). -/
def State.greenWrite (s : State) (pa : Nat) (bs : List Byte) : State :=
  if (s.lostAt pa).isSome then s else
  let ns := (List.range ((pa % 128 + bs.length + 127) / 128)).map (fun k => pa / 128 + k)
  let s1 := s.sheafIds.foldl (fun a i => a.squashIf i (fun c => ns.any (fun n => c.reads.contains (.mem n) || c.coreReads.contains (.mem n)))) s
  { s1.through pa bs with lb := ns.foldl (fun m n => SMap.setC m n 0 0) s1.lb }

/-! Engine and context ends (R295). -/

def State.teamIds (s : State) : List Nat := s.teams.map (·.1)
def State.sheavesOf (s : State) (t : Nat) : List Nat := (s.sheaves.filter (fun p => p.2.team = t)).map (·.1)

/-- TCAUSE (R291). -/
def mkCause (t : Trap) (eng nest : Bool) : W64 :=
  BitVec.ofNat 64 (t.cause + t.check * 2 ^ 12 + (if nest then 2 ^ 16 else 0) + (if eng then 2 ^ 17 else 0))

/-- TINFO (R291). DEDUCED (log 49). -/
def mkInfo (t : Trap) : W64 :=
  BitVec.ofNat 64 (t.die + t.akind * 2 ^ 6 + t.tag * 2 ^ 8 + t.opnd * 2 ^ 12
    + (match t.ridx with | some r => 2 ^ 15 + r * 2 ^ 16 | none => 0) + t.icode.toNat * 2 ^ 32)

/-- The frame a trap writes (R291). -/
def mkFrame (t : Trap) (pc : Pc) (eng nest : Bool) : Frame :=
  { cause := mkCause t eng nest, epc := pc.setWidth 64, addr := t.addr, lanes := t.lanes, info := mkInfo t }

/-- The 64-byte record of R295 and R303. -/
def recordBytes (f : Frame) (team die core sheaf part dies pkt : Nat) : List Byte :=
  leBytes 8 f.cause.toNat ++ leBytes 8 f.epc.toNat ++ leBytes 8 f.addr.toNat ++ leBytes 8 f.lanes.toNat ++ leBytes 8 f.info.toNat
  ++ leBytes 4 team ++ leBytes 1 die ++ leBytes 1 core ++ leBytes 1 sheaf ++ leBytes 1 part ++ leBytes 1 dies
  ++ List.replicate 7 0 ++ leBytes 8 pkt

/-- Write a context's record, unless its descriptor, which gives the place, lies on a lost die. DEDUCED (log 87). -/
def State.putRecord (s : State) (ctx : Nat) (bs : List Byte) : State :=
  if (s.lostAt (s.descAddr ctx)).isSome then s else s.greenWrite (s.recordAddr ctx) bs

/-- Write the record of a team's fault to its context's record address and raise its partition's vector (R295, R303, R311). -/
def State.writeRecord (s : State) (f : Frame) (t : Nat) (core sheaf : Nat) : State :=
  let tm := s.team t
  (s.putRecord tm.ctx
    (recordBytes f tm.index (core / Config.coresPerDie) (core % Config.coresPerDie) sheaf tm.part (s.diesMask tm.ctx)
      (s.launch tm.launch).pkt)).emit (.msix (256 + tm.part))

/-- Stop every team of a context, squash its chunks, drop its commands and launches, free its cores, halt its queues (R295 steps 1 to 6).
Its stores and REDs that have left the core stand (R232). -/
def State.stopContext (s : State) (ctx : Nat) : State :=
  let mine := fun (t : Nat) => (s.team t).ctx = ctx && (s.team t).status ≠ .ended
  { s with
    ended := if s.ended.contains ctx then s.ended else ctx :: s.ended
    sheaves := s.sheaves.filter (fun p => !mine p.2.team)
    teams := s.teams.map (fun p => if mine p.1 then (p.1, { p.2 with status := .ended, cmds := [], xq := [] }) else p)
    launches := s.launches.filter (fun p => p.2.ctx ≠ ctx)
    children := s.children.map (fun p => (p.1, p.2.filter (fun c => (s.launch c.parent).ctx ≠ ctx)))
    queues := s.queues.map (fun p => if bitsAt p.2.d0.toNat 47 32 = ctx then (p.1, { p.2 with d0 := p.2.d0 ||| 0x4000000000000000, running := [], taken := p.2.ridx, waiting := false }) else p)
    cores := s.cores.map (fun p => (p.1, { p.2 with
      gather := p.2.gather.filter (fun g => !mine (s.sheaf g.2.sheaf).team)
      lock := p.2.lock.filter (fun k => !mine (s.sheaf k.2.1).team) }))
    flights := s.flights.filter (fun f => f.ctx ≠ ctx || (match f.kind with | .value _ => false | _ => true))
    tokens := s.tokens.filter (fun p => !mine (s.sheaf p.2.1).team)
    precedence := s.precedence.filter (fun i => !mine (s.sheaf i).team)
    issue := [] }

/-- End a context with a frame charged to a team (R295); only the first cause of a context is recorded (R290). -/
def State.endContext (s : State) (f : Frame) (t core sheaf : Nat) : State :=
  let ctx := (s.team t).ctx
  if s.ended.contains ctx then s
  else (s.writeRecord f t core sheaf).stopContext ctx

/-! Taking an exception. -/

/-- R95: the L0 result of an NW producer just before the trapping instruction is written to its register; earlier fallbacks to that register
are stale (R93). DESIGN CHOICE (log 125): where the entry has left the chain, its lock ended and four other producers issued, nothing is
written. -/
def State.settleNw (s : State) (i : Nat) : State :=
  let x := s.sheaf i
  match x.regs.prods.head?, (SMap.getD (s.core x.core).latches x.quad []).find? (fun e => e.sheaf = i) with
  | some p, some e =>
    if x.nwLast && p.nw && e.nw && !e.awaits then
      let w := (s.team x.team).hdr.width
      let res := fun l => ((lane e.val l 0).toNat, Bnd.ofEb32 (lane e.bnd l 0))
      let put := match e.dst with
        | .v n => x.regs.putVec w n.toNat e.w64 e.lanes res e.tag
        | .s n => x.regs.putS n.toNat e.w64 (res 0).1 (res 0).2 e.tag
        | _ => x.regs
      let r := if e.lanes = 0 then x.regs else put.stale e.dst e.w64
      s.setSheaf i { x with regs := { r with prods := { p with nw := false } :: r.prods.tail }, nwLast := false }
    else s
  | _, _ => s

/-- Handler entry (R292): the frame, the saved lanes, TRAPPC, HM; a new chunk opens at the handler's first instruction. -/
def State.enterHandler (s : State) (i : Nat) (t : Trap) (p : Path) : State :=
  let s1 := s
  let x := s1.sheaf i
  let tm := s1.team x.team
  let w := tm.hdr.width
  let live := s1.live i
  if s1.targetBad x.core tm.ctx tm.hdr.trappc then
    s1.endContext (mkFrame { cause := cTARGET, lanes := t.lanes, addr := BitVec.ofNat 64 tm.hdr.trappc, akind := 1 } p.pc false false)
      x.team x.core x.idx
  else
    (s1.setSheaf i { x with
      frame := mkFrame t p.pc false false
      savedPc := x.regs.pc
      savedWaits := x.waits.filter (fun w => match w.2 with | .sleep _ => false | _ => true)
      waits := []
      tg := p.lanes
      regs := { x.regs with pc := setLanes w x.regs.pc 0 live (BitVec.ofNat 56 tm.hdr.trappc) }
      hm := true
      pend := .idle }).loseLatches i

/-- Where a cause goes once the prefix has committed (R289, R290). -/
def State.enterTrap (s : State) (i : Nat) (t : Trap) (p : Path) : State :=
  let x := s.sheaf i
  let tm := s.team x.team
  if t.cause = cPAGE then
    (s.setSheaf i { x with pend := .trap t p }).updTeam x.team (fun m => { m with status := .faulted, fault := some (t, p, false) })
  else if t.cause < 0x20 ∧ tm.hdr.trappc ≠ 0 ∧ !x.hm ∧ !x.regs.routine then s.enterHandler i t p
  else s.endContext (mkFrame t p.pc false x.hm) x.team x.core x.idx

/-- The sheaf gives its quadrant's lock back (R94). -/
def State.unlock (s : State) (i : Nat) : State :=
  let x := s.sheaf i
  s.updCore x.core (fun c =>
    { c with lock := if ((SMap.get? c.lock x.quad).map (·.1)) = some i then SMap.erase c.lock x.quad else c.lock })

/-- Raise a cause at the current instruction, which has issued: nothing is written, the open chunk is truncated, what issues with it is
dropped, a lock is given back, what its access has touched counts (R307), and the cause takes its course at once where no chunk waits to commit (R20, R94, R107, R230). DEDUCED (log 28). -/
def State.raise (s : State) (t : Trap) : State :=
  let p := { s.cur with snap := none, lat := none, vis := none }
  let tried := t.tables.foldl (fun a va => a.tableTouch (.core s.csh.core) s.ctm.ctx va)
    (t.walks.foldl (fun a va => a.tryTouch (.core s.csh.core) s.ctm.ctx va) s)
  let s1 := { (tried.settleNw p.sheaf).unlock p.sheaf with issue := [] }
  let x := ((s1.sheaf p.sheaf).close)
  let u := { t with walks := [], tables := [] }
  if x.uncommitted then s1.setSheaf p.sheaf { x with pend := .trap u p }
  else (s1.setSheaf p.sheaf x).enterTrap p.sheaf u p

/-- Return from the handler (R298), once the handler's chunks have committed. A malformed TEPC ends the context with TARGET. Every lane
moves, so nothing issues beside it. -/
def State.returnFromHandler (s : State) (nxt : Bool) : State :=
  let i := s.cur.sheaf
  let x := s.sheaf i
  let tm := s.team x.team
  let w := tm.hdr.width
  let live := s.live i
  let tepc := x.frame.epc
  if tepc.toNat / 2 ^ 56 ≠ 0 ∨ pcMalformed (tepc.toNat % 2 ^ 56) then
    s.endContext (mkFrame { cause := cTARGET, lanes := live, addr := tepc, akind := 1 } s.cur.pc false true)
      x.team x.core x.idx
  else
    let back : Pc := if nxt then nextPc (tepc.setWidth 56) else tepc.setWidth 56
    ({ s.setSheaf i { x with
        regs := { x.regs with pc := lanesOf w (fun l =>
          if !Mask.has live l then x.regs.pcOf l else if Mask.has x.tg l then back else lane x.savedPc l 0) }
        waits := x.savedWaits.filter (fun q => Mask.has live q.1 && !Mask.has x.tg q.1)
        savedWaits := []
        hm := false
        closeNext := false
        nwLast := false
        pend := .idle } with issue := [] }).loseLatches i

/-! The end of an instruction. -/

/-- Move lanes to a PC. -/
def State.movePc (s : State) (m : Mask) (pc : Pc) : State :=
  s.updSheaf s.cur.sheaf (fun x => { x with regs := { x.regs with pc := setLanes s.width x.regs.pc 0 m pc } })

/-- Has a chunk reached a limit of R220 or R245, or passed one after an NW producer (R94)? -/
def Sheaf.atLimit (x : Sheaf) (c : Chunk) : Bool :=
  let pushes := fun (ep : Nat) => (c.held.filter (fun h => match h with | .push e _ => e = ep | _ => false)).length
  decide (Config.chunkInstrs ≤ c.count) || decide (Config.chunkWrites < c.writes.length + c.coreWrites.length)
  || decide (Config.chunkReads < c.reads.length + c.coreReads.length) || decide (Config.chunkVregs < c.vregs.length)
  || decide (Config.chunkCmds < c.cmds) || decide (Config.chunkLnch < c.lnch)
  || (List.range 8).any (fun ep => decide (Config.endpointEntries < (SMap.getD x.eps ep {}).entries.length + pushes ep ∧ 0 < pushes ep))

/-- Note that the instruction has issued in the open chunk, and close it where CX, a closing instruction or a limit says so; no limit
closes it between an NW producer and the instruction after it (R94, R220). -/
def Sheaf.counted (x : Sheaf) (cx nw : Bool) : Sheaf :=
  let y := x.updLast (fun c => { c with count := c.count + 1 })
  match y.openChunk? with
  | some c => if cx || (!nw && y.atLimit c) then y.close else y
  | none => y

/-- The lock of R94: an NW producer takes its quadrant, and the sheaf's next instruction gives it back. A remote load has taken it at
its issue, and it may have ended since. -/
def State.relock (s : State) (nw : Bool) : State :=
  (s.updSheaf s.cur.sheaf (fun x => { x with nwLast := nw })).updCore s.csh.core (fun c =>
    { c with lock :=
        if nw then (if s.cur.arrived then c.lock else SMap.set c.lock s.csh.quad (s.cur.sheaf, 0))
        else if ((SMap.get? c.lock s.csh.quad).map (·.1)) = some s.cur.sheaf then SMap.erase c.lock s.csh.quad else c.lock })

/-- Was the sheaf's last instruction an NW producer (R94)? -/
def State.afterNw (s : State) : Bool := s.csh.nwLast

/-- The end of an instruction whose lanes have been moved: counted, and no longer issuing. After a pre-emption request the chunk closes
here (R230). -/
def State.retire (s : State) (h : Hd) (closing : Bool) : State :=
  let s1 := (s.relock h.nw).updSheaf s.cur.sheaf (fun x => { x.counted (h.cx || closing || x.closeNext) h.nw with closeNext := false })
  { s1 with issue := s1.issue.tail }

/-- The end of an instruction after which every lane of the path stands at the next slot. -/
def State.finish (s : State) (h : Hd) (closing : Bool := false) : State :=
  (s.movePc s.cur.lanes (nextPc s.cur.pc)).retire h closing

/-- The start of an instruction that belongs to a chunk. -/
def State.begin (s : State) : State := s.updSheaf s.cur.sheaf Sheaf.ensureOpen

/-- The instructions that still issue when the older of the cycle does not: those of the other path (R19). -/
def State.others (s : State) : List Path := s.issue.tail.filter (fun p => p.lanes &&& s.cur.lanes = 0)

/-- Has the current path's sheaf two chunks that wait to commit, so that none can open for another instruction (R222)? -/
def State.noRoom (s : State) : Bool := decide (2 ≤ (s.csh.chunks.filter (·.closed)).length)

/-- The current path does not issue in this cycle: its pass count stands, and another path still issues (R19). -/
def State.standBack (s : State) : State :=
  let s1 := s.updSheaf s.cur.sheaf (fun x => { x with passes := SMap.setC x.passes s.cur.pc.toNat 0 s.cur.pass })
  { s1 with issue := s1.others }

/-- The current path's instruction waits in `pend`; the other path of the cycle issues after it (R19, R200). -/
def State.suspendPath (s : State) (pend : Pend) : State :=
  { s.updSheaf s.cur.sheaf (fun x => { x with pend := pend, young := s.others }) with issue := [] }

/-- No chunk can open for the current instruction, which has issued in this cycle with what it has read: it waits for the earlier chunks to
commit, and nothing of its sheaf issues before it (R19, R23). DEDUCED (log 92). -/
def State.awaitRoom (s : State) : State := s.suspendPath (.boundary s.cur)

/-- Close the chunk before the current instruction, which goes on in the next one (R220). -/
def State.closeBefore (s : State) : State :=
  let s1 := s.updSheaf s.cur.sheaf Sheaf.close
  if s1.noRoom then s1.awaitRoom else s1

/-- Close the chunk before a push that is not ready: it issues again later (R245). -/
def State.closeForPush (s : State) : State := (s.updSheaf s.cur.sheaf Sheaf.close).standBack

/-- Hold a boundary or irrevocable instruction until every earlier chunk has committed (R200, R221, R347). The other path of the cycle still
issues (R19), in the open chunk, which closes after it. -/
def State.holdBoundary (s : State) : State :=
  let p := { s.cur with snap := none, lat := none, vis := none, atBoundary := true }
  { s.updSheaf p.sheaf (fun x => { (if s.others.isEmpty then x.close else x) with pend := .boundary p }) with issue := s.others }

/-- Perform a boundary instruction now, or hold it (R221). DEDUCED (log 42). -/
def State.atBoundary (s : State) (f : State → Outcome) : Outcome :=
  if s.csh.uncommitted then .next s.holdBoundary
  else f (s.updSheaf s.cur.sheaf Sheaf.dropEmpty)

/-- The end of a boundary instruction: it belongs to no chunk. -/
def State.leave (s : State) (nw : Bool := false) : State :=
  let s1 := (s.relock nw).updSheaf s.cur.sheaf (fun x => { x with closeNext := false })
  { s1 with issue := s1.issue.tail }

/-- The end of a boundary instruction after which every lane of the path stands at the next slot. -/
def State.finishBoundary (s : State) (nw : Bool := false) : State := (s.movePc s.cur.lanes (nextPc s.cur.pc)).leave nw

/-- A context-ending or handler trap from a failed access. -/
def AccFault.trap (f : AccFault) (lanes : Mask) (check : Nat) : Trap :=
  { cause := f.cause, check := check, lanes := lanes, addr := BitVec.ofNat 64 f.addr, akind := f.akind, ridx := f.ridx, die := f.die }

/-- The next free value (R260 and every other value the spec leaves open): the field of the state advances. DESIGN CHOICE (log 2). -/
def State.free (s : State) : W64 × State := (Config.freeValue s.freeCtr, { s with freeCtr := s.freeCtr + 1 })

end Sys2Proof.Machine
end

