-- ==== Sys2Proof/Machine/Operands.lean ====
section
/-! DEFINITION. Operands: every source form of R88 with latches, queues, immediates and the conversion on read (R37, R38, R90, R91,
R93), every destination form, and the checks 4 to 8 of R87 with QUEUE, in their order. -/

namespace Sys2Proof.Machine

/-- What tag a source expects (R37). -/
inductive Expect where
  | any
  | width
  | ty (t : Ty) (also : List Ty)
  deriving DecidableEq, Repr

/-- A source: the field that names it (2 SA, 3 SB, 4 SC), the selector, its width, what it expects, the type an immediate takes
(R90), and whether the entry admits the selector's class there. -/
structure Src where
  fld : Nat
  sel : Sel
  w64 : Bool
  exp : Expect
  opTy : Ty
  ok : Bool := true
  deriving DecidableEq, Repr

/-- A destination: the selector, its width, how many vector registers it takes, and what the entry admits. -/
structure Dst where
  sel : Sel
  w64 : Bool
  cnt : Nat := 1
  align : Nat := 1
  vecOk : Bool := true
  scalarOk : Bool := true
  queueOk : Bool := true
  predOnly : Bool := false
  /-- a scalar is written whatever the sources are -/
  anyScalar : Bool := false
  fld : Nat := 1
  deriving DecidableEq, Repr

/-- A source as read on a lane. -/
structure Val where
  bits : Nat
  bnd : Bnd
  tag : Ty
  deriving DecidableEq, Repr

/-- A scalar, an immediate or a special other than `lane` (R91). -/
def selUniform (x : Sel) : Bool :=
  match x with | .s _ => true | .imm => true | .immF => true | .special k => k ≠ .lane | _ => false

/-- The lowest lane of a mask. -/
def lowest (m : Mask) : Nat := (Mask.list m).headD 0

/-- Is a vector register in the sheaf's holding: yes, not there at all (ILLOPND), or an extended block not held (XREG) (R28)? -/
inductive Holding where
  | held | absent | ext
  deriving DecidableEq, Repr

def State.holding (s : State) (n : Nat) : Holding :=
  if n < s.ctm.hdr.regs then .held
  else if n < 192 then .absent
  else if n < 256 ∧ s.csh.ext.getLsbD ((n - 192) / 16) then .held
  else if n < 256 then .ext else .absent

/-- The vector registers a source reads. -/
def Src.vregs (a : Src) : List Nat := match a.sel with | .v n => if a.w64 then [n.toNat, n.toNat + 1] else [n.toNat] | _ => []
def Dst.vregs (d : Dst) : List Nat := vregsOf d.sel d.cnt

/-- R90: may selector 0x181 stand there? -/
def Src.immFOk (a : Src) : Bool := a.opTy = .f32 || a.opTy = .f64

/-- Check 4 on a source. -/
def State.srcBad (s : State) (a : Src) : Bool :=
  !a.ok ||
  (match a.sel with
   | .rsv _ => true
   | .c _ => true
   | .immF => !a.immFOk
   | .v n => (a.w64 && n.toNat % 2 = 1) || a.vregs.any (fun n => s.holding n = .absent)
   | _ => false)

/-- Check 4 on a destination. `uni`: every source read is a scalar, an immediate or a special other than `lane`. -/
def State.dstBad (s : State) (d : Dst) (uni : Bool) : Bool :=
  match d.sel with
  | .v n => d.predOnly || !d.vecOk || n.toNat % d.align ≠ 0 || d.vregs.any (fun n => s.holding n = .absent)
  | .s _ => d.predOnly || !d.scalarOk || !(uni || d.anyScalar)
  | .q _ => d.predOnly || !d.queueOk
  | .p n => !d.predOnly || n = 15
  | _ => true

/-- The queue registers the sources name. -/
def srcQueues (as : List Src) : List (BitVec 4) := as.filterMap (fun a => match a.sel with | .q n => some n | _ => none)

/-- The field of the first source that names a queue an earlier source names. -/
def dupQueue : List Src → List (BitVec 4) → Option Nat
  | [], _ => none
  | a :: as, seen =>
    match a.sel with
    | .q n => if seen.contains n then some a.fld else dupQueue as (n :: seen)
    | _ => dupQueue as seen

/-- The entry a queue source pops: the first not retained (R244). -/
def State.headEntry (s : State) (q : BitVec 4) : Option Entry :=
  let e := s.csh.endpoint (s.rregs.boundTo q.toNat)
  e.entries[e.retained]?

/-- A raw read of a register selector on a lane. -/
def Regs.raw (r : Regs) (sel : Sel) (w64 : Bool) (l : Nat) : Val :=
  match sel with
  | .v n =>
    if w64 then ⟨r.vVal64 n.toNat l, r.vBnd64 n.toNat l, (r.vreg n.toNat).tag⟩
    else ⟨r.vVal32 n.toNat l, r.vBnd32 n.toNat l, (r.vreg n.toNat).tag⟩
  | .s n =>
    let x := r.sreg n.toNat
    ⟨if w64 then x.val.toNat else x.val.toNat % 2 ^ 32, Bnd.ofEb32 x.bnd, x.tag⟩
  | _ => ⟨0, .zero, .raw⟩

def State.rawReg (s : State) (sel : Sel) (w64 : Bool) (l : Nat) : Val := s.rregs.raw sel w64 l

/-- A special's value (R14, R89). -/
def State.special (s : State) (k : Special) (l : Nat) : Nat :=
  let x := s.csh
  let t := s.ctm
  let n := s.launch t.launch
  match k with
  | .lane => l
  | .sheaf => x.idx
  | .width => t.hdr.width
  | .teamx => t.index % n.fx
  | .teamy => t.index / n.fx % n.fy
  | .teamz => t.index / (n.fx * n.fy)
  | .fieldx => n.fx
  | .fieldy => n.fy
  | .fieldz => n.fz
  | .core => x.core % Config.coresPerDie
  | .die => x.core / Config.coresPerDie
  | .part => t.part
  | .ctx => t.ctx

/-- F32 bits widened exactly to F64 (R90). -/
def widenF32 (b : Nat) : Nat := Fmt.f64.encode (Fmt.f32.decode b)

/-- A raw read of any source on a lane, before conversion (R88, R90, R91, R93). A 32-bit read of a 64-bit latch entry yields its low
half and its bound rounded up, and a lane the producer did not write has the tag its register had (R92). DEDUCED (log 18). DESIGN CHOICE
(log 103): a 64-bit read that falls back to the register of a 32-bit producer reads that register and the next, and does not trap. DESIGN
CHOICE (log 123): a read that falls back to an extended register is not refused where its block has been released since, and reads it as it
stands. -/
def State.rawSrc (s : State) (a : Src) (l : Nat) : Val :=
  match a.sel with
  | .v _ | .s _ => s.rawReg a.sel a.w64 l
  | .l n =>
    match s.latchRead n.toNat with
    | .held e =>
      let b := Bnd.ofEb32 (lane e.bnd l 0)
      let v := (lane e.val l 0).toNat
      ⟨if a.w64 then v else v % 2 ^ 32, if e.w64 && !a.w64 then Bnd.ofEb16 b.eb16 else b, if Mask.has e.lanes l then e.tag else e.oldTag⟩
    | .fallback d => s.rawReg d a.w64 l
    | .lost => ⟨0, .zero, .raw⟩
  | .q n =>
    match s.headEntry n with
    | some e => ⟨(lane e.val l 0).toNat, Bnd.ofEb32 (lane e.bnd l 0), e.tag⟩
    | none => ⟨0, .zero, .raw⟩
  | .p n =>
    let p := s.rregs.pred n
    ⟨if Mask.has p.val l then 1 else 0, if Mask.has p.doubt l then .of (some 1) else .zero, .n32⟩
  | .special k => ⟨s.special k l, .zero, .n32⟩
  | _ => ⟨0, .zero, a.opTy⟩

/-- Does a source expect I64 (R37)? One that accepts any tag, or any of a width, expects no format. -/
def Expect.isI64 (e : Expect) : Bool := match e with | .ty t _ => t = .i64 | _ => false

/-- An immediate's bits in an operand (R90). DEDUCED (log 88): a source that accepts any tag does not expect I64, and zero-extends. -/
def immBitsFor (a : Src) (imm : W32) : Nat :=
  match a.sel with
  | .immF => if a.w64 then widenF32 imm.toNat else imm.toNat
  | _ => if a.w64 && a.exp.isI64 then (imm.signExtend 64).toNat else imm.toNat

/-! Conversion on read (R38). -/

def tyFmt (t : Ty) : Fmt := if t = .f64 then .f64 else .f32
def isFloatTy (t : Ty) : Bool := t = .f32 || t = .f64
def isSignedTy (t : Ty) : Bool := t = .i32 || t = .i64
def tyW (t : Ty) : Nat := if t.is64 then 64 else 32

/-- Bits read as a signed integer of `w` bits. -/
def sInt (w b : Nat) : Int := if b % 2 ^ w < 2 ^ (w - 1) then (b % 2 ^ w : Nat) else (b % 2 ^ w : Nat) - (2 ^ w : Nat)

/-- The integer a value of an integer type stands for. -/
def intVal (t : Ty) (b : Nat) : Int := if isSignedTy t then sInt (tyW t) b else (b % 2 ^ tyW t : Nat)

/-- The ends of an integer type's range. -/
def intMin (t : Ty) : Int := if isSignedTy t then -(2 ^ (tyW t - 1) : Nat) else 0
def intMax (t : Ty) : Int := if isSignedTy t then (2 ^ (tyW t - 1) : Nat) - 1 else (2 ^ tyW t : Nat) - 1

/-- An integer's bits in `w` bits. -/
def wrapBits (w : Nat) (x : Int) : Nat := (x % (2 ^ w : Nat)).toNat

/-- Clamp to a type's range; was the value outside it? -/
def clampTo (t : Ty) (x : Int) : Int × Bool :=
  if x < intMin t then (intMin t, true) else if intMax t < x then (intMax t, true) else (x, false)

/-- A floating value rounded to an integer type (R38, R151): bits, ρ, and whether it saturated or was a NaN. -/
def floatToInt (t : Ty) (rm : Rm) (x : FVal) : Nat × Rat × Bool :=
  match x with
  | .nan => (0, 0, true)
  | .inf n => (wrapBits (tyW t) (if n then intMin t else intMax t), 0, true)
  | .fin n q =>
    let m : Int := rndInt rm n q
    let v := if n then -m else m
    let (c, sat) := clampTo t v
    let rho : Rat := if (m : Rat) = q then 0 else match rm with | .rn => mkRat 1 2 | _ => 1
    (wrapBits (tyW t) c, rho, sat)

/-- Convert a value between the formats of one width (R38 and the table of R151). -/
def convNum (src dst : Ty) (rm : Rm) (bits : Nat) (b : Bnd) : Nat × Bnd :=
  if src = dst then (bits, b)
  else if isFloatTy src then
    if isFloatTy dst then
      let r := rnd (tyFmt dst) rm ((tyFmt src).decode bits)
      ((tyFmt dst).encode r.val,
        if r.ovf || r.val.isNan then { b with x := none } else { b with x := xadd b.x (some (rhoFull (tyFmt dst) rm r)) })
    else
      let (v, rho, sat) := floatToInt dst rm ((tyFmt src).decode bits)
      (v, if sat then { b with x := none } else { b with x := xadd b.x (some rho) })
  else
    let x := intVal src bits
    if isFloatTy dst then
      let r := rnd (tyFmt dst) rm (FVal.ofRat (x : Rat))
      ((tyFmt dst).encode r.val, { b with x := xadd b.x (some (rhoFull (tyFmt dst) rm r)) })
    else
      let (c, sat) := clampTo dst x
      (wrapBits (tyW dst) c, if sat then { b with x := none } else b)

/-- The two groups within which R37 converts. -/
def convGroup (a b : Ty) : Bool :=
  let g32 : List Ty := [.i32, .n32, .f32]
  let g64 : List Ty := [.i64, .n64, .f64]
  (g32.contains a && g32.contains b) || (g64.contains a && g64.contains b)

/-- Does a tag pass as it stands (R37 step 1)? -/
def Expect.passes (e : Expect) (w64 : Bool) (tag : Ty) : Bool :=
  match e with
  | .any => true
  | .width => tag = .raw || tag.is64 = w64
  | .ty t also => tag = .raw || tag = t || also.contains tag

/-- Does a tag trap FORMAT (R37 step 3)? -/
def Src.tagBad (a : Src) (fxc : Bool) (tag : Ty) : Bool :=
  !a.sel.isImm && !a.exp.passes a.w64 tag &&
  (match a.exp with | .ty t _ => !(fxc && convGroup tag t) | _ => true)

/-- The tag of a source as the sheaf holds it. DESIGN CHOICE (log 104): of a latch entry whose lanes differ, that of the path's lowest lane. -/
def State.srcTag (s : State) (a : Src) : Ty := if a.sel.isImm then a.opTy else (s.rawSrc a (lowest s.cur.lanes)).tag

/-- The tags of a source on the lanes of `m`: a latch entry may hold two (R92). -/
def State.srcTags (s : State) (m : Mask) (a : Src) : List Ty :=
  let one := [s.srcTag a]
  match a.sel with
  | .l n => (match s.latchRead n.toNat with
    | .held e => (if m &&& e.lanes = 0 then [] else [e.tag]) ++ (if m &&& ~~~e.lanes = 0 then [] else [e.oldTag])
    | _ => one)
  | _ => one

/-- Does a source read a scalar: by its selector, or through a latch whose entry or fallback is one's (R33, R93)? -/
def State.readsScalar (s : State) (a : Src) : Bool :=
  match a.sel with
  | .s _ => true
  | .l n => (match s.latchRead n.toNat with
    | .held e => (match e.dst with | .s _ => true | _ => false)
    | .fallback (.s _) => true
    | _ => false)
  | _ => false

/-- A source read on a lane: resolved and converted (R106's rd). `imm` is the instruction's IMM. `d16`: the destination holds an EB16,
and a scalar's bound is rounded up to it (R33). -/
def State.rd (s : State) (imm : W32) (d16 : Bool) (a : Src) (l : Nat) : Val :=
  if a.sel.isImm then ⟨immBitsFor a imm, .zero, a.opTy⟩
  else
    let w := s.rawSrc a l
    let v : Val := if d16 && !a.w64 && s.readsScalar a then { w with bnd := Bnd.ofEb16 w.bnd.eb16 } else w
    match a.exp with
    | .ty t also =>
      if v.tag = .raw || v.tag = t || also.contains v.tag then v
      else if convGroup v.tag t then
        let (b, e) := convNum v.tag t .rn v.bits v.bnd
        ⟨b, e, t⟩
      else v
    | _ => v

/-- Does a destination hold an EB16? -/
def d16Of (d : Sel) (w64 : Bool) : Bool := !w64 && (match d with | .v _ => true | .q _ => true | _ => false)

/-! The checks of R87. -/

/-- The first field, in the order D, SA, SB, SC, for which a test holds. -/
def firstField (d : Option Dst) (as : List Src) (fd : Dst → Bool) (fa : Src → Bool) : Option Nat :=
  match d with
  | some x => if fd x then some x.fld else (as.find? fa).map (·.fld)
  | none => (as.find? fa).map (·.fld)

/-- Checks 4 to 7. `m` are the lanes the frame records; of a latch entry that holds two tags those with the bad one (R92, R291). -/
def State.operandTrap (s : State) (m : Mask) (d : Option Dst) (as : List Src) : Option Trap :=
  let uni := as.all (fun a => selUniform a.sel)
  match firstField d as (fun x => s.dstBad x uni) s.srcBad with
  | some f => some { cause := cILLOPND, check := 4, lanes := m, opnd := f }
  | none =>
    match dupQueue as [] with
    | some f => some { cause := cILLOPND, check := 4, lanes := m, opnd := f }
    | none =>
      match firstField d as (fun x => x.vregs.any (fun n => s.holding n = .ext)) (fun a => a.vregs.any (fun n => s.holding n = .ext)) with
      | some f => some { cause := cXREG, check := 5, lanes := m, opnd := f }
      | none =>
        let latch := fun (a : Src) => match a.sel with
          | .l n => (match s.latchRead n.toNat with
            | .lost => some cLATCH
            | .held e => if a.w64 && !e.w64 then some cILLOPND else none
            | .fallback _ => none)
          | _ => none
        match as.find? (fun a => (latch a).isSome) with
        | some a => some { cause := (latch a).getD cLATCH, check := 6, lanes := m, opnd := a.fld }
        | none =>
          let bad := fun (a : Src) => (s.srcTags m a).find? (a.tagBad (allowFxc s.allow))
          let found := fun (l : Nat) => as.any (fun a => (s.srcTags (Mask.of 64 (fun k => k = l)) a).any (a.tagBad (allowFxc s.allow)))
          match as.find? (fun a => (bad a).isSome) with
          | some a => some { cause := cFORMAT, check := 7, lanes := Mask.of 64 (fun l => Mask.has m l && found l), opnd := a.fld, tag := ((bad a).getD .raw).code.toNat }
          | none => none

/-- Check 8: an infinite bound read under STRICT on an active lane (R71); the first source at fault is named (R291). DEDUCED (log 19).
DESIGN CHOICE (log 89): where one lane's source is lost and another's poisoned the cause is POISON, and TLANES holds both. DESIGN CHOICE (log
128): a source that other lanes take their values from (SHFL, RDLANE) is tested at each active lane's own place, and EDGE's e on every active
lane. -/
def State.strictTrap (s : State) (imm : W32) (d16 : Bool) (m : Mask) (as : List Src) : Option Trap :=
  let inf := fun (a : Src) (l : Nat) => (s.rd imm d16 a l).bnd.isInf
  match as.find? (fun a => allowStrict s.allow && (Mask.list m).any (inf a)) with
  | none => none
  | some a =>
    let bad := Mask.of 64 (fun l => Mask.has m l && as.any (fun b => inf b l))
    let poi := (Mask.list m).any (fun l => as.any (fun b => (s.rd imm d16 b l).bnd.poi))
    some { cause := if poi then cPOISON else cBOUNDLOST, check := 8, lanes := bad, opnd := a.fld }

/-- The endpoint codes a register may read and write through (R241). -/
def epReads (e : Nat) : Bool := e = 3 || e = 5
def epWrites (e : Nat) : Bool := e = 1 || e = 2 || e = 4

/-- QUEUE (R242): a wrong binding or direction, or an entry of the other width. DESIGN CHOICE (log 124): the binding of a q register named by D
is checked with NW as well, though nothing is pushed. -/
def State.queueTrap (s : State) (m : Mask) (d : Option Dst) (as : List Src) : Option Trap :=
  let badSrc := fun (a : Src) => match a.sel with
    | .q n =>
      !epReads (s.rregs.boundTo n.toNat) || (match s.headEntry n with | some e => e.w64 ≠ a.w64 | none => false)
    | _ => false
  let badDst := fun (x : Dst) => match x.sel with | .q n => !epWrites (s.rregs.boundTo n.toNat) | _ => false
  match firstField d as badDst badSrc with
  | some f => some { cause := cQUEUE, check := 9, lanes := m, opnd := f }
  | none => none

/-- Does a pop find no entry (R244, R245)? -/
def State.popWaits (s : State) (as : List Src) : Option Nat :=
  (srcQueues as).findSome? (fun q => if (s.headEntry q).isNone then some q.toNat else none)

/-- Does a push to an endpoint find sixteen entries present or held (R245)? -/
def Sheaf.pushFull (x : Sheaf) (ep : Nat) : Bool := decide (Config.endpointEntries ≤ (x.endpoint ep).entries.length + x.heldPushes ep)

/-- Does a push wait (R245)? Between an NW producer and the instruction after it no limit holds, and the chunk closes after it (R94).
DESIGN CHOICE (log 90). -/
def State.pushWaits (s : State) (d : Option Dst) : Bool :=
  match d with
  | some x => match x.sel with
    | .q n => s.csh.pushFull (s.rregs.boundTo n.toNat) && !s.afterNw
    | _ => false
  | none => false

/-- Would the open chunk write a 25th vector register (R220)? `d`: the destination, where the instruction writes it. -/
def State.vregsFull (s : State) (d : Option Dst) : Bool :=
  match d, s.csh.openChunk? with
  | some x, some c => decide (Config.chunkVregs < (c.addVregs x.vregs).vregs.length) && decide (c.count ≠ 0) && !s.afterNw
  | _, _ => false

/-- The lanes of the path wait for an entry of a queue register (R15, R245). -/
def State.waitPop (s : State) (q : Nat) : State :=
  let p := s.cur
  let s1 := s.updSheaf p.sheaf (fun x =>
      let y := x.close
      { y with waits := (Mask.list p.lanes).foldl (fun w l => SMap.set w l (Wait.pop q)) y.waits })
  { s1 with issue := s1.others }

/-- Pop the entries the sources name (R244). -/
def State.popAll (s : State) (as : List Src) : State :=
  (srcQueues as).foldl (fun a q => a.popEndpoint (s.rregs.boundTo q.toNat)) s

/-- One instruction of a chunk: the operand checks, the entry's own causes, what holds it back, then its effect on the active lanes
(R87, R107). The effect ends the instruction. -/
def runOp (h : Hd) (imm : W32) (d : Option Dst) (as : List Src) (own : State → Mask → Option Trap)
    (eff : State → Mask → State) (s : State) : Outcome :=
  let a := s.active h
  let m := if a = 0 then s.cur.lanes else a
  match s.operandTrap m d as with
  | some t => .next (s.raise t)
  | none =>
    match s.strictTrap imm (d.any (fun x => d16Of x.sel x.w64)) a as with
    | some t => .next (s.raise t)
    | none =>
      match s.queueTrap m d as with
      | some t => .next (s.raise t)
      | none =>
        match own s a with
        | some t => .next (s.raise t)
        | none =>
          match s.popWaits as with
          | some q => .next (s.waitPop q)
          | none =>
            let w := if h.nw then none else d
            if s.pushWaits w then .next s.closeForPush
            else if s.vregsFull (if a = 0 then none else w) then .next s.closeBefore
            else .next (eff s.begin a)

/-- No cause of the entry's own. -/
def noTrap (_ : State) (_ : Mask) : Option Trap := none

/-! Destinations. -/

/-- A result with bounds off keeps only its poison (R70). -/
def State.bnd (s : State) (b : Bnd) : Bnd := if s.boundsOn || b.poi then b else .zero

/-- A bound as the destination holds it: EB16 in a 32-bit vector register or queue word, else EB32 (R30, R92, R243). -/
def dstBnd (d : Sel) (w64 : Bool) (b : Bnd) : EB32 := if d16Of d w64 then (Bnd.ofEb16 b.eb16).eb32 else b.eb32

/-- The entry of a producer (R92): lanes it did not write hold the value, bound and tag of the register as `old` has it. DEDUCED (log 24).
DESIGN CHOICE (log 105): a 32-bit write of a scalar makes a 32-bit entry. -/
def State.latchEntry (s : State) (d : Sel) (nw w64 : Bool) (tag : Ty) (m : Mask) (res : Nat → Nat × Bnd) (old : Regs) : Latch :=
  let was := fun l => old.raw d w64 l
  { sheaf := s.cur.sheaf
    dst := d
    nw := nw
    w64 := w64
    tag := tag
    oldTag := (was 0).tag
    val := lanesOf s.width (fun l => BitVec.ofNat 64 (if Mask.has m l then (res l).1 else (was l).bits))
    bnd := lanesOf s.width (fun l => dstBnd d w64 (if Mask.has m l then (res l).2 else (was l).bnd))
    lanes := m
    held := s.convergent }

/-- Push a latch entry (R92), whose value comes later where `awaits` is set. -/
def State.enterLatch (s : State) (e : Latch) : State :=
  let x := s.csh
  let s1 := s.updCore x.core (fun c => { c with latches := SMap.update c.latches x.quad [] (fun q => (e :: q).take 4) })
  s1.updSheaf s.cur.sheaf (fun y => { y with regs := { y.regs with prods := ({ dst := e.dst, nw := e.nw, w64 := e.w64 } :: y.regs.prods).take 4 } })

/-- Has the current instruction issued before now, and waited for its access or for its round? -/
def Path.issued (p : Path) : Bool := p.arrived || p.inRound

/-- The entry of sheaf `i` that has waited for its value takes it as `e` has it; every other entry stands. -/
def Latch.fill (e : Latch) (i : Nat) (q : List Latch) : List Latch :=
  q.map (fun f => if f.awaits && f.sheaf = i then { e with held := f.held } else f)

/-- A producer's result enters L0; that of an instruction which has issued before goes where its entry stands by now. -/
def State.pushLatch (s : State) (d : Sel) (nw w64 : Bool) (tag : Ty) (m : Mask) (res : Nat → Nat × Bnd) (old : Regs) : State :=
  let e := s.latchEntry d nw w64 tag m res old
  if s.cur.issued then
    s.updCore s.csh.core (fun c => { c with latches := SMap.update c.latches s.csh.quad [] (e.fill s.cur.sheaf) })
  else s.enterLatch e

/-- A producer issues whose value returns later (R92, R200). -/
def State.awaitLatch (s : State) (d : Sel) (nw w64 : Bool) : State :=
  match d with
  | .v _ | .s _ => s.enterLatch { s.latchEntry d nw w64 .raw 0 (fun _ => (0, .zero)) s.csh.regs with awaits := true }
  | _ => s

/-- A write makes earlier fallbacks to its destination stale, but not its own, which an instruction that has issued before has entered. -/
def Regs.staleFor (r : Regs) (issued : Bool) (d : Sel) (w64 : Bool) : Regs :=
  let ps := (r.stale d w64).prods
  { r with prods := if issued then r.prods.take 1 ++ ps.drop 1 else ps }

/-- Write the registers only. DEDUCED (log 25). -/
def State.putD (s : State) (d : Sel) (w64 : Bool) (tag : Ty) (m : Mask) (res : Nat → Nat × Bnd) : State :=
  if m = 0 then s
  else
    let w := s.width
    let l0 := lowest m
    let put := fun (r : Regs) => match d with
      | .v n => Regs.putVec r w n.toNat w64 m res tag
      | .s n => Regs.putS r n.toNat w64 (res l0).1 (res l0).2 tag
      | _ => r
    let s1 := s.updSheaf s.cur.sheaf (fun x => { x with regs := (put x.regs).staleFor s.cur.issued d w64 })
    s1.updOpen (fun c => c.addVregs (vregsOf d (if w64 then 2 else 1)))

/-- Write through D (R106's wr): a vector register or pair on the lanes of `m`, a scalar once, an entry for a queue; with NW the
result goes to L0 alone (R86). The write-back of a producer makes earlier fallbacks to its destination stale. `old`: the registers before
the instruction wrote any. -/
def State.wrD (s : State) (h : Hd) (d : Sel) (w64 : Bool) (tag : Ty) (m : Mask) (res : Nat → Nat × Bnd) (old : Regs := s.csh.regs) : State :=
  let res' := fun l => ((res l).1, s.bnd (res l).2)
  match d with
  | .q n =>
    let w := s.width
    let e : Entry :=
      { w64 := w64, tag := tag
        val := lanesOf w (fun l => if Mask.has m l then BitVec.ofNat 64 (res' l).1 else 0)
        bnd := lanesOf w (fun l => if Mask.has m l then dstBnd d w64 (res' l).2 else 0) }
    if h.nw then s.pushLatch d true w64 tag m res' old else s.updOpen (fun c => c.hold (.push (s.rregs.boundTo n.toNat) e))
  | .s _ =>
    let l0 := lowest m
    let all := if m = 0 then 0 else allLanes s.width
    let s1 := if h.nw then s else s.putD d w64 tag m res'
    s1.pushLatch d h.nw w64 tag all (fun _ => res' l0) old
  | _ =>
    let s1 := if h.nw then s else s.putD d w64 tag m res'
    s1.pushLatch d h.nw w64 tag m res' old

/-- Write a predicate's value and doubt bits on the lanes of `m`; with bounds off doubt stays clear (R70). -/
def State.wrP (s : State) (d : Sel) (m val doubt : Mask) : State :=
  match d with
  | .p n => s.updSheaf s.cur.sheaf (fun x => { x with regs := x.regs.putP n m val (if s.boundsOn then doubt else 0) })
  | _ => s

/-- The destination D of an entry that writes a register or a pair. -/
def dstD (o : Opn) (w64 : Bool) : Dst := { sel := o.d, w64 := w64, cnt := if w64 then 2 else 1, align := if w64 then 2 else 1 }

/-- An instruction that writes D lane by lane from its sources, and does nothing else. `res` is given the active lanes and the reader of
the sources. -/
def runDst (h : Hd) (o : Opn) (d : Dst) (tag : State → Ty) (as : List Src) (own : State → Mask → Option Trap)
    (res : State → Mask → (Src → Nat → Val) → Nat → Nat × Bnd) (s : State) : Outcome :=
  runOp h o.imm (some d) as own
    (fun s1 a => (((s1.popAll as).wrD h o.d d.w64 (tag s1) a (res s1 a (s1.rd o.imm (d16Of o.d d.w64))))).finish h) s

/-- The same for an entry without causes of its own, whose result has a fixed tag. -/
def runD (h : Hd) (o : Opn) (w64 : Bool) (tag : Ty) (as : List Src)
    (res : State → Mask → (Src → Nat → Val) → Nat → Nat × Bnd) (s : State) : Outcome :=
  runDst h o (dstD o w64) (fun _ => tag) as noTrap res s

/-- A source that expects a type. -/
def srcTy (fld : Nat) (x : Sel) (t : Ty) : Src := ⟨fld, x, t.is64, .ty t [], t, true⟩
/-- A source that expects a type and accepts others as they stand. -/
def srcTyAlso (fld : Nat) (x : Sel) (t : Ty) (also : List Ty) : Src := ⟨fld, x, t.is64, .ty t also, t, true⟩
/-- A source limited to some selectors. -/
def Src.only (a : Src) (ok : Bool) : Src := { a with ok := ok }
/-- A 32-bit source of any tag read as N32. -/
def srcN32 (fld : Nat) (x : Sel) : Src := ⟨fld, x, false, .any, .n32, true⟩
/-- A source of any tag of a width. -/
def srcW (fld : Nat) (x : Sel) (w64 : Bool) (opTy : Ty) : Src := ⟨fld, x, w64, .width, opTy, true⟩
/-- A source of any tag. -/
def srcAny (fld : Nat) (x : Sel) (w64 : Bool) (opTy : Ty) : Src := ⟨fld, x, w64, .any, opTy, true⟩

end Sys2Proof.Machine
end

