-- ==== Sys2Proof/Machine/Flags.lean ====
section
/-! DEFINITION. The bound of every result: the named rules of R59 with ρ of R57 and R58, the arithmetic that produces ρ (R140), the
choice of a unit (R63, R64), doubt (R66), and the budget test (R68). -/

namespace Sys2Proof.Machine

/-! Rules (R59), evaluated left to right under R50. -/

def bAdd (bx by' rho : X) : X := xadd (xadd bx by') rho
/-- The three terms of B-MUL. -/
def bMulTerms (mx bx my by' : X) : X := xadd (xadd (xmul mx by') (xmul my bx)) (xmul bx by')
def bMul (mx bx my by' rho : X) : X := xadd (bMulTerms mx bx my by') rho
def bFma (mx bx my by' bz rho : X) : X := xadd (xadd (bMulTerms mx bx my by') bz) rho
/-- B-DIV, and R154 with |q| for |r|. `ay` is |y| as it stands, and the divisor |y| − b(y) is rounded down as R149 says of a divisor.
DEDUCED (log 16). -/
def bDiv (bx mr ay by' rho : X) : X :=
  if xle ay by' then none else xadd (xdiv (xadd bx (xmul mr by')) (xsubDn ay by')) rho

/-- The bound of a result: poisoned from a poisoned source (R74), lost where B-NAN or its like applies, else the rule's. -/
def mkBnd (srcs : List Bnd) (lost : Bool) (x : X) : Bnd :=
  if srcs.any (·.poi) then .poison else if lost then .lost else .of x

/-- B-BIT. -/
def bBit (srcs : List Bnd) : Bnd := mkBnd srcs (!srcs.all (·.isZero)) (some 0)
/-- B-MINMAX. -/
def bMax (a b : Bnd) : Bnd := mkBnd [a, b] false (xmax a.x b.x)

/-! Elements of a register (R42). -/

def eFmt (t : Ty) : Fmt :=
  match t with
  | .f64 => .f64 | .f16x2 => .f16 | .bf16x2 => .bf16 | .e4m3x4 => .e4m3 | .e5m2x4 => .e5m2 | _ => .f32
/-- Bits of an element. -/
def eWidth (t : Ty) : Nat := tyW t / t.elems
def elemBits (t : Ty) (bits i : Nat) : Nat := bits / 2 ^ (eWidth t * i) % 2 ^ eWidth t
def fElems (t : Ty) (bits : Nat) : List FVal := (List.range t.elems).map (fun i => (eFmt t).decode (elemBits t bits i))
/-- A register from its elements' bits. -/
def packElems (t : Ty) (l : List Nat) : Nat := ((List.range t.elems).map (fun i => l.getD i 0 * 2 ^ (eWidth t * i))).sum
/-- Put one element into a register. -/
def setElem (t : Ty) (bits i e : Nat) : Nat := packElems t ((List.range t.elems).map (fun k => if k = i then e else elemBits t bits k))

/-- The largest magnitude of the elements. -/
def maxMag (l : List FVal) : X := l.foldl (fun a v => xmax a v.mag) (some 0)

/-! Exact sums and products over the values of a format (R40, R141). -/

/-- The exact product: 0 × ∞ is a NaN. -/
def FVal.mul (x y : FVal) : FVal :=
  match x, y with
  | .nan, _ => .nan
  | _, .nan => .nan
  | .inf a, .inf b => .inf (a != b)
  | .inf a, .fin b q => if q = 0 then .nan else .inf (a != b)
  | .fin a q, .inf b => if q = 0 then .nan else .inf (a != b)
  | .fin a p, .fin b q => .fin (a != b) (p * q)

/-- A finite sum with the sign of its zero: zeros of one sign keep it, every other exact zero is +0, or −0 under RD (R40). -/
def finSum (rd : Bool) (l : List FVal) : FVal :=
  let v := (l.map FVal.rat).sum
  if v ≠ 0 then FVal.ofRat v
  else
    let n := (l.headD (.fin false 0)).neg
    if l.all (fun x => x.isZero && x.neg = n) then .fin n 0 else .fin rd 0

/-- The exact sum: infinities of both signs give a NaN. DEDUCED (log 14). -/
def sumExact (rd : Bool) (l : List FVal) : FVal :=
  if l.any FVal.isNan then .nan
  else
    let p := l.any (fun x => x.isInf && !x.neg)
    let n := l.any (fun x => x.isInf && x.neg)
    if p && n then .nan else if p then .inf false else if n then .inf true else finSum rd l

/-- A result with its ρ, and whether B-NAN makes its bound infinite. -/
structure Ar where
  val : FVal
  rho : X := some 0
  lost : Bool := false
  deriving DecidableEq, Repr

/-- Round an exact value on the full unit (R57, R140). -/
def arFull (f : Fmt) (rm : Rm) (e : FVal) : Ar :=
  let r := rnd f rm e
  ⟨r.val, if r.val.isFin then some (rhoFull f rm r) else some 0, r.val.isNan || r.ovf⟩

/-- Truncate a magnitude to `q` significant bits. -/
def truncBits (q : Nat) (x : Rat) : Rat :=
  if x = 0 then 0
  else
    let e := ilog2 x
    ((ratFloor (x * pow2 ((q : Int) - 1 - e)) : Nat) : Rat) * pow2 (e - (q - 1 : Nat))

/-- One cheap step (R58): the truncated magnitude and its term of ρ. DEDUCED (log 15). -/
def cheapStep (f : Fmt) (q : Nat) (x : Rat) : Rat × X :=
  let t := truncBits q x
  (t, if t = x then some 0 else some (pow2 (max (ilog2 x) f.emin - q + 1)))

/-- q and s of R58. -/
def cheapQ (f : Fmt) : Nat := if f = .f64 then 27 else 12
def cheapS (f : Fmt) : Nat := if f = .f64 then 32 else 16

/-- A sum of products and addends on the cheap unit (R58, R140); one product alone has no sum step; ρ is 0 where the result is the exact
one, though steps were not (R106). DESIGN CHOICE (log 95): a truncated
sum beyond the largest finite magnitude is an infinity with a lost bound, the exact sum being within it or not. -/
def arCheap (f : Fmt) (ps as : List FVal) : Ar :=
  let e := if as = [] ∧ ps.length = 1 then ps.headD .nan else sumExact false (ps ++ as)
  match e with
  | .nan => ⟨.nan, some 0, true⟩
  | .inf n => ⟨.inf n, some 0, false⟩
  | .fin en eq =>
    if f.maxFin < eq then ⟨.inf en, some 0, true⟩
    else
      let steps := ps.map (fun p => (p.neg, cheapStep f (cheapQ f) (match p with | .fin _ q => q | _ => 0)))
      let rho0 : X := steps.foldl (fun a t => xadd a t.2.2) (some 0)
      let single : Bool := decide (as = []) && decide (ps.length = 1)
      let v : Rat := (steps.map (fun t => if t.1 then -t.2.1 else t.2.1)).sum + (as.map FVal.rat).sum
      let neg : Bool := if v = 0 then (if single then en else false) else decide (v < 0)
      let av : Rat := if v < 0 then -v else v
      let (r, rho1) := if single then (av, (some 0 : X)) else cheapStep f (cheapS f) av
      let grid := f.emin - f.prec + 1
      let r' : Rat := if r < pow2 f.emin then ((ratFloor (r * pow2 (-grid)) : Nat) : Rat) * pow2 grid else r
      let rho2 : X := if r' = r then some 0 else some (pow2 grid)
      let rc : FVal := .fin neg r'
      if f.maxFin < r' then ⟨.inf neg, some 0, true⟩
      else ⟨rc, if rc.rat = e.rat then some 0 else xadd (xadd rho0 rho1) rho2, false⟩

/-- Unit classes in effect (R63). -/
def effClass (pol : Nat) (uc : UClass) (boundsOn eligible : Bool) : UClass :=
  if !eligible then .full
  else if pol = 1 then .full
  else if pol = 2 then .cheap
  else match uc with
    | .auto => if boundsOn then .auto else .full
    | c => c

/-- R64's test of one lane: the cheap bound against τ·|rc|, the product taken under R50. -/
def autoPasses (tau : EB16) (rc : FVal) (bc : Bnd) : Bool :=
  match bc.x with
  | none => false
  | some b => xle (some b) (xmul (Bnd.ofEb16 tau).x rc.mag)

/-- The four operations of R141. -/
inductive FOp where
  | add | sub | mul | fma
  deriving DecidableEq, Repr

/-- The products and the addends of an operation's exact result. -/
def FOp.parts (f : FOp) (xs : List FVal) : List FVal × List FVal :=
  let x := xs.getD 0 .nan
  let y := xs.getD 1 .nan
  match f with
  | .add => ([], [x, y])
  | .sub => ([], [x, y.flip])
  | .mul => ([x.mul y], [])
  | .fma => ([x.mul y], [xs.getD 2 .nan])

/-- The entry's bound rule without ρ's place left open: magnitudes and bounds of the sources. -/
def FOp.rule (f : FOp) (ms bs : List X) (rho : X) : X :=
  let m := fun i => ms.getD i (some 0)
  let b := fun i => bs.getD i (some 0)
  match f with
  | .add => bAdd (b 0) (b 1) rho
  | .sub => bAdd (b 0) (b 1) rho
  | .mul => bMul (m 0) (b 0) (m 1) (b 1) rho
  | .fma => bFma (m 0) (b 0) (m 1) (b 1) (b 2) rho

/-- Sum of products and addends in one format, rounded once on a unit. -/
def arSum (f : Fmt) (rm : Rm) (cheap : Bool) (ps as : List FVal) : Ar :=
  if cheap then arCheap f ps as
  else arFull f rm (if as = [] ∧ ps.length = 1 then ps.headD .nan else sumExact (rm = .rd) (ps ++ as))

/-- One lane of FADD, FSUB, FMUL or FFMA on a unit: bits, bound, and the value of the first element. -/
def fLane (op : FOp) (t : Ty) (rm : Rm) (cheap : Bool) (vs : List Val) : Nat × Bnd × FVal :=
  let els := vs.map (fun v => fElems t v.bits)
  let rs := (List.range t.elems).map (fun i =>
    let (ps, as) := op.parts (els.map (fun l => l.getD i .nan))
    arSum (eFmt t) rm cheap ps as)
  let rho := rs.foldl (fun a r => xmax a r.rho) (some 0)
  let b := op.rule (els.map maxMag) (vs.map (·.bnd.x)) rho
  (packElems t (rs.map (fun r => (eFmt t).encode r.val)), mkBnd (vs.map (·.bnd)) (rs.any (·.lost)) b, (rs.headD ⟨.nan, some 0, true⟩).val)

/-- Run a lane function on the unit the class in effect chooses (R64): the cheap results stand only if every active lane passes. DEDUCED (log 17). -/
def chooseUnit (c : UClass) (tau : EB16) (m : Mask) (f : Bool → Nat → Nat × Bnd × FVal) (l : Nat) : Nat × Bnd :=
  let cheap := match c with
    | .cheap => true
    | .auto => (Mask.list m).all (fun k => let r := f true k; autoPasses tau r.2.2 r.2.1)
    | _ => false
  let r := f cheap l
  (r.1, r.2.1)

/-! Integers (R118 to R120). -/

/-- The elements of an integer register (R118 rule 5). -/
def iElemTy (t : Ty) : Bool := isSignedTy t || t = .i8x4
def iElems (t : Ty) (bits : Nat) : List Int :=
  (List.range t.elems).map (fun i => if iElemTy t then sInt (eWidth t) (elemBits t bits i) else (elemBits t bits i : Nat))
def iMin (t : Ty) : Int := if iElemTy t then -(2 ^ (eWidth t - 1) : Nat) else 0
def iMax (t : Ty) : Int := if iElemTy t then (2 ^ (eWidth t - 1) : Nat) - 1 else (2 ^ eWidth t : Nat) - 1

/-- Bring an exact integer into the type (R45, R119): the element's bits, and whether it wrapped or saturated. -/
def iFit (t : Ty) (sat : Bool) (e : Int) : Nat × Bool :=
  if e < iMin t then (wrapBits (eWidth t) (if sat then iMin t else e), true)
  else if iMax t < e then (wrapBits (eWidth t) (if sat then iMax t else e), true)
  else (wrapBits (eWidth t) e, false)

/-- The largest magnitude among the elements, under R50. -/
def iMag (l : List Int) : X := some (l.foldl (fun a v => max a (up22 ((v.natAbs : Nat) : Rat))) 0)

/-- One lane of an integer instruction: `e` combines the sources' elements exactly, `rule` the magnitudes and bounds. -/
def iLane (t : Ty) (sat : Bool) (e : List Int → Int) (rule : List X → List X → X) (vs : List Val) : Nat × Bnd :=
  let els := vs.map (fun v => iElems t v.bits)
  let rs := (List.range t.elems).map (fun i => iFit t sat (e (els.map (fun l => l.getD i 0))))
  let bs := vs.map (·.bnd)
  let lost := rs.any (·.2) && !bs.all (·.isZero)
  (packElems t (rs.map (·.1)), mkBnd bs lost (rule (els.map iMag) (bs.map (·.x))))

/-! Doubt (R66). -/

/-- The distance of two values over the extended reals; none is an infinite distance. -/
def xdist (x y : FVal) : X :=
  match x, y with
  | .inf a, .inf b => if a = b then some 0 else none
  | .inf _, _ => none
  | _, .inf _ => none
  | _, _ => let d := x.rat - y.rat; some (if d < 0 then -d else d)

def doubtOf (x y : FVal) (bx by' : Bnd) : Bool :=
  x.isNan || y.isNan || bx.isInf || by'.isInf ||
  (match xadd bx.x by'.x with
   | some b => decide (0 < b) && xle (xdist x y) (some b)
   | none => true)

/-- The comparisons of R124 and R143 on two values neither of which is a NaN. -/
def cmpFin (cc : Nat) (lt eq : Bool) : Bool :=
  match cc with
  | 0 => eq
  | 1 => !eq
  | 2 => lt
  | 3 => lt || eq
  | 4 => !(lt || eq)
  | _ => !lt

/-- x < y and x = y for values that are not NaN; −0 equals +0 (R40). -/
def fvLt (x y : FVal) : Bool :=
  match x, y with
  | .inf a, .inf b => a && !b
  | .inf a, _ => a
  | _, .inf b => !b
  | _, _ => decide (x.rat < y.rat)
def fvEq (x y : FVal) : Bool :=
  match x, y with
  | .inf a, .inf b => a = b
  | .inf _, _ => false
  | _, .inf _ => false
  | _, _ => decide (x.rat = y.rat)

/-! The budget test (R68, R74, R163). -/

/-- |value| of an element for the relative test. -/
def budgetMag (t : Ty) (bits : Nat) : X :=
  if isFloatTy t then (match (tyFmt t).decode bits with | .fin _ q => some (up22 q) | _ => some 0) else some 0

def budgetPasses (e : RegEntry) (b : Bnd) (m : X) : Bool :=
  let ab := (Bnd.ofEb32 e.absB).x
  (match b.x with
   | none => ab = none
   | some q => xle (some q) ab || xle (some q) (xmul (Bnd.ofEb16 e.relB).x m))

end Sys2Proof.Machine
end

