-- ==== Sys2Proof/Machine/Control.lean ====
section
/-! DEFINITION. Control instructions 0x01 to 0x0B (R108 to R117). -/

namespace Sys2Proof.Machine

/-- The lanes taken: those whose guard is true (R108). -/
def State.taken (s : State) (h : Hd) : Mask := s.active h

/-- The DTRAP test of R108. -/
def State.dtrap (s : State) (h : Hd) : Option Trap :=
  let d := s.doubtful h
  if allowDtrap s.allow && d ≠ 0 then some { cause := cBUDGET, check := 9, lanes := d } else none

/-- The lowest address on the lanes of a mask (R291). -/
def lowestAddr (m : Mask) (f : Nat → Nat) : Nat :=
  match Mask.list m with
  | [] => 0
  | l :: r => r.foldl (fun a k => min a (f k)) (f l)

/-- The target of R97. -/
def branchTarget (pc : Pc) (imm : W32) : Pc :=
  ((pc &&& ~~~(0x3F : Pc)) + (imm.extractLsb' 3 29).signExtend 56 * 64) + (imm.extractLsb' 0 3).setWidth 56

/-- TARGET for a transfer of lanes `m` to a PC (R80). -/
def State.targetTrap (s : State) (m : Mask) (pc : Nat) : Option Trap :=
  if m ≠ 0 ∧ s.targetBad s.csh.core s.ctm.ctx pc then
    some { cause := cTARGET, check := 9, lanes := m, addr := BitVec.ofNat 64 pc, akind := 1 }
  else none

/-- Move the taken lanes to their targets and the rest of the path to the next slot, and end the instruction. -/
def State.transfer (s : State) (h : Hd) (t : Mask) (tgt : Nat → Pc) : State :=
  let n := nextPc s.cur.pc
  let p := s.cur.lanes
  let go := fun (r : Regs) => lanesOf s.width (fun l => if Mask.has t l then tgt l else if Mask.has p l then n else r.pcOf l)
  (s.updSheaf s.cur.sheaf (fun x => { x with regs := { x.regs with pc := go x.regs } })).retire h false

def execNop (h : Hd) (_o : Opn) (_m : BitVec 8) (s : State) : Outcome := .next (s.begin.finish h)

/-- R110. -/
def execBra (h : Hd) (o : Opn) (_m : BitVec 8) (s : State) : Outcome :=
  let t := s.taken h
  let tgt := branchTarget s.cur.pc o.imm
  match s.dtrap h with
  | some c => .next (s.raise c)
  | none =>
    match s.targetTrap t tgt.toNat with
    | some c => .next (s.raise c)
    | none => .next (s.begin.transfer h t (fun _ => tgt))

/-- R111. -/
def execBrd (h : Hd) (o : Opn) (_m : BitVec 8) (s : State) : Outcome :=
  let tgt := branchTarget s.cur.pc o.imm
  let t := if s.doubtful h = 0 then 0 else s.cur.lanes
  match s.targetTrap t tgt.toNat with
  | some c => .next (s.raise c)
  | none => .next (s.begin.transfer h t (fun _ => tgt))

/-- An indirect transfer (R112): the source is admitted as `ok` says. -/
def jumpVia (ok : Bool) (h : Hd) (o : Opn) (s : State) : Outcome :=
  let a := (srcTyAlso 2 o.sa .n64 [.i64]).only ok
  let t := s.taken h
  let rd := fun l => (s.rd o.imm false a l).bits
  runOp h o.imm none [a]
    (fun _ _ =>
      match s.dtrap h with
      | some c => some c
      | none =>
        let bad := Mask.of 64 (fun l => Mask.has t l && (decide (2 ^ 56 ≤ rd l) || s.targetBad s.csh.core s.ctm.ctx (rd l)))
        if bad = 0 then none
        else some { cause := cTARGET, check := 9, lanes := bad, addr := BitVec.ofNat 64 (lowestAddr bad rd), akind := 1 })
    (fun s1 _ => s1.transfer h t (fun l => BitVec.ofNat 56 (rd l))) s

def selIsV (x : Sel) : Bool := match x with | .v _ => true | _ => false
def selIsS (x : Sel) : Bool := match x with | .s _ => true | _ => false
def selIsP (x : Sel) : Bool := match x with | .p _ => true | _ => false
def selIsQ (x : Sel) : Bool := match x with | .q _ => true | _ => false

def execJmp (h : Hd) (o : Opn) (_m : BitVec 8) (s : State) : Outcome := jumpVia (selIsS o.sa) h o s
def execJmpr (h : Hd) (o : Opn) (_m : BitVec 8) (s : State) : Outcome := jumpVia (selIsV o.sa) h o s
def execRet (h : Hd) (o : Opn) (_m : BitVec 8) (s : State) : Outcome := jumpVia (selIsS o.sa || selIsV o.sa) h o s

/-- R113. -/
def execCall (h : Hd) (o : Opn) (_m : BitVec 8) (s : State) : Outcome :=
  let t := s.taken h
  let tgt := branchTarget s.cur.pc o.imm
  let link := (nextPc s.cur.pc).toNat
  runOp h o.imm (some { dstD o true with queueOk := false, anyScalar := true }) []
    (fun s1 _ => match s1.dtrap h with | some c => some c | none => s1.targetTrap t tgt.toNat)
    (fun s1 _ => (s1.wrD h o.d true .n64 t (fun _ => (link, .zero))).transfer h t (fun _ => tgt)) s

/-- R114: the taken lanes exit; the rest of the path goes on; the chunk closes. -/
def execExit (h : Hd) (_o : Opn) (_m : BitVec 8) (s : State) : Outcome :=
  let t := s.taken h
  let s1 := s.begin.movePc s.cur.lanes (nextPc s.cur.pc)
  .next ((s1.updSheaf s.cur.sheaf (fun x => { x with regs := { x.regs with exited := x.regs.exited ||| t } })).retire h true)

/-- R115: without an entry in the table ILLOP; with a request pending and the sheaf convergent it parks. Inside a save or restore
routine a SAFEPT has no effect (R302). -/
def execSafept (h : Hd) (_o : Opn) (_m : BitVec 8) (s : State) : Outcome :=
  let pc := s.cur.pc
  if !s.ctm.hdr.sptab.any (fun e => e.1 = pc.toNat) then
    .next (s.raise { cause := cILLOP, check := 9, lanes := s.cur.lanes })
  else if s.ctm.preq && s.convergent && !s.csh.regs.routine then
    .next (((s.begin.finish h true)).updSheaf s.cur.sheaf (fun x => { x with parked := some pc }))
  else .next (s.begin.finish h)

/-- R116: the sheaf is not ready for n + 1 cycles, and its wait restarts. -/
def execYield (h : Hd) (o : Opn) (_m : BitVec 8) (s : State) : Outcome :=
  .next ((s.begin.finish h).updSheaf s.cur.sheaf (fun x =>
    { x with yieldUntil := s.cycle + 1 + bitsAt o.imm.toNat 7 0 + 1, pickWait := 0 }))

/-- R117. -/
def execCclose (h : Hd) (_o : Opn) (_m : BitVec 8) (s : State) : Outcome := .next (s.begin.finish h true)

end Sys2Proof.Machine
end

