-- ==== Sys2Proof/Machine/Integer.lean ====
section
/-! DEFINITION. Integer instructions 0x10 to 0x28 (R118 to R128). -/

namespace Sys2Proof.Machine

/-- An integer instruction of the pattern of R119 over some sources. -/
def intOp (h : Hd) (o : Opn) (m : IMod) (as : List Src) (e : List Int → Int) (rule : List X → List X → X) (s : State) : Outcome :=
  runD h o m.ty.is64 m.ty as (fun _ _ rd l => iLane m.ty m.sat e rule (as.map (fun a => rd a l))) s

def at0 (l : List X) (i : Nat) : X := l.getD i (some 0)
def iA (o : Opn) (m : IMod) : Src := srcTy 2 o.sa m.ty
def iB (o : Opn) (m : IMod) : Src := srcTy 3 o.sb m.ty
def iC (o : Opn) (m : IMod) : Src := srcTy 4 o.sc m.ty
def ruleAdd (_ : List X) (b : List X) : X := bAdd (at0 b 0) (at0 b 1) (some 0)
def ruleMul (m b : List X) : X := bMul (at0 m 0) (at0 b 0) (at0 m 1) (at0 b 1) (some 0)
def ruleMax (_ : List X) (b : List X) : X := xmax (at0 b 0) (at0 b 1)

def execIadd (h : Hd) (o : Opn) (m : IMod) (s : State) : Outcome :=
  intOp h o m [iA o m, iB o m] (fun x => x.getD 0 0 + x.getD 1 0) ruleAdd s
def execIsub (h : Hd) (o : Opn) (m : IMod) (s : State) : Outcome :=
  intOp h o m [iA o m, iB o m] (fun x => x.getD 0 0 - x.getD 1 0) ruleAdd s
def execImul (h : Hd) (o : Opn) (m : IMod) (s : State) : Outcome :=
  intOp h o m [iA o m, iB o m] (fun x => x.getD 0 0 * x.getD 1 0) ruleMul s

/-- R120: 0 from exact sources, otherwise B-MUL's terms × 2^−w + 1. -/
def execImulh (h : Hd) (o : Opn) (m : IMod) (s : State) : Outcome :=
  intOp h o { m with sat := false } [iA o m, iB o m] (fun x => x.getD 0 0 * x.getD 1 0 / (2 ^ tyW m.ty : Nat))
    (fun mg b => if at0 b 0 = some 0 ∧ at0 b 1 = some 0 then some 0
      else xadd (xmul (bMulTerms (at0 mg 0) (at0 b 0) (at0 mg 1) (at0 b 1)) (some (pow2 (-(tyW m.ty : Int))))) (some 1)) s

def execImad (h : Hd) (o : Opn) (m : IMod) (s : State) : Outcome :=
  intOp h o m [iA o m, iB o m, iC o m] (fun x => x.getD 0 0 * x.getD 1 0 + x.getD 2 0)
    (fun mg b => bFma (at0 mg 0) (at0 b 0) (at0 mg 1) (at0 b 1) (at0 b 2) (some 0)) s
def execImin (h : Hd) (o : Opn) (m : IMod) (s : State) : Outcome :=
  intOp h o m [iA o m, iB o m] (fun x => min (x.getD 0 0) (x.getD 1 0)) ruleMax s
def execImax (h : Hd) (o : Opn) (m : IMod) (s : State) : Outcome :=
  intOp h o m [iA o m, iB o m] (fun x => max (x.getD 0 0) (x.getD 1 0)) ruleMax s
def execIabs (h : Hd) (o : Opn) (m : IMod) (s : State) : Outcome :=
  intOp h o m [iA o m] (fun x => ((x.getD 0 0).natAbs : Int)) (fun _ b => at0 b 0) s

/-! Bits (R121 to R123): sources of any tag of the width, result RAW, rule B-BIT. Only the field descriptor of BFE and BFI accepts any
tag: their other sources expect the type (R118). -/

def wA (o : Opn) (m : IMod) : Src := srcW 2 o.sa m.ty.is64 m.ty
def wB (o : Opn) (m : IMod) : Src := srcW 3 o.sb m.ty.is64 m.ty

/-- A bitwise instruction over some sources. -/
def bitOp (h : Hd) (o : Opn) (m : IMod) (as : List Src) (f : List Nat → Nat) (s : State) : Outcome :=
  runD h o m.ty.is64 .raw as (fun _ _ rd l =>
    (f (as.map (fun a => (rd a l).bits)) % 2 ^ tyW m.ty, bBit (as.map (fun a => (rd a l).bnd)))) s

def execAnd (h : Hd) (o : Opn) (m : IMod) (s : State) : Outcome :=
  bitOp h o m [wA o m, wB o m] (fun x => x.getD 0 0 &&& x.getD 1 0) s
def execOr (h : Hd) (o : Opn) (m : IMod) (s : State) : Outcome :=
  bitOp h o m [wA o m, wB o m] (fun x => x.getD 0 0 ||| x.getD 1 0) s
def execXor (h : Hd) (o : Opn) (m : IMod) (s : State) : Outcome :=
  bitOp h o m [wA o m, wB o m] (fun x => x.getD 0 0 ^^^ x.getD 1 0) s
def execNot (h : Hd) (o : Opn) (m : IMod) (s : State) : Outcome :=
  bitOp h o m [wA o m] (fun x => 2 ^ tyW m.ty - 1 - x.getD 0 0 % 2 ^ tyW m.ty) s
def execShl (h : Hd) (o : Opn) (m : IMod) (s : State) : Outcome :=
  bitOp h o m [wA o m, srcN32 3 o.sb] (fun x => if tyW m.ty ≤ x.getD 1 0 then 0 else x.getD 0 0 * 2 ^ x.getD 1 0) s
def execShr (h : Hd) (o : Opn) (m : IMod) (s : State) : Outcome :=
  bitOp h o m [wA o m, srcN32 3 o.sb] (fun x => if tyW m.ty ≤ x.getD 1 0 then 0 else x.getD 0 0 / 2 ^ x.getD 1 0) s
def execSar (h : Hd) (o : Opn) (m : IMod) (s : State) : Outcome :=
  bitOp h o m [wA o m, srcN32 3 o.sb]
    (fun x => wrapBits (tyW m.ty) (sInt (tyW m.ty) (x.getD 0 0) / (2 ^ min (x.getD 1 0) (tyW m.ty) : Nat))) s

/-- R122. -/
def bfe (t : Ty) (x f : Nat) : Nat :=
  let w := tyW t
  let pos := f % 256
  let len := min (f / 256 % 256) w
  let fld : Nat := (intVal t x / (2 ^ pos : Nat) % (2 ^ len : Nat)).toNat
  if len = 0 then 0
  else wrapBits w (if isSignedTy t && fld.testBit (len - 1) then (fld : Int) - (2 ^ len : Nat) else fld)
def bfi (t : Ty) (x y f : Nat) : Nat :=
  let w := tyW t
  let pos := f % 256
  let len := min (f / 256 % 256) w
  let k := (2 ^ len - 1) * 2 ^ pos % 2 ^ w
  (y % 2 ^ w - (y % 2 ^ w &&& k)) ||| (x * 2 ^ pos % 2 ^ w &&& k)

def execBfe (h : Hd) (o : Opn) (m : IMod) (s : State) : Outcome :=
  bitOp h o m [iA o m, srcN32 3 o.sb] (fun x => bfe m.ty (x.getD 0 0) (x.getD 1 0)) s
def execBfi (h : Hd) (o : Opn) (m : IMod) (s : State) : Outcome :=
  bitOp h o m [iA o m, iB o m, srcN32 4 o.sc] (fun x => bfi m.ty (x.getD 0 0) (x.getD 1 0) (x.getD 2 0)) s

/-- Bits 0 to w − 1 of a number that are one. -/
def popCount (w x : Nat) : Nat := ((List.range w).filter (fun i => x.testBit i)).length
def leadZeros (w x : Nat) : Nat := if x = 0 then w else w - 1 - Nat.log2 x
def bitRev (w x : Nat) : Nat := ((List.range w).map (fun i => if x.testBit i then 2 ^ (w - 1 - i) else 0)).sum

/-- R123: the result is one 32-bit register tagged N32. DEDUCED (log 88): a 64-bit immediate x zero-extends under I64 as under N64. -/
def countOp (h : Hd) (o : Opn) (m : IMod) (f : Nat → Nat → Nat) (s : State) : Outcome :=
  runD h o false .n32 [wA o m] (fun _ _ rd l => (f (tyW m.ty) (rd (wA o m) l).bits, bBit [(rd (wA o m) l).bnd])) s

def execPopc (h : Hd) (o : Opn) (m : IMod) (s : State) : Outcome := countOp h o m popCount s
def execClz (h : Hd) (o : Opn) (m : IMod) (s : State) : Outcome := countOp h o m leadZeros s
def execBrev (h : Hd) (o : Opn) (m : IMod) (s : State) : Outcome :=
  bitOp h o m [wA o m] (fun x => bitRev (tyW m.ty) (x.getD 0 0)) s

/-! Comparison, selection, moves (R124 to R128). -/

/-- An instruction that writes a predicate from sources: value and doubt bit of each active lane. -/
def runPred (h : Hd) (o : Opn) (as : List Src) (f : State → (Src → Nat → Val) → Nat → Bool × Bool) (s : State) : Outcome :=
  runOp h o.imm (some { sel := o.d, w64 := false, predOnly := true }) as noTrap
    (fun s1 a =>
      let r := f s1 (s1.rd o.imm false)
      (((s1.popAll as).wrP o.d a (Mask.of 64 (fun l => Mask.has a l && (r l).1)) (Mask.of 64 (fun l => Mask.has a l && (r l).2))).finish h)) s

def intFv (t : Ty) (b : Nat) : FVal := FVal.ofRat ((intVal t b : Int) : Rat)

def execIsetp (h : Hd) (o : Opn) (m : IMod) (s : State) : Outcome :=
  runPred h o [iA o m, iB o m] (fun _ rd l =>
    let x := rd (iA o m) l
    let y := rd (iB o m) l
    let a := intVal m.ty x.bits
    let b := intVal m.ty y.bits
    (cmpFin m.sub.toNat (decide (a < b)) (decide (a = b)), doubtOf (intFv m.ty x.bits) (intFv m.ty y.bits) x.bnd y.bnd)) s

/-- |x − y| for a doubtful SEL (R125). DEDUCED (log 21). DESIGN CHOICE (log 119): where one of two floats is a NaN it is 0 for equal bits, else
infinite. -/
def selDist (tx ty : Ty) (w64 : Bool) (x y : Nat) : X :=
  let same : X := if x = y then some 0 else none
  if tx = ty ∧ tx.isIn tNum ∧ tx.is64 = w64 then
    if isFloatTy tx then
      let a := (tyFmt tx).decode x
      let b := (tyFmt ty).decode y
      if a.isNan || b.isNan then same else (xdist a b).map up22
    else some (up22 (((intVal tx x - intVal ty y).natAbs : Nat) : Rat))
  else same

/-- R125. DESIGN CHOICE (log 100): an immediate x or y carries M's type as its tag, zero-extends, and may be an F32 immediate where M's
type is F32 or F64. -/
def execSel (h : Hd) (o : Opn) (m : IMod) (s : State) : Outcome :=
  let x := srcW 2 o.sa m.ty.is64 m.ty
  let y := srcW 3 o.sb m.ty.is64 m.ty
  let p := (srcAny 4 o.sc false .n32).only (selIsP o.sc)
  runDst h o (dstD o m.ty.is64)
    (fun s1 => if s1.srcTag x = s1.srcTag y then s1.srcTag x else .raw) [x, y, p] noTrap
    (fun _ _ rd l =>
      let a := rd x l
      let b := rd y l
      let c := rd p l
      let v := if c.bits = 1 then a else b
      if c.bnd.isZero then (v.bits, v.bnd)
      else (v.bits, mkBnd [a.bnd, b.bnd] false
        (xadd (xmax a.bnd.x b.bnd.x) (selDist a.tag b.tag m.ty.is64 a.bits b.bits)))) s

/-- R126. DEDUCED (log 88): the source accepts any tag, so a 64-bit immediate zero-extends under I64 too. -/
def execMov (h : Hd) (o : Opn) (m : IMod) (s : State) : Outcome :=
  let x := srcAny 2 o.sa m.ty.is64 m.ty
  runDst h o (dstD o m.ty.is64) (fun s1 => s1.srcTag x) [x] noTrap (fun _ _ rd l => ((rd x l).bits, (rd x l).bnd)) s

/-- R127. The old value of D is read where HI keeps its low half. DESIGN CHOICE (log 93): that read is no source under STRICT, so MOVI.HI
never traps BOUNDLOST or POISON. -/
def execMovi (h : Hd) (o : Opn) (m : IMod) (s : State) : Outcome :=
  let hi := m.sub.getLsbD 0
  let d := { dstD o m.ty.is64 with queueOk := !hi }
  let v := if m.ty = .i64 then (o.imm.signExtend 64).toNat else o.imm.toNat
  runDst h o d (fun _ => m.ty) [] noTrap
    (fun s1 _ _ l =>
      if hi then
        let old := s1.rawReg o.d true l
        (o.imm.toNat * 2 ^ 32 + old.bits % 2 ^ 32, if old.bnd.isZero then .zero else if old.bnd.poi then .poison else .lost)
      else (v, .zero)) s

/-- R128: x + Y·2^k + sext(IMM), bounded as a multiply-add by the scale. DEDUCED (log 22). -/
def execLea (h : Hd) (o : Opn) (m : IMod) (s : State) : Outcome :=
  let x := iA o m
  let y := srcTy 3 o.sb (if isSignedTy m.ty then .i32 else .n32)
  let ok := fun (a : Src) => a.only (!a.sel.isImm)
  runD h o m.ty.is64 m.ty [ok x, ok y] (fun _ _ rd l =>
    let a := rd x l
    let b := rd y l
    let e := intVal m.ty a.bits + intVal y.opTy b.bits * (2 ^ m.sub.toNat : Nat) + o.imm.toInt
    let (v, wrapped) := iFit m.ty false e
    (v, mkBnd [a.bnd, b.bnd] (wrapped && !(a.bnd.isZero && b.bnd.isZero))
      (xadd a.bnd.x (xmul b.bnd.x (some (pow2 m.sub.toNat)))))) s

end Sys2Proof.Machine
end

