-- ==== Sys2Proof/Machine/Pred.lean ====
section
/-! DEFINITION. Predicate and lane instructions 0x30 to 0x37 (R129 to R137). A read of another lane takes what the lane held before this
issue (R129). -/

namespace Sys2Proof.Machine

/-- A predicate source. -/
def srcP (fld : Nat) (x : Sel) : Src := (srcAny fld x false .n32).only (selIsP x)

/-- R130. -/
def execPlop (h : Hd) (o : Opn) (m : BitVec 8) (s : State) : Outcome :=
  runPred h o [srcP 2 o.sa, srcP 3 o.sb, srcP 4 o.sc] (fun _ rd l =>
    let a := rd (srcP 2 o.sa) l
    let b := rd (srcP 3 o.sb) l
    let c := rd (srcP 4 o.sc) l
    (m.getLsbD (4 * a.bits + 2 * b.bits + c.bits), !(a.bnd.isZero && b.bnd.isZero && c.bnd.isZero))) s

/-- A bound carried to a result that another source's poison reaches (R74). -/
def Bnd.poisonedBy (b k : Bnd) : Bnd := if k.poi then .poison else b

/-- Form 2 of R131: is a value non-zero, and may it be zero? DESIGN CHOICE (log 94): an F32 NaN is non-zero, and its magnitude is within
no finite bound. -/
def nonZero (v : Val) : Bool × Bool :=
  let fv : FVal := if v.tag = .f32 then Fmt.f32.decode v.bits
    else if v.tag = .i32 then FVal.ofRat ((sInt 32 v.bits : Int) : Rat) else FVal.ofRat ((v.bits : Nat) : Rat)
  let mag : X := match fv with | .fin _ q => some q | _ => none
  (!fv.isZero, !v.bnd.isZero && xle mag v.bnd.x)

/-- R131. -/
def execPmov (h : Hd) (o : Opn) (m : BitVec 8) (s : State) : Outcome :=
  if m = 1 then
    runDst h o { dstD o false with scalarOk := false, queueOk := false } (fun _ => .n32) [srcP 2 o.sa] noTrap
      (fun _ _ rd l => ((rd (srcP 2 o.sa) l).bits, (rd (srcP 2 o.sa) l).bnd)) s
  else if m = 2 then
    let a := (srcAny 2 o.sa false .n32).only (selIsV o.sa)
    runPred h o [a] (fun _ rd l => nonZero (rd a l)) s
  else
    runPred h o [srcP 2 o.sa] (fun _ rd l => (decide ((rd (srcP 2 o.sa) l).bits = 1), !(rd (srcP 2 o.sa) l).bnd.isZero)) s

/-- Σ 2^l over the lanes of a mask on which `p` holds. -/
def maskOn (a : Mask) (p : Nat → Bool) : Mask := Mask.of 64 (fun l => Mask.has a l && p l)

/-- R132. -/
def execVote (h : Hd) (o : Opn) (m : BitVec 8) (s : State) : Outcome :=
  let a := s.active h
  let rd := fun l => s.rd o.imm false (srcP 2 o.sa) l
  let yes := maskOn a (fun l => (rd l).bits = 1)
  let dbt := maskOn a (fun l => !(rd l).bnd.isZero)
  if m = 3 then
    let b := Bnd.of (some (up22 ((dbt.toNat : Nat) : Rat)))
    runDst h o { dstD o true with queueOk := false, anyScalar := true } (fun _ => .n64) [srcP 2 o.sa] noTrap
      (fun _ _ _ _ => (yes.toNat, b)) s
  else
    let v := if m = 0 then decide (yes ≠ 0) else if m = 1 then decide (yes = a) else decide (yes = 0) || decide (yes = a)
    runPred h o [srcP 2 o.sa] (fun _ _ _ => (v, decide (dbt ≠ 0))) s

/-- The source lane of R133, if it is a lane of the sheaf. DEDUCED (log 20). -/
def shflLane (mode w l k : Nat) : Option Nat :=
  let r : Int := match mode with
    | 0 => k
    | 1 => (l : Int) - k
    | 2 => (l : Int) + k
    | _ => (l ^^^ k : Nat)
  if 0 ≤ r ∧ r < w then some r.toNat else none

/-- R133. An immediate for lanes at the edge carries x's tag (R90). -/
def execShfl (h : Hd) (o : Opn) (m : BitVec 8) (s : State) : Outcome :=
  let w64 := m.getLsbD 3
  let edge := m.getLsbD 2
  let x := (srcAny 2 o.sa w64 .raw).only (selIsV o.sa)
  let k := srcN32 3 o.sb
  let e := srcAny 4 o.sc w64 .raw
  let etag := fun (s1 : State) => if e.sel.isImm then s1.srcTag x else s1.srcTag e
  runDst h o (dstD o w64) (fun s1 => if edge && etag s1 ≠ s1.srcTag x then .raw else s1.srcTag x)
    (if edge then [x, k, e] else [x, k]) noTrap
    (fun s1 _ rd l =>
      let v := match shflLane (bitsAt m.toNat 1 0) s1.width l (rd k l).bits with
        | some j => rd x j
        | none => if edge then rd e l else rd x l
      (v.bits, v.bnd.poisonedBy (rd k l).bnd)) s

/-- R134. -/
def execRdlane (h : Hd) (o : Opn) (m : BitVec 8) (s : State) : Outcome :=
  let w64 := m.getLsbD 3
  let x := srcAny 2 o.sa w64 .raw
  let k := (srcN32 3 o.sb).only (selUniform o.sb)
  let j := fun (s1 : State) => (s1.rd o.imm false k (lowest (s1.active h))).bits % s1.width
  runDst h o { dstD o w64 with anyScalar := true } (fun s1 => if x.sel.isImm then x.opTy else (s1.rawSrc x (j s1)).tag) [x, k] noTrap
    (fun s1 _ rd l => let v := rd x ((rd k l).bits % s1.width); (v.bits, v.bnd.poisonedBy (rd k l).bnd)) s

/-- R135: lane j of d is written only when it is active. -/
def execWrlane (h : Hd) (o : Opn) (m : BitVec 8) (s : State) : Outcome :=
  let w64 := m.getLsbD 3
  let x := (srcAny 2 o.sa w64 .raw).only (selUniform o.sa)
  let k := (srcN32 3 o.sb).only (selUniform o.sb)
  let d := { dstD o w64 with scalarOk := false, queueOk := false }
  runOp h o.imm (some d) [x, k] noTrap
    (fun s1 a =>
      let rd := s1.rd o.imm (d16Of o.d w64)
      let j := (rd k 0).bits % s1.width
      let m' := maskOn a (fun l => l = j)
      (s1.wrD h o.d w64 (s1.srcTag x) m' (fun l => ((rd x l).bits, (rd x l).bnd.poisonedBy (rd k l).bnd))).finish h) s

/-- A running value of a reduction. -/
structure Acc1 where
  bits : Nat
  bnd : X
  lost : Bool
  deriving DecidableEq, Repr

/-- One step of SREDUX over the lanes' values (R136). DEDUCED (log 23). -/
def sreduxStep (t : Ty) (op : Nat) (rm : Rm) (acc : Acc1) (v : Val) : Acc1 :=
  if isFloatTy t then
    let f := tyFmt t
    let a := f.decode acc.bits
    let x := f.decode v.bits
    if op = 0 then
      let r := arFull f rm (sumExact (rm = .rd) [a, x])
      ⟨f.encode r.val, xadd (xadd acc.bnd v.bnd.x) r.rho, acc.lost || r.lost⟩
    else
      let take := if op = 1 then fvLt x a else fvLt a x
      ⟨if take then v.bits else acc.bits, xmax acc.bnd v.bnd.x, acc.lost⟩
  else
    let a := intVal t acc.bits
    let x := intVal t v.bits
    if op = 0 then
      let (r, wrapped) := iFit t false (a + x)
      ⟨r, xadd acc.bnd v.bnd.x, acc.lost || wrapped⟩
    else
      let take := if op = 1 then decide (x < a) else decide (a < x)
      ⟨if take then v.bits else acc.bits, xmax acc.bnd v.bnd.x, acc.lost⟩

/-- The reduction of the lanes' values in ascending lane order (R136). -/
def sreduxAll (t : Ty) (op : Nat) (rm : Rm) (vs : List Val) : Nat × Bnd :=
  let f := tyFmt t
  let num := if isFloatTy t && op ≠ 0 then vs.filter (fun v => !(f.decode v.bits).isNan) else vs
  match num with
  | [] => (f.encode .nan, mkBnd (vs.map (·.bnd)) true none)
  | v :: r =>
    let acc := r.foldl (sreduxStep t op rm) ⟨v.bits, v.bnd.x, false⟩
    let isNan := isFloatTy t && (f.decode acc.bits).isNan
    let lost := if isFloatTy t then acc.lost || isNan else acc.lost && !vs.all (·.bnd.isZero)
    (if isNan then f.encode .nan else acc.bits, mkBnd (vs.map (·.bnd)) lost acc.bnd)

def execSredux (h : Hd) (o : Opn) (m : BitVec 8) (s : State) : Outcome :=
  let t := Ty.ofCode (m.extractLsb' 4 4)
  let x := srcTy 2 o.sa t
  runDst h o { dstD o t.is64 with anyScalar := true } (fun _ => t) [x] noTrap
    (fun _ a rd _ => sreduxAll t (bitsAt m.toNat 3 2) (Rm.ofCode (m.extractLsb' 0 2)) ((Mask.list a).map (rd x))) s

/-- R137. -/
def execMatch (h : Hd) (o : Opn) (m : BitVec 8) (s : State) : Outcome :=
  let x := srcAny 2 o.sa (m.getLsbD 3) .raw
  runDst h o { dstD o true with scalarOk := false, queueOk := false } (fun _ => .n64) [x] noTrap
    (fun _ a rd l =>
      ((maskOn a (fun j => (rd x j).bits = (rd x l).bits)).toNat, bBit ((Mask.list a).map (fun j => (rd x j).bnd)))) s

end Sys2Proof.Machine
end

