-- ==== Sys2Proof/Machine/Float.lean ====
section
/-! DEFINITION. Floating-point arithmetic, comparison and special functions (R138 to R150). -/

namespace Sys2Proof.Machine

def fA (o : Opn) (m : FMod) : Src := srcTy 2 o.sa m.ty
def fB (o : Opn) (m : FMod) : Src := srcTy 3 o.sb m.ty
def fC (o : Opn) (m : FMod) : Src := srcTy 4 o.sc m.ty

/-- The class in effect of an eligible instruction (R63). -/
def State.effOf (s : State) (uc : UClass) (eligible : Bool) : UClass :=
  effClass (allowPolicy s.allow) uc s.boundsOn eligible

/-- The arithmetic of R140 and R141; F32 and F64 are eligible. -/
def fArith (op : FOp) (h : Hd) (o : Opn) (m : FMod) (as : List Src) (s : State) : Outcome :=
  runD h o m.ty.is64 m.ty as (fun s1 a rd l =>
    chooseUnit (s1.effOf m.uc (isFloatTy m.ty)) (allowTau s1.allow) a
      (fun cheap k => fLane op m.ty m.rm cheap (as.map (fun x => rd x k))) l) s

def execFadd (h : Hd) (o : Opn) (m : FMod) (s : State) : Outcome := fArith .add h o m [fA o m, fB o m] s
def execFsub (h : Hd) (o : Opn) (m : FMod) (s : State) : Outcome := fArith .sub h o m [fA o m, fB o m] s
def execFmul (h : Hd) (o : Opn) (m : FMod) (s : State) : Outcome := fArith .mul h o m [fA o m, fB o m] s
def execFfma (h : Hd) (o : Opn) (m : FMod) (s : State) : Outcome := fArith .fma h o m [fA o m, fB o m, fC o m] s

/-- The smaller or larger of two values (R142). -/
def fPick (isMax : Bool) (x y : FVal) : FVal :=
  if x.isNan then (if y.isNan then .nan else y)
  else if y.isNan then x
  else if x.isZero && y.isZero then .fin (if isMax then x.neg && y.neg else x.neg || y.neg) 0
  else if (if isMax then fvLt x y else fvLt y x) then y else x

def fMinMax (isMax : Bool) (h : Hd) (o : Opn) (m : FMod) (s : State) : Outcome :=
  runD h o m.ty.is64 m.ty [fA o m, fB o m] (fun _ _ rd l =>
    let x := rd (fA o m) l
    let y := rd (fB o m) l
    let rs := List.zipWith (fPick isMax) (fElems m.ty x.bits) (fElems m.ty y.bits)
    (packElems m.ty (rs.map (eFmt m.ty).encode), mkBnd [x.bnd, y.bnd] (rs.any FVal.isNan) (xmax x.bnd.x y.bnd.x))) s

def execFmin (h : Hd) (o : Opn) (m : FMod) (s : State) : Outcome := fMinMax false h o m s
def execFmax (h : Hd) (o : Opn) (m : FMod) (s : State) : Outcome := fMinMax true h o m s

/-- The value bit of R143. -/
def fCmp (cc : Nat) (x y : FVal) : Bool :=
  let nan := x.isNan || y.isNan
  match cc with
  | 6 => !nan
  | 7 => nan
  | 1 => nan || !fvEq x y
  | c => !nan && cmpFin c (fvLt x y) (fvEq x y)

def execFsetp (h : Hd) (o : Opn) (m : FMod) (s : State) : Outcome :=
  let cc := (m.uc.code ++ m.rm.code).toNat
  runPred h o [fA o m, fB o m] (fun _ rd l =>
    let x := rd (fA o m) l
    let y := rd (fB o m) l
    let a := (tyFmt m.ty).decode x.bits
    let b := (tyFmt m.ty).decode y.bits
    (fCmp cc a b, doubtOf a b x.bnd y.bnd)) s

/-- The class bit of an encoding (R144). -/
def classBit (f : Fmt) (b : Nat) : Nat :=
  let v := f.decode b
  let n := b / 2 ^ (f.ebits + f.fbits) % 2 = 1
  match v with
  | .nan => if b.testBit (f.fbits - 1) then 9 else 8
  | .inf _ => if n then 0 else 7
  | .fin _ q => if q = 0 then (if n then 3 else 4) else if q < pow2 f.emin then (if n then 2 else 5) else (if n then 1 else 6)

def execFclass (h : Hd) (o : Opn) (m : FMod) (s : State) : Outcome :=
  runD h o false .n32 [fA o m] (fun _ _ rd l =>
    (2 ^ classBit (tyFmt m.ty) (rd (fA o m) l).bits, bBit [(rd (fA o m) l).bnd])) s

/-- x rounded to an integral value (R145): the value and ρ. -/
def frnd (rm : Rm) (x : FVal) : FVal × X :=
  match x with
  | .fin n q =>
    let r : Rat := ((rndInt rm n q : Nat) : Rat)
    (.fin n r, if r = q then some 0 else some (match rm with | .rn => mkRat 1 2 | _ => 1))
  | v => (v, some 0)

def execFrnd (h : Hd) (o : Opn) (m : FMod) (s : State) : Outcome :=
  runD h o m.ty.is64 m.ty [fA o m] (fun _ _ rd l =>
    let x := rd (fA o m) l
    let rs := (fElems m.ty x.bits).map (frnd m.rm)
    (packElems m.ty (rs.map (fun r => (eFmt m.ty).encode r.1)),
      mkBnd [x.bnd] (rs.any (fun r => r.1.isNan)) (xadd x.bnd.x (rs.foldl (fun a r => xmax a r.2) (some 0))))) s

/-- x·2^n, exactly. -/
def FVal.scale (x : FVal) (n : Int) : FVal := match x with | .fin s q => .fin s (q * pow2 n) | v => v

def execFscl (h : Hd) (o : Opn) (m : FMod) (s : State) : Outcome :=
  let ns := srcTy 3 o.sb .i32
  runD h o m.ty.is64 m.ty [fA o m, ns] (fun _ _ rd l =>
    let x := rd (fA o m) l
    let n := rd ns l
    let k := sInt 32 n.bits
    -- beyond 4096 places every format has left its range; the power is not formed
    let k' : Int := if 4096 < k then 4096 else if k < -4096 then -4096 else k
    let rs := (fElems m.ty x.bits).map (fun v => arFull (eFmt m.ty) m.rm (v.scale k'))
    (packElems m.ty (rs.map (fun r => (eFmt m.ty).encode r.val)),
      mkBnd [x.bnd, n.bnd] (rs.any (·.lost) || !n.bnd.isZero)
        (xadd (xmul x.bnd.x (some (pow2 k'))) (rs.foldl (fun a r => xmax a r.rho) (some 0))))) s

/-- The exact quotient (R147). -/
def FVal.div (x y : FVal) : FVal :=
  match x, y with
  | .nan, _ => .nan
  | _, .nan => .nan
  | .inf _, .inf _ => .nan
  | .inf a, .fin b _ => .inf (a != b)
  | .fin a _, .inf b => .fin (a != b) 0
  | .fin a p, .fin b q => if q = 0 then (if p = 0 then .nan else .inf (a != b)) else .fin (a != b) (p / q)

def execFdiv (h : Hd) (o : Opn) (m : FMod) (s : State) : Outcome :=
  let f := tyFmt m.ty
  runD h o m.ty.is64 m.ty [fA o m, fB o m] (fun _ _ rd l =>
    let x := rd (fA o m) l
    let y := rd (fB o m) l
    let b := f.decode y.bits
    let r := arFull f m.rm ((f.decode x.bits).div b)
    (f.encode r.val, mkBnd [x.bnd, y.bnd] r.lost (bDiv x.bnd.x r.val.mag b.abs y.bnd.x r.rho))) s

/-- The functions of R148. -/
inductive SFn where
  | rcp | rsq | sqrt | exp2 | log2 | sinpi | cospi
  deriving DecidableEq, Repr

/-- The exact value, known far beyond any format (R146, R148). 2^x beyond ±4096 is given as 2^±4096, which every format rounds alike. -/
def SFn.exact (g : SFn) (x : FVal) : FVal :=
  match g with
  | .rcp => FVal.div (.fin false 1) x
  | .rsq =>
    match x with
    | .nan => .nan
    | .inf n => if n then .nan else .fin false 0
    | .fin n q => if q = 0 then .inf n else if n then .nan else .fin false (fnSqrt (1 / q))
  | .sqrt =>
    match x with
    | .nan => .nan
    | .inf n => if n then .nan else .inf false
    | .fin n q => if q = 0 then .fin n 0 else if n then .nan else .fin false (fnSqrt q)
  | .exp2 =>
    match x with
    | .nan => .nan
    | .inf n => if n then .fin false 0 else .inf false
    | .fin _ _ => .fin false (if 4096 < x.rat then pow2 4096 else if x.rat < -4096 then pow2 (-4096) else fnExp2 x.rat)
  | .log2 =>
    match x with
    | .nan => .nan
    | .inf n => if n then .nan else .inf false
    | .fin n q => if q = 0 then .inf true else if n then .nan else FVal.ofRat (fnLog2 q)
  | .sinpi =>
    match x with
    | .nan => .nan
    | .inf _ => .nan
    | .fin n q => if q.den = 1 then .fin n 0 else let (s, v) := fnSinPi q; .fin (s != n) v
  | .cospi =>
    match x with
    | .nan => .nan
    | .inf _ => .nan
    | .fin _ q => let (s, v) := fnCosPi q; if v = 0 then .fin false 0 else .fin s v

/-- 2^b − 1 rounded up (R149). DESIGN CHOICE (log 96): the power is rounded up to 22 bits before 1 is taken from it. -/
def exp2m1 (b : Rat) : X :=
  if b = 0 then some 0 else some (up22 (up22 (fnExp2 b) - 1))

/-- The term of R149 for a function of x with bound b, its result r and ρ. -/
def SFn.term (g : SFn) (x r : FVal) (b rho : X) : X :=
  let ge := fun (v : X) => xle v b
  match g with
  | .rcp => if ge x.abs then none else xdiv (xmul r.mag b) (xsubDn x.abs b)
  | .rsq =>
    if ge x.abs then none
    else
      let d := xsubDn x.abs b
      let dv : X := match d with | some p => some (dn22 (dn22 (2 * p) * ((xsqrtDn (some p)).getD 0))) | none => none
      xdiv b dv
  | .sqrt => if ge x.abs then xsqrt b else xdiv b (xsqrtDn x.abs)
  | .exp2 => if xle (some 1024) b then none else xmul (xadd r.mag rho) (match b with | some q => exp2m1 q | none => none)
  | .log2 => if ge x.abs then none else xdiv (xmul (some (mkRat 14427 10000)) b) (xsubDn x.abs b)
  | .sinpi => xmin (xmul (some (mkRat 31416 10000)) b) (some 2)
  | .cospi => xmin (xmul (some (mkRat 31416 10000)) b) (some 2)

def specialFn (g : SFn) (h : Hd) (o : Opn) (m : FMod) (s : State) : Outcome :=
  let f := tyFmt m.ty
  runD h o m.ty.is64 m.ty [fA o m] (fun _ _ rd l =>
    let v := rd (fA o m) l
    let x := f.decode v.bits
    let r := arFull f m.rm (g.exact x)
    (f.encode r.val, mkBnd [v.bnd] r.lost (xadd (g.term x r.val v.bnd.x r.rho) r.rho))) s

def execFrcp (h : Hd) (o : Opn) (m : FMod) (s : State) : Outcome := specialFn .rcp h o m s
def execFrsq (h : Hd) (o : Opn) (m : FMod) (s : State) : Outcome := specialFn .rsq h o m s
def execFsqrt (h : Hd) (o : Opn) (m : FMod) (s : State) : Outcome := specialFn .sqrt h o m s
def execFexp2 (h : Hd) (o : Opn) (m : FMod) (s : State) : Outcome := specialFn .exp2 h o m s
def execFlog2 (h : Hd) (o : Opn) (m : FMod) (s : State) : Outcome := specialFn .log2 h o m s
def execFsinpi (h : Hd) (o : Opn) (m : FMod) (s : State) : Outcome := specialFn .sinpi h o m s
def execFcospi (h : Hd) (o : Opn) (m : FMod) (s : State) : Outcome := specialFn .cospi h o m s

/-- B-DOT (R150): B-MUL's terms element by element, the registers' single bounds, then the addend's and ρ. -/
def bDot (xs ys : List FVal) (bx by' bz rho : X) : X :=
  let t := (List.zipWith (fun x y => bMulTerms x.mag bx y.mag by') xs ys).foldl xadd (some 0)
  xadd (xadd t bz) rho

/-- One lane of DOT2 or DOT4. -/
def dotLane (t : Ty) (rm : Rm) (cheap : Bool) (x y z : Val) : Nat × Bnd × FVal :=
  let xs := fElems t x.bits
  let ys := fElems t y.bits
  let r := arSum .f32 rm cheap (List.zipWith FVal.mul xs ys) [Fmt.f32.decode z.bits]
  (Fmt.f32.encode r.val, mkBnd [x.bnd, y.bnd, z.bnd] r.lost (bDot xs ys x.bnd.x y.bnd.x z.bnd.x r.rho), r.val)

def dotOp (h : Hd) (o : Opn) (m : FMod) (s : State) : Outcome :=
  let t := immTy o 0
  let own := fun (a : Src) => a.only (!a.sel.isImm)
  let x := own (srcTy 2 o.sa t)
  let y := own (srcTy 3 o.sb t)
  let z := own (srcTy 4 o.sc .f32)
  runD h o false .f32 [x, y, z] (fun s1 a rd l =>
    chooseUnit (s1.effOf m.uc true) (allowTau s1.allow) a
      (fun cheap k => dotLane t m.rm cheap (rd x k) (rd y k) (rd z k)) l) s

def execDot2 (h : Hd) (o : Opn) (m : FMod) (s : State) : Outcome := dotOp h o m s
def execDot4 (h : Hd) (o : Opn) (m : FMod) (s : State) : Outcome := dotOp h o m s

end Sys2Proof.Machine
end

