-- ==== Sys2Proof/Machine/Convert.lean ====
section
/-! DEFINITION. Conversion, quantisation and packing (R151 to R158, R43, R44). -/

namespace Sys2Proof.Machine

/-- A source of an entry whose IMM is its own: no immediate there (R138). -/
def Src.reg (a : Src) : Src := a.only (!a.sel.isImm)

/-- R151. A copy of a NaN between equal types has an infinite bound too (B-NAN). -/
def execCvt (h : Hd) (o : Opn) (m : FMod) (s : State) : Outcome :=
  let src := immTy o 0
  let x := (srcTy 2 o.sa src).reg
  runD h o m.ty.is64 m.ty [x] (fun _ _ rd l =>
    let v := rd x l
    let (b, e) := convNum src m.ty m.rm v.bits v.bnd
    (b, if isFloatTy src && ((tyFmt src).decode v.bits).isNan then mkBnd [v.bnd] true e.x else e)) s

/-- M(j) of R43. -/
def q4nMag (j : Nat) : Rat := mkRat ([11, 33, 55, 80, 107, 139, 181, 256].getD j 0 : Nat) 256

/-- The value of a 4-bit Q4N code before its scales (R43). -/
def q4nVal (c : Nat) : FVal := .fin (c.testBit 3) (q4nMag (c % 8))

/-- Is row `j` strictly nearer to `a` than `k`? -/
def q4nNearer (a : Rat) (j k : Nat) : Bool :=
  let d := fun (i : Nat) => if a ≤ q4nMag i then q4nMag i - a else a - q4nMag i
  decide (d j < d k)

/-- The magnitude index of R153. -/
def q4nIndex (rm : Rm) (neg : Bool) (a : Rat) : Nat :=
  let down := ((List.range 8).filter (fun j => q4nMag j ≤ a)).getLastD 0
  let up := ((List.range 8).filter (fun j => a ≤ q4nMag j)).headD 7
  match rm with
  | .rn => (List.range 8).foldl (fun b j => if q4nNearer a j b then j else b) 0
  | .rz => down
  | .ru => if neg then down else up
  | .rd => if neg then up else down

/-- A narrowed element: its bits, ρ, and whether its bound is infinite. -/
structure Narrow where
  bits : Nat
  rho : X := some 0
  lost : Bool := false
  deriving DecidableEq, Repr

/-- Narrow an exact quotient to an element (R152, R153, R41). -/
def narrowElem (t : Ty) (rm : Rm) (q : FVal) : Narrow :=
  match t with
  | .q4nx8 =>
    match q with
    | .nan => ⟨0, some 0, true⟩
    | .inf n => ⟨(if n then 8 else 0) + 7, some 0, true⟩
    | .fin n a =>
      let j := q4nIndex rm n a
      let d := if a ≤ q4nMag j then q4nMag j - a else a - q4nMag j
      ⟨(if n then 8 else 0) + j, some d, false⟩
  | .i8x4 | .n8x4 =>
    match q with
    | .nan => ⟨0, some 0, true⟩
    | .inf n => ⟨wrapBits 8 (if n then iMin t else iMax t), some 0, true⟩
    | .fin n a =>
      let k := rndInt rm n a
      let (b, sat) := iFit t true (if n then -(k : Int) else k)
      ⟨b, if ((k : Nat) : Rat) = a then some 0 else some (match rm with | .rn => mkRat 1 2 | _ => 1), sat⟩
  | _ =>
    let r := arFull (eFmt t) rm q
    ⟨(eFmt t).encode r.val, r.rho, r.lost || !q.isFin⟩

/-- The bound of an element of x divided by s (R154). -/
def narrowBnd (bx : Bnd) (q s : FVal) (bs : Bnd) (n : Narrow) : Bnd :=
  mkBnd [bx, bs] (n.lost || s.isNan || q.isNan) (bDiv bx.x q.mag s.abs bs.x n.rho)

/-- R152. -/
def execCvtq (h : Hd) (o : Opn) (m : FMod) (s : State) : Outcome :=
  let src := immTy o 0
  let x := (srcTy 2 o.sa src).reg
  let sc := (srcTy 3 o.sb .f32).reg
  let z := (srcTy 4 o.sc m.ty).only (selIsV o.sc)
  runD h o false m.ty [x, sc, z] (fun _ _ rd l =>
    let a := rd x l
    let b := rd sc l
    let c := rd z l
    let sv := Fmt.f32.decode b.bits
    let q := ((tyFmt src).decode a.bits).div sv
    let n := narrowElem m.ty m.rm q
    (setElem m.ty c.bits (immBits o 6 4) n.bits, c.bnd.max (narrowBnd a.bnd q sv b.bnd n))) s

/-- R156. DESIGN CHOICE (log 129): an element that passes through from z brings b(z) and no more, a NaN too. -/
def execPack (h : Hd) (o : Opn) (m : FMod) (s : State) : Outcome :=
  let flt := (eFmt m.ty ≠ .f32 : Bool)
  let st : Ty := if flt then .f32 else .i32
  let x := (srcTy 2 o.sa st).reg
  let y := (srcTy 3 o.sb st).reg
  let z := (srcTy 4 o.sc m.ty).reg
  let four := (m.ty.elems = 4 : Bool)
  let one := fun (v : Val) =>
    if flt then
      let r := arFull (eFmt m.ty) m.rm (Fmt.f32.decode v.bits)
      ((eFmt m.ty).encode r.val, mkBnd [v.bnd] r.lost (xadd v.bnd.x r.rho))
    else
      let (b, sat) := iFit m.ty true (sInt 32 v.bits)
      (b, mkBnd [v.bnd] sat v.bnd.x)
  let e := 2 * immBits o 0 0
  runD h o false m.ty (if four then [x, y, z] else [x, y]) (fun _ _ rd l =>
    let a := one (rd x l)
    let b := one (rd y l)
    let base : Val := if four then rd z l else ⟨0, .zero, m.ty⟩
    (setElem m.ty (setElem m.ty base.bits e a.1) (e + 1) b.1, (a.2.max b.2).max base.bnd)) s

/-- R157. -/
def execUnpk (h : Hd) (o : Opn) (m : FMod) (s : State) : Outcome :=
  let x := (srcTy 2 o.sa m.ty).reg
  let tag : Ty := match m.ty with | .i8x4 => .i32 | .n8x4 => .n32 | _ => .f32
  runD h o false tag [x] (fun _ _ rd l =>
    let v := rd x l
    let e := elemBits m.ty v.bits (immBits o 2 0)
    match m.ty with
    | .i8x4 => (wrapBits 32 (sInt 8 e), v.bnd)
    | .n8x4 => (e, v.bnd)
    | t =>
      let f := (eFmt t).decode e
      (Fmt.f32.encode f, mkBnd [v.bnd] f.isNan v.bnd.x)) s

/-- The block scale w = S·c/255 and its bound (R155). -/
def blockScale (sv : FVal) (c : Nat) : FVal := (sv.mul (.fin false ((c : Nat) : Rat))).div (.fin false 255)
def blockScaleBnd (sv : FVal) (bS : X) (c : Nat) (bc : X) : X :=
  xdiv (xadd (xadd (xmul sv.mag bc) (xmul (some ((c : Nat) : Rat)) bS)) (xmul bS bc)) (some 255)

/-- R155. -/
def execQdeq (h : Hd) (o : Opn) (m : FMod) (s : State) : Outcome :=
  let x := (srcTy 2 o.sa .q4nx8).reg
  let c := (srcN32 3 o.sb).reg
  let sp := (srcTy 4 o.sc .f32).reg
  runD h o m.ty.is64 m.ty [x, c, sp] (fun _ _ rd l =>
    let a := rd x l
    let b := rd c l
    let g := rd sp l
    let q := q4nVal (elemBits .q4nx8 a.bits (immBits o 2 0))
    let cv := b.bits / 256 ^ immBits o 4 3 % 256
    let sv := Fmt.f32.decode g.bits
    let w := blockScale sv cv
    let bw := blockScaleBnd sv g.bnd.x cv b.bnd.x
    let r := arFull (tyFmt m.ty) m.rm (q.mul w)
    ((tyFmt m.ty).encode r.val,
      mkBnd [a.bnd, b.bnd, g.bnd] r.lost
        (xadd (xadd (xadd (xmul q.mag bw) (xmul w.mag a.bnd.x)) (xmul a.bnd.x bw)) r.rho))) s

/-- A rejoined F6 value as an E4M3 encoding (R44, R158). -/
def f6ToE4m3 (hi lo : Nat) : Nat := Fmt.e4m3.encode (Fmt.f6.decode (hi % 16 * 4 + lo % 4))

/-- R158. -/
def execF6join (h : Hd) (o : Opn) (_m : FMod) (s : State) : Outcome :=
  let x := (srcTy 2 o.sa .f6hi).reg
  let y := (srcTy 3 o.sb .f6lo).reg
  let g := immBits o 1 0
  runD h o false .e4m3x4 [x, y] (fun _ _ rd l =>
    let a := rd x l
    let b := rd y l
    (packElems .e4m3x4 ((List.range 4).map (fun k => f6ToE4m3 (a.bits / 16 ^ (4 * (g % 2) + k)) (b.bits / 4 ^ (4 * g + k)))),
      bMax a.bnd b.bnd)) s

end Sys2Proof.Machine
end

