-- ==== Sys2Proof/Machine/BoundOps.lean ====
section
/-! DEFINITION. Bound instructions 0x60 to 0x66 (R159 to R166). -/

namespace Sys2Proof.Machine

/-- The value operand x of this group: any tag, at the width of W64. d's width flags follow the width of the write (R31). DEDUCED
(log 97). DESIGN CHOICE (log 106): an immediate x has the tag N32, or N64 with W64. -/
def bX (o : Opn) (w64 : Bool) : Src := srcAny 2 o.sa w64 (if w64 then .n64 else .n32)

/-- The register that a source reads: its own, or the one a lost latch falls back to (R93). -/
def State.regOf (s : State) (x : Sel) : Sel :=
  match x with
  | .l n => (match s.latchRead n.toNat with | .fallback d => d | _ => x)
  | _ => x

/-- The encoding in which a source holds its bound (R160): a register's own shadow or EB32 where its width flags say it stands alone,
and otherwise the bound of the read, encoded. -/
def State.heldEnc (s : State) (a : Src) (b : Bnd) (l : Nat) : Nat :=
  match s.regOf a.sel with
  | .v n =>
    if a.w64 then
      (if (s.rregs.vreg n.toNat).wf && (s.rregs.vreg (n.toNat + 1)).wf then (s.rregs.pairEb n.toNat l).toNat else b.eb32.toNat)
    else if (s.rregs.vreg n.toNat).wf then b.eb16.toNat else (lane (s.rregs.vreg n.toNat).sh l 0).toNat
  | .s n => if a.w64 then (s.rregs.sreg n.toNat).bnd.toNat else b.eb16.toNat
  | _ => if a.w64 then b.eb32.toNat else b.eb16.toNat

/-- R160. -/
def execBget (h : Hd) (o : Opn) (m : BitVec 8) (s : State) : Outcome :=
  let w64 := m.getLsbD 3
  let enc := m.getLsbD 0
  let x := bX o w64
  let d64 := w64 && !enc
  runDst h o (dstD o d64) (fun _ => if enc then .n32 else if w64 then .f64 else .f32) [x] noTrap
    (fun s1 _ _ l =>
      let b := (s1.rd o.imm false x l).bnd
      let q : X := if w64 then b.x else (Bnd.ofEb16 b.eb16).x
      let f : Fmt := if w64 then .f64 else .f32
      let v := if enc then s1.heldEnc x b l
        else if b.poi then f.nanBits
        else f.encode (match q with | none => .inf false | some r => .fin false r)
      (v, if b.poi then .poison else .zero)) s

/-- |e| of R161 and R162, infinite for a NaN. -/
def eMag (w64 : Bool) (bits : Nat) : X :=
  let v := (if w64 then Fmt.f64 else Fmt.f32).decode bits
  if v.isNan then none else v.mag

/-- R161. -/
def execBset (h : Hd) (o : Opn) (m : BitVec 8) (s : State) : Outcome :=
  let w64 := m.getLsbD 3
  let enc := m.getLsbD 0
  let x := bX o w64
  let e := if enc then srcN32 3 o.sb else srcTy 3 o.sb (if w64 then .f64 else .f32)
  runDst h o (dstD o w64) (fun s1 => s1.srcTag x) [x, e] noTrap
    (fun _ _ rd l =>
      let v := rd x l
      let w := rd e l
      let b : Bnd := if enc then
          (let c := if w64 then Bnd.ofEb32 (BitVec.ofNat 32 w.bits) else Bnd.ofEb16 (BitVec.ofNat 16 w.bits)
           if w.bnd.isZero then c else { c with x := none })
        else .of (xadd (eMag w64 w.bits) w.bnd.x)
      (v.bits, mkBnd [v.bnd, w.bnd, b] false (xmax v.bnd.x b.x))) s

/-- R162. -/
def execBadd (h : Hd) (o : Opn) (m : BitVec 8) (s : State) : Outcome :=
  let w64 := m.getLsbD 3
  let x := bX o w64
  let e := srcTy 3 o.sb (if w64 then .f64 else .f32)
  runDst h o (dstD o w64) (fun s1 => s1.srcTag x) [x, e] noTrap
    (fun _ _ rd l =>
      let v := rd x l
      let w := rd e l
      (v.bits, mkBnd [v.bnd, w.bnd] false (xadd (xadd v.bnd.x (eMag w64 w.bits)) w.bnd.x))) s

def execBmax (h : Hd) (o : Opn) (m : BitVec 8) (s : State) : Outcome :=
  let w64 := m.getLsbD 3
  let x := bX o w64
  let y := srcAny 3 o.sb w64 (if w64 then .n64 else .n32)
  runDst h o (dstD o w64) (fun s1 => s1.srcTag x) [x, y] noTrap
    (fun _ _ rd l => ((rd x l).bits, bMax (rd x l).bnd (rd y l).bnd)) s

/-- The region table as the core's region cache reads it for an address (R163): a bad address, and the one entry that covers it. -/
def State.budgetAt (s : State) (va : Nat) : Bool × Option RegEntry :=
  match s.regCover (.core s.csh.core) s.ctm.ctx va with
  | [] => (false, none)
  | [e] => (s.regMalformed e, some e)
  | _ => (true, none)

/-- Does a value pass the budget at an address (R163)? DESIGN CHOICE (log 107): |value| is 0 under a float tag of the other width. -/
def State.bchkPass (s : State) (w64 : Bool) (v : Val) (va : Nat) : Bool :=
  match s.budgetAt va with
  | (true, _) => false
  | (false, none) => true
  | (false, some e) => !s.boundsOn || budgetPasses e v.bnd (if v.tag.is64 = w64 then budgetMag v.tag v.bits else some 0)

def execBchk (h : Hd) (o : Opn) (m : BitVec 8) (s : State) : Outcome :=
  let w64 := m.getLsbD 3
  let x := bX o w64
  let a := (srcTyAlso 3 o.sb .n64 [.i64]).only (selIsS o.sb || selIsV o.sb)
  let fill := fun (s1 : State) (act : Mask) => (Mask.list act).foldl
    (fun acc l => acc.fillReg (.core s.csh.core) s.ctm.ctx (s.rd o.imm false a l).bits) s1
  let fails := fun (s1 : State) (act : Mask) =>
    maskOn act (fun l => !s1.bchkPass w64 (s1.rd o.imm false x l) (s1.rd o.imm false a l).bits)
  if m.getLsbD 0 then
    runOp h o.imm none [x, a]
      (fun s1 act =>
        let bad := fails s1 act
        let va := (s1.rd o.imm false a (lowest bad)).bits
        if bad = 0 then none
        else some { cause := cBUDGET, check := 9, lanes := bad, addr := BitVec.ofNat 64 va, akind := 1, opnd := 2
                    ridx := (match s1.budgetAt va with | (false, some e) => some e.idx | _ => none) })
      (fun s1 act => ((fill s1 act).popAll [x, a]).finish h) s
  else
    runOp h o.imm (some { sel := o.d, w64 := false, predOnly := true }) [x, a] noTrap
      (fun s1 act => (((fill s1 act).popAll [x, a]).wrP o.d act (act &&& ~~~(fails s1 act)) 0).finish h) s

/-- R164. DESIGN CHOICE (log 130): without the flag it traps with no lane active as well. -/
def execBclr (h : Hd) (o : Opn) (m : BitVec 8) (s : State) : Outcome :=
  let w64 := m.getLsbD 3
  let x := bX o w64
  runDst h o (dstD o w64) (fun s1 => s1.srcTag x) [x]
    (fun s1 a => if s1.trusted s1.ctm.ctx then none else some { cause := cILLOP, check := 9, lanes := if a = 0 then s1.cur.lanes else a })
    (fun _ _ rd l => ((rd x l).bits, if (rd x l).bnd.poi then .poison else .zero)) s

/-- The ALLOW a BMODE would write (R165). -/
def bmodeNew (op : Nat) (old x : W32) : W32 :=
  match op with | 0 => x | 1 => old ||| x | _ => old &&& ~~~x

def execBmode (h : Hd) (o : Opn) (m : BitVec 8) (s : State) : Outcome :=
  let old := m.getLsbD 2
  let x := (srcN32 2 o.sa).only (selUniform o.sa)
  let d : Option Dst := if old then some { dstD o false with vecOk := false, queueOk := false } else none
  let new := fun (s1 : State) => bmodeNew (bitsAt m.toNat 1 0) s1.allow (BitVec.ofNat 32 (s1.rd o.imm false x 0).bits)
  runOp h o.imm d [x]
    (fun s1 _ => if allowBad (new s1) then some { cause := cILLOPND, check := 9, lanes := s1.cur.lanes } else none)
    (fun s1 a =>
      let a0 := s1.allow.toNat
      let s2 := if old then s1.wrD h o.d false .n32 a (fun _ => (a0, .zero)) else s1
      (s2.updSheaf s2.cur.sheaf (fun y => { y with regs := { y.regs with allow := new s1 } })).finish h) s

end Sys2Proof.Machine
end

