-- ==== Sys2Proof/Machine/Access.lean ====
section
/-! DEFINITION. What the memory instructions share: addresses (R196, R197), shapes (R199), check 9 over all lanes (R201), writes built
line by line (R204), boundary performance (R200, R232) and the acquire of R235 and R236. -/

namespace Sys2Proof.Machine

/-! Shapes (R199). -/

def mwBytes (w : MWidth) : Nat :=
  match w with | .b8 => 1 | .b16 => 2 | .b32 => 4 | .b64 => 8 | .b128 => 16 | .x2 => 8 | .x4 => 16 | .rsv => 1
/-- Bytes of one element. -/
def mwElem (w : MWidth) : Nat :=
  match w with | .b8 => 1 | .b16 => 2 | .b32 => 4 | .b64 => 8 | .b128 => 8 | .x2 => 4 | .x4 => 4 | .rsv => 1
def mwCount (w : MWidth) : Nat := mwBytes w / mwElem w
def mwIs64 (w : MWidth) : Bool := decide (mwElem w = 8)
/-- Registers of a group, which is also its alignment. -/
def mwRegs (w : MWidth) : Nat := mwCount w * (if mwIs64 w then 2 else 1)

/-! Addresses. -/

def hasBase (o : Opn) : Bool := o.imm.getLsbD 27
def hasIndex (o : Opn) : Bool := o.imm.getLsbD 28

def baseSrc (o : Opn) (sp sOnly : Bool) : Src :=
  ⟨2, o.sa, !sp, .width, if sp then .n32 else .n64, selIsS o.sa || (!sOnly && selIsV o.sa)⟩
def indexSrc (o : Opn) : Src := ⟨3, o.sb, false, .width, .n32, selIsS o.sb || selIsV o.sb⟩
def addrSrcs (o : Opn) (sp sOnly : Bool) : List Src :=
  (if hasBase o then [baseSrc o sp sOnly] else []) ++ (if hasIndex o then [indexSrc o] else [])

/-- The address of a lane (R196): modulo 2^56, or modulo 2^20 for a scratchpad offset. -/
def State.memAddr (s : State) (o : Opn) (sp sOnly : Bool) (l : Nat) : Nat :=
  let base : Int := if hasBase o then ((s.rd o.imm false (baseSrc o sp sOnly) l).bits : Nat) else 0
  let ix := s.rd o.imm false (indexSrc o) l
  let idx : Int := if hasIndex o then (if ix.tag = .i32 then sInt 32 ix.bits else (ix.bits : Nat)) else 0
  let a : Int := base + idx * (2 ^ immBits o 31 29 : Nat) + (o.imm.extractLsb' 0 20).toInt
  (a % (2 ^ (if sp then 20 else 56) : Nat)).toNat

/-- A window offset as the team's scratchpad memory holds it: the second core's bytes follow at 2^19 (R168). -/
def State.spAbs (s : State) (i ofs : Nat) : Nat :=
  let x := s.sheaf i
  let other : Bool := decide (x.core ≠ (s.team x.team).core) != decide (2 ^ 19 ≤ ofs)
  (if other then 2 ^ 19 else 0) + ofs % 2 ^ 19

/-- Does the byte at a window offset lie outside the window: of the other core in a team of one, or at or beyond the size (R168)? -/
def Team.spByteBad (t : Team) (b : Nat) : Bool := decide (2 ^ 20 ≤ b) || (decide (2 ^ 19 ≤ b) && !t.hdr.pair) || decide (t.hdr.scratch ≤ b % 2 ^ 19)

/-- Does a byte of a range of window offsets lie outside the window (R168)? Within one core's part the last byte decides. -/
def Team.spBad (t : Team) (ofs bytes : Nat) : Bool :=
  t.spByteBad (ofs + bytes - 1) || (decide (ofs / 2 ^ 19 ≠ (ofs + bytes - 1) / 2 ^ 19) && decide (t.hdr.scratch < 2 ^ 19))

/-- Where a scratchpad offset of the current sheaf lies. -/
def State.spLoc (s : State) (ofs : Nat) : Loc :=
  let a := s.spAbs s.cur.sheaf ofs
  ⟨.sp s.csh.team (a / 128), a % 128, ofs, none⟩

/-- The physical addresses an access to a place is served at: the stream's and, of a coded line, the LB64 slot's. -/
def Loc.pas (l : Loc) : List Nat := match l.line with | .coded slot _ _ _ _ => [l.pa, slot] | _ => [l.pa]

/-- Where a global address goes, or why it does not (R177, R181, R183, R307, R313). -/
def State.globalLoc (s : State) (p : Port0) (ctx va : Nat) (a : Acc) : Except AccFault Loc :=
  match s.xlateFor p ctx va a with
  | .error f => .error f
  | .ok (e, bits) =>
    let l0 := locOf ctx e bits va none
    match s.lostAt l0.pa with
    | some d => .error { cause := cDIELOST, addr := va, die := d }
    | none =>
      if paSystem l0.pa ∧ (s.windows l0.pa).length ≠ 1 then .error { cause := cPERM, addr := l0.pa, akind := 3 }
      else
        match s.regionFor p ctx va e with
        | .error f => .error f
        | .ok r =>
          let l := locOf ctx e bits va r
          match l.pas.findSome? s.lostAt with
          | some d => .error { cause := cDIELOST, addr := va, die := d }
          | none => .ok l

def State.port (s : State) : Port0 := .core s.csh.core

/-- Where a lane's access goes. -/
def State.locFor (s : State) (sp : Bool) (a : Acc) (bytes va : Nat) : Except AccFault Loc :=
  if sp then (if s.ctm.spBad va bytes then .error { cause := cREGION, addr := va, akind := 2 } else .ok (s.spLoc va))
  else s.globalLoc s.port s.ctm.ctx va a

/-- The location of a lane whose checks have passed. -/
def State.locOk (s : State) (sp : Bool) (a : Acc) (bytes va : Nat) : Loc :=
  match s.locFor sp a bytes va with | .ok l => l | .error _ => ⟨.mem 0, 0, 0, none⟩

/-! Check 9 (R201). -/

/-- The order of the causes (R201). DEDUCED (log 101): DIELOST, which the rule does not list, stands after the translation's causes, and
REMOTE last. -/
def causeRank (c : Nat) : Nat :=
  ([cALIGN, cPAGE, cPERM, cDIELOST, cREGION, cATYPE, cBUDGET].findIdx (fun x => x = c))

/-- The first fault of one lane. -/
def State.laneFault (s : State) (sp : Bool) (a : Acc) (bytes : Nat) (rule : Loc → Option Nat) (va : Nat) : Option AccFault :=
  let k := if sp then 2 else 1
  if va % bytes ≠ 0 then some { cause := cALIGN, addr := va, akind := k }
  else
    match s.locFor sp a bytes va with
    | .error f => some f
    | .ok l => (rule l).map (fun c => { cause := c, addr := va, akind := k, ridx := l.reg.map (·.idx) })

/-- The cause raised: the first in R201's order that any lane has, its lanes and its lowest address. -/
def pickFault (fs : List (Nat × AccFault)) (opnd : Nat) : Option Trap :=
  match fs with
  | [] => none
  | f :: r =>
    let best := r.foldl (fun b x => if causeRank x.2.cause < causeRank b then x.2.cause else b) f.2.cause
    let mine := fs.filter (fun x => x.2.cause = best)
    let low := mine.foldl (fun b x => if x.2.addr < b.addr then x.2 else b) ((mine.headD f).2)
    some { (low.trap (Mask.of 64 (fun l => mine.any (fun x => x.1 = l))) 9) with opnd := opnd }

/-- The addresses that an access of lanes `m` tries to translate: none where a lane's is misaligned (R201). -/
def triedWalks (bytes : Nat) (m : Mask) (addr : Nat → Nat) : List Nat :=
  let vas := (Mask.list m).map addr
  if vas.all (fun va => va % bytes = 0) then vas else []

/-- R201 steps 1 to 5 over the lanes of `m`. -/
def State.accTrap (s : State) (sp : Bool) (a : Acc) (bytes : Nat) (rule : Loc → Option Nat) (m : Mask) (addr : Nat → Nat) :
    Option Trap :=
  (pickFault ((Mask.list m).filterMap (fun l => (s.laneFault sp a bytes rule (addr l)).map (fun f => (l, f)))) 0).map
    (fun t => { t with walks := if sp then [] else triedWalks bytes m addr })

/-- One element to be stored, as the budget test sees it: lane, address, region, bound and |value|. -/
structure BudgetItem where
  lane : Nat
  va : Nat
  reg : Option RegEntry
  bnd : Bnd
  mag : X
  deriving DecidableEq, Repr

/-- R201 step 6 (R68). DEDUCED (log 27). -/
def State.budgetTrap (s : State) (items : List BudgetItem) : Option Trap :=
  if !s.boundsOn then none
  else
    pickFault (items.filterMap (fun i => match i.reg with
      | some e => if budgetPasses e i.bnd i.mag then none
        else some (i.lane, { cause := cBUDGET, addr := i.va, ridx := some e.idx })
      | none => none)) 4

/-- |value| of an element for the budget test, given the tag of the register it comes from and its width (R68). -/
def elemMag (tag : Ty) (len bits : Nat) : X := if tyW tag = 8 * len then budgetMag tag bits else some 0

/-! Loads. -/

/-- The bits and bound of `len` bytes of a line. -/
def LineData.elem (d : LineData) (strict : Bool) (ofs len : Nat) : Nat × Bnd :=
  (leNat ((d.bytes.drop ofs).take len), lineBound strict d ofs len)

/-- Write the elements of a load (R199, R203): all but the first go to the registers alone, the first through D. -/
def State.wrLoad (s : State) (h : Hd) (d : Sel) (w64 : Bool) (cnt : Nat) (tag : Ty) (m : Mask) (v : Nat → Nat → Nat × Bnd) : State :=
  let st := if w64 then 2 else 1
  let more := fun (a : State) (k : Nat) => match d with
    | .v n => if k = 0 || h.nw then a
      else a.putD (.v (n + BitVec.ofNat 8 (k * st))) w64 tag m (fun l => ((v k l).1, s.bnd (v k l).2))
    | _ => a
  ((List.range cnt).foldl more s).wrD h d w64 tag m (v 0) s.csh.regs

/-! Stores. -/

/-- What one lane stores: its location and its elements as bits with bounds. -/
structure LaneStore where
  loc : Loc
  len : Nat
  els : List (Nat × Bnd)
  deriving DecidableEq, Repr

/-- The bytes of a lane's elements with their offsets in the line. -/
def LaneStore.bytes (x : LaneStore) : List (Nat × Byte) :=
  (List.range x.els.length).flatMap (fun k =>
    let e := x.els.getD k (0, .zero)
    (leBytes x.len e.1).zipIdx.map (fun b => (x.loc.ofs + k * x.len + b.2, b.1)))
def LaneStore.elems (x : LaneStore) : List Elem :=
  (List.range x.els.length).map (fun k => ⟨x.loc.ofs + k * x.len, x.len, (x.els.getD k (0, .zero)).2.eb32⟩)

/-- The writes of one instruction, line by line, lanes in ascending order (R204). -/
def buildWrites (xs : List LaneStore) (wide untracked : Bool) : List LineWrite :=
  let ls : List Line := xs.foldl (fun a x => if a.any (fun l => l.name = x.loc.line.name) then a else a ++ [x.loc.line]) []
  ls.map (fun l =>
    let mine := xs.filter (fun x => x.loc.line.name = l.name)
    { line := l, bytes := mine.flatMap LaneStore.bytes, elems := mine.flatMap LaneStore.elems, wide := wide, untracked := untracked })

/-! What an access leaves in the caches and the chunk. -/

/-- Fill the TLB and the region cache for the lanes' addresses, and count the stacks touched. -/
def State.noteFills (s : State) (sp : Bool) (vas : List Nat) (locs : List Loc) : State :=
  if sp then s
  else
    let c := s.ctm.ctx
    let s1 := vas.foldl (fun a va => ((a.walkTouch c va s.port).fillTlb s.port c va).fillReg s.port c va) s
    locs.foldl (fun a l => l.pas.foldl (fun b pa => b.touchPa c pa) a) s1

/-- Is the location a core's own: scratchpad or counter? -/
def Loc.onCore (l : Loc) : Bool := match l.line with | .sp _ _ => true | .ctr _ _ => true | _ => false
/-- Are conflicts on it checked at the core (R225)? -/
def Loc.atCore (l : Loc) : Bool := l.priv || l.onCore

/-- Enter a location read by the open chunk (R182, R224, R225). -/
def Chunk.noteRead (c : Chunk) (va : Nat) (l : Loc) : Chunk :=
  let c1 := if l.onCore then c else (c.use va).useRegion l.reg false
  if l.ro then c1 else c1.addRead l.line.name l.atCore

/-- Enter a location written by the open chunk; a coded line is read as well (R182). -/
def Chunk.noteWrite (c : Chunk) (va : Nat) (l : Loc) : Chunk :=
  let c1 := if l.onCore then c else (c.use va).useRegion l.reg true
  let c2 := if l.isCoded then c1.addRead l.line.name false else c1
  c2.addWrite l.line.name l.atCore

/-- Would the open chunk exceed its distinct lines (R220)? The limit does not fall on a chunk's first instruction or after an NW
producer. -/
def State.linesFull (s : State) (f : Chunk → Chunk) : Bool :=
  match s.csh.openChunk? with
  | some c =>
    let d := f c
    decide (c.count ≠ 0) && !s.afterNw
      && (decide (Config.chunkWrites < d.writes.length + d.coreWrites.length)
          || decide (Config.chunkReads < d.reads.length + d.coreReads.length))
  | none => false

/-- Has the sheaf's awaiting chunk written one of these coded lines (R194)? -/
def State.codedWait (s : State) (ls : List Line) : Bool :=
  s.csh.chunks.any (fun c => c.closed && (c.held.filterMap Held.write?).any (fun w => w.line.isCoded && ls.any (fun l => l.name = w.line.name)))

/-! Performing outside a chunk (R200, R232, R233). -/

/-- The team an entry of a sheaf's instruction comes from. -/
def State.ownTeam (s : State) (own : Option Nat) : Option Nat := own.map (fun i => (s.sheaf i).team)

/-- The mark of a sheaf that makes an entry: its chunks that open from now on follow the entry (R234, R347). -/
def State.follower (s : State) (i : Nat) : Nat × Nat := (i, (s.sheaf i).nextChunk)

/-- An entry that a sheaf's boundary instruction makes at its home, or no sheaf's. -/
def State.entryBy (s : State) (own : Option Nat) (w : LineWrite) : Pub :=
  { w := w, own := own, team := s.ownTeam own, maker := own.map s.follower }

/-- Publish writes: visible to other parties after the chunks of the round (R233). `own`: the sheaf whose instruction made them. -/
def State.publish (s : State) (ws : List LineWrite) (own : Option Nat := none) : State :=
  { s with pubs := s.pubs ++ ws.map (s.entryBy own) }

/-- Publish the writes of a waiting lane's later completion: an entry that belongs to no instruction of a chunk, seen by no chunk of the
sheaf before its round (R347). -/
def State.publishLater (s : State) (ws : List LineWrite) (i : Nat) : State :=
  { s with pubs := s.pubs ++ ws.map (fun w => { s.entryBy (some i) w with own := none }) }

/-- Publish writes performed at the green: those of peers, of the host, of a pool and of an engine command through the fabric (R233, R235,
R238, R310). The last acknowledges `ack`. -/
def State.publishGreen (s : State) (ws : List LineWrite) (ack : Option Nat := none) (cmd : Option Nat := none) : State :=
  { s with pubs := s.pubs ++ ws.dropLast.map (fun w => { w := w, green := true, cmd := cmd })
      ++ ws.getLast?.toList.map (fun w => { w := w, green := true, ack := ack, cmd := cmd }) }

/-- Has a sheaf made an entry? -/
def Pub.madeBy (p : Pub) (i : Nat) : Bool := p.maker.any (fun q => q.1 = i)

/-- Must a chunk of a sheaf follow an entry (R234)? -/
def Pub.before (p : Pub) (i id : Nat) : Bool := p.maker.any (fun q => q.1 = i && decide (q.2 ≤ id))

/-- Is an entry of a line not yet published? -/
def State.lineBusy (s : State) (l : Line) : Bool := s.pubs.any (fun p => p.w.line.name = l.name)

/-- Does an entry write one of `len` bytes of a line? -/
def Pub.touches (p : Pub) (l : Line) (ofs len : Nat) : Bool :=
  p.w.line.name = l.name && p.w.bytes.any (fun b => decide (ofs ≤ b.1) && decide (b.1 < ofs + len))

/-- Are all entries published that a sheaf's boundary instructions have made (R234)? -/
def State.settled (s : State) (i : Nat) : Bool := !s.pubs.any (fun p => p.madeBy i)
/-- Are those that a chunk of it must follow? -/
def State.settledFor (s : State) (i id : Nat) : Bool := !s.pubs.any (fun p => p.before i id)

/-- Fetch a remote line, and the halves of a system line, into the die L2 (R235, R314, R315). -/
def State.holdLine (s : State) (l : Line) : State :=
  match l with
  | .rem n => if (SMap.get? s.remHeld n).isSome then s else { s with remHeld := SMap.set s.remHeld n (s.remHome n) }
  | .sys n =>
    let h1 := fun (a : State) (k : Nat) => if (SMap.get? a.sysHeld k).isSome then a
      else { a with sysHeld := SMap.set a.sysHeld k (a.sysHome k) }
    h1 (h1 s (2 * n)) (2 * n + 1)
  | _ => s

/-- Write into a held system line: its halves carry bytes, the dirty mark and the poison of the elements (R317). -/
def State.sysWrite (s : State) (n : Nat) (w : LineWrite) : State :=
  let half := fun (a : State) (k : Nat) =>
    let bs := w.bytes.filter (fun b => b.1 / 64 = k)
    if bs.isEmpty then a
    else
      let x := a.sysHalf (2 * n + k)
      let poi := w.elems.any (fun e => e.ofs / 64 ≤ k && k ≤ (e.ofs + e.len - 1) / 64 && (Bnd.ofEb32 e.bnd).poi)
      let full := covers w.bytes (64 * k) 64
      let bytes := (List.range 64).map (fun j => ((bs.reverse.find? (fun b => b.1 = 64 * k + j)).map (·.2)).getD (x.bytes.getD j 0))
      let y : SysHalf := { x with bytes := bytes, dirty := true, poison := poi || (x.poison && !full) }
      { a with sysHeld := SMap.set a.sysHeld (2 * n + k) y }
  half (half s 0) 1

/-- Apply a write at a remote home: this device's own map as a published entry, a peer's directly (R321). -/
def State.remWrite (s : State) (n : Nat) (w : LineWrite) (cmd : Option Nat := none) : State :=
  let pa := 128 * n
  if remDev pa = s.devnum then s.publishGreen [{ w with line := .mem (remOfs pa / 128) }] none cmd
  else
    let d := (s.remHome n).write false w
    { s with ext := Memory.write s.ext (remKey pa) d.bytes
             extLb := SMap.setC s.extLb (remKey pa / 128) 0 d.lb
             extPoison := SMap.setC (SMap.setC s.extPoison (remKey pa / 64) false d.poison) (remKey pa / 64 + 1) false d.poison }

/-- Update this device's held copy of a remote line (R235). -/
def State.remHeldWrite (s : State) (n : Nat) (w : LineWrite) : State :=
  match SMap.get? s.remHeld n with
  | some d => { s with remHeld := SMap.set s.remHeld n (d.write false w) }
  | none => s

/-- REMOTE of R320 for an access about to be performed at the addresses `vas`. -/
def State.remoteTrap (s : State) (ls : List (Nat × Loc)) (vas : List Nat) : Option Trap :=
  (pickFault (ls.filterMap (fun p => match p.2.line with
    | .rem _ => if s.reachable p.2.pa then none else some (p.1, { cause := cREMOTE, addr := p.2.pa, akind := 3 })
    | _ => none)) 0).map (fun t => { t with walks := vas })

/-- The current path as it will be performed at its boundary. -/
def State.boundaryPath (s : State) : Path := { s.cur with snap := none, lat := none, vis := none, atBoundary := true }

/-- The distinct lines' addresses of a list of addresses, but for that of the first line. -/
def otherLines (pas : List Nat) : List Nat :=
  match pas with
  | [] => []
  | a :: r => (r.foldl (fun l b => if a / 128 = b / 128 || l.any (fun c => c / 128 = b / 128) then l else l ++ [b]) [])

/-- Put a load or atomic in flight, with every remote and system address of its lanes; its path is performed when the access completes
(R232). The instruction has issued: a producer of `dst` takes its latch, and with NW its quadrant's lock (R92, R94). -/
def State.startFlight (s : State) (pas : List Nat) (dst : Option (Sel × Bool)) (nw : Bool) : State :=
  let p := { s.boundaryPath with arrived := true, num := s.nextId }
  let f : Flight := { id := s.nextId, sheaf := p.sheaf, team := s.csh.team, ctx := s.ctm.ctx, pc := p.pc, lanes := p.lanes, pa := pas.headD 0
                      also := otherLines pas, kind := .value p }
  let s0 := match dst with | some (d, w64) => s.awaitLatch d nw w64 | none => s
  let s1 := (if s.cur.issued then s else s0.relock nw).suspendPath (.access f.id)
  { s1 with flights := s.flights ++ [f], nextId := s.nextId + 1 }

/-- The addresses an access goes to, beside the first. -/
def Flight.places (f : Flight) : List Nat := f.pa :: f.also

/-- Does an access reach a device's memory, or any remote one? -/
def Flight.toDevice (f : Flight) (dev : Nat) : Bool := f.places.any (fun a => paRemote a && remDev a = dev)
def Flight.remote (f : Flight) : Bool := f.places.any paRemote

/-- Wait for the release of R235 and R236 before the current path is performed. -/
def State.startRelease (s : State) (sys : Bool) : State :=
  { s.suspendPath (.release { s.boundaryPath with released := true } sys s.nextId) with nextId := s.nextId + 1 }

/-- An atomic on device memory has issued, a producer of `dst` taking its latch, and waits for the round in which its home performs it, in
the order of the issue (R211, R233). -/
def State.startRound (s : State) (dst : Option (Sel × Bool)) : State :=
  let s1 := if s.cur.issued then s else match dst with | some (d, w64) => s.awaitLatch d false w64 | none => s
  let n := if s.cur.issued then s.cur.num else s.nextId
  { s1.suspendPath (.atomic n { s.boundaryPath with inRound := true, num := n } false) with nextId := s.nextId + 1 }

/-- The acquire of R235, and at SYS of R236. -/
def State.acquire (s : State) (sys : Bool) : State :=
  { s with remHeld := [], sysHeld := if sys then s.sysHeld.filter (fun p => p.2.owned) else s.sysHeld }

/-- The acquire a scope asks for. -/
def State.acquireAt (s : State) (sc : Scope) : State := match sc with | .pod => s.acquire false | .sys => s.acquire true | _ => s

/-- The key of an ordered channel's sequence state: the team, the device, the channel (R205, R322). -/
def chanKey (t dev c : Nat) : Nat := (t * 2048 + dev) * 8 + c

/-- Perform stores outside the chunk order: local lines are published, remote and system lines leave the core (R232). -/
def State.sendStores (s : State) (ws : List LineWrite) (chan : Option Nat) : State :=
  let one := fun (a : State) (w : LineWrite) =>
    let f := fun (pa : Nat) =>
      ({ id := a.nextId, sheaf := a.cur.sheaf, team := a.csh.team, ctx := a.ctm.ctx, pc := a.cur.pc, lanes := a.cur.lanes, pa := pa,
         kind := .store w, chan := chan, win := a.winTarget pa } : Flight)
    match w.line with
    | .rem n =>
      let a1 := { a.remHeldWrite n w with flights := a.flights ++ [f (128 * n)], nextId := a.nextId + 1 }
      (match chan with
       | some c => { a1 with chanSeq := SMap.update a1.chanSeq (chanKey a.csh.team (remDev (128 * n)) c) 0 (· + 1) }
       | none => a1)
    | .sys n => { a with flights := a.flights ++ [f (128 * n)], nextId := a.nextId + 1 }
    | _ => a.publish [w] (some a.cur.sheaf)
  ws.foldl one s

end Sys2Proof.Machine
end

