-- ==== Sys2Proof/Machine/Memory.lean ====
section
/-! DEFINITION. Loads and stores, full/empty words, constants, prefetch, fences, seals, hints and waits (R198 to R209, R215 to R219). -/

namespace Sys2Proof.Machine

/-! Rules of the region states (R182). -/

def loadRule (w : MWidth) (l : Loc) : Option Nat := if l.isCoded ∧ w ≠ .b64 then some cREGION else none
def storeRule (w : MWidth) (l : Loc) : Option Nat :=
  if l.ro ∨ (l.isCoded ∧ w ≠ .b64) then some cREGION else none
def waitRule (l : Loc) : Option Nat := if l.isCoded then some cREGION else none

def State.strict (s : State) : Bool := allowStrict s.allow

/-- The location of each active lane, with the lane. -/
def State.locs (s : State) (sp : Bool) (a : Acc) (bytes : Nat) (m : Mask) (addr : Nat → Nat) : List (Nat × Loc) :=
  (Mask.list m).map (fun l => (l, s.locOk sp a bytes (addr l)))

def laneLoc (ls : List (Nat × Loc)) (l : Nat) : Loc := ((ls.find? (fun p => p.1 = l)).map (·.2)).getD ⟨.mem 0, 0, 0, none⟩

/-! Loads (R203, R208). -/

/-- The destination of a load. -/
def loadDst (o : Opn) (w : MWidth) (scalar : Bool) : Dst :=
  { sel := o.d, w64 := mwIs64 w, cnt := mwRegs w, align := mwRegs w, scalarOk := scalar, queueOk := false }

/-- The tag a load writes (R199): F64 only from CODED regions on every active lane. -/
def loadTag (w : MWidth) (sx : Bool) (ls : List (Nat × Loc)) : Ty :=
  match w with
  | .b8 | .b16 => if sx then .i32 else .n32
  | .b64 => if !ls.isEmpty && ls.all (fun p => p.2.isCoded) then .f64 else .raw
  | _ => .raw

/-- An element as a register takes it: bytes and halves are extended. -/
def extendElem (w : MWidth) (sx : Bool) (e : Nat × Bnd) : Nat × Bnd :=
  let n := mwElem w
  (if sx && decide (n < 4) then wrapBits 32 (sInt (8 * n) e.1) else e.1, e.2)

/-- Perform a load whose checks have passed (R200, R203): buffered, or irrevocable at a boundary, once the entries of the sheaf's earlier
boundary instructions are published (R234). -/
def State.doLoad (s : State) (h : Hd) (o : Opn) (m : MMod) (sp sOnly : Bool) (a : Mask) : State :=
  let addr := s.memAddr o sp sOnly
  let w := m.width
  let ls := s.locs sp .load (mwBytes w) a addr
  let lines := ls.map (fun p => p.2.line)
  let locs := ls.map (·.2)
  let val := fun (view : Line → LineData) (strict : Bool) (k l : Nat) =>
    let c := laneLoc ls l
    extendElem w m.hi ((view c.line).elem strict (c.ofs + k * mwElem w) (mwElem w))
  let tag := loadTag w m.hi ls
  let acq := m.order = .acq && m.scope ≠ .dev
  let note := fun (c : Chunk) => ls.foldl (fun c p => c.noteRead (addr p.1) p.2) c
  if acq || locs.any Loc.irrevocable then
    if s.csh.uncommitted || !s.settled s.cur.sheaf then s.holdBoundary
    else
      let s1 := s.updSheaf s.cur.sheaf Sheaf.dropEmpty
      match s1.remoteTrap ls ((Mask.list a).map addr) with
      | some t => s1.raise t
      | none =>
        match locs.find? Loc.irrevocable with
        | some _ => if !s.cur.arrived then s1.startFlight ((locs.filter Loc.irrevocable).map (·.pa)) (some (o.d, mwIs64 w)) h.nw else
          let s2 := lines.foldl State.holdLine (s1.noteFills sp ((Mask.list a).map addr) locs)
          let s3 := s2.wrLoad h o.d (mwIs64 w) (mwCount w) tag a (val s2.line s.strict)
          (if acq then s3.acquireAt m.scope else s3).finishBoundary h.nw
        | none =>
          let s2 := s1.noteFills sp ((Mask.list a).map addr) locs
          let s3 := s2.wrLoad h o.d (mwIs64 w) (mwCount w) tag a (val s2.line s.strict)
          (if acq then s3.acquireAt m.scope else s3).finishBoundary h.nw
  else if s.codedWait lines then s.standBack
  else if s.linesFull note then s.closeBefore
  else
    let s1 := (s.noteFills sp ((Mask.list a).map addr) locs).updOpen note
    (s1.wrLoad h o.d (mwIs64 w) (mwCount w) tag a (val s1.viewLine s.strict)).finish h

/-- A load of a space. -/
def loadOp (sp : Bool) (h : Hd) (o : Opn) (m : MMod) (s : State) : Outcome :=
  runOp h o.imm (some (loadDst o m.width false)) (addrSrcs o sp false)
    (fun s1 a => s1.accTrap sp .load (mwBytes m.width) (loadRule m.width) a (s1.memAddr o sp false))
    (fun s1 a => s1.doLoad h o m sp false a) s

def execLd (h : Hd) (o : Opn) (m : MMod) (s : State) : Outcome := loadOp false h o m s
def execLds (h : Hd) (o : Opn) (m : MMod) (s : State) : Outcome := loadOp true h o m s

/-- R208: the region is tested first, so an address in no RO region faults REGION whether or not it is mapped. DEDUCED (log 36). -/
def State.ldkFault (s : State) (bytes va : Nat) : Option AccFault :=
  if va % bytes ≠ 0 then some { cause := cALIGN, addr := va }
  else
    match s.regLost s.port s.ctm.ctx va, s.regCover s.port s.ctm.ctx va with
    | some d, _ => some { cause := cDIELOST, addr := va, die := d }
    | none, [e] => if s.regMalformed e || e.state ≠ stRO then some { cause := cREGION, addr := va, ridx := some e.idx }
      else s.laneFault false .load bytes (fun _ => none) va
    | none, [] => some { cause := cREGION, addr := va }
    | none, e :: _ => some { cause := cREGION, addr := va, ridx := some e.idx }

def execLdk (h : Hd) (o : Opn) (m : MMod) (s : State) : Outcome :=
  runOp h o.imm (some (loadDst o m.width true)) (addrSrcs o false true)
    (fun s1 a =>
      (pickFault ((Mask.list a).filterMap (fun l => (s1.ldkFault (mwBytes m.width) (s1.memAddr o false true l)).map (fun f => (l, f)))) 0).map
        (fun t => let vas := triedWalks (mwBytes m.width) a (s1.memAddr o false true); { t with walks := vas, tables := vas }))
    (fun s1 a => s1.doLoad h o m false true a) s

/-! Stores (R204, R205). -/

/-- The sources of store data: one per element of a vector group, or one scalar (R199). -/
def storeSrcs (o : Opn) (w : MWidth) : List Src :=
  match o.sc with
  | .v n => (List.range (mwCount w)).map (fun k =>
      ⟨4, .v (n + BitVec.ofNat 8 (k * (if mwIs64 w then 2 else 1))), mwIs64 w, .any, .raw, decide (n.toNat % mwRegs w = 0)⟩)
  | .s n => [⟨4, .s n, w = .b64 || w = .x2, .any, .raw, w ≠ .b128 && w ≠ .x4⟩]
  | x => [⟨4, x, mwIs64 w, .any, .raw, false⟩]

/-- The bound a narrow store leaves (R204). -/
def narrowStore (b : Bnd) : Bnd := if b.poi then .poison else if b.isZero then .zero else .lost

/-- The elements a lane stores, with their bounds and tags. -/
def State.storeEls (s : State) (o : Opn) (w : MWidth) (l : Nat) : List (Nat × Bnd × Ty) :=
  let rd := fun (a : Src) => s.rd o.imm false a l
  let n := mwElem w
  let cut := fun (v : Val) => (v.bits % 2 ^ (8 * n), (if n < 4 then narrowStore v.bnd else v.bnd), v.tag)
  match o.sc, storeSrcs o w with
  | .s _, [a] =>
    let v := rd a
    if w = .x2 then
      let b := Bnd.ofEb16 v.bnd.eb16
      [(v.bits % 2 ^ 32, b, v.tag), (v.bits / 2 ^ 32, b, v.tag)]
    else [cut v]
  | _, as => as.map (fun a => cut (rd a))

/-- Perform a store whose checks have passed: held by the chunk, or sent at a boundary. -/
def State.doStore (s : State) (h : Hd) (o : Opn) (m : MMod) (sp : Bool) (a : Mask) : State :=
  let addr := s.memAddr o sp false
  let w := m.width
  let ls := s.locs sp .store (mwBytes w) a addr
  let locs := ls.map (·.2)
  let ws := buildWrites (ls.map (fun p => ⟨p.2, mwElem w, (s.storeEls o w p.1).map (fun e => (e.1, e.2.1))⟩)) (mwIs64 w) (!s.boundsOn)
  let rel := m.order = .rel && m.scope ≠ .dev
  let note := fun (c : Chunk) => ls.foldl (fun c p => c.noteWrite (addr p.1) p.2) c
  if rel || locs.any Loc.irrevocable then
    if s.csh.uncommitted then s.holdBoundary
    else
      let s1 := s.updSheaf s.cur.sheaf Sheaf.dropEmpty
      match s1.remoteTrap ls ((Mask.list a).map addr) with
      | some t => s1.raise t
      | none =>
        if rel && !s.cur.released then s1.startRelease (m.scope = .sys)
        else ((s1.noteFills sp ((Mask.list a).map addr) locs).sendStores ws
          (if m.hi then some (immBits o 26 24) else none)).finishBoundary
  else if s.linesFull note then s.closeBefore
  else
    let s1 := (s.noteFills sp ((Mask.list a).map addr) locs).updOpen note
    (s1.updOpen (fun c => ws.foldl (fun c x => c.hold (.store x)) c)).finish h

/-- The budget test of a store (R68, R201 step 6). -/
def State.storeBudget (s : State) (o : Opn) (w : MWidth) (sp : Bool) (a : Mask) : Option Trap :=
  s.budgetTrap ((Mask.list a).flatMap (fun l =>
    let va := s.memAddr o sp false l
    let r := (s.locOk sp .store (mwBytes w) va).reg
    (s.storeEls o w l).zipIdx.map (fun e => ⟨l, va + e.2 * mwElem w, r, e.1.2.1, elemMag e.1.2.2 (mwElem w) e.1.1⟩)))

def storeOp (sp : Bool) (h : Hd) (o : Opn) (m : MMod) (s : State) : Outcome :=
  runOp h o.imm none (addrSrcs o sp false ++ storeSrcs o m.width)
    (fun s1 a =>
      match s1.accTrap sp .store (mwBytes m.width) (storeRule m.width) a (s1.memAddr o sp false) with
      | some t => some t
      | none => (s1.storeBudget o m.width sp a).map (fun t => { t with walks := if sp then [] else (Mask.list a).map (s1.memAddr o sp false) }))
    (fun s1 a => s1.doStore h o m sp a) s

def execSt (h : Hd) (o : Opn) (m : MMod) (s : State) : Outcome := storeOp false h o m s
def execSts (h : Hd) (o : Opn) (m : MMod) (s : State) : Outcome := storeOp true h o m s

/-! Full/empty words (R206, R207). -/

/-- The words of an access at an absolute scratchpad address. -/
def feWords (abs : Nat) (w64 : Bool) : List Nat := if w64 then [abs / 4, abs / 4 + 1] else [abs / 4]

def Team.isFull (t : Team) (ws : List Nat) : Bool := ws.all (fun k => SMap.getD t.spfe k false)
def Team.isEmpty (t : Team) (ws : List Nat) : Bool := ws.all (fun k => !SMap.getD t.spfe k false)
def Team.setFe (t : Team) (ws : List Nat) (v : Bool) : Team :=
  { t with spfe := ws.foldl (fun m k => SMap.setC m k false v) t.spfe }

/-- R207. -/
def execFeset (h : Hd) (o : Opn) (m : MMod) (s : State) : Outcome :=
  let w := m.width
  runOp h o.imm none (addrSrcs o true false)
    (fun s1 a => s1.accTrap true .store (mwBytes w) (fun _ => none) a (s1.memAddr o true false))
    (fun s1 a =>
      let addr := s1.memAddr o true false
      let ls := s1.locs true .store (mwBytes w) a addr
      let note := fun (c : Chunk) => ls.foldl (fun c p => c.noteWrite 0 p.2) c
      if s1.linesFull note then s1.closeBefore
      else
        let t := s1.csh.team
        let fes := (Mask.list a).flatMap (fun l => (feWords (s1.spAbs s1.cur.sheaf (addr l)) (mwIs64 w)).map (fun k => Held.fe t k m.hi))
        ((s1.updOpen note).updOpen (fun c => fes.foldl Chunk.hold c)).finish h) s

/-- Write one lane of a register and advance the lane, in the registers of the sheaf and in every checkpoint, so that no squash undoes it;
the lane is eligible once the chunks that stand now have committed (R347). -/
def Sheaf.completeLane (x : Sheaf) (l : Nat) (f : Regs → Regs) : Sheaf :=
  let c := x.chunks.map (fun k => { k with ckpt := f k.ckpt, ckWaits := SMap.erase k.ckWaits l })
  { x with regs := f x.regs, chunks := c, waits := SMap.erase x.waits l,
           gate := (match (x.chunks.filter Chunk.stands).getLast? with
             | some k => SMap.set x.gate l k.id
             | none => SMap.erase x.gate l) }

/-- Advance one lane to the slot after a PC. -/
def Regs.stepLane (w l : Nat) (pc : Pc) (r : Regs) : Regs := { r with pc := setLanes w r.pc 0 (Mask.of 64 (fun k => k = l)) (nextPc pc) }

/-- A completion's write of one lane of a vector destination. -/
def Regs.wrLane (w l : Nat) (d : Sel) (w64 : Bool) (tag : Ty) (v : Nat × Bnd) (r : Regs) : Regs :=
  match d with
  | .v n => Regs.stale (r.putVec w n.toNat w64 (Mask.of 64 (fun k => k = l)) (fun _ => v) tag) d w64
  | _ => r

/-- Try a waiting access of lane `l` of sheaf `i` at its scratchpad ALU (R206): none if its condition does not hold, or for an LDF while an
entry that writes its word is not published, since no load sees it before (R233). `later`: a later completion, not the attempt of the
instruction itself (R347). -/
def State.feTry (s : State) (later : Bool) (i l : Nat) (pc : Pc) (c : Wait) : Option State :=
  let x := s.sheaf i
  let t := s.team x.team
  let w := t.hdr.width
  match c with
  | .ldf d w64 keep ofs =>
    let abs := s.spAbs i ofs
    let ws := feWords abs w64
    let ln := Line.sp x.team (abs / 128)
    let len := if w64 then 8 else 4
    if !t.isFull ws || s.pubs.any (fun p => p.touches ln (abs % 128) len) then none
    else
      let e := (s.line ln).elem (allowStrict x.regs.allow) (abs % 128) len
      let b : Bnd := if (t.hdr.bounds && s.feat 0 0) || e.2.poi then e.2 else .zero
      let s1 := s.setTeam x.team (if keep then t else t.setFe ws false)
      some (s1.updSheaf i (fun y => y.completeLane l (fun r => (r.wrLane w l d w64 .raw (e.1, b)).stepLane w l pc)))
  | .ste w64 ofs v b =>
    let abs := s.spAbs i ofs
    let ws := feWords abs w64
    if !t.isEmpty ws then none
    else
      let lw := buildWrites [⟨⟨.sp x.team (abs / 128), abs % 128, ofs, none⟩, if w64 then 8 else 4, [(v.toNat, Bnd.ofEb32 b)]⟩] w64
        (!(t.hdr.bounds && s.feat 0 0))
      let s0 := s.setTeam x.team (t.setFe ws true)
      let s1 := if later then s0.publishLater lw i else s0.publish lw (some i)
      some (s1.updSheaf i (fun y => y.completeLane l (fun r => r.stepLane w l pc)))
  | _ => none

/-- Attempt a boundary wait on every active lane; the lanes whose condition does not hold wait, and lanes of the path that are not active
pass on (R206, R347). -/
def State.attempt (s : State) (a : Mask) (cond : Nat → Wait) (try' : State → Nat → Wait → Option State) : State :=
  let i := s.cur.sheaf
  let pc := s.cur.pc
  let s0 := s.movePc (s.cur.lanes &&& ~~~a) (nextPc pc)
  let s1 := (Mask.list a).foldl (fun acc l =>
    if (SMap.get? acc.sheaves i).isNone then acc
    else
      match try' acc l (cond l) with
      | some r => r
      | none => acc.updSheaf i (fun x => { x with waits := SMap.set x.waits l (cond l) })) s0
  if (SMap.get? s1.sheaves i).isNone then s1 else s1.leave

def feDst (o : Opn) (w64 : Bool) : Dst := { dstD o w64 with scalarOk := false, queueOk := false }

def execLdf (h : Hd) (o : Opn) (m : MMod) (s : State) : Outcome :=
  let w64 := mwIs64 m.width
  runOp h o.imm (some (feDst o w64)) (addrSrcs o true false)
    (fun s1 a => s1.accTrap true .load (mwBytes m.width) (fun _ => none) a (s1.memAddr o true false))
    (fun s1 a =>
      if s1.csh.uncommitted then s1.holdBoundary
      else
        let addr := s1.memAddr o true false
        (s1.updSheaf s1.cur.sheaf Sheaf.dropEmpty).attempt a (fun l => .ldf o.d w64 m.hi (addr l))
          (fun x l c => x.feTry false s1.cur.sheaf l s1.cur.pc c)) s

def execSte (h : Hd) (o : Opn) (m : MMod) (s : State) : Outcome :=
  let w64 := mwIs64 m.width
  runOp h o.imm none (addrSrcs o true false ++ storeSrcs o m.width)
    (fun s1 a => s1.accTrap true .store (mwBytes m.width) (fun _ => none) a (s1.memAddr o true false))
    (fun s1 a =>
      if s1.csh.uncommitted then s1.holdBoundary
      else
        let addr := s1.memAddr o true false
        let e := fun l => (s1.storeEls o m.width l).headD (0, .zero, .raw)
        (s1.updSheaf s1.cur.sheaf Sheaf.dropEmpty).attempt a
          (fun l => .ste w64 (addr l) (BitVec.ofNat 64 (e l).1) (e l).2.1.eb32)
          (fun x l c => x.feTry false s1.cur.sheaf l s1.cur.pc c)) s

/-! WAITA (R218). -/

/-- Test a waiting lane: none if its condition does not hold, or while an entry that the sheaf has made is not published (R234). A
remote line, and a system half held without ownership, is fetched anew. A device that has departed, a window no longer valid, a page
no longer permitted or a lost die ends the context (R201, R307, R313, R320); DESIGN CHOICE (log 108): a page no longer present, or a
region test that now fails with a cause below 0x20, keeps the lane waiting. -/
def State.waitaTry (s : State) (i l : Nat) (pc : Pc) (c : Wait) : Option State :=
  let x := s.sheaf i
  let t := s.team x.team
  let w := t.hdr.width
  match c with
  | .waita d ty cc acq scope va v =>
    let len := if ty.is64 then 8 else 4
    let endBy := fun (f : AccFault) =>
      if f.cause = cPAGE ∨ f.cause < 0x20 then none
      else some (s.endContext (mkFrame (f.trap (Mask.of 64 (fun k => k = l)) 9) pc false x.hm) x.team x.core x.idx)
    match s.globalLoc (.core x.core) t.ctx va .load with
    | .error f => endBy f
    | .ok loc =>
      if (match loc.line with | .rem _ => !s.reachable loc.pa | _ => false) then endBy { cause := cREMOTE, addr := loc.pa, akind := 3 }
      else if !s.settled i then none
      else
      let s1 := (match loc.line with
        | .rem n => { s with remHeld := SMap.erase s.remHeld n }
        | .sys n => { s with sysHeld := s.sysHeld.filter (fun p => p.2.owned || p.1 / 2 ≠ n) }
        | _ => s).holdLine loc.line
      let e := (s1.line loc.line).elem (allowStrict x.regs.allow) loc.ofs len
      let p := intVal ty e.1
      let q := intVal ty v.toNat
      if cmpFin cc (decide (p < q)) (decide (p = q)) then
        let b : Bnd := if (t.hdr.bounds && s.feat 0 0) || e.2.poi then e.2 else .zero
        let s2 := s1.updSheaf i (fun y => y.completeLane l (fun r => (r.wrLane w l d ty.is64 ty (e.1, b)).stepLane w l pc))
        some (if acq then s2.acquireAt scope else s2)
      else none
  | _ => none

def execWaita (h : Hd) (o : Opn) (m : MMod) (s : State) : Outcome :=
  let ty := immTy o 20
  let x := (srcTy 4 o.sc ty).only (selIsS o.sc || selIsV o.sc)
  runOp h o.imm (some (feDst o ty.is64)) (addrSrcs o false false ++ [x])
    (fun s1 a => s1.accTrap false .load (mwBytes m.width) waitRule a (s1.memAddr o false false))
    (fun s1 a =>
      let addr := s1.memAddr o false false
      let ls := s1.locs false .load (mwBytes m.width) a addr
      if s1.csh.uncommitted then s1.holdBoundary
      else
        let s2 := s1.updSheaf s1.cur.sheaf Sheaf.dropEmpty
        match s2.remoteTrap ls ((Mask.list a).map addr) with
        | some t => s2.raise t
        | none =>
          let far := ls.filter (fun p => p.2.irrevocable)
          if !far.isEmpty && !s1.cur.arrived then s2.startFlight (far.map (·.2.pa)) none false
          else
            (s2.noteFills false ((Mask.list a).map addr) (ls.map (·.2))).attempt a
              (fun l => .waita o.d ty (immBits o 26 24) (m.order = .acq) m.scope (addr l)
                (BitVec.ofNat 64 (s1.rd o.imm false x l).bits))
              (fun y l c => y.waitaTry s1.cur.sheaf l s1.cur.pc c)) s

/-! PREF, HINT (R209, R217, R318, R319). -/

/-- R209: no effect other than timing, and no fault of translation or region. -/
def execPref (h : Hd) (o : Opn) (_m : MMod) (s : State) : Outcome :=
  runOp h o.imm none (addrSrcs o false false) noTrap (fun s1 _ => s1.finish h) s

/-- Write bytes to system memory at their owner, and into what this device holds of them: the green's own writes (R319, R273, R279). -/
def State.sysPoke (s : State) (pa : Nat) (bs : List Byte) : State :=
  match s.winTarget pa with
  | some (_, key) =>
    { s with
      ext := Memory.write s.ext key bs
      sysHeld := s.sysHeld.map (fun p => (p.1, { p.2 with bytes := (List.range 64).map (fun k =>
        let a := 64 * p.1 + k
        if pa ≤ a ∧ a < pa + bs.length then bs.getD (a - pa) 0 else p.2.bytes.getD k 0) })) }
  | none => s

/-- Bytes of system memory as their owner has them, with the dirty halves this device holds laid over. -/
def State.sysPeek (s : State) (pa n : Nat) : List Byte :=
  (List.range n).map (fun k => ((s.sysHalf ((pa + k) / 64)).bytes).getD ((pa + k) % 64) 0)

/-- The hint control block's address (R339). -/
def State.hintCb (s : State) (ctx : Nat) : Nat := s.desc ctx 113 70 * 64

/-- Append a hint record to a context's ring (R319). DEDUCED (log 37). -/
def State.hintRecord (s : State) (ctx page bits kind : Nat) : State :=
  let cb := s.hintCb ctx
  let r := SMap.getD s.hints ctx {}
  let n := bitsAt r.base.toNat 4 0
  if cb = 0 ∨ n = 0 then s
  else
    let full := fun (ri : Nat) => decide (2 ^ n ≤ r.wi - ri)
    let ri := if full r.ri then leNat (s.sysPeek (2 ^ 50 + cb + 16) 8) else r.ri
    if full ri then { s with hints := SMap.set s.hints ctx { r with ri := ri, dropped := r.dropped + 1 } }
    else
      let rec16 := leBytes 8 page ++ leBytes 1 kind ++ leBytes 1 (if bits = 16 then 0 else if bits = 21 then 1 else 2)
        ++ leBytes 2 ctx ++ leBytes 4 r.dropped
      let s1 := s.sysPoke (2 ^ 50 + bitsAt r.base.toNat 49 12 * 4096 + r.wi % 2 ^ n * 16) rec16
      let s2 := s1.sysPoke (2 ^ 50 + cb + 8) (leBytes 8 (r.wi + 1))
      { s2 with hints := SMap.set s2.hints ctx { r with ri := ri, wi := r.wi + 1, dropped := 0 } }

/-- Write a held half back to its owner if it is modified, and drop it (R314, R318). -/
def State.dropHalf (s : State) (k : Nat) : State :=
  match SMap.get? s.sysHeld k with
  | none => s
  | some x =>
    let s1 := { s with sysHeld := SMap.erase s.sysHeld k }
    if x.dirty then
      match x.key with
      | some key => { s1 with ext := Memory.write s1.ext key x.bytes, extPoison := SMap.setC s1.extPoison (key / 64) false x.poison }
      | none => s1
    else s1

/-- EVICT of R318 on the held halves of a page: those without ownership and the modified ones go. -/
def State.evictPage (s : State) (pa bits : Nat) : State :=
  ((s.sysHeld.filter (fun p => pa / 2 ^ bits = 64 * p.1 / 2 ^ bits && (!p.2.owned || p.2.dirty))).map (·.1)).foldl State.dropHalf s

/-- HINT: its address is translated as an access's is, and a walk that meets a lost die ends the context (R174, R307). DEDUCED (log 87). -/
def execHint (h : Hd) (o : Opn) (_m : MMod) (s : State) : Outcome :=
  let at' := fun (s1 : State) (a : Mask) => s1.memAddr o false true (lowest a)
  runOp h o.imm none (addrSrcs o false true)
    (fun s1 a => match s1.xlate s1.port s1.ctm.ctx (at' s1 a) with
      | .dieLost d => if a = 0 then none else some { cause := cDIELOST, check := 9, lanes := a, addr := BitVec.ofNat 64 (at' s1 a), akind := 1, die := d
                                                     walks := [at' s1 a] }
      | _ => none)
    (fun s0 a =>
      let ctx := s0.ctm.ctx
      let va := at' s0 a
      let kind := immBits o 26 24
      if a = 0 then s0.finish h
      else
        let s1 := (s0.walkTouch ctx va s0.port).fillTlb s0.port ctx va
        match s1.xlate s1.port ctx va with
        | .leaf e bits =>
          let pa := leafPa e bits va
          if !e.testBit 8 && paSystem pa then
            ((if kind = 3 then s1.evictPage pa bits else s1).hintRecord ctx (va / 2 ^ bits * 2 ^ bits) bits kind).finish h
          else s1.finish h
        | _ => s1.finish h) s

/-! FENCE, SEAL, UNSEAL (R215, R216, R184). -/

/-- R215, R237: the chunk closes; at POD or SYS the sheaf then waits for the release and the acquire. -/
def execFence (h : Hd) (_o : Opn) (m : MMod) (s : State) : Outcome :=
  let s1 := s.begin.finish h true
  if m.scope = .dev then .next s1
  else
    .next { s1.updSheaf s.cur.sheaf (fun x =>
      { x with pend := .fence (m.order ≠ .acq) (m.order ≠ .rel) (m.scope = .sys) s1.nextId }) with nextId := s1.nextId + 1 }

/-- What SEAL or UNSEAL does to an entry (R184): REGION, no change, or the new word 0x00. -/
def sealChange (un : Bool) (e : RegEntry) : Option (Option W64) :=
  if e.state = stSHARED then (if un then some none else some (some ((e.w0 &&& ~~~0x30) ||| 0x800)))
  else if e.state = stRO ∧ e.sealed then
    (if un then some (some ((e.w0 &&& ~~~0x800) ||| 0x20)) else some none)
  else none

/-- Drop an entry from every region cache of a context. -/
def State.dropRegion (s : State) (ctx idx : Nat) : State :=
  let keep := fun (e : RegEntry) => !(e.ctx = ctx && e.idx = idx)
  { s with
    gregions := s.gregions.filter keep
    cores := s.cores.map (fun p => (p.1, { p.2 with regions := p.2.regions.filter keep })) }

/-- Squash the chunks of a context for which a test holds (R231). -/
def State.squashCtx (s : State) (ctx : Nat) (f : Chunk → Bool) : State :=
  (s.sheafIds.filter (fun i => (s.team (s.sheaf i).team).ctx = ctx)).foldl (fun a i => a.squashIf i f) s

def sealOp (un : Bool) (h : Hd) (o : Opn) (s : State) : Outcome :=
  let va := fun (s1 : State) => s1.memAddr o false true (lowest s1.cur.lanes)
  let entry := fun (s1 : State) => match s1.regCover s1.port s1.ctm.ctx (va s1) with
    | [e] => if s1.regMalformed e then none else some e
    | _ => none
  runOp h o.imm none (addrSrcs o false true)
    (fun s1 _ =>
      let bad := fun (r : Option Nat) => some ({ cause := cREGION, check := 9, lanes := s1.cur.lanes
                                                 addr := BitVec.ofNat 64 (va s1), akind := 1, ridx := r, tables := [va s1] } : Trap)
      let lost := fun (d : Nat) => some ({ cause := cDIELOST, check := 9, lanes := s1.cur.lanes
                                           addr := BitVec.ofNat 64 (va s1), akind := 1, die := d } : Trap)
      match s1.regLost s1.port s1.ctm.ctx (va s1), entry s1 with
      | some d, _ => lost d
      | none, none => bad ((s1.regCover s1.port s1.ctm.ctx (va s1)).head?.map (·.idx))
      | none, some e => match sealChange un e, s1.tableLost s1.ctm.ctx with
        | none, _ => bad (some e.idx)
        | some (some _), some d => lost d
        | _, _ => none)
    (fun s1 _ =>
      if s1.csh.uncommitted then s1.holdBoundary
      else
        let s2 := s1.updSheaf s1.cur.sheaf Sheaf.dropEmpty
        match entry s1 with
        | some e =>
          match sealChange un e with
          | some (some w) =>
            let s3 := (s2.touchPa e.ctx (s2.regionBase e.ctx)).wr64 (s2.regionBase e.ctx + 64 * e.idx) w.toNat
            ((s3.dropRegion e.ctx e.idx).squashCtx e.ctx (fun c => c.regions.contains (e.idx, !un))).finishBoundary
          | _ => (s2.fillReg s2.port e.ctx (va s1)).finishBoundary
        | none => s2.finishBoundary) s

def execSeal (h : Hd) (o : Opn) (_m : MMod) (s : State) : Outcome := sealOp false h o s
def execUnseal (h : Hd) (o : Opn) (_m : MMod) (s : State) : Outcome := sealOp true h o s

end Sys2Proof.Machine
end

