-- ==== Sys2Proof/Machine/Publish.lean ====
section
/-! DEFINITION. Published entries (R233): who defers one (R229), which chunks one squashes (R227), the atomic operations that one carries
(R211, R212), and its publication. -/

namespace Sys2Proof.Machine

/-! Tokens (R229). -/

def coreDie (core : Nat) : Nat := core / Config.coresPerDie

/-- Do the lanes of a sheaf wait: one has not exited, and none that has not exited is free of a wait? -/
def State.allWait (s : State) (i : Nat) : Bool :=
  let x := s.sheaf i
  s.live i ≠ 0 && (Mask.list (s.live i)).all (fun l => (SMap.get? x.waits l).isSome)

/-- Has a sheaf a chunk of this number: one that stands, or one that will re-execute after an older one squashed with it (R228)? -/
def Sheaf.hasChunk (x : Sheaf) (id : Nat) : Bool := x.chunks.any (fun c => c.id = id) || x.redo.any (fun r => r.1 = id)

/-- The tokens held: the die, the holder's sheaf and chunk, and when it was taken. A holder whose chunk has gone holds none; one squashed
keeps its own until it commits. -/
def State.holders (s : State) : List (Nat × Nat × Nat × Nat) := s.tokens.filter (fun p => (s.sheaf p.2.1).hasChunk p.2.2.1)

/-- The token a chunk of a sheaf holds: its die and when it was taken. -/
def State.tokenOf (s : State) (i id : Nat) : Option (Nat × Nat) :=
  (s.holders.find? (fun p => p.2.1 = i && p.2.2.1 = id)).map (fun p => (p.1, p.2.2.2))

/-- The chunks of a sheaf, by number and squashes, that execute now: those that stand, and where none is open, the one that re-executes
next. -/
def Sheaf.executing (x : Sheaf) : List (Nat × Nat) :=
  x.chunks.map (fun c => (c.id, c.squashes)) ++ (if x.openChunk?.isNone then x.redo.take 1 else [])

/-- The oldest chunk of a sheaf that has been squashed four times and holds no token (R229). -/
def State.needsToken (s : State) (i : Nat) : Option Nat :=
  ((s.sheaf i).executing.find? (fun c => decide (4 ≤ c.2) && (s.tokenOf i c.1).isNone)).map (·.1)

/-- Of two chunks, sheaf and number, of which the second holds a token: does the first go first (R229)? -/
def State.holderFirst (s : State) (a b : Nat × Nat) : Bool :=
  match s.tokenOf a.1 a.2, s.tokenOf b.1 b.2 with
  | some (da, ta), some (db, tb) =>
    if s.precedence.contains a.1 && decide (ta < tb) then true
    else if s.precedence.contains b.1 && decide (tb < ta) then false
    else decide (da < db)
  | some _, none => true
  | _, _ => false

/-- Would writes to lines squash a chunk of a team (R225, R227)? `core`: lines checked at the core, with the team that wrote them; lines
go by their names. DEDUCED (log 55). -/
def Chunk.meets (c : Chunk) (of : Nat) (lines core : List Line) (team : Option Nat) : Bool :=
  c.reads.any (fun l => lines.contains l) || (c.coreReads.any (fun l => core.contains l) && (match team with | some t => of = t | none => true))

/-- The place of the first chunk of a sheaf that writes would squash. -/
def Sheaf.firstMet (x : Sheaf) (lines core : List Line) (team : Option Nat) : Option Nat :=
  x.chunks.findIdx? (fun c => c.meets x.team lines core team)

def Sheaf.meets (x : Sheaf) (lines core : List Line) (team : Option Nat) : Bool := (x.firstMet lines core team).isSome

/-- Would writes squash one chunk of a sheaf: it or an older one is met (R227)? -/
def Sheaf.loses (x : Sheaf) (id : Nat) (lines core : List Line) (team : Option Nat) : Bool :=
  match x.firstMet lines core team, x.chunks.findIdx? (fun c => c.id = id) with
  | some k, some j => decide (k ≤ j)
  | _, _ => false

/-- The holders, sheaf and chunk, that defer an entry: their chunks would be squashed, they are not waiting, and the entry's own chunk,
sheaf and number, does not go first. DEDUCED (log 57). -/
def State.deferring (s : State) (own : Option (Nat × Nat)) (lines core : List Line) (team : Option Nat) : List (Nat × Nat) :=
  (s.holders.filter (fun p =>
    own.map (·.1) ≠ some p.2.1 && (s.sheaf p.2.1).loses p.2.2.1 lines core team && !s.allWait p.2.1
    && !(match own with | some o => s.holderFirst o (p.2.1, p.2.2.1) | none => false))).map (fun p => (p.2.1, p.2.2.1))

/-- Squash every chunk that a write meets; a chunk that commits squashes none of its own sheaf, `own`. `by'`: the chunk of a holder that
commits, in whose favour a holder squashed gains precedence. -/
def State.squashReaders (s : State) (own : Option Nat) (lines core : List Line) (team : Option Nat) (by' : Option Nat := none) : State :=
  s.sheafIds.foldl (fun a i =>
    if own = some i || !(a.sheaf i).meets lines core team then a
    else
      let holder := (match own, by' with | some o, some id => (a.tokenOf o id).isSome | _, _ => false)
        && a.holders.any (fun p => p.2.1 = i && (a.sheaf i).loses p.2.2.1 lines core team) && !a.allWait i
      let a1 := if holder && !a.precedence.contains i then { a with precedence := a.precedence ++ [i] } else a
      a1.squashIf i (fun c => c.meets (a.sheaf i).team lines core team)) s

/-! What an atomic does at its home. -/

/-- The new value and its bound (R210, R212). DEDUCED (log 26). -/
def atomVal (op : Nat) (t : Ty) (m x : Val) : Nat × Bnd :=
  let bs := [m.bnd, x.bnd]
  match op with
  | 0 => if isFloatTy t then (let r := fLane .add t .rn false [m, x]; (r.1, r.2.1))
    else iLane t false (fun e => e.getD 0 0 + e.getD 1 0) ruleAdd [m, x]
  | 1 | 2 =>
    if isFloatTy t then
      let r := fPick (decide (op = 2)) ((tyFmt t).decode m.bits) ((tyFmt t).decode x.bits)
      ((tyFmt t).encode r, mkBnd bs r.isNan (xmax m.bnd.x x.bnd.x))
    else iLane t false (fun e => if op = 2 then max (e.getD 0 0) (e.getD 1 0) else min (e.getD 0 0) (e.getD 1 0)) ruleMax [m, x]
  | 3 => (m.bits &&& x.bits, bBit bs)
  | 4 => (m.bits ||| x.bits, bBit bs)
  | 5 => (m.bits ^^^ x.bits, bBit bs)
  | _ => (x.bits, mkBnd [x.bnd] (isFloatTy t && ((tyFmt t).decode x.bits).isNan) x.bnd.x)

/-- The local line a line names: a remote line of this device's own number is one of its local map. -/
def State.localLine (s : State) (l : Line) : Line :=
  match l with | .rem n => if remDev (128 * n) = s.devnum then .mem (remOfs (128 * n) / 128) else l | _ => l

/-- A line as the place that executes an atomic on it sees it (R211). -/
def State.atomHome (s : State) (l : Line) : LineData :=
  match s.localLine l with | .rem n => s.remHome n | k => s.line k

/-- What the lanes of an atomic do: the writes in lane order, the old values, the lanes that store with what they store. -/
structure AtomPlan where
  ws : List LineWrite := []
  olds : List (Nat × Nat × Bnd) := []
  stores : List (Nat × Nat × Bnd) := []
  deriving DecidableEq, Repr

/-- Apply the lanes in ascending order (R211): `f` gives a lane's new value from the element, or none where it stores nothing. -/
def State.atomPlan (s : State) (ls : List (Nat × Loc)) (len : Nat) (t : Ty) (strict bnds : Bool) (f : Nat → Val → Option (Nat × Bnd)) :
    AtomPlan :=
  ls.foldl (fun p q =>
    let e := (overlay (s.atomHome q.2.line) q.2.line p.ws).elem strict q.2.ofs len
    let b : Bnd := if bnds || e.2.poi then e.2 else .zero
    match f q.1 ⟨e.1, b, t⟩ with
    | some r =>
      { ws := p.ws ++ buildWrites [⟨q.2, len, [r]⟩] (len = 8) (!bnds)
        olds := p.olds ++ [(q.1, e.1, b)]
        stores := p.stores ++ [(q.1, r)] }
    | none => { p with olds := p.olds ++ [(q.1, e.1, b)] }) {}

def AtomPlan.old (p : AtomPlan) (l : Nat) : Nat × Bnd :=
  match p.olds.find? (fun q => q.1 = l) with | some q => q.2 | none => (0, .zero)

/-! Publication (R233). -/

/-- The code an entry has for a CAS. -/
def casOp : Nat := 7

/-- The new value of an operation's element, none where nothing is stored. -/
def PubOp.eval (o : PubOp) (v : Val) : Option (Nat × Bnd) :=
  if o.op = casOp then (if v.bits = o.cmp.toNat then some (o.x.toNat, ⟨o.bnd, o.poi⟩) else none)
  else some (atomVal o.op o.ty v ⟨o.x.toNat, ⟨o.bnd, o.poi⟩, o.ty⟩)

/-- The operation carried out on its line as the home has it. -/
def State.opPlan (s : State) (l : Line) (o : PubOp) : AtomPlan :=
  s.atomPlan [(0, ⟨l, o.ofs, 0, none⟩)] (if o.ty.is64 then 8 else 4) o.ty o.strict o.bnds (fun _ v => o.eval v)

/-- A write performed at the green shows in the copy the green holds (R235, R310). -/
def State.atGreen (s : State) (p : Pub) (before : LineData) : State :=
  match p.green, p.w.line with
  | true, .mem n => { s with green := SMap.set s.green n (before.write false p.w) }
  | _, _ => s

/-- The write of an entry: its own, or that of its operation on the line as it stands, if it stores. -/
def State.entryWrite (s : State) (p : Pub) : Option LineWrite :=
  match p.op with | some o => (s.opPlan p.w.line o).ws.head? | none => some p.w

/-- The old value goes to the peer that an operation owes it to. -/
def State.answer (s : State) (p : Pub) : State :=
  match p.op with
  | some o =>
    let v := (s.opPlan p.w.line o).old 0
    if o.reply then s.emit (.peerData (leBytes (if o.ty.is64 then 8 else 4) v.1) (v.2.eb32.setWidth 64) v.2.poi) else s
  | none => s

/-- Apply an entry: the chunks that have read its line and are not committed are squashed, its contributor is acknowledged (R324), and the
word of R266 is full. -/
def State.applyEntry (s : State) (p : Pub) : State :=
  let n := [p.w.line.name]
  let old := match p.w.line with | .mem k => s.greenLine k | _ => {}
  let s1 := ((s.squashReaders none n n p.team).applyLine p.w.line [p.w] p.w.untracked).atGreen p old
  match p.full with
  | some (t, w) => s1.updTeam t (fun m => m.setFe [w] true)
  | none => s1

/-! Deferral (R229, R233). -/

/-- Does a chunk of a sheaf, or an older one of it, store to a line? -/
def Sheaf.writesUpTo (x : Sheaf) (id : Nat) (l : Line) : Bool :=
  x.chunks.any (fun c => decide (c.id ≤ id) && (c.writes.contains l.name || c.coreWrites.contains l.name))

/-- Does a holder, sheaf and chunk, stand in the way of a write of an atomic that has been decided: it stores to the line itself, or a holder
that stores to it goes first against it? -/
def State.crosses (s : State) (l : Line) (h : Nat × Nat) : Bool :=
  (s.sheaf h.1).writesUpTo h.2 l
    || s.holders.any (fun p => p.2.1 ≠ h.1 && (s.sheaf p.2.1).writesUpTo p.2.2.1 l && s.holderFirst (p.2.1, p.2.2.1) h)

/-- May an atomic be decided on a line now although its write will be deferred: the chunk of each holder that defers it has closed, and none
stands in its way? DESIGN CHOICE (log 116). -/
def State.homeSafe (s : State) (team : Option Nat) (l : Line) : Bool :=
  (s.deferring none [l.name] [l.name] team).all (fun h =>
    (s.sheaf h.1).chunks.any (fun c => decide (c.id = h.2) && c.closed) && !s.crosses l h)

/-- The holders that defer an entry: none whose chunk must follow it (R234), and of a decided atomic none that stands in its way. -/
def State.entryDeferrers (s : State) (p : Pub) : List (Nat × Nat) :=
  (s.deferring none [p.w.line.name] [p.w.line.name] p.team).filter (fun h => !p.before h.1 h.2 && !(p.decided && s.crosses p.w.line h))

/-- Must an entry follow one that is kept: on its line, of its maker, or the payload of the command whose word it sets full? -/
def Pub.follows (p q : Pub) : Bool :=
  q.w.line.name = p.w.line.name || (p.full.isSome && q.cmd = p.cmd) || p.maker.any (fun m => q.madeBy m.1)

/-- Publish one entry, or keep it for a later round: deferred for a token holder, or behind a deferred entry that it must follow. A value owed
to a peer goes to it at once, and the write is then decided (R233). -/
def State.publishOne (s : State) (p : Pub) : State :=
  let ack := fun (a : State) => match p.ack with | some pa => a.emit (.peerAck pa) | none => a
  if s.pubs.any p.follows then { s with pubs := s.pubs ++ [p] }
  else
    match s.entryWrite p with
    | none => ack (s.answer p)
    | some w =>
      if (s.entryDeferrers p).isEmpty then ack ((s.answer p).applyEntry { p with w := w })
      else if p.op.any (fun o => o.reply) && s.homeSafe p.team p.w.line then
        { s.answer p with pubs := s.pubs ++ [{ p with w := w, op := none, decided := true }] }
      else { s with pubs := s.pubs ++ [p] }

end Sys2Proof.Machine
end

