-- ==== Sys2Proof/Machine/Atomic.lean ====
section
/-! DEFINITION. Atomics (R210 to R214): performed at the home of their location, lane by lane, after the sheaf's earlier chunks have
committed. -/

namespace Sys2Proof.Machine

/-- The reduction windows a remote address lies in (R323). -/
def State.redWins (s : State) (pa : Nat) : List Nat :=
  if !s.feat 0 6 then []
  else (List.range 16).filter (fun w =>
    let r := (SMap.getD s.redwin w 0).toNat
    let o := remOfs pa
    r.testBit 63 && decide (bitsAt r 55 45 = remDev pa) && decide (bitsAt r 39 16 * 2 ^ 16 ≤ o)
      && decide (o < (bitsAt r 39 16 + bitsAt r 15 0) * 2 ^ 16))

/-- R182, R210, R315, R323: what an atomic's location refuses. `red` carries a RED's operation, type and scope. -/
def State.atomicRule (s : State) (red : Option (Nat × Ty × Scope)) (l : Loc) : Option Nat :=
  if l.isCoded then some cATYPE
  else if l.ro then some cREGION
  else
    match l.line with
    | .sys _ => (match s.winTarget l.pa with | some (2, _) => some cATYPE | _ => none)
    | .rem _ =>
      (match s.redWins l.pa, red with
       | [], _ => none
       | w :: _, some (op, t, sc) =>
         let r := (SMap.getD s.redwin w 0).toNat
         if sc = .pod ∧ bitsAt r 62 60 = op ∧ bitsAt r 59 56 = t.code.toNat then none else some cATYPE
       | _, none => some cATYPE)
    | _ => none

/-- Is the home of a line the green: a granary line, by whichever address it is reached (R211)? -/
def State.homeGreen (s : State) (l : Line) : Bool :=
  match s.localLine l with | .mem n => decide (granaryBase ≤ 128 * n) | _ => false

/-- Store at its home what an atomic has decided (R211): on device memory as a published entry of this round (R233). `own`: the sheaf whose
instruction it is. -/
def State.homeWrite (s : State) (own : Option Nat) (w : LineWrite) : State :=
  let s1 := match w.line with | .rem n => s.remHeldWrite n w | _ => s
  match s.localLine w.line with
  | .rem n => s1.remWrite n w
  | .sys n => (s1.holdLine (.sys n)).sysWrite n w
  | l => s1.publishOne { s.entryBy own { w with line := l } with green := s.homeGreen w.line, decided := true }

/-- Store what the lanes have decided, in their order. -/
def State.homeWrites (s : State) (own : Option Nat) (ws : List LineWrite) : State := ws.foldl (fun a w => a.homeWrite own w) s

/-- The writes of a plan's lanes for which a test holds. -/
def AtomPlan.writes (p : AtomPlan) (f : Nat → Bool) : List LineWrite :=
  ((p.ws.zip p.stores).filter (fun q => f q.2.1)).map (·.1)

/-- Carry out one lane of a RED that has come to its home: on device memory as a published entry, whose value is taken at its publication
(R211, R233). -/
def State.atomApply (s : State) (o : PubOp) (l : Line) : State :=
  match (s.opPlan l o).ws.head? with
  | none => s
  | some w =>
    let s1 := match l with | .rem n => s.remHeldWrite n w | _ => s
    match s.localLine l with
    | .rem n => s1.remWrite n w
    | .sys n => (s1.holdLine (.sys n)).sysWrite n w
    | k => { s1 with pubs := s1.pubs ++ [{ w := { w with line := k }, green := s.homeGreen l, op := some o }] }

/-- The budget test over what is stored (R210). DEDUCED (log 39). -/
def State.atomBudget (s : State) (ls : List (Nat × Loc)) (addr : Nat → Nat) (t : Ty) (p : AtomPlan) : Option Trap :=
  s.budgetTrap (p.stores.map (fun q => ⟨q.1, addr q.1, (laneLoc ls q.1).reg, q.2.2, budgetMag t q.2.1⟩))

/-- Is a place device memory, this device's own number among the remote ones (R211)? -/
def State.onDevice (s : State) (l : Loc) : Bool := match s.localLine l.line with | .rem _ | .sys _ => false | _ => true

/-- Are the homes of an atomic's lanes on this device ready for it: every entry of their lines is published, and a write that will be deferred
may be decided (R211, R233)? -/
def State.homeReady (s : State) (ls : List (Nat × Loc)) : Bool :=
  ls.all (fun q => !s.onDevice q.2
    || (!s.lineBusy (s.localLine q.2.line) && s.homeSafe (s.ownTeam (some s.cur.sheaf)) (s.localLine q.2.line)))

/-- The checks and the release that come before an atomic is performed, the travel of the lanes in `fly`, and where lanes of `near` are on this
device the round in which their home performs it; then `f` at the boundary. `dst`: what it returns (R200, R211, R232, R233, R237). -/
def State.atomGate (s : State) (ls : List (Nat × Loc)) (vas : List Nat) (fly near : List (Nat × Loc)) (m : MMod) (dst : Option (Sel × Bool))
    (f : State → State) : State :=
  if s.csh.uncommitted then s.holdBoundary
  else
    let s1 := s.updSheaf s.cur.sheaf Sheaf.dropEmpty
    match s1.remoteTrap ls vas with
    | some t => s1.raise t
    | none =>
      if (m.order = .rel || m.order = .ar) && m.scope ≠ .dev && !s.cur.released then s1.startRelease (m.scope = .sys)
      else if !fly.isEmpty && !s.cur.arrived then s1.startFlight (fly.map (·.2.pa)) dst false
      else if near.any (fun p => s.onDevice p.2) && (!s.cur.inRound || !s.homeReady near) then s1.startRound dst
      else f s1

/-- An atomic's operation on one lane, with the values it takes there. -/
def State.laneOp (s : State) (op : Nat) (t : Ty) (c x : Val) : PubOp :=
  { op := op, ty := t, cmp := BitVec.ofNat 64 c.bits, ofs := 0, x := BitVec.ofNat 64 x.bits, bnd := x.bnd.x, poi := x.bnd.poi, bnds := s.boundsOn, strict := s.strict }

/-- R212. DEDUCED (log 41). -/
def execAtom (h : Hd) (o : Opn) (m : MMod) (s : State) : Outcome :=
  let t := immTy o 20
  let op := immBits o 26 24
  let sp := m.hi
  let x := (srcTy 4 o.sc t).only (selIsS o.sc || selIsV o.sc)
  let bytes := mwBytes m.width
  runOp h o.imm (some (feDst o t.is64)) (addrSrcs o sp false ++ [x])
    (fun s1 a => s1.accTrap sp .atomic bytes (s1.atomicRule none) a (s1.memAddr o sp false))
    (fun s1 a =>
      let addr := s1.memAddr o sp false
      let ls := s1.locs sp .atomic bytes a addr
      s1.atomGate ls ((Mask.list a).map addr) (ls.filter (fun q => q.2.irrevocable)) ls m (some (o.d, t.is64)) (fun s2 =>
        let po := fun l => s1.laneOp op t (s1.rd o.imm false x l) (s1.rd o.imm false x l)
        let p := s2.atomPlan ls bytes t s1.strict s1.boundsOn (fun l v => (po l).eval v)
        match s2.atomBudget ls addr t p with
        | some c => s2.raise { c with walks := if sp then [] else (Mask.list a).map addr }
        | none =>
          let s3 := (s2.noteFills sp ((Mask.list a).map addr) (ls.map (·.2))).homeWrites (some s2.cur.sheaf) p.ws
          let s4 := s3.wrD h o.d t.is64 t a p.old
          (if m.order = .acq || m.order = .ar then s4.acquireAt m.scope else s4).finishBoundary)) s

/-- R213. -/
def execCas (h : Hd) (o : Opn) (m : MMod) (s : State) : Outcome :=
  let t := immTy o 20
  let sp := m.hi
  let c := (srcTy 3 o.sb t).only (selIsS o.sb || selIsV o.sb)
  let x := (srcTy 4 o.sc t).only (selIsS o.sc || selIsV o.sc)
  let bytes := mwBytes m.width
  let facq := immBits o 26 25 = 1
  runOp h o.imm (some (feDst o t.is64)) (addrSrcs o sp true ++ [c, x])
    (fun s1 a => s1.accTrap sp .casFail bytes (s1.atomicRule none) a (s1.memAddr o sp true))
    (fun s1 a =>
      let addr := s1.memAddr o sp true
      let ls := s1.locs sp .casFail bytes a addr
      s1.atomGate ls ((Mask.list a).map addr) (ls.filter (fun q => q.2.irrevocable)) ls m (some (o.d, t.is64)) (fun s2 =>
        let po := fun l => s1.laneOp casOp t (s1.rd o.imm false c l) (s1.rd o.imm false x l)
        let p := s2.atomPlan ls bytes t s1.strict s1.boundsOn (fun l v => (po l).eval v)
        let noW := pickFault (p.stores.filterMap (fun q =>
          if sp then none
          else match s2.xlateFor s2.port s2.ctm.ctx (addr q.1) .atomic with | .error f => some (q.1, f) | .ok _ => none)) 0
        match noW with
        | some f => s2.raise { f with walks := (Mask.list a).map addr }
        | none =>
          match s2.atomBudget ls addr t p with
          | some f => s2.raise { f with walks := if sp then [] else (Mask.list a).map addr }
          | none =>
            let s3 := (s2.noteFills sp ((Mask.list a).map addr) (ls.map (·.2))).homeWrites (some s2.cur.sheaf) p.ws
            let s4 := s3.wrD h o.d t.is64 t a p.old
            let won := (m.order = .acq || m.order = .ar) && !p.stores.isEmpty
            let lost := facq && decide (p.stores.length < ls.length)
            (if won || lost then s4.acquireAt m.scope else s4).finishBoundary)) s

/-- Put the lanes of a RED on remote or system memory on their way, line by line (R232, R235). -/
def State.sendReds (s : State) (op : Nat) (t : Ty) (vs : List (Nat × W64 × EB32)) : State :=
  let lines := (vs.map (fun v => v.1 / 128)).dedup
  lines.foldl (fun a n =>
    let mine := vs.filter (fun v => v.1 / 128 = n)
    let f : Flight :=
      { id := a.nextId, sheaf := a.cur.sheaf, team := a.csh.team, ctx := a.ctm.ctx, pc := a.cur.pc, lanes := a.cur.lanes, pa := 128 * n
        kind := .red op t, vals := mine, win := a.winTarget (128 * n) }
    { a with flights := a.flights ++ [f], nextId := a.nextId + 1 }) s

/-- Is what a RED stores at a place tested against a budget that it may fail (R210)? -/
def State.redTested (s : State) (l : Loc) : Bool := s.boundsOn && l.reg.any (fun e => (Bnd.ofEb32 e.absB).x ≠ none)

/-- Does a place lie in a reduction window, where the switches take a RED (R214)? -/
def State.inRedWin (s : State) (l : Loc) : Bool := match l.line with | .rem _ => !(s.redWins l.pa).isEmpty | _ => false

/-- The lanes of a RED that must travel before it is performed: where one is tested, all that no switch takes. -/
def State.redFly (s : State) (ls : List (Nat × Loc)) : List (Nat × Loc) :=
  let far := ls.filter (fun q => q.2.irrevocable && !s.inRedWin q.2)
  if far.any (fun q => s.redTested q.2) then far else []

/-- Does a lane's operation leave the core, to be carried out where it arrives (R232)? -/
def State.redSent (s : State) (l : Loc) : Bool := l.irrevocable && (s.inRedWin l || !s.cur.arrived)

/-- R214. DESIGN CHOICE (log 40). -/
def execRed (h : Hd) (o : Opn) (m : MMod) (s : State) : Outcome :=
  let t := immTy o 20
  let op := immBits o 26 24
  let sp := m.hi
  let x := (srcTy 4 o.sc t).only (selIsS o.sc || selIsV o.sc)
  let bytes := mwBytes m.width
  runOp h o.imm none (addrSrcs o sp false ++ [x])
    (fun s1 a => s1.accTrap sp .atomic bytes (s1.atomicRule (some (op, t, m.scope))) a (s1.memAddr o sp false))
    (fun s1 a =>
      let addr := s1.memAddr o sp false
      let ls := s1.locs sp .atomic bytes a addr
      let rd := fun l => s1.rd o.imm false x l
      let sent := fun (q : Nat × Loc) => s1.redSent q.2
      s1.atomGate ls ((Mask.list a).map addr) (s1.redFly ls) (ls.filter (fun q => !sent q)) m none (fun s2 =>
        let po := fun l => s1.laneOp op t (rd l) (rd l)
        let p := s2.atomPlan ls bytes t s1.strict s1.boundsOn (fun l v => (po l).eval v)
        match s2.atomBudget ls addr t p with
        | some c => s2.raise { c with walks := if sp then [] else (Mask.list a).map addr }
        | none =>
          let far := ls.filter sent
          let s3 := (s2.noteFills sp ((Mask.list a).map addr) (ls.map (·.2))).homeWrites (some s2.cur.sheaf)
            (p.writes (fun l => !far.any (fun q => q.1 = l)))
          (s3.sendReds op t (far.map (fun q => (q.2.pa, BitVec.ofNat 64 (rd q.1).bits, (rd q.1).bnd.eb32)))).finishBoundary)) s

/-- Apply the lanes of a RED that has reached its homes. -/
def State.applyReds (s : State) (op : Nat) (t : Ty) (bnds : Bool) (vs : List (Nat × W64 × EB32)) : State :=
  vs.foldl (fun a v =>
    a.atomApply { op := op, ty := t, ofs := v.1 % 128, x := v.2.1, bnd := (Bnd.ofEb32 v.2.2).x, poi := (Bnd.ofEb32 v.2.2).poi, bnds := bnds }
      (if paRemote v.1 then .rem (v.1 / 128) else .sys (v.1 / 128))) s

end Sys2Proof.Machine
end

