-- ==== Sys2Proof/Machine/Team.lean ====
section
/-! DEFINITION. Team instructions: named barriers (R282 to R284), extended blocks (R285), counter waits (R268), queue bindings and
queue and counter state (R246, R247), device-side launch (R286). -/

namespace Sys2Proof.Machine

/-- A selector field checked by its entry alone: it names no value (R88). -/
def fieldOk (fld : Nat) (ok : Bool) : Src := ⟨fld, .imm, false, .any, .n32, ok⟩

/-- A boundary instruction: the checks, then its effect once every earlier chunk has committed (R221). -/
def runBoundary (h : Hd) (imm : W32) (d : Option Dst) (as : List Src) (own : State → Mask → Option Trap)
    (eff : State → Mask → State) (s : State) : Outcome :=
  runOp h imm d as own
    (fun s1 a => if s1.csh.uncommitted then s1.holdBoundary else eff (s1.updSheaf s1.cur.sheaf Sheaf.dropEmpty) a) s

/-- End the wait of a lane whose PC has already moved on (R347). -/
def Sheaf.wake (x : Sheaf) (l : Nat) : Sheaf := x.completeLane l id

/-- Wake every lane whose wait satisfies a test. -/
def Sheaf.wakeIf (x : Sheaf) (f : Wait → Bool) : Sheaf := ((x.waits.filter (fun w => f w.2)).map (·.1)).foldl Sheaf.wake x

/-- Let lanes wait. -/
def Sheaf.await (x : Sheaf) (ls : List (Nat × Wait)) : Sheaf := { x with waits := ls.foldl (fun w p => SMap.set w p.1 p.2) x.waits }

/-! Barriers (R282, R283). -/

def Team.bar (t : Team) (b : Nat) : Bar := SMap.getD t.bars b {}
def Team.setBar (t : Team) (b : Nat) (x : Bar) : Team := { t with bars := SMap.set t.bars b x }

/-- Is the condition of a barrier wait met? -/
def barMet (b : Nat) (ph : Bool) (w : Wait) : Bool := match w with | .bar c p => c = b && p ≠ ph | _ => false

/-- complete(b) of R283. -/
def State.completeBar (s : State) (t b : Nat) : State :=
  let x := (s.team t).bar b
  let ph := !x.ph
  let s1 := s.updTeam t (fun m => m.setBar b { x with arr := 0, ph := ph, phases := x.phases + 1 })
  (s.sheavesOf t).foldl (fun a i => a.updSheaf i (fun y => y.wakeIf (barMet b ph))) s1

/-- Where DN of a sheaf and a barrier stands. -/
def dnKey (x : Sheaf) (b : Nat) : Nat := 16 * x.idx + b

/-- The lanes of a sheaf whose exit, if any, is committed. -/
def State.committedLive (s : State) (i : Nat) : Mask :=
  let x := s.sheaf i
  let ex := match x.chunks with | c :: _ => c.ckpt.exited | [] => x.regs.exited
  allLanes (s.team x.team).hdr.width &&& ~~~ex

/-- The covering test of R283. DEDUCED (log 45). -/
def State.coverTest (s : State) (i b : Nat) : State :=
  let x := s.sheaf i
  let t := x.team
  let tm := s.team t
  let dn := SMap.getD tm.dn (dnKey x b) 0
  let live := s.committedLive i
  if dn ≠ 0 ∧ live &&& ~~~dn = 0 then
    let r := tm.bar b
    let s1 := s.updTeam t (fun m => { m.setBar b { r with arr := r.arr + 1 } with dn := SMap.erase m.dn (dnKey x b) })
    if 0 < r.exp ∧ r.exp ≤ r.arr + 1 then s1.completeBar t b else s1
  else s

/-- arrive(s, b, L) of R283. -/
def State.arrive (s : State) (i b : Nat) (ls : Mask) : State :=
  let x := s.sheaf i
  (s.updTeam x.team (fun m => { m with dn := SMap.update m.dn (dnKey x b) 0 (· ||| ls) })).coverTest i b

/-- On the exit of lanes: the covering test of every barrier with a pending arrival (R283), once the exit has committed. -/
def State.coverAll (s : State) (i : Nat) : State := (List.range 16).foldl (fun a b => a.coverTest i b) s

/-- Barrier waits that stand although their condition holds, as after ERET, end. -/
def State.settleBars (s : State) (i : Nat) : State :=
  let tm := s.team (s.sheaf i).team
  s.updSheaf i (fun x => x.wakeIf (fun w => match w with | .bar b p => p ≠ (tm.bar b).ph | _ => false))

/-- The lane a scalar operand is read on. DEDUCED (log 44). -/
def State.readLane (s : State) (a : Mask) : Nat := lowest (if a = 0 then s.cur.lanes else a)

/-- R284: EXP = n. -/
def execBari (h : Hd) (o : Opn) (m : BitVec 8) (s : State) : Outcome :=
  let b := m.toNat
  let n := (srcTy 2 o.sa .n32).only (selUniform o.sa)
  let val := fun (s1 : State) (a : Mask) => (s1.rd o.imm false n (s1.readLane a)).bits
  runBoundary h o.imm none [n]
    (fun s1 a => if val s1 a = 0 ∨ 32 < val s1 a then some { cause := cILLOPND, check := 9, lanes := s1.cur.lanes, opnd := 2 } else none)
    (fun s1 a =>
      let t := s1.csh.team
      let x := (s1.team t).bar b
      let s2 := s1.updTeam t (fun y => y.setBar b { x with exp := val s1 a })
      (if val s1 a ≤ x.arr then s2.completeBar t b else s2).finishBoundary) s

/-- R284: arrive and go on; D 0 is no destination. -/
def execBara (h : Hd) (o : Opn) (m : BitVec 8) (s : State) : Outcome :=
  let b := m.toNat
  let none' : Bool := o.d = .v 0
  let d : Dst := { dstD o false with queueOk := false, anyScalar := true }
  runBoundary h o.imm (if none' then none else some d) [] noTrap
    (fun s1 a =>
      let ph := ((s1.ctm).bar b).ph
      let s2 := if none' then s1 else s1.wrD h o.d false .n32 a (fun _ => (if ph then 1 else 0, .zero))
      (s2.arrive s1.cur.sheaf b s1.cur.lanes).finishBoundary) s

/-- R284: each lane saves PH, arrives and waits. -/
def execBarw (h : Hd) (o : Opn) (m : BitVec 8) (s : State) : Outcome :=
  let b := m.toNat
  runBoundary h o.imm none [] noTrap
    (fun s1 _ =>
      let i := s1.cur.sheaf
      let p := s1.cur.lanes
      let ph := ((s1.ctm).bar b).ph
      let s2 := s1.finishBoundary.updSheaf i (fun x => x.await ((Mask.list p).map (fun l => (l, .bar b ph))))
      s2.arrive i b p) s

/-- R284: each lane waits until PH differs from bit 0 of its p. -/
def execBarq (h : Hd) (o : Opn) (m : BitVec 8) (s : State) : Outcome :=
  let b := m.toNat
  let p := (srcAny 2 o.sa false .n32).only (selIsV o.sa || selIsS o.sa || o.sa.isImm || (match o.sa with | .special _ => true | _ => false))
  runBoundary h o.imm none [p] noTrap
    (fun s1 _ =>
      let i := s1.cur.sheaf
      let s2 := s1.finishBoundary.updSheaf i (fun x =>
        x.await ((Mask.list s1.cur.lanes).map (fun l => (l, .bar b (decide ((s1.rd o.imm false p l).bits % 2 = 1))))))
      s2.settleBars i) s

/-! Extended blocks (R26, R27, R285). -/

/-- The quadrant of a sheaf, counted over both cores of a pair. -/
def Team.quadOf (t : Team) (x : Sheaf) : Nat := x.quad + (if x.core = t.core then 0 else 4)

/-- Free blocks of a quadrant's reservation. -/
def State.freeBlocks (s : State) (t q : Nat) : Nat :=
  let tm := s.team t
  tm.hdr.xpool - ((s.sheaves.filter (fun p => p.2.team = t && tm.quadOf p.2 = q)).map (fun p => (Mask.count (p.2.ext.setWidth 64)))).sum

/-- Registers of the blocks of a mask. -/
def blockRegs (m : BitVec 4) : List Nat := (List.range 64).filterMap (fun k => if m.getLsbD (k / 16) then some (192 + k) else none)

/-- Drop the contents of blocks: they read 0, with bound 0 and tag RAW. -/
def Regs.zeroBlocks (r : Regs) (m : BitVec 4) : Regs := { r with v := r.v.filter (fun p => !(blockRegs m).contains p.1) }

def Sheaf.zeroBlocks (x : Sheaf) (m : BitVec 4) : Sheaf :=
  { x with regs := x.regs.zeroBlocks m, chunks := x.chunks.map (fun c => { c with ckpt := c.ckpt.zeroBlocks m }) }

/-- Give a sheaf blocks. -/
def Sheaf.takeBlocks (x : Sheaf) (m : BitVec 4) : Sheaf := { x.zeroBlocks m with ext := x.ext ||| m }

/-- End the waits of a kind that a sheaf's lanes hold in the handler's saved state (R292, R294). -/
def Sheaf.wakeSaved (x : Sheaf) (f : Wait → Bool) : Sheaf := { x with savedWaits := x.savedWaits.filter (fun w => !f w.2) }

/-- Serve the oldest waiting XACQ of a reservation if its blocks are free (R285): the lanes of that request alone go on. A wait that a
handler entry has saved keeps its place, and ends as well (R292). DESIGN CHOICE (log 109): a request that names a block its sheaf has
come to hold since, by a request of its other path, waits until that block is returned. -/
def State.grantXacq (s : State) (t q : Nat) : Option State :=
  let tm := s.team t
  match tm.xq.find? (fun e => tm.quadOf (s.sheaf e.1) = q) with
  | some (i, m, n) =>
    if Mask.count (m.setWidth 64) ≤ s.freeBlocks t q ∧ (s.sheaf i).ext &&& m = 0 then
      some ((s.updTeam t (fun y => { y with xq := y.xq.erase (i, m, n) })).updSheaf i (fun x =>
        ((x.takeBlocks m).wakeIf (fun w => w = .xacq m n)).wakeSaved (fun w => w = .xacq m n)))
    else none
  | none => none

def execXacq (h : Hd) (o : Opn) (m : BitVec 8) (s : State) : Outcome :=
  let k : BitVec 4 := m.extractLsb' 0 4
  runBoundary h o.imm none []
    (fun s1 _ =>
      if s1.csh.ext &&& k ≠ 0 ∨ s1.ctm.hdr.xpool < Mask.count (k.setWidth 64) then
        some { cause := cXREG, check := 9, lanes := s1.cur.lanes }
      else none)
    (fun s1 _ =>
      let i := s1.cur.sheaf
      let t := s1.csh.team
      let q := s1.ctm.quadOf s1.csh
      let n := s1.nextId
      let s2 := s1.finishBoundary.updSheaf i (fun x => x.await ((Mask.list s1.cur.lanes).map (fun l => (l, .xacq k n))))
      let s3 := { s2.updTeam t (fun y => { y with xq := y.xq ++ [(i, k, n)] }) with nextId := n + 1 }
      (s3.grantXacq t q).getD s3) s

def execXrel (h : Hd) (o : Opn) (m : BitVec 8) (s : State) : Outcome :=
  let k : BitVec 4 := m.extractLsb' 0 4
  runBoundary h o.imm none []
    (fun s1 _ => if k &&& ~~~s1.csh.ext ≠ 0 then some { cause := cXREG, check := 9, lanes := s1.cur.lanes } else none)
    (fun s1 _ =>
      let s2 := s1.updSheaf s1.cur.sheaf (fun x => { x.zeroBlocks k with ext := x.ext &&& ~~~k })
      s2.finishBoundary) s

/-! Counters (R251, R268). -/

def selC (x : Sel) : Option Nat := match x with | .c n => some n.toNat | _ => none
def Team.ctr (t : Team) (c : Nat) : Counter := SMap.getD t.ctrs c {}

/-- Is a counter wait's condition met? -/
def ctrMet (t : Team) (w : Wait) : Bool :=
  match w with
  | .wtc c n => decide (n ≤ (t.ctr c).done)
  | .wto c k => decide ((t.ctr c).issued - (t.ctr c).done ≤ k)
  | _ => false

/-- Wake the counter waits whose condition holds. -/
def State.wakeCounters (s : State) (i : Nat) : State :=
  let t := s.team (s.sheaf i).team
  s.updSheaf i (fun x => x.wakeIf (ctrMet t))

def counterWait (wait : Nat → Nat → Wait) (h : Hd) (o : Opn) (s : State) : Outcome :=
  let n := (srcTy 3 o.sb .n64).only (selIsS o.sb || o.sb = .imm)
  let c := (selC o.sa).getD 0
  runBoundary h o.imm none [fieldOk 2 (selC o.sa).isSome, n] noTrap
    (fun s1 a =>
      let i := s1.cur.sheaf
      let w := wait c (s1.rd o.imm false n (s1.readLane a)).bits
      (s1.finishBoundary.updSheaf i (fun x => x.await ((Mask.list s1.cur.lanes).map (fun l => (l, w))))).wakeCounters i) s

def execWtc (h : Hd) (o : Opn) (_m : BitVec 8) (s : State) : Outcome := counterWait .wtc h o s
def execWto (h : Hd) (o : Opn) (_m : BitVec 8) (s : State) : Outcome := counterWait .wto h o s

/-- Change a counter: every chunk of the team that has read it is squashed (R247). -/
def State.setCtr (s : State) (t c : Nat) (x : Counter) : State :=
  if x = (s.team t).ctr c then s
  else
    let s1 := s.updTeam t (fun m => { m with ctrs := SMap.set m.ctrs c x })
    (s1.sheavesOf t).foldl (fun a i => a.squashIf i (fun k => k.coreReads.contains (.ctr t c))) s1

/-! Queues (R246, R247). -/

/-- Is another queue register bound to the endpoint, or is the endpoint that q names in use (R246)? -/
def State.qbindTrap (s : State) (q ep : Nat) : Bool :=
  let r := s.rregs
  let cur := r.boundTo q
  let e := s.csh.endpoint cur
  (ep ≠ 0 && (List.range 16).any (fun k => k ≠ q && r.boundTo k = ep))
    || (cur ≠ 0 && (!e.entries.isEmpty || s.csh.heldPushes cur ≠ 0
        || s.csh.chunks.any (fun c => SMap.getD c.pops cur 0 ≠ 0)))

def execQbind (h : Hd) (o : Opn) (m : BitVec 8) (s : State) : Outcome :=
  let q := match o.d with | .q n => n.toNat | _ => 0
  runOp h o.imm none [fieldOk 1 (selIsQ o.d)]
    (fun s1 _ => if s1.qbindTrap q m.toNat then some { cause := cQUEUE, check := 9, lanes := s1.cur.lanes, opnd := 1 } else none)
    (fun s1 _ =>
      (s1.updSheaf s1.cur.sheaf (fun x => { x with regs := { x.regs with qbind := SMap.setC x.regs.qbind q 0 m.toNat } })).finish h) s

def execQstat (h : Hd) (o : Opn) (m : BitVec 8) (s : State) : Outcome :=
  let w64 : Bool := m ≠ 0
  let ok := if w64 then (selC o.sa).isSome else selIsQ o.sa
  let c := (selC o.sa).getD 0
  let q := match o.sa with | .q n => n.toNat | _ => 0
  runOp h o.imm (some { dstD o w64 with queueOk := false, anyScalar := true }) [fieldOk 2 ok] noTrap
    (fun s1 a =>
      let ep := s1.rregs.boundTo q
      let e := s1.csh.endpoint ep
      let x := s1.ctm.ctr c
      let v := if m = 0 then (if epReads ep then e.avail else e.entries.length) + 32 * ep else if m = 1 then x.done else x.issued
      let note := fun (k : Chunk) => if w64 then k.addRead (.ctr s1.csh.team c) true else k
      if s1.linesFull note then s1.closeBefore
      else ((s1.updOpen note).wrD h o.d w64 (if w64 then .n64 else .n32) a (fun _ => (v % 2 ^ 64, .zero))).finish h) s

/-! Device-side launch (R286). -/

/-- DEDUCED (log 43). -/
def execLnch (h : Hd) (o : Opn) (m : BitVec 8) (s : State) : Outcome :=
  let a := (srcTy 2 o.sa .n64).only (selIsV o.sa || selIsS o.sa)
  let va := fun (s1 : State) (l : Nat) => (s1.rd o.imm false a l).bits
  if !s.feat 0 7 then .next (s.raise { cause := cILLOP, check := 3, lanes := s.cur.lanes })
  else
    runOp h o.imm none [a]
      (fun s1 act =>
        let bad := Mask.of 64 (fun l => Mask.has act l && decide (va s1 l % 64 ≠ 0))
        if bad = 0 then none
        else some { cause := cALIGN, check := 9, lanes := bad, addr := BitVec.ofNat 64 (lowestAddr bad (va s1)), akind := 1 })
      (fun s1 act =>
        let full := match s1.csh.openChunk? with | some c => decide (Config.chunkLnch ≤ c.lnch) && !s1.afterNw | none => false
        if act ≠ 0 && full then s1.closeBefore
        else
          let hs := (Mask.list act).map (fun l => Held.lnch (va s1 l) m.toNat)
          (s1.updOpen (fun c => { hs.foldl Chunk.hold c with lnch := c.lnch + (if act = 0 then 0 else 1) })).finish h) s

end Sys2Proof.Machine
end

