-- ==== Sys2Proof/Machine/System.lean ====
section
/-! DEFINITION. System instructions (R296 to R300). -/

namespace Sys2Proof.Machine

/-- A trap on purpose (R297): the lanes whose guard is true, with ICODE. -/
def softTrap (c : Nat) (o : Opn) (a : Mask) : Option Trap :=
  if a = 0 then none else some { cause := c, check := 9, lanes := a, icode := o.imm }

/-- R297: raised at the chunk boundary; without an active lane no effect. -/
def execTrap (h : Hd) (o : Opn) (_m : BitVec 8) (s : State) : Outcome :=
  runBoundary h o.imm none [] noTrap
    (fun s1 a => match softTrap cSWTRAP o a with | some t => s1.raise t | none => s1.finishBoundary) s

/-- R297: the chunk is truncated at the instruction. -/
def execBkpt (h : Hd) (o : Opn) (_m : BitVec 8) (s : State) : Outcome :=
  runOp h o.imm none [] (fun _ a => softTrap cBKPT o a) (fun s1 _ => s1.finish h) s

/-- R298: once the handler's chunks have committed, the lanes return; waits whose condition holds by then end. DEDUCED (log 48). -/
def execEret (h : Hd) (o : Opn) (m : BitVec 8) (s : State) : Outcome :=
  runBoundary h o.imm none []
    (fun s1 _ => if s1.csh.hm then none else some { cause := cILLOP, check := 9, lanes := s1.cur.lanes })
    (fun s1 _ =>
      let i := s1.cur.sheaf
      let s2 := s1.returnFromHandler (m.getLsbD 0)
      if (SMap.get? s2.sheaves i).isSome then s2.settleBars i else s2) s

/-- The value of a system register (R299). -/
def State.sysReg (s : State) (n : Nat) : Option W64 :=
  let x := s.csh
  let t := s.ctm
  let l := s.launch t.launch
  match n with
  | 0x000 => some x.frame.cause
  | 0x001 => some x.frame.epc
  | 0x002 => some x.frame.addr
  | 0x003 => some x.frame.lanes
  | 0x004 => some x.frame.info
  | 0x010 => some (BitVec.ofNat 64 l.argp)
  | 0x011 => some (BitVec.ofNat 64 l.imgb)
  | 0x012 => some (BitVec.ofNat 64 l.kobj)
  | 0x020 => some (s.live s.cur.sheaf)
  | 0x021 => some (s.allow.setWidth 64)
  | 0x030 => some (if s.trusted t.ctx then 1 else 0)
  | 0x031 => some (BitVec.ofNat 64 (s.diesMask t.ctx))
  | 0x040 => some (if t.preq then 1 else 0)
  | 0x041 => some (if x.regs.routine then BitVec.ofNat 64 t.savea else 0)
  | _ => none

/-- The number of a system register. -/
def sysNum (o : Opn) : Nat := bitsAt o.imm.toNat 11 0

/-- R299. -/
def execSrd (h : Hd) (o : Opn) (_m : BitVec 8) (s : State) : Outcome :=
  runBoundary h o.imm (some { dstD o true with queueOk := false, anyScalar := true }) []
    (fun s1 a =>
      if (s1.sysReg (sysNum o)).isNone then
        some { cause := cILLOPND, check := 9, lanes := if a = 0 then s1.cur.lanes else a }
      else none)
    (fun s1 a =>
      let v := (s1.sysReg (sysNum o)).getD 0
      (s1.wrD h o.d true .n64 a (fun _ => (v.toNat, .zero))).finishBoundary) s

/-- The bits of TCAUSE and TEPC that are not reserved (R291); a write of the others is dropped (R5). DEDUCED (log 47). -/
def frameMask (n : Nat) : W64 := if n = 0 then 0x3F0FF else 0x00FFFFFFFFFFFFFF

/-- R299. -/
def execSwr (h : Hd) (o : Opn) (_m : BitVec 8) (s : State) : Outcome :=
  let x := (srcAny 2 o.sa true .n64).only (selIsS o.sa)
  let n := sysNum o
  runBoundary h o.imm none [x]
    (fun s1 _ => if n ≤ 1 ∧ s1.csh.hm then none else some { cause := cILLOPND, check := 9, lanes := s1.cur.lanes })
    (fun s1 a =>
      let v := BitVec.ofNat 64 (s1.rd o.imm false x (s1.readLane a)).bits &&& frameMask n
      (s1.updSheaf s1.cur.sheaf (fun y =>
        { y with frame := if n = 0 then { y.frame with cause := v } else { y.frame with epc := v } })).finishBoundary) s

/-- The cycle counter of a core (R300). DESIGN CHOICE (log 9). -/
def State.clk (s : State) (core : Nat) : W64 := BitVec.ofNat 64 s.cycle + Config.clkAhead core

/-- R300. -/
def execClk (h : Hd) (o : Opn) (_m : BitVec 8) (s : State) : Outcome :=
  runOp h o.imm (some { dstD o true with queueOk := false, anyScalar := true }) [] noTrap
    (fun s1 a => (s1.wrD h o.d true .n64 a (fun _ => ((s1.clk s1.csh.core).toNat, .zero))).finish h) s

/-- R300: each active lane waits n cycles; the chunk stays open. DEDUCED (log 46). -/
def execSleep (h : Hd) (o : Opn) (_m : BitVec 8) (s : State) : Outcome :=
  let n := bitsAt o.imm.toNat 15 0
  runOp h o.imm none [] noTrap
    (fun s1 a =>
      (s1.finish h).updSheaf s1.cur.sheaf (fun x => x.await ((Mask.list a).map (fun l => (l, .sleep (s1.cycle + n)))))) s

/-- End the wait of a sleeping lane: it is eligible at once. -/
def Sheaf.endSleep (x : Sheaf) (l : Nat) : Sheaf := { x with waits := SMap.erase x.waits l }

end Sys2Proof.Machine
end

