-- ==== Sys2Proof/Machine/Engine.lean ====
section
/-! DEFINITION. Engine instructions as they issue (R248 to R267): what each captures and checks, and SPCMP (R263). A command is held
by the open chunk until it commits. -/

namespace Sys2Proof.Machine

/-! Operands. -/

/-- A scalar of which bits [19:0] are a scratchpad offset, or whose bits [31:0] are a value. -/
def scalar32 (fld : Nat) (x : Sel) : Src := (srcAny fld x false .n32).only (selIsS x)
/-- A scalar that holds a 64-bit virtual address. -/
def scalar64 (fld : Nat) (x : Sel) : Src := (srcAny fld x true .n64).only (selIsS x)

/-- The 32 bits of a scalar operand. -/
def State.cap32 (s : State) (a : Src) : Nat := (s.rd 0 false a (s.readLane 0)).bits % 2 ^ 32
def State.capOfs (s : State) (a : Src) : Nat := s.cap32 a % 2 ^ 20

/-- A trap of an engine instruction: of no lane's own, so every lane of the path is recorded. -/
def State.engTrap (s : State) (c : Nat) (opnd : Nat := 0) : Option Trap :=
  some { cause := c, check := 9, lanes := s.cur.lanes, opnd := opnd }

/-- ALIGN or REGION of a scratchpad offset (R168, R248). -/
def State.ofsTrap (s : State) (ofs align bytes : Nat) : Option Trap :=
  if ofs % align ≠ 0 then some { cause := cALIGN, check := 9, lanes := s.cur.lanes, addr := BitVec.ofNat 64 ofs, akind := 2 }
  else if s.ctm.spBad ofs bytes then
    some { cause := cREGION, check := 9, lanes := s.cur.lanes, addr := BitVec.ofNat 64 ofs, akind := 2 }
  else none

/-- The first of several causes. -/
def firstTrap : List (Option Trap) → Option Trap
  | [] => none
  | none :: r => firstTrap r
  | some t :: _ => some t

/-- ILLOPND of a tile at or beyond the header's count, or odd where a pair is required (R248). -/
def State.tileTrap (s : State) (tile : Nat) (pair : Bool) : Option Trap :=
  if s.ctm.hdr.acc ≤ tile + (if pair then 1 else 0) || (pair && tile % 2 = 1) then s.engTrap cILLOPND else none

/-- QUEUE of a queue register not bound to the endpoint a field requires (R242). -/
def State.bindTrap (s : State) (x : Sel) (ep fld : Nat) : Option Trap :=
  match x with
  | .q n => if s.rregs.boundTo n.toNat = ep then none else s.engTrap cQUEUE fld
  | _ => none

/-- Hold a command in the open chunk, with what the chunk notes of it; a 17th closes the chunk first, but for one right after an NW
producer (R94, R245, R248). -/
def State.holdCmd (s : State) (h : Hd) (note : Chunk → Chunk) (c : Cmd) : State :=
  let full : Bool := match s.csh.openChunk? with | some k => decide (Config.chunkCmds ≤ k.cmds) && !s.afterNw | none => false
  if full || s.linesFull note then s.closeBefore
  else (s.updOpen (fun k => { (note k).hold (.cmd c) with cmds := k.cmds + 1 })).finish h

/-- What every command captures. -/
def State.newCmd (s : State) (k : CmdKind) (tile : Nat) (link ctr : Option Nat) : Cmd :=
  { sheaf := s.cur.sheaf, pc := s.cur.pc, allow := s.allow, kind := k, tile := tile, link := link, ctr := ctr }

def optIf (b : Bool) (n : Nat) : Option Nat := if b then some n else none

/-! MMA and CPYM (R252 to R255, R267). -/

/-- Bytes of a fragment (R252). -/
def fragBytes (t : Ty) : Nat := if t = .f6hi then 768 else 1024

/-- The scale operands (R254): the register pair's word and bound of lanes 0 to 15, and S. -/
def scaleSrcs (o : Opn) : List Src :=
  if o.imm.getLsbD 16 then
    [(srcAny 4 o.sc true .n64).only (selIsV o.sc), { srcTy 0 (.s (BitVec.ofNat 6 (immBits o 15 10))) .f32 with fld := 0 }]
  else []

def State.capScales (s : State) (o : Opn) : Option Scales :=
  if !o.imm.getLsbD 16 then none
  else
    let n := match o.sc with | .v n => n.toNat | _ => 0
    let r := s.rregs
    let words := fun (k : Nat) => (List.range 16).map (fun l => BitVec.ofNat 32 (r.vVal32 k l))
    let bnds := fun (k : Nat) => (List.range 16).map (fun l => (r.vBnd32 k l).eb16)
    let v := s.rd o.imm false (srcTy 0 (.s (BitVec.ofNat 6 (immBits o 15 10))) .f32) 0
    let sup : W32 := BitVec.ofNat 32 v.bits
    some { cb := words n, cbBnd := bnds n, ca := words (n + 1), caBnd := bnds (n + 1), sup := sup, supBnd := v.bnd.eb32,
           bsel := immBits o 9 8 }

/-- A fragment operand: a queue register, other than the one that an earlier source `y` names (R88), or a scalar. -/
def fragSrcs (fld : Nat) (x : Sel) (y : Option Sel := none) : List Src := [if selIsQ x then fieldOk fld (y ≠ some x) else scalar32 fld x]

def State.fragTrap (s : State) (x : Sel) (ep fld bytes : Nat) : Option Trap :=
  if selIsQ x then s.bindTrap x ep fld else s.ofsTrap (s.capOfs (scalar32 fld x)) 64 bytes

def State.capFrag (s : State) (x : Sel) (fld : Nat) : FragSrc :=
  if selIsQ x then .queue else .sp (s.capOfs (scalar32 fld x))

/-- Does a command fill, or take, the gather latch? -/
def CmdKind.isGath (k : CmdKind) : Bool := match k with | .gath _ _ _ => true | _ => false
def CmdKind.takesLatch (k : CmdKind) : Bool := match k with | .mma a => a.a = .latch | _ => false

/-- The engine commands of a sheaf, held or released and not complete. -/
def State.cmdsOf (s : State) (i : Nat) : List CmdKind :=
  let x := s.sheaf i
  (x.chunks.flatMap (fun c => c.held.filterMap (fun h => match h with | .cmd k => some k.kind | _ => none)))
    ++ ((s.team x.team).cmds.filter (fun c => c.sheaf = i && c.stage ≠ .done)).map (·.kind)

/-- Is a GATH of the sheaf waiting for an MMA to consume it (R255, R262)? DEDUCED (log 34). -/
def State.gathWaiting (s : State) (i : Nat) : Bool :=
  let x := s.sheaf i
  let ks := s.cmdsOf i
  let latched : Bool := match SMap.get? (s.core x.core).gather x.quad with | some g => decide (g.sheaf = i) | none => false
  decide ((ks.filter CmdKind.takesLatch).length < (ks.filter CmdKind.isGath).length + (if latched then 1 else 0))

/-- What an MMA captures. -/
def State.capMma (s : State) (o : Opn) (m : BitVec 8) (a : FragSrc) : MmaArgs :=
  { ty := Ty.ofCode (m.extractLsb' 4 4), uc := UClass.ofCode (m.extractLsb' 2 2), sat := m.getLsbD 1, z := m.getLsbD 0
    a := a, b := s.capFrag o.sb 3, scales := s.capScales o }

def mmaTile (o : Opn) : Nat := immBits o 7 0
def mmaLink (o : Opn) : Option Nat := optIf (o.imm.getLsbD 18) (immBits o 22 19)
def mmaCtr (o : Opn) : Option Nat := optIf (o.imm.getLsbD 23) (immBits o 27 24)

def execMma (h : Hd) (o : Opn) (m : BitVec 8) (s : State) : Outcome :=
  let t := Ty.ofCode (m.extractLsb' 4 4)
  let ga := o.imm.getLsbD 17
  runOp h o.imm none ((if ga then [] else fragSrcs 2 o.sa) ++ fragSrcs 3 o.sb (if ga then none else some o.sa) ++ scaleSrcs o)
    (fun s1 _ => firstTrap
      [ s1.tileTrap (mmaTile o) (t = .f64),
        if ga then (if s1.gathWaiting s1.cur.sheaf then none else s1.engTrap cQUEUE) else s1.fragTrap o.sa 1 2 (fragBytes t),
        s1.fragTrap o.sb 2 3 (fragBytes t) ])
    (fun s1 _ => s1.holdCmd h id (s1.newCmd (.mma (s1.capMma o m (if ga then .latch else s1.capFrag o.sa 2))) (mmaTile o) (mmaLink o) (mmaCtr o))) s

/-! MZERO, MLOAD, MDRAIN (R258, R259). -/

def fillLink (o : Opn) : Option Nat := optIf (o.imm.getLsbD 13) (immBits o 17 14)
def fillCtr (o : Opn) : Option Nat := optIf (o.imm.getLsbD 8) (immBits o 12 9)

def execMzero (h : Hd) (o : Opn) (m : BitVec 8) (s : State) : Outcome :=
  let t := Ty.ofCode (m.extractLsb' 4 4)
  runOp h o.imm none [] (fun s1 _ => s1.tileTrap (mmaTile o) (t = .f64))
    (fun s1 _ => s1.holdCmd h id (s1.newCmd (.mzero t) (mmaTile o) (fillLink o) (fillCtr o))) s

def execMload (h : Hd) (o : Opn) (m : BitVec 8) (s : State) : Outcome :=
  let t := Ty.ofCode (m.extractLsb' 4 4)
  let gl := m.getLsbD 0
  let a := if gl then scalar64 2 o.sa else scalar32 2 o.sa
  let addr := fun (s1 : State) => if gl then (s1.rd 0 false a (s1.readLane 0)).bits % 2 ^ 56 else s1.capOfs a
  runOp h o.imm none [a]
    (fun s1 _ => firstTrap
      [ s1.tileTrap (mmaTile o) (t = .f64),
        if gl then
          (if addr s1 % 128 ≠ 0 then
            some { cause := cALIGN, check := 9, lanes := s1.cur.lanes, addr := BitVec.ofNat 64 (addr s1), akind := 1 } else none)
        else s1.ofsTrap (addr s1) 128 (if t = .f64 then 2048 else 1024) ])
    (fun s1 _ => s1.holdCmd h id (s1.newCmd (.mload t gl (addr s1)) (mmaTile o) (fillLink o) (fillCtr o))) s

/-- Bytes of an output element (R259). -/
def drainElem (t : Ty) : Nat :=
  match t with | .f64 => 8 | .f16x2 | .bf16x2 => 2 | .e4m3x4 | .e5m2x4 | .i8x4 | .n8x4 => 1 | _ => 4

/-- Bytes from one row to the next (R260). -/
def drainPitch (t : Ty) (pitch : Nat) : Nat := if pitch = 0 then 16 * drainElem t else 16 * pitch

def execMdrain (h : Hd) (o : Opn) (m : BitVec 8) (s : State) : Outcome :=
  let t := Ty.ofCode (m.extractLsb' 4 4)
  let kind := (m.extractLsb' 0 2).toNat
  let pitch := immBits o 25 16
  let dst : Src := if kind = 2 then fieldOk 2 (selIsQ o.sa) else if kind = 1 then scalar64 2 o.sa else scalar32 2 o.sa
  let rb := o.imm.getLsbD 9
  let scaled := o.imm.getLsbD 8
  let sc := (srcTy 4 o.sc .f32).only (selIsS o.sc)
  let addr := fun (s1 : State) => if kind = 2 then 0 else if kind = 1 then (s1.rd 0 false dst (s1.readLane 0)).bits % 2 ^ 56 else s1.capOfs dst
  let rec' := fun (s1 : State) => s1.capOfs (scalar32 3 o.sb)
  runOp h o.imm none ([dst] ++ (if rb then [scalar32 3 o.sb] else []) ++ (if scaled then [sc] else []))
    (fun s1 _ => firstTrap
      [ s1.tileTrap (mmaTile o) (t = .f64),
        if kind = 2 then s1.bindTrap o.sa 3 2 else none,
        if pitch ≠ 0 ∧ (kind = 2 ∨ 16 * pitch < 16 * drainElem t) then s1.engTrap cILLOPND else none,
        if kind = 1 then
          (if addr s1 % 16 ≠ 0 then
            some { cause := cALIGN, check := 9, lanes := s1.cur.lanes, addr := BitVec.ofNat 64 (addr s1), akind := 1 } else none)
        else if kind = 0 then s1.ofsTrap (addr s1) 16 (15 * drainPitch t pitch + 16 * drainElem t) else none,
        if rb then s1.ofsTrap (rec' s1) 64 (if t = .f64 then 64 else 32) else none ])
    (fun s1 _ =>
      let v := s1.rd o.imm false sc (s1.readLane 0)
      let d : DrainArgs := { ty := t, rm := Rm.ofCode (m.extractLsb' 2 2), kind := kind, dst := addr s1, pitch := drainPitch t pitch, record := (if rb then some (rec' s1) else none), scale := (if scaled then some (BitVec.ofNat 32 v.bits, v.bnd.eb32) else none) }
      let c := s1.newCmd (.mdrain d) (mmaTile o) (optIf (o.imm.getLsbD 26) (immBits o 30 27)) (optIf (o.imm.getLsbD 11) (immBits o 15 12))
      s1.holdCmd h id { c with rel := o.imm.getLsbD 10 }) s

/-! GATH (R262). -/

/-- DESIGN CHOICE (log 121): poison of the scalar that gives a command's address or offset is dropped. -/
def execGath (h : Hd) (o : Opn) (_m : BitVec 8) (s : State) : Outcome :=
  let ix : Src := if selIsQ o.sb then fieldOk 3 true else (srcTy 3 o.sb .n32).only (selIsV o.sb)
  runOp h o.imm none [scalar32 2 o.sa, ix]
    (fun s1 _ => firstTrap
      [ s1.bindTrap o.sb 4 3,
        s1.ofsTrap (s1.capOfs (scalar32 2 o.sa)) 64 64,
        if s1.gathWaiting s1.cur.sheaf then s1.engTrap cQUEUE else none ])
    (fun s1 _ =>
      let idx := (List.range 16).map (fun l => let v := s1.rd o.imm false ix l; (v.bits, v.bnd.poi))
      s1.holdCmd h id (s1.newCmd (.gath (s1.capOfs (scalar32 2 o.sa)) (immBits o 15 0) (if selIsQ o.sb then none else some idx)) 0 none none)) s

/-! SPCMP (R263). -/

/-- The rank of an element: NaNs above every number. -/
def spRank (t : Ty) (b : Nat) : Option Rat :=
  if t = .i8x4 then some (((sInt 8 b).natAbs : Nat) : Rat)
  else match (eFmt t).decode b with
    | .nan => none
    | .inf _ => some ((eFmt t).maxFin + 1)
    | .fin _ q => some q

/-- Does element i of higher index rank above j? Ties keep the lower index. -/
def spAbove (a b : Option Rat) : Bool :=
  match a, b with
  | none, none => false
  | none, some _ => true
  | some _, none => false
  | some p, some q => decide (q < p)

/-- The indices in order of rank. -/
def spOrder (rs : List (Option Rat)) : List Nat :=
  (List.range rs.length).foldl (fun acc i =>
    let p := acc.takeWhile (fun j => !spAbove (rs.getD i none) (rs.getD j none))
    p ++ i :: acc.drop p.length) []

/-- The largest |dropped element|, infinite where a NaN is among all. -/
def spMag (t : Ty) (b : Nat) : X :=
  if t = .i8x4 then some (((sInt 8 b).natAbs : Nat) : Rat)
  else match (eFmt t).decode b with | .nan => none | .inf _ => none | .fin _ q => some q

/-- Keep two of four elements, or one: the kept bits, the metadata, the bound. -/
def spKeep (t : Ty) (one : Bool) (els : List Nat) (bx : Bnd) : Nat × Nat × Nat × Bnd :=
  let ord := spOrder (els.map (spRank t))
  let kept := sortBy id (ord.take (if one then 1 else 2))
  let i := kept.getD 0 0
  let j := if one then i else kept.getD 1 0
  let lost := els.any (fun b => (spRank t b).isNone)
  let drop := ((List.range 4).filter (fun k => !kept.contains k)).foldl (fun a k => xmax a (spMag t (els.getD k 0))) (some 0)
  (els.getD i 0, if one then 0 else els.getD j 0, i + 4 * j, mkBnd [bx] lost (xadd bx.x drop))

/-- DEDUCED (log 61). DESIGN CHOICE (log 127): of a 16-bit type the latch takes one 64-bit entry with the tag of the elements. -/
def execSpcmp (h : Hd) (o : Opn) (m : BitVec 8) (s : State) : Outcome :=
  let t := Ty.ofCode (m.extractLsb' 4 4)
  let one := m.getLsbD 0
  let pair : Bool := t = .f16x2 || t = .bf16x2
  let d : Dst := { dstD o pair with scalarOk := false }
  let x : Src := if pair then ⟨2, o.sa, true, .ty t [], t, true⟩ else srcTy 2 o.sa t
  let w := if pair then 16 else 8
  runOp h o.imm (some d) [x] noTrap
    (fun s1 a =>
      let s2 := s1.popAll [x]
      let r := fun (l : Nat) =>
        let v := s1.rd o.imm (d16Of o.d pair) x l
        spKeep t one ((List.range 4).map (fun k => v.bits / 2 ^ (w * k) % 2 ^ w)) v.bnd
      let lo := fun (l : Nat) => ((r l).1 + (r l).2.1 * 2 ^ w, s1.bnd (r l).2.2.2)
      if pair then
        let md := fun (l : Nat) => ((r l).2.2.1, if (r l).2.2.2.poi then Bnd.poison else .zero)
        let both := fun (l : Nat) => ((lo l).1 + 2 ^ 32 * (r l).2.2.1, (r l).2.2.2)
        match o.d with
        | .v n =>
          let s3 := if h.nw then s2 else (s2.putD (.v n) false t a lo).putD (.v (n + 1)) false .n32 a md
          (s3.pushLatch o.d h.nw true t a (fun l => (((both l).1), s1.bnd (both l).2)) s1.csh.regs).finish h
        | _ => (s2.wrD h o.d true t a both).finish h
      else
        (s2.wrD h o.d false .raw a (fun l => ((lo l).1 + (r l).2.2.1 * 2 ^ 16, (r l).2.2.2))).finish h) s

/-! CPY and CPYM (R264 to R267). -/

/-- A shape record as it is encoded. -/
structure RawShape where
  bits : Nat
  deriving DecidableEq, Repr

def RawShape.at' (r : RawShape) (hi lo : Nat) : Nat := bitsAt r.bits hi lo
def RawShape.ndim (r : RawShape) : Nat := r.at' 217 215
def RawShape.esz (r : RawShape) : Nat := r.at' 214 212
def RawShape.ext (r : RawShape) (d : Nat) : Nat := r.at' (139 + 12 * d) (128 + 12 * d)
def RawShape.sstr (r : RawShape) (d : Nat) : Nat := r.at' (247 + 24 * (d - 1)) (224 + 24 * (d - 1))
def RawShape.dstr (r : RawShape) (d : Nat) : Nat := r.at' (391 + 24 * (d - 1)) (368 + 24 * (d - 1))
def RawShape.saddr (r : RawShape) : Nat := r.at' 55 0
def RawShape.daddr (r : RawShape) : Nat := r.at' 119 64
def RawShape.ssp (r : RawShape) : Nat := r.at' 57 56
def RawShape.dsp (r : RawShape) : Nat := r.at' 121 120
def RawShape.bh (r : RawShape) : Nat := r.at' 219 218

/-- The ILLOPND cases of R264. -/
def RawShape.bad (r : RawShape) : Bool :=
  r.at' 223 220 ≠ 0 || r.at' 127 122 ≠ 0 || r.at' 63 58 ≠ 0 || decide (2 ≤ r.bh) || decide (2 ≤ r.ssp) || decide (2 ≤ r.dsp)
  || r.ndim = 7 || decide (4 < r.esz)
  || (List.range 7).any (fun d => decide (r.ndim < d) && (r.ext d ≠ 0 || r.sstr d ≠ 0 || r.dstr d ≠ 0))
  || (r.ssp = 1 && decide (2 ^ 20 ≤ r.saddr)) || (r.dsp = 1 && decide (2 ^ 20 ≤ r.daddr))

def RawShape.shape (r : RawShape) : Shape :=
  { saddr := r.saddr, ssp := r.ssp = 1, daddr := r.daddr, dsp := r.dsp = 1
    ext := (List.range (r.ndim + 1)).map (fun d => r.ext d + 1)
    sstr := (List.range r.ndim).map (fun d => sInt 24 (r.sstr (d + 1)))
    dstr := (List.range r.ndim).map (fun d => sInt 24 (r.dstr (d + 1)))
    esz := r.esz, drop := r.bh = 1 }

/-- The index vectors of a shape, dimension 0 fastest. -/
def shapeIdx : List Nat → List (List Nat)
  | [] => [[]]
  | n :: r => (shapeIdx r).flatMap (fun t => (List.range n).map (fun i => i :: t))

/-- The offset of an element from its base, in elements. -/
def shapeOfs (strides : List Int) (ix : List Nat) : Int :=
  match ix with
  | [] => 0
  | i :: r => (i : Int) + (List.zipWith (fun (k : Nat) (st : Int) => (k : Int) * st) r strides).sum

/-- The address of an element: modulo 2^56 in global memory; a scratchpad offset below 0 lies outside every window. -/
def shapeAddr (sp : Bool) (base z : Nat) (o : Int) : Nat :=
  let a : Int := (base : Int) + (z : Int) * o
  if sp then (if a < 0 then 2 ^ 20 else a.toNat) else (a % (2 ^ 56 : Nat)).toNat

/-- The lowest offset of a shape's elements that lies outside the window (R168, R248). -/
def State.shapeOutside (s : State) (base z : Nat) (ext : List Nat) (strides : List Int) : Option Nat :=
  let bad := ((shapeIdx ext).map (fun ix => shapeAddr true base z (shapeOfs strides ix))).filter (fun a =>
    decide (2 ^ 20 ≤ a) || s.ctm.spBad a z)
  bad.foldl (fun m a => match m with | some b => some (min a b) | none => some a) none

/-- The record as the issuing chunk sees it. -/
def State.shapeAt (s : State) (ofs : Nat) : RawShape :=
  let l := s.spLoc ofs
  ⟨leNat (((s.viewLine l.line).bytes.drop l.ofs).take 64)⟩

/-- The causes of a record (R264), and of CPYM's destination (R267). DEDUCED (log 60). -/
def State.shapeTrap (s : State) (ofs : Nat) (cpym : Bool) : Option Trap :=
  match s.ofsTrap ofs 64 64 with
  | some t => some t
  | none =>
    let r := s.shapeAt ofs
    let z := 2 ^ r.esz
    let al := fun (sp a : Nat) (st : List Int) =>
      if a % z ≠ 0 then
        some ({ cause := cALIGN, check := 9, lanes := s.cur.lanes, addr := BitVec.ofNat 64 a, akind := if sp = 1 then 2 else 1 } : Trap)
      else if sp = 1 then
        (s.shapeOutside a z r.shape.ext st).map (fun b =>
          { cause := cREGION, check := 9, lanes := s.cur.lanes, addr := BitVec.ofNat 64 b, akind := 2 })
      else none
    firstTrap
      [ if r.bad || (cpym && (r.dsp ≠ 1 || r.daddr % 64 ≠ 0)) then s.engTrap cILLOPND else none,
        al r.ssp r.saddr r.shape.sstr, al r.dsp r.daddr r.shape.dstr,
        if r.bh = 1 && !s.trusted s.ctm.ctx then s.engTrap cILLOP else none ]

def execCpy (h : Hd) (o : Opn) (_m : BitVec 8) (s : State) : Outcome :=
  let fw := o.imm.getLsbD 5
  let crp := o.imm.getLsbD 6
  let r := scalar32 2 o.sa
  let w := scalar32 3 o.sb
  let v := scalar32 4 o.sc
  let rofs := fun (s1 : State) => s1.capOfs r
  runOp h o.imm none
    ((if crp then [fieldOk 1 (selIsQ o.d)] else []) ++ [r] ++ (if fw then [w] else []) ++ (if fw || crp then [v] else []))
    (fun s1 _ => firstTrap
      [ if crp then s1.bindTrap o.d 5 1 else none,
        s1.shapeTrap (rofs s1) false,
        if fw then s1.ofsTrap (s1.capOfs w) 4 4 else none ])
    (fun s1 _ =>
        let note := fun (c : Chunk) => c.noteRead 0 (s1.spLoc (rofs s1))
        let val : W32 := BitVec.ofNat 32 (s1.cap32 v)
        let poi : Bool := (fw || crp) && (s1.rd 0 false v (s1.readLane 0)).bnd.poi
        let k := CmdKind.cpy (s1.shapeAt (rofs s1)).shape (if fw then some (s1.capOfs w, val) else none) (if crp then some val else none) poi
        let c := s1.newCmd k 0 none (optIf (o.imm.getLsbD 4) (immBits o 3 0))
        s1.holdCmd h note c) s

def execCpym (h : Hd) (o : Opn) (m : BitVec 8) (s : State) : Outcome :=
  let t := Ty.ofCode (m.extractLsb' 4 4)
  let r := scalar32 2 o.sa
  let rofs := fun (s1 : State) => s1.capOfs r
  runOp h o.imm none ([r] ++ fragSrcs 3 o.sb ++ scaleSrcs o)
    (fun s1 _ => firstTrap
      [ s1.tileTrap (mmaTile o) (t = .f64),
        s1.shapeTrap (rofs s1) true,
        s1.ofsTrap (s1.shapeAt (rofs s1)).daddr 64 (fragBytes t),
        s1.fragTrap o.sb 2 3 (fragBytes t) ])
    (fun s1 _ =>
        let note := fun (c : Chunk) => c.noteRead 0 (s1.spLoc (rofs s1))
        let sh := (s1.shapeAt (rofs s1)).shape
        let c := s1.newCmd (.cpym sh (s1.capMma o m (.sp sh.daddr))) (mmaTile o) (mmaLink o) (mmaCtr o)
        s1.holdCmd h note c) s

end Sys2Proof.Machine
end

