-- ==== Sys2Proof/Machine/EnginePerf.lean ====
section
/-! DEFINITION. Engines as they perform released commands (R249 to R267): MMA, tile fills, drains, gathers, copies, and their
completion. Whether a command's turn has come is tested first; an event whose turn has not come changes nothing. -/

namespace Sys2Proof.Machine

/-! Commands of a team. -/

def Team.cmd? (t : Team) (id : Nat) : Option Cmd := t.cmds.find? (fun c => c.id = id)
def State.setCmd (s : State) (t : Nat) (c : Cmd) : State :=
  s.updTeam t (fun m => { m with cmds := m.cmds.map (fun k => if k.id = c.id then c else k) })

/-- The tiles a command acts on (R257). A drain of a pair that holds an FP64 accumulator reads both of its tiles, whatever its output
(R260). -/
def Team.tilesOf (t : Team) (c : Cmd) : List Nat :=
  let pair := [c.tile / 2 * 2, c.tile / 2 * 2 + 1]
  match c.kind with
  | .mma a => if a.ty = .f64 then pair else [c.tile]
  | .cpym _ a => if a.ty = .f64 then pair else [c.tile]
  | .mzero t => if t = .f64 then pair else [c.tile]
  | .mload t _ _ => if t = .f64 then pair else [c.tile]
  | .mdrain d => if d.ty = .f64 ∨ (SMap.getD t.tiles c.tile {}).fmt = some .f64 then pair else [c.tile]
  | _ => []

/-- Does a command hold its tiles against those after it: a drain under way, or one that has not released (R257, R261)? -/
def Cmd.owns (c : Cmd) : Bool := match c.kind with | .mdrain _ => (c.stage = .copied || c.rel) | _ => false

/-- Has the command taken its effect on its tile and its queues? -/
def Cmd.acted (c : Cmd) : Bool :=
  match c.kind with
  | .cpym _ _ => false
  | _ => c.stage = .sent || c.stage = .pushing || c.stage = .done

/-- Must `x` come before `y` (R257)? DEDUCED (log 62). -/
def Team.cmdBefore (t : Team) (x y : Cmd) : Bool :=
  decide (x.id < y.id) && (t.tilesOf x).any (fun k => (t.tilesOf y).contains k)
  && ((x.sheaf = y.sheaf && !x.acted) || x.owns
      || (match y.link with | some b => !x.acted && decide (x.phases.getD b 0 < y.epoch) | none => false))

/-- What a command takes: entries of MA, entries of MB, the gather latch, entries of GI. -/
def Cmd.uses (c : Cmd) : Bool × Bool × Bool × Bool :=
  match c.kind with
  | .mma a => (decide (a.a = FragSrc.queue), decide (a.b = FragSrc.queue), decide (a.a = FragSrc.latch), false)
  | .cpym _ a => (false, decide (a.b = FragSrc.queue), false, false)
  | .gath _ _ i => (false, false, true, i.isNone)
  | _ => (false, false, false, false)

/-- Does an earlier command of the sheaf take entries of the same queue, or the gather latch, first? -/
def queueBefore (x y : Cmd) : Bool :=
  let p := x.uses
  let q := y.uses
  decide (x.id < y.id) && x.sheaf = y.sheaf && !x.acted
    && ((p.1 && q.1) || (p.2.1 && q.2.1) || (p.2.2.1 && q.2.2.1) || (p.2.2.2 && q.2.2.2))

/-- May a command be performed now? A drain under way on a tile keeps every other command off it. -/
def Team.turn (t : Team) (c : Cmd) : Bool :=
  (t.status = .resident || t.status = .faulted || t.status = .saving) && !c.stopped
  && !t.cmds.any (fun x => t.cmdBefore x c || queueBefore x c
      || (x.id ≠ c.id && x.stage = .copied && x.owns && (t.tilesOf x).any (fun k => (t.tilesOf c).contains k)))

/-- A drain with REL that has faulted and is not complete (R308). -/
def Cmd.heldDrain (c : Cmd) : Bool := c.rel && c.faulted && (match c.kind with | .mdrain _ => true | _ => false)

/-- Does the partition let a command go on: it runs it, or a switch that is under way waits for a drain (R305, R308)? DEDUCED (log 74). -/
def State.engRuns (s : State) (t : Nat) (c : Cmd) : Bool :=
  s.teamRuns t || (c.heldDrain && decide ((SMap.getD s.parts (s.team t).part {}).ctx = some (s.team t).ctx))

/-- May a command be performed now: its turn has come, and its partition runs it (R305)? -/
def State.engTurn (s : State) (t : Nat) (c : Cmd) : Bool := s.engRuns t c && (s.team t).turn c

/-- The bounds setting of a team (R70, R338). -/
def State.teamBounds (s : State) (t : Nat) : Bool := (s.team t).hdr.bounds && s.feat 0 0
def State.bndOf (s : State) (t : Nat) (b : Bnd) : Bnd := if s.teamBounds t || b.poi then b else .zero

/-- The payload of a command is complete: the completion word follows it, then the pushes or the completion itself (R251, R266). DEDUCED (log 58). -/
def State.afterPayload (s : State) (t : Nat) (c : Cmd) : State :=
  if s.flights.any (fun f => f.cmd = some c.id) then s
  else
    match c.kind with
    | .cpy _ fw crp poi =>
      let w := (s.team t).hdr.width
      let b : Bnd := if poi then .poison else .zero
      let s1 := match fw with
        | some (ofs, v) =>
          let abs := s.spAbs c.sheaf ofs
          let ws := buildWrites [⟨⟨.sp t (abs / 128), abs % 128, ofs, none⟩, 4, [(v.toNat, b)]⟩] false (!s.teamBounds t)
          { s with pubs := s.pubs ++ ws.map (fun x => ({ w := x, team := some t, cmd := some c.id, full := some (t, abs / 4) } : Pub)) }
        | none => s
      let e : List Entry := match crp with
        | some v => [{ w64 := false, val := List.replicate w (v.setWidth 64), bnd := List.replicate w b.eb32, tag := .n32 }]
        | none => []
      s1.setCmd t { c with stage := if e.isEmpty then .done else .pushing, stream := e }
    | .cpym _ _ => s.setCmd t { c with stage := .copied }
    | _ => s.setCmd t { c with stage := .done }

/-! Engine accesses. -/

/-- Handle a fault of a command (R250): PAGE stops it and charges the team; the rest end the context. What the access has touched counts (R307). -/
def State.engFault (s0 : State) (t : Nat) (c : Cmd) (f : AccFault) : State :=
  let s := match f.tried with | some va => s0.tryTouch .green (s0.team t).ctx va | none => s0
  let tm := s.team t
  let x := s.sheaf c.sheaf
  let tr := f.trap 0 0
  if f.cause = cPAGE then
    let path : Path := { sheaf := c.sheaf, lanes := 0, pc := c.pc }
    let keep := match tm.fault with | some v => some v | none => some (tr, path, true)
    (s.setCmd t { c with stopped := true, faulted := true }).updTeam t (fun m => { m with status := .faulted, fault := keep })
  else s.endContext (mkFrame tr c.pc true false) t x.core x.idx

/-- Where an engine access of a sheaf goes (R168, R175, R182, R250). `wr`: a write; `ok64`: an access of whole F64 elements. -/
def State.engLoc (s : State) (c : Cmd) (t : Nat) (sp wr ok64 : Bool) (a len : Nat) : Except AccFault Loc :=
  if sp then
    if (s.team t).spBad a len || decide (2 ^ 20 ≤ a) then .error { cause := cREGION, addr := a, akind := 2 }
    else
      let abs := s.spAbs c.sheaf a
      .ok ⟨.sp t (abs / 128), abs % 128, a, none⟩
  else
    match s.globalLoc .green (s.team t).ctx a (if wr then .store else .load) with
    | .error f => .error { f with tried := some a }
    | .ok l =>
      if (wr && l.ro) || (l.isCoded && !ok64) then .error { cause := cREGION, addr := a, ridx := l.reg.map (·.idx), tried := some a }
      else match l.line with
        | .rem _ => if s.reachable l.pa then .ok l else .error { cause := cREMOTE, addr := l.pa, akind := 3, tried := some a }
        | _ => .ok l

/-- What an engine notes of an access: the translation held by the green's unit, the stack touched. -/
def State.engNote (s : State) (t : Nat) (sp : Bool) (va : Nat) (l : Loc) : State :=
  if sp then s
  else
    let c := (s.team t).ctx
    l.pas.foldl (fun a pa => a.touchPa c pa) (((s.walkTouch c va .green).fillTlb .green c va).fillReg .green c va)

/-- Read an element of a line. -/
def State.engRead (s : State) (c : Cmd) (l : Loc) (len : Nat) : Nat × Bnd := (s.line l.line).elem (allowStrict c.allow) l.ofs len

/-- Send payload writes on their way: local lines as published entries, the rest as accesses in flight (R233, R251). -/
def State.engSend (s : State) (t : Nat) (c : Cmd) (ws : List LineWrite) : State :=
  let one := fun (a : State) (w : LineWrite) =>
    let f := fun (pa : Nat) =>
      ({ id := a.nextId, sheaf := c.sheaf, team := t, ctx := (a.team t).ctx, pc := c.pc, lanes := 0, pa := pa, kind := .store w
         cmd := some c.id, win := a.winTarget pa } : Flight)
    match w.line with
    | .rem n => { a.remHeldWrite n w with flights := a.flights ++ [f (128 * n)], nextId := a.nextId + 1 }
    | .sys n => { a with flights := a.flights ++ [f (128 * n)], nextId := a.nextId + 1 }
    | _ => { a with pubs := a.pubs ++ [{ w := w, team := some t, cmd := some c.id }] }
  ws.foldl one s

/-! Tiles (R62). -/

def Team.tile (t : Team) (n : Nat) : Tile := SMap.getD t.tiles n {}
def State.setTile (s : State) (t n : Nat) (x : Tile) : State := s.updTeam t (fun m => { m with tiles := SMap.set m.tiles n x })

/-- The 256 words of a tile; those of undefined contents are free values (R260). -/
def State.tileWords (s : State) (t n : Nat) : List Nat × State :=
  let x := (s.team t).tile n
  if x.defined then ((List.range 256).map (fun k => (x.words.getD k 0).toNat), s)
  else
    ((List.range 256).map (fun k => (Config.freeValue (s.freeCtr + k)).toNat % 2 ^ 32), { s with freeCtr := s.freeCtr + 256 })

/-- Row bound `m` as held in 16 bits; undefined contents read as lost. -/
def Tile.bnd16 (x : Tile) (m : Nat) : EB16 := if x.defined then x.bnds.getD m 0 else 0xFF00

/-- The accumulator as one matrix of bit patterns with its row bounds, read as a format. -/
structure Matrix where
  el : List Nat
  bnd : List Bnd
  deriving DecidableEq, Repr

/-- Read a tile, or the pair it belongs to for F64. -/
def State.readTile (s : State) (t n : Nat) (fmt : Ty) : Matrix × State :=
  let tm := s.team t
  if fmt = .f64 then
    let e := n / 2 * 2
    let (lo, s1) := s.tileWords t e
    let (hi, s2) := s1.tileWords t (e + 1)
    let a := tm.tile e
    let b := tm.tile (e + 1)
    ({ el := (List.range 256).map (fun k => lo.getD k 0 + 2 ^ 32 * hi.getD k 0)
       bnd := (List.range 16).map (fun m => if a.defined && b.defined then Bnd.ofEb32 (b.bnd16 m ++ a.bnd16 m) else .lost) }, s2)
  else
    let (w, s1) := s.tileWords t n
    ({ el := w, bnd := (List.range 16).map (fun m => Bnd.ofEb16 ((tm.tile n).bnd16 m)) }, s1)

/-- Write a tile or a pair, its bounds and its format (R62, R256). -/
def State.writeTile (s : State) (t n : Nat) (fmt : Ty) (x : Matrix) : State :=
  let el := fun k => x.el.getD k 0
  if fmt = .f64 then
    let e := n / 2 * 2
    let eb := fun m => (x.bnd.getD m .zero).eb32
    let half := fun (sh lo : Nat) => ({ words := (List.range 256).map (fun k => BitVec.ofNat 32 (el k / 2 ^ sh)), bnds := (List.range 16).map (fun m => (eb m).extractLsb' lo 16), fmt := some .f64, defined := true } : Tile)
    (s.setTile t e (half 0 0)).setTile t (e + 1) (half 32 16)
  else
    s.setTile t n { words := (List.range 256).map (fun k => BitVec.ofNat 32 (el k)), bnds := (List.range 16).map (fun m => (x.bnd.getD m .zero).eb16), fmt := some fmt, defined := true }

/-! Fragments (R253). -/

/-- A fragment as bytes, each with the bound of what holds it. -/
structure Frag where
  bytes : List Byte
  bnds : List Bnd
  deriving DecidableEq, Repr

/-- Bytes of a queue entry, lane by lane. -/
def Entry.frag (e : Entry) : Frag :=
  let n := if e.w64 then 8 else 4
  { bytes := e.val.flatMap (fun v => leBytes n v.toNat), bnds := e.bnd.flatMap (fun b => List.replicate n (Bnd.ofEb32 b)) }

def Frag.append (a b : Frag) : Frag := ⟨a.bytes ++ b.bytes, a.bnds ++ b.bnds⟩

/-- How many whole entries make up `n` bytes. -/
def entriesFor : List Entry → Nat → Option Nat
  | _, 0 => some 0
  | [], _ + 1 => none
  | e :: r, n + 1 =>
    let k := e.frag.bytes.length
    if k = 0 then none else (entriesFor r (n + 1 - k)).map (· + 1)

/-- Take a fragment of `n` bytes from an endpoint of a sheaf: whole entries, in order. -/
def State.takeFrag (s : State) (i ep n : Nat) : Option (Frag × State) :=
  let e := (s.sheaf i).endpoint ep
  match entriesFor e.entries n with
  | some k =>
    some ((e.entries.take k).foldl (fun a x => a.append x.frag) ⟨[], []⟩,
      s.updSheaf i (fun x => { x with eps := SMap.set x.eps ep { e with entries := e.entries.drop k } }))
  | none => none

/-- A fragment, or none while its operand is not there yet. -/
def State.fragOf (s : State) (t : Nat) (c : Cmd) (src : FragSrc) (ep n : Nat) : Option (Frag × State) :=
  match src with
  | .queue => s.takeFrag c.sheaf ep n
  | .sp ofs =>
    let at' := fun (k : Nat) =>
      let abs := s.spAbs c.sheaf (ofs + k)
      (s.line (.sp t (abs / 128))).elem (allowStrict c.allow) (abs % 128) 1
    let es := (List.range n).map at'
    some (⟨es.map (fun e => BitVec.ofNat 8 e.1), es.map (·.2)⟩, s)
  | .latch =>
    let x := s.sheaf c.sheaf
    match SMap.get? (s.core x.core).gather x.quad with
    | some g =>
      if g.sheaf = c.sheaf then
        some (⟨g.bytes, (List.range g.bytes.length).map (fun k => if g.poison.getD k false then .poison else .of (g.bnds.getD k (some 0)))⟩,
          s.updCore x.core (fun y => { y with gather := SMap.erase y.gather x.quad }))
      else none
    | none => none

/-- An element of a fragment: its value and bound. -/
structure MEl where
  v : FVal
  b : Bnd
  deriving DecidableEq, Repr

/-- Bytes `o` to `o + n − 1` of a fragment as a number, with the largest bound. -/
def Frag.num (f : Frag) (o n : Nat) : Nat × Bnd :=
  (leNat ((f.bytes.drop o).take n), (((f.bnds.drop o).take n).foldl Bnd.max .zero))

/-- Depth K of a type (R252). -/
def mmaK (t : Ty) : Nat :=
  match t with | .f64 => 8 | .bf16x2 => 32 | .q4nx8 => 128 | _ => 64

/-- Element k of row (or column) r (R253). -/
def Frag.el (f : Frag) (t : Ty) (r k : Nat) : MEl :=
  match t with
  | .f64 => let (b, x) := f.num (64 * r + 8 * k) 8; ⟨Fmt.f64.decode b, x⟩
  | .bf16x2 => let (b, x) := f.num (64 * r + 2 * k) 2; ⟨Fmt.bf16.decode b, x⟩
  | .e4m3x4 => let (b, x) := f.num (64 * r + k) 1; ⟨Fmt.e4m3.decode b, x⟩
  | .e5m2x4 => let (b, x) := f.num (64 * r + k) 1; ⟨Fmt.e5m2.decode b, x⟩
  | .q4nx8 => let (b, x) := f.num (64 * r + k / 2) 1; ⟨q4nVal (b / 16 ^ (k % 2) % 16), x⟩
  | .i8x4 => let (b, x) := f.num (64 * r + k) 1; ⟨FVal.ofRat ((sInt 8 b : Int) : Rat), x⟩
  | .n8x4 => let (b, x) := f.num (64 * r + k) 1; ⟨FVal.ofRat ((b : Nat) : Rat), x⟩
  | _ =>
    let (h, x) := f.num (32 * r + k / 2) 1
    let (l, y) := f.num (512 + 16 * r + k / 4) 1
    ⟨Fmt.e4m3.decode (f6ToE4m3 (h / 16 ^ (k % 2)) (l / 4 ^ (k % 4))), x.max y⟩

/-- An element times its factor (R254): the bound is B-MUL's. -/
def MEl.scale (e : MEl) (sup : FVal) (supB : Bnd) (code : Nat) (cb : Bnd) : MEl :=
  let w := blockScale sup code
  let bw := blockScaleBnd sup supB.x code cb.x
  let v := e.v.mul w
  ⟨v, mkBnd [e.b, supB, cb] v.isNan (bMul e.v.mag e.b.x w.mag bw (some 0))⟩

/-- Sixteen rows of a fragment, scaled. -/
def fragRows (f : Frag) (t : Ty) (sc : Option Scales) (isA : Bool) : List (List MEl) :=
  (List.range 16).map (fun r => (List.range (mmaK t)).map (fun k =>
    let e := f.el t r k
    match sc with
    | none => e
    | some q =>
      let byte := q.bsel + k / 64
      if isA then e.scale (.fin false 1) .zero ((q.ca.getD r 0).toNat / 256 ^ byte % 256) (Bnd.ofEb16 (q.caBnd.getD r 0))
      else e.scale (Fmt.f32.decode q.sup.toNat) (Bnd.ofEb32 q.supBnd) ((q.cb.getD r 0).toNat / 256 ^ byte % 256) (Bnd.ofEb16 (q.cbBnd.getD r 0))))

/-! MMA (R256, R61, R64). -/

def accTy (t : Ty) : Ty := match t with | .f64 => .f64 | .i8x4 | .n8x4 => .i32 | _ => .f32

def magMax (l : List MEl) : X := l.foldl (fun a e => xmax a e.v.mag) (some 0)
def bndMax (l : List MEl) : Bnd := l.foldl (fun a e => a.max e.b) .zero

/-- One row of results with its row bound, its largest |result|, and whether its old bound and its K term are both 0. -/
structure MRow where
  el : List Nat
  bnd : Bnd
  rmax : FVal
  zero : Bool
  deriving DecidableEq, Repr

/-- The K term of R61. -/
def kTerm (k : Nat) (row all : List MEl) : X :=
  let eA := (bndMax row).x
  let eB := (bndMax all).x
  xmul (some ((k : Nat) : Rat)) (xadd (xadd (xmul (magMax row) eB) (xmul (magMax all) eA)) (xmul eA eB))

/-- The largest |result| of a row. -/
def rowMax (vs : List FVal) : FVal :=
  vs.foldl (fun a v => if xle v.abs a.abs then a else v) (.fin false 0)

/-- A row accumulated in a floating format. DEDUCED (log 63). -/
def mmaFloatRow (f : Fmt) (cheap z : Bool) (k : Nat) (row : List MEl) (cols : List (List MEl)) (old : List FVal) (ob : Bnd) : MRow :=
  let rs := (List.range 16).map (fun n =>
    let ps := List.zipWith (fun a b => FVal.mul a.v b.v) row (cols.getD n [])
    let ts := ps ++ [if z then .fin false 0 else old.getD n .nan]
    if cheap then arCheap f [] ts else arFull f .rn (sumExact false ts))
  let vs := rs.map (·.val)
  let all := cols.flatMap id
  let kt := kTerm k row all
  let o : Bnd := if z then .zero else ob
  let m := rowMax vs
  let rho : X := some (pow2 (f.expOf m - (if cheap then (cheapS f : Int) - 1 else f.prec)))
  let lost := rs.any (·.lost) || vs.any (fun v => !v.isFin)
  { el := vs.map f.encode
    bnd := mkBnd [bndMax row, bndMax all, o] lost (xadd (xadd o.x kt) rho)
    rmax := m
    zero := o.isZero && kt = some 0 }

/-- A sum of integers from `old`, saturating after each addition. -/
def satSum (old : Int) (ps : List Int) : Int × Bool :=
  ps.foldl (fun a p => let c := clampTo .i32 (a.1 + p); (c.1, a.2 || c.2)) (old, false)

/-- A row accumulated in INT32. -/
def mmaIntRow (sat z : Bool) (k : Nat) (row : List MEl) (cols : List (List MEl)) (old : List Nat) (ob : Bnd) : MRow :=
  let rs := (List.range 16).map (fun n =>
    let ps : List Int := List.zipWith (fun a b => (a.v.rat * b.v.rat).num) row (cols.getD n [])
    let o : Int := if z then 0 else sInt 32 (old.getD n 0)
    if sat then satSum o ps else (let e := o + ps.sum; (e, (clampTo .i32 e).2)))
  let all := cols.flatMap id
  let o : Bnd := if z then .zero else ob
  let kt := kTerm k row all
  let any := !(o.isZero && (bndMax row).isZero && (bndMax all).isZero)
  { el := rs.map (fun r => wrapBits 32 r.1)
    bnd := mkBnd [bndMax row, bndMax all, o] (rs.any (·.2) && any) (xadd o.x kt)
    rmax := .fin false 0
    zero := false }

/-- R64's test of one row. -/
def MRow.passes (r : MRow) (tau : EB16) : Bool :=
  if r.rmax.isZero then r.zero && !r.bnd.isInf else autoPasses tau r.rmax r.bnd

/-- The rows of an MMA on the unit its class chooses. -/
def mmaRows (args : MmaArgs) (uc : UClass) (tau : EB16) (a b : Frag) (old : Matrix) : List MRow :=
  let ra := fragRows a args.ty args.scales true
  let rb := fragRows b args.ty args.scales false
  let k := mmaK args.ty
  let acc := accTy args.ty
  let oldRow := fun m => (old.el.drop (16 * m)).take 16
  if acc = .i32 then (List.range 16).map (fun m => mmaIntRow args.sat args.z k (ra.getD m []) rb (oldRow m) (old.bnd.getD m .zero))
  else
    let f := tyFmt acc
    let run := fun (cheap : Bool) => (List.range 16).map (fun m =>
      mmaFloatRow f cheap args.z k (ra.getD m []) rb ((oldRow m).map f.decode) (old.bnd.getD m .zero))
    let cheap := match uc with
      | .cheap => true
      | .auto => (run true).all (fun r => r.passes tau)
      | _ => false
    run cheap

/-- Perform an MMA (R256): none while an operand is not there yet. -/
def State.doMma (s : State) (t : Nat) (c : Cmd) (args : MmaArgs) : Option State :=
  let n := fragBytes args.ty
  match s.fragOf t c args.a 1 n with
  | none => none
  | some (a, s1) =>
    match s1.fragOf t c args.b 2 n with
    | none => none
    | some (b, s2) =>
      let acc := accTy args.ty
      let tm := s.team t
      let mism := !args.z && (tm.tilesOf c).any (fun k => !((tm.tile k).defined && (tm.tile k).fmt = some acc))
      let (held, s3) := if args.z then (({ el := [], bnd := [] } : Matrix), s2) else s2.readTile t c.tile acc
      let old : Matrix := if mism then { held with bnd := held.bnd.map (fun b => if b.poi then b else .lost) } else held
      let uc := effClass (allowPolicy c.allow) args.uc (s.teamBounds t) true
      let rows := mmaRows args uc (allowTau c.allow) a b old
      let bnd := fun (r : MRow) => s.bndOf t (if mism && !r.bnd.poi then .lost else r.bnd)
      some ((s3.writeTile t c.tile acc { el := rows.flatMap (·.el), bnd := rows.map bnd }).setCmd t { c with kind := .mma args, stage := .done })

/-- MMA_PERFORM. -/
def execMmaPerform (t cmd : Nat) (s : State) : Outcome :=
  let tm := s.team t
  match tm.cmd? cmd with
  | some c =>
    (match c.kind with
     | .mma args => if c.stage = .released && s.engTurn t c then .next ((s.doMma t c args).getD s) else .next s
     | _ => .next s)
  | none => .next s

/-- CPYM_MMA_ISSUE: the copy has landed and the MMA is issued (R267). -/
def execCpymMmaIssue (t cmd : Nat) (s : State) : Outcome :=
  match (s.team t).cmd? cmd with
  | some c =>
    (match c.kind with
     | .cpym _ args =>
       if c.stage = .copied && s.teamRuns t && !s.pubs.any (fun p => p.cmd = some cmd) then .next (s.setCmd t { c with kind := .mma args, stage := .released })
       else .next s
     | _ => .next s)
  | none => .next s

/-! MZERO and MLOAD (R258). -/

/-- Read `n` elements of `len` bytes from an address on, up to the first fault. -/
def State.engReads (s : State) (t : Nat) (c : Cmd) (sp ok64 : Bool) (a len : Nat) : Nat → List (Nat × Bnd × Nat × Loc) × Option AccFault
  | 0 => ([], none)
  | n + 1 =>
    match s.engLoc c t sp false ok64 a len with
    | .error f => ([], some f)
    | .ok l =>
      let e := (s.holdLine l.line).engRead c l len
      let (r, f) := s.engReads t c sp ok64 (a + len) len n
      ((e.1, e.2, a, l) :: r, f)

/-- TILE_FILL_PERFORM: MZERO, or MLOAD, takes effect on the whole tile. An MLOAD that a fault stopped resumes at the faulting element,
with the elements before it as read (R250). -/
def execTileFillPerform (t cmd : Nat) (s : State) : Outcome :=
  let tm := s.team t
  match tm.cmd? cmd with
  | some c =>
    if c.stage = .released && s.engTurn t c then
      match c.kind with
      | .mzero ty =>
        .next ((s.writeTile t c.tile ty { el := List.replicate 256 0, bnd := List.replicate 16 .zero }).setCmd t { c with stage := .done })
      | .mload ty gl addr =>
        let w64 : Bool := ty = .f64
        let len := if w64 then 8 else 4
        let (es, f) := s.engReads t c (!gl) w64 (addr + len * c.row) len (256 - c.row)
        let s1 := es.foldl (fun a e => (a.holdLine e.2.2.2.line).engNote t (!gl) e.2.2.1 e.2.2.2) s
        let k : Cmd := { c with row := c.row + es.length, got := c.got ++ es.map (fun e => (e.1, e.2.1.x, e.2.1.poi)) }
        match f with
        | some f => .next ((s1.setCmd t k).engFault t k f)
        | none =>
          let row := fun (m : Nat) => s.bndOf t (((k.got.drop (16 * m)).take 16).foldl (fun a e => a.max ⟨e.2.1, e.2.2⟩) .zero)
          .next ((s1.writeTile t c.tile ty { el := k.got.map (·.1), bnd := (List.range 16).map row }).setCmd t { k with stage := .done, got := [] })
      | _ => .next s
    else .next s
  | none => .next s

/-! MDRAIN (R260, R261). -/

/-- Convert an element as CVTQ would, to any output type; an infinite quotient has an infinite bound (R154). -/
def drainConv (ty : Ty) (rm : Rm) (q : FVal) : Narrow :=
  match ty with
  | .i32 | .n32 => let r := floatToInt ty rm q; ⟨r.1, some r.2.1, r.2.2⟩
  | .f32 => let r := arFull .f32 rm q; ⟨Fmt.f32.encode r.val, r.rho, r.lost || !q.isFin⟩
  | .f64 => let r := arFull .f64 rm q; ⟨Fmt.f64.encode r.val, r.rho, r.lost || !q.isFin⟩
  | _ => narrowElem ty rm q

/-- The value of an element in the tile's format. -/
def tileVal (fmt : Ty) (b : Nat) : FVal :=
  if fmt = .i32 then FVal.ofRat ((sInt 32 b : Int) : Rat) else (tyFmt fmt).decode b

/-- One drained element with its bound. -/
def drainEl (d : DrainArgs) (fmt : Ty) (b : Nat) (row : Bnd) : Nat × Bnd :=
  let sv : FVal := match d.scale with | some p => Fmt.f32.decode p.1.toNat | none => .fin false 1
  let sb : Bnd := match d.scale with | some p => Bnd.ofEb32 p.2 | none => .zero
  let src : Bnd := if fmt = .f64 ∧ d.ty ≠ .f64 then Bnd.ofEb16 row.eb16 else row
  let q := (tileVal fmt b).div sv
  let n := drainConv d.ty d.rm q
  (n.bits, narrowBnd src q sv sb n)

/-- The 256 drained elements, and the record's bytes. -/
def State.drainAll (s : State) (t : Nat) (c : Cmd) (d : DrainArgs) : List (Nat × Bnd) × List Byte × State :=
  let tm := s.team t
  let x := tm.tile c.tile
  let fmt := x.fmt.getD .f32
  let (m, s1) := s.readTile t c.tile fmt
  let pair : Bool := fmt = .f64 && d.ty = .f64
  let record := (List.range 16).flatMap (fun r =>
    if pair then (if x.defined && (tm.tile (c.tile + 1)).defined then leBytes 2 (x.bnd16 r).toNat ++ leBytes 2 ((tm.tile (c.tile + 1)).bnd16 r).toNat
      else leBytes 4 0xFFE0FF00)
    else leBytes 2 (x.bnd16 r).toNat)
  let (raw, s2) := if d.ty = .raw ∧ fmt = .f64 then s1.tileWords t c.tile else (m.el, s1)
  let els := (List.range 256).map (fun k =>
    let b := m.bnd.getD (k / 16) .zero
    let e := if d.ty = .raw then (raw.getD k 0 % 2 ^ 32, if fmt = .f64 then Bnd.ofEb16 b.eb16 else b) else drainEl d fmt (m.el.getD k 0) b
    (e.1, s.bndOf t e.2))
  (els, record, s2)

/-- The locations of one row, or its first fault. -/
def State.rowLocs (s : State) (t : Nat) (c : Cmd) (sp ok64 : Bool) (len : Nat) : Nat → Nat → Except AccFault (List (Nat × Loc))
  | _, 0 => .ok []
  | a, n + 1 =>
    match s.engLoc c t sp true ok64 a len with
    | .error f => .error f
    | .ok l =>
      match s.rowLocs t c sp ok64 len (a + len) n with
      | .error f => .error f
      | .ok r => .ok ((a, l) :: r)

/-- The stores of the rows from `c.row` on, `n` of them, until one faults. -/
def State.drainRows (t : Nat) (d : DrainArgs) (els : List (Nat × Bnd)) : Nat → Cmd → State → List LaneStore →
    List LaneStore × Cmd × Option AccFault × State
  | 0, c, s, acc => (acc, c, none, s)
  | n + 1, c, s, acc =>
    let len := drainElem d.ty
    match s.rowLocs t c (d.kind = 0) (d.ty = .f64) len (d.dst + c.row * d.pitch) 16 with
    | .error f => (acc, c, some f, s)
    | .ok ls =>
      let st := (List.range 16).map (fun j => (⟨(ls.getD j (0, ⟨.mem 0, 0, 0, none⟩)).2, len, [els.getD (16 * c.row + j) (0, .zero)]⟩ : LaneStore))
      let s1 := ls.foldl (fun a p => a.engNote t (d.kind = 0) p.1 p.2) s
      State.drainRows t d els n { c with row := c.row + 1 } s1 (acc ++ st)

/-- Store rows: a line that they fill together is written whole (R53, R74). -/
def State.drainStore (s : State) (t : Nat) (c : Cmd) (d : DrainArgs) (els : List (Nat × Bnd)) : Cmd × Option AccFault × State :=
  let (st, k, f, s1) := State.drainRows t d els (16 - c.row) { c with stage := .copied } s []
  (k, f, s1.engSend t k (buildWrites st (decide (drainElem d.ty = 8)) (!s.teamBounds t)))

/-- The stream of a drain to MR as entries (R260); a 4-byte word's bound is an EB16's (R243). -/
def drainEntries (ty : Ty) (w : Nat) (els : List (Nat × Bnd)) : List Entry :=
  let len := drainElem ty
  let wl := if ty = .f64 then 8 else 4
  let bytes := els.flatMap (fun e => leBytes len e.1)
  let per := w * wl
  (List.range ((bytes.length + per - 1) / per)).map (fun k =>
    let bs := (bytes.drop (per * k)).take per
    { w64 := decide (wl = 8)
      val := (List.range w).map (fun l => BitVec.ofNat 64 (leNat ((bs.drop (wl * l)).take wl)))
      bnd := (List.range w).map (fun l =>
        let e0 := (per * k + wl * l) / len
        let b := ((els.drop e0).take (wl / len)).foldl (fun (a : Bnd) e => a.max e.2) .zero
        if wl = 4 then (Bnd.ofEb16 b.eb16).eb32 else b.eb32)
      tag := ty })

/-- The record of row bounds as a write (R260). DESIGN CHOICE (log 122): it has bound 0 for a poisoned row as well. -/
def State.drainRecord (s : State) (t : Nat) (c : Cmd) (ofs : Nat) (bs : List Byte) : State :=
  let abs := s.spAbs c.sheaf ofs
  let st : LaneStore := ⟨⟨.sp t (abs / 128), abs % 128, ofs, none⟩, 1, bs.map (fun b => (b.toNat, .zero))⟩
  s.engSend t c (buildWrites [st] false (!s.teamBounds t))

/-- MDRAIN_PERFORM: rows 0 to 15 in order, from the row at which a fault stopped it. -/
def execMdrainPerform (t cmd : Nat) (s : State) : Outcome :=
  let tm := s.team t
  match tm.cmd? cmd with
  | some c =>
    match c.kind with
    | .mdrain d =>
      if (c.stage = .released || c.stage = .copied) && s.engTurn t c then
        let (els, record, s1) := s.drainAll t c d
        let rb := fun (a : State) (k : Cmd) => match d.record with | some o => a.drainRecord t k o record | none => a
        if d.kind = 2 then
          let k : Cmd := { c with stage := .pushing, stream := drainEntries d.ty tm.hdr.width els }
          .next ((rb s1 k).setCmd t k)
        else
          let (k, f, s2) := s1.drainStore t c d els
          match f with
          | some e => .next ((s2.setCmd t k).engFault t k e)
          | none =>
            let z : Cmd := { k with stage := .sent }
            .next (((rb s2 k).setCmd t z).afterPayload t z)
      else .next s
    | _ => .next s
  | none => .next s

/-- The endpoint a command pushes to. -/
def Cmd.pushTo (c : Cmd) : Nat := match c.kind with | .mdrain _ => 3 | _ => 5

/-- The drains of a sheaf to its queue push their streams whole, in release order: does an earlier one still have to? DEDUCED (log 64). -/
def State.pushBefore (s : State) (t : Nat) (c : Cmd) : Bool :=
  let drains := fun (y : Cmd) => match y.kind with | .mdrain d => decide (d.kind = 2) | _ => false
  drains c && (s.team t).cmds.any (fun y => decide (y.id < c.id) && y.sheaf = c.sheaf && drains y && decide (y.stage ≠ .done))

/-- ENGINE_QUEUE_PUSH: one entry, once the payload is published and the endpoint has a place; the entries of a sheaf that has ended are
discarded (R244, R260, R280). -/
def execEngineQueuePush (t cmd : Nat) (s : State) : Outcome :=
  let tm := s.team t
  match tm.cmd? cmd with
  | some c =>
    let x := s.sheaf c.sheaf
    let e := x.endpoint c.pushTo
    if c.stage ≠ .pushing || !s.teamRuns t || s.pushBefore t c || s.pubs.any (fun p => p.cmd = some cmd) then .next s
    else if x.ended then .next (s.setCmd t { c with stage := .done, stream := [] })
    else
      match c.stream with
      | [] => .next (s.setCmd t { c with stage := .done })
      | p :: r =>
        if decide (Config.endpointEntries ≤ e.entries.length) then .next s
        else
          let s1 := s.updSheaf c.sheaf (fun y => { y with eps := SMap.set y.eps c.pushTo { e with entries := e.entries ++ [p] } })
          .next (s1.setCmd t { c with stream := r, stage := if r.isEmpty then .done else .pushing })
  | none => .next s

/-! GATH (R262). -/

/-- GATHER_PERFORM: the sixteen rows enter the quadrant's latch, those of a poisoned index poisoned (R74). DEDUCED (log 33). -/
def execGatherPerform (t cmd : Nat) (s : State) : Outcome :=
  let tm := s.team t
  match tm.cmd? cmd with
  | some c =>
    match c.kind with
    | .gath base stride idx =>
      let x := s.sheaf c.sheaf
      let free := (SMap.get? (s.core x.core).gather x.quad).isNone
      let e := x.endpoint 4
      let ready := free && (idx.isSome || !e.entries.isEmpty || x.ended)
      if c.stage = .released && s.engTurn t c && ready then
        let h := e.entries.headD { w64 := false, val := [], bnd := [], tag := .raw }
        let ix : List (Nat × Bool) := match idx with
          | some l => l
          | none => (List.range 16).map (fun l => ((lane h.val l 0).toNat % 2 ^ 32, (Bnd.ofEb32 (lane h.bnd l 0)).poi))
        let s1 := match idx with
          | some _ => s
          | none => s.updSheaf c.sheaf (fun y => { y with eps := SMap.set y.eps 4 { e with entries := e.entries.tail } })
        let ofs := fun (m : Nat) => base + (ix.getD m (0, false)).1 * stride
        let bad := (List.range 16).find? (fun m => decide (2 ^ 20 ≤ ofs m) || tm.spBad (ofs m) 64)
        match bad with
        | some m => .next (s1.engFault t c { cause := cREGION, addr := ofs m, akind := 2 })
        | none =>
          let cell := fun (k : Nat) =>
            let abs := s.spAbs c.sheaf (ofs (k / 64) + k % 64)
            (s.line (.sp t (abs / 128))).elem (allowStrict c.allow) (abs % 128) 1
          let es := (List.range 1024).map cell
          let g : GatherLatch := { sheaf := c.sheaf, bytes := es.map (fun e => BitVec.ofNat 8 e.1), bnds := es.map (fun e => e.2.x), poison := es.zipIdx.map (fun e => e.1.2.poi || (ix.getD (e.2 / 64) (0, false)).2) }
          let s2 := if x.ended then s1 else s1.updCore x.core (fun y => { y with gather := SMap.set y.gather x.quad g })
          .next (s2.setCmd t { c with stage := .done })
      else .next s
    | _ => .next s
  | none => .next s

/-! Copies (R266). -/

/-- Copy elements until one faults: the stores in order, how many were copied, the fault. DESIGN CHOICE (log 81). -/
def State.copyEls (s : State) (t : Nat) (c : Cmd) (r : Shape) : List (List Nat) → Nat → List LaneStore → State →
    List LaneStore × Nat × Option AccFault × State
  | [], n, acc, a => (acc, n, none, a)
  | ix :: rest, n, acc, a =>
    let z := 2 ^ r.esz
    let sa := shapeAddr r.ssp r.saddr z (shapeOfs r.sstr ix)
    let da := shapeAddr r.dsp r.daddr z (shapeOfs r.dstr ix)
    match s.engLoc c t r.ssp false (r.esz = 3) sa z with
    | .error f => (acc, n, some f, a)
    | .ok sl =>
      match s.engLoc c t r.dsp true (r.esz = 3) da z with
      | .error f => (acc, n, some f, if r.ssp then a else a.tryTouch .green (s.team t).ctx sa)
      | .ok dl =>
        let a1 := ((a.holdLine sl.line).engNote t r.ssp sa sl).engNote t r.dsp da dl
        let e := (s.holdLine sl.line).engRead c sl z
        s.copyEls t c r rest (n + 1) (acc ++ [⟨dl, z, [(e.1, s.bndOf t e.2)]⟩]) a1

/-- COPY_PERFORM: the elements of a CPY or a CPYM, from the one at which a fault stopped it. DESIGN CHOICE (log 110): elements of 16 bytes
leave the KIND of 64-bit elements. -/
def execCopyPerform (t cmd : Nat) (s : State) : Outcome :=
  let tm := s.team t
  match tm.cmd? cmd with
  | some c =>
    let run := fun (r : Shape) =>
      let (st, n, f, s1) := s.copyEls t c r ((shapeIdx r.ext).drop c.row) c.row [] s
      let k : Cmd := { c with row := n }
      let s2 := (s1.engSend t k (buildWrites st (decide (3 ≤ r.esz)) (r.drop || !s.teamBounds t))).setCmd t k
      match f with
      | some e => s2.engFault t k e
      | none =>
        let z : Cmd := { k with stage := .sent }
        (s2.setCmd t z).afterPayload t z
    if c.stage = .released && s.teamRuns t && (tm.status = .resident || tm.status = .faulted || tm.status = .saving) && !c.stopped then
      match c.kind with
      | .cpy r _ _ _ => .next (run r)
      | .cpym r _ => .next (run r)
      | _ => .next s
    else .next s
  | none => .next s

/-! Completion (R251). -/

/-- A counter after the command numbered `n` completes: the done count rises in number order. -/
def Counter.finish (x : Counter) (n : Nat) : Counter :=
  let late := n :: x.late
  let d := (List.range (late.length + 1)).foldl (fun a _ => if late.contains (a + 1) then a + 1 else a) x.done
  { x with done := d, late := late.filter (fun k => decide (d < k)) }

/-- A command completes: its counter advances, a released tile's contents become undefined (R261). -/
def State.completeCmd (s : State) (t : Nat) (c : Cmd) : State :=
  let s1 := if c.rel then (s.team t).tilesOf c |>.foldl (fun a n => a.setTile t n { (a.team t).tile n with defined := false }) s else s
  let s2 := s1.updTeam t (fun m => { m with cmds := m.cmds.filter (fun k => k.id ≠ c.id) })
  match c.ctr with
  | some n => s2.setCtr t n (((s2.team t).ctr n).finish c.num)
  | none => s2

/-- Does a token holder that has read a counter keep a command's completion back (R229, R247)? DEDUCED (log 57). -/
def State.keptBack (s : State) (t : Nat) (c : Cmd) : Bool :=
  c.ctr.any (fun n => !(s.deferring none [] [.ctr t n] (some t)).isEmpty)

/-- Complete every command that is done and whose payload is published. -/
def State.completeCmds (s : State) : State :=
  s.teamIds.foldl (fun a t =>
    ((a.team t).cmds.filter (fun c => c.stage = .done && !a.pubs.any (fun p => p.cmd = some c.id)
        && !a.flights.any (fun f => f.cmd = some c.id) && !a.keptBack t c)).foldl
      (fun b c => b.completeCmd t c) a) s

end Sys2Proof.Machine
end

