-- ==== Sys2Proof/Machine/Reeve.lean ====
section
/-! DEFINITION. The reeve: commit rounds (R226), squashes (R227), priority tokens (R229), published entries (R233); and what is performed
outside chunks when its time has come (R200, R232, R235 to R237, R347). -/

namespace Sys2Proof.Machine

/-! Commit (R222, R226). -/

/-- Cycles of the order of R226: by die, core, quadrant, slot. -/
def State.deviceOrder (s : State) : List Nat :=
  let key := fun (i : Nat) => let x := s.sheaf i; (x.core * 4 + x.quad) * Config.sheafSlots + x.slot
  sortBy key s.sheafIds

/-- The engine commands held by a chunk. -/
def Chunk.heldCmds (c : Chunk) : List Cmd := c.held.filterMap (fun h => match h with | .cmd k => some k | _ => none)
def Chunk.heldLnch (c : Chunk) : List (Nat × Nat) := c.held.filterMap (fun h => match h with | .lnch a p => some (a, p) | _ => none)

/-- Can the engines and the launch unit accept what a chunk holds (R245, R287)? DESIGN CHOICE (log 12). -/
def State.accepts (s : State) (i : Nat) (c : Chunk) : Bool :=
  let t := s.team (s.sheaf i).team
  decide ((t.cmds.filter (fun k => k.stage = .released)).length + c.heldCmds.length ≤ Config.engineQueue
      ∨ c.heldCmds = [])
  && decide ((SMap.getD s.children t.part []).length + ((s.launches.filter (fun p => p.2.child && p.2.started = 0 && !p.2.completed && p.2.part = t.part)).length)
      + c.heldLnch.length ≤ Config.childLimit ∨ c.heldLnch = [])

/-- The lines checked at the core that a chunk of a team writes, with the counters that its commands raise (R225, R247, R251). -/
def Chunk.coreLines (c : Chunk) (t : Nat) : List Line := c.coreWrites ++ c.heldCmds.filterMap (fun k => k.ctr.map (Line.ctr t))

/-- Release a command at its chunk's commit: its number on its counter, the phases of the barriers as they stand (R238, R251, R257). -/
def State.releaseCmd (s : State) (i : Nat) (c : Cmd) : State :=
  let t := (s.sheaf i).team
  let tm := s.team t
  let n := match c.ctr with | some k => (tm.ctr k).issued + 1 | none => 0
  let ph := (List.range 16).map (fun b => (tm.bar b).phases)
  let k : Cmd := { c with id := s.nextId, num := n, phases := ph, epoch := (match c.link with | some b => ph.getD b 0 | none => 0) }
  let s1 := { s.updTeam t (fun m => { m with cmds := m.cmds ++ [k] }) with nextId := s.nextId + 1 }
  match c.ctr with
  | some j => s1.setCtr t j { (s1.team t).ctr j with issued := n }
  | none => s1

/-- Release a child launch (R287). -/
def State.releaseChild (s : State) (t va prio : Nat) : State :=
  let tm := s.team t
  let c : Child := { launch := s.nextId, parent := tm.launch, team := t, va := va, prio := prio }
  { s with children := SMap.update s.children tm.part [] (· ++ [c]), nextId := s.nextId + 1 }

/-- Apply what a chunk holds beside its stores, in program order. -/
def State.applyHeld (s : State) (i : Nat) (h : Held) : State :=
  let t := (s.sheaf i).team
  match h with
  | .store _ => s
  | .fe tm w v => s.updTeam tm (fun m => m.setFe [w] v)
  | .cmd c => s.releaseCmd i c
  | .push ep e => s.updSheaf i (fun x => { x with eps := SMap.update x.eps ep {} (fun y => { y with entries := y.entries ++ [e] }) })
  | .lnch va p => s.releaseChild t va p

/-- Free the entries a chunk has popped. -/
def Sheaf.freePops (x : Sheaf) (c : Chunk) : Sheaf :=
  { x with eps := x.eps.map (fun e =>
      let n := SMap.getD c.pops e.1 0
      (e.1, { e.2 with entries := e.2.entries.drop n, retained := e.2.retained - n })) }

/-- Commit the oldest chunk of a sheaf: readers ordered after it are squashed, its stores become visible together, its commands,
pushes and launches are released, its pops are freed, its token is given back (R222, R226 to R229). -/
def State.commitChunk (s : State) (i : Nat) (c : Chunk) : State :=
  let x := s.sheaf i
  let s1 := s.squashReaders (some i) c.writes (c.coreLines x.team) (some x.team) (some c.id)
  let s2 := s1.setSheaf i ((({ s1.sheaf i with chunks := (s1.sheaf i).chunks.drop 1 } : Sheaf).freePops c))
  let s3 := s2.applyWrites (c.held.filterMap Held.write?) (!s.teamBounds x.team)
  let s4 := c.held.foldl (fun a h => a.applyHeld i h) s3
  let mine := s4.tokens.any (fun p => p.2.1 = i && p.2.2.1 = c.id)
  let s5 := if mine then { s4 with tokens := s4.tokens.filter (fun p => !(p.2.1 = i && p.2.2.1 = c.id)), precedence := s4.precedence.filter (fun k => k ≠ i) } else s4
  (s5.coverAll i).forgetRedo i

/-- The oldest chunk of a sheaf, if it is closed. -/
def State.awaiting (s : State) (i : Nat) : Option Chunk :=
  match (s.sheaf i).chunks.head? with
  | some c => if c.closed then some c else none
  | none => none

/-- Does a chunk store to a line on which an atomic has been decided and not yet published: nothing comes between its read and its write
(R211)? -/
def State.decidedOn (s : State) (c : Chunk) : Bool :=
  s.pubs.any (fun p => p.decided && (c.writes.contains p.w.line.name || c.coreWrites.contains p.w.line.name))

/-- One sheaf's turn in a round. A chunk does not commit ahead of an entry that its own sheaf's earlier boundary instruction made (R234). -/
def State.commitTurn (s : State) (i : Nat) : State :=
  match s.awaiting i with
  | some c =>
    if !s.settledFor i c.id || s.decidedOn c || !s.accepts i c || !(s.deferring (some (i, c.id)) c.writes (c.coreLines (s.sheaf i).team) (some (s.sheaf i).team)).isEmpty then s
    else s.commitChunk i c
  | none => s

/-! The round. -/

/-- The round of an atomic that waits for it has come (R211, R233). -/
def Sheaf.fallDue (x : Sheaf) : Sheaf := match x.pend with | .atomic n p _ => { x with pend := .atomic n p true } | _ => x

/-- COMMIT_ROUND: the chunks in device order, then the published entries, then the completions whose payload is published; the atomics that
wait for the round are performed next, in the order they came. -/
def execCommitRound (s : State) : Outcome :=
  let s1 := s.deviceOrder.foldl State.commitTurn { s with round := s.round + 1 }
  let ps := s1.pubs
  let s2 := (ps.foldl State.publishOne { s1 with pubs := [] }).completeCmds
  .next (s2.sheafIds.foldl (fun a i => a.updSheaf i Sheaf.fallDue) s2)

/-- PRIORITY_TOKEN_TAKE: a chunk squashed four times takes its die's token where no chunk holds it (R229). -/
def execPriorityTokenTake (i : Nat) (s : State) : Outcome :=
  let d := coreDie (s.sheaf i).core
  match s.needsToken i with
  | some id =>
    if s.holders.any (fun p => p.1 = d) then .next s
    else .next { s with tokens := SMap.set s.tokens d (i, id, s.nextId), nextId := s.nextId + 1 }
  | none => .next s

/-- Is a sheaf resident on a partition that runs it? -/
def State.sheafRuns (s : State) (i : Nat) : Bool :=
  let t := (s.sheaf i).team
  s.teamRuns t && ((s.team t).status = .resident || (s.team t).status = .saving)

/-! Outside chunks. -/

/-- A path that waited issues; the other path of its cycle, if that is still to issue, after it (R19, R200). -/
def State.resumePath (s : State) (i : Nat) (p : Path) : State :=
  { s.updSheaf i (fun x => { x with pend := .idle, young := [] }) with issue := p :: (s.sheaf i).young }

/-- BOUNDARY_PERFORM: the earlier chunks have committed, and the pending instruction issues alone (R200, R221); or the round of an atomic has
come. A chunk in which the other path of its cycle has issued closes first. -/
def execBoundaryPerform (i : Nat) (s0 : State) : Outcome :=
  let s := match (s0.sheaf i).pend, (s0.sheaf i).openChunk? with | .boundary _, some _ => s0.updSheaf i Sheaf.close | _, _ => s0
  let x := s.sheaf i
  match x.pend with
  | .boundary p => .next (if x.uncommitted || !s.settled i || !s.sheafRuns i then s else s.resumePath i p)
  | .atomic _ p true => .next (s.resumePath i p)
  | _ => .next s

/-- Does an atomic with lanes off this device, issued before a number, still wait for its round: its home has not performed it (R235)? -/
def State.atomicsPend (s : State) (upto : Nat) : Bool :=
  s.sheaves.any (fun q => match q.2.pend with | .atomic n p _ => p.arrived && decide (n < upto) | _ => false)

/-- Has everything a release waits for happened (R235, R236)? -/
def State.released (s : State) (i : Nat) (sys : Bool) (upto : Nat) : Bool :=
  !(s.sheaf i).uncommitted && s.pubs.isEmpty
  && !s.flights.any (fun f => decide (f.id < upto) && (f.remote || sys)) && !s.atomicsPend upto

/-- POD_RELEASE: with the acknowledgements in, the local lines are written back and the release is performed; a FENCE's acquire
follows (R235 to R237). -/
def execPodRelease (i : Nat) (s : State) : Outcome :=
  let x := s.sheaf i
  match x.pend with
  | .release p sys upto =>
    if s.released i sys upto && s.sheafRuns i then .next { s.resumePath i { p with released := true } with green := [] }
    else .next s
  | .fence rel acq sys upto =>
    if x.uncommitted || !s.sheafRuns i || (rel && !s.released i sys upto) then .next s
    else
      let s1 := s.setSheaf i { x with pend := .idle }
      let s2 := if rel then { s1 with green := [] } else s1
      .next (if acq then s2.acquire sys else s2)
  | _ => .next s

/-- Is half `k` of a held line of the window that gave the line this target? -/
def SysHalf.fits (x : SysHalf) (key k : Nat) : Bool := x.key = some (key + 64 * (k % 2))

/-- Perform what is in flight on a system line by the window that it had at issue, whole (R313): where the driver has changed the window since,
on the halves of the old one, which then go back to their owner; what is held by the new one stands beside it. -/
def State.underWin (s : State) (n : Nat) (win : Option (Nat × Nat)) (f : State → State) : State :=
  match win with
  | some (m, key) =>
    if s.winTarget (128 * n) = win then f s
    else
      let ks := [2 * n, 2 * n + 1]
      let others := s.sysHeld.filter (fun p => ks.contains p.1 && !p.2.fits key p.1)
      let fetch := fun (a : State) (k : Nat) =>
        if (SMap.get? a.sysHeld k).any (fun x => x.fits key k) then a
        else { a with sysHeld := SMap.set a.sysHeld k (a.sysHomeAt (some (m, key + 64 * (k % 2)))) }
      let s1 := ks.foldl State.dropHalf (f (ks.foldl fetch s))
      others.foldl (fun a p => { a with sysHeld := SMap.set a.sysHeld p.1 p.2 }) s1
  | none => f s

/-- Perform a store on system memory: in the die L2 where the half is owned, else through to its home (R315). -/
def State.sysStore (s : State) (n : Nat) (w : LineWrite) : State :=
  let s1 := (s.holdLine (.sys n)).sysWrite n w
  let thru := fun (a : State) (k : Nat) =>
    let x := a.sysHalf k
    if x.owned || !x.dirty then a
    else
      match x.key with
      | some key =>
        { a with ext := Memory.write a.ext key x.bytes, extPoison := SMap.setC a.extPoison (key / 64) false x.poison
                 sysHeld := SMap.set a.sysHeld k { x with dirty := false } }
      | none => a
  thru (thru s1 (2 * n)) (2 * n + 1)

/-- May an access complete: no earlier store of its channel to its device is still on its way (R205, R322)? -/
def State.inOrder (s : State) (f : Flight) : Bool :=
  !s.flights.any (fun g => decide (g.id < f.id) && f.chan.isSome && g.chan = f.chan && g.team = f.team
    && paRemote g.pa && remDev g.pa = remDev f.pa)

/-- ACCESS_COMPLETION: a value returns and its instruction is performed; a store or a RED reaches its home (R232). -/
def execAccessCompletion (id : Nat) (s : State) : Outcome :=
  match s.flights.find? (fun f => f.id = id) with
  | some f =>
    if !s.inOrder f then .next s
    else
      let s1 := { s with flights := s.flights.filter (fun g => g.id ≠ id) }
      match f.kind with
      | .value p => .next (s1.resumePath f.sheaf p)
      | .store w =>
        let s2 := match w.line with
          | .rem n => s1.remWrite n w f.cmd
          | .sys n => s1.underWin n f.win (fun a => a.sysStore n w)
          | _ => s1.publish [w]
        (match f.cmd with
         | some c => (match (s2.team f.team).cmd? c with
           | some k => .next (if k.stage = .sent then s2.afterPayload f.team k else s2)
           | none => .next s2)
         | none => .next s2)
      | .red op ty =>
        let arrive := fun (a : State) => a.applyReds op ty (s1.teamBounds f.team) f.vals
        .next (if paRemote f.pa then arrive s1 else s1.underWin (f.pa / 128) f.win arrive)
  | none => .next s

/-! Completions of waits (R347). -/

/-- Try the wait of a lane of a sheaf that runs. DEDUCED (log 59). -/
def State.tryLane (s : State) (i l : Nat) (f : State → Wait → Option State) : State :=
  match SMap.get? (s.sheaf i).waits l with
  | some w => if s.sheafRuns i then (f s w).getD s else s
  | none => s

/-- LDF_COMPLETE. -/
def execLdfComplete (i l : Nat) (s : State) : Outcome :=
  .next (s.tryLane i l (fun a w => match w with | .ldf _ _ _ _ => a.feTry true i l ((a.sheaf i).regs.pcOf l) w | _ => none))

/-- STE_COMPLETE. -/
def execSteComplete (i l : Nat) (s : State) : Outcome :=
  .next (s.tryLane i l (fun a w => match w with | .ste _ _ _ _ => a.feTry true i l ((a.sheaf i).regs.pcOf l) w | _ => none))

/-- WAITA_COMPLETE. -/
def execWaitaComplete (i l : Nat) (s : State) : Outcome :=
  .next (s.tryLane i l (fun a w => match w with | .waita _ _ _ _ _ _ _ => a.waitaTry i l ((a.sheaf i).regs.pcOf l) w | _ => none))

/-- WAITA_POLL: every waiting lane of the sheaf is tested. DEDUCED (log 38). -/
def execWaitaPoll (i : Nat) (s : State) : Outcome :=
  .next (((s.sheaf i).waits.map (·.1)).foldl (fun a l =>
    a.tryLane i l (fun b w => match w with | .waita _ _ _ _ _ _ _ => b.waitaTry i l ((b.sheaf i).regs.pcOf l) w | _ => none)) s)

/-- XACQ_GRANT. -/
def execXacqGrant (t q : Nat) (s : State) : Outcome := .next ((s.grantXacq t q).getD s)

/-- COUNTER_WAIT_WAKE. -/
def execCounterWaitWake (i : Nat) (s : State) : Outcome := .next (s.wakeCounters i)

/-- QUEUE_POP_WAKE: lanes that wait for an entry are eligible once one is available. -/
def execQueuePopWake (i : Nat) (s : State) : Outcome :=
  let x := s.sheaf i
  let has := fun (w : Nat × Wait) => match w.2 with
    | .pop q => decide (0 < (x.endpoint (x.regs.boundTo q)).avail)
    | _ => false
  .next (s.setSheaf i { x with waits := x.waits.filter (fun w => !has w) })

/-- SLEEP_EXPIRE: the lane's cycles have passed (R300). -/
def execSleepExpire (i l : Nat) (s : State) : Outcome :=
  .next (s.tryLane i l (fun a w => match w with
    | .sleep n => if n ≤ a.cycle then some (a.updSheaf i (fun x => x.endSleep l)) else none
    | _ => none))

/-- YIELD_EXPIRE (R116). -/
def execYieldExpire (i : Nat) (s : State) : Outcome :=
  let x := s.sheaf i
  .next (if x.yieldUntil ≤ s.cycle then s.setSheaf i { x with yieldUntil := 0 } else s)

end Sys2Proof.Machine
end

