-- ==== Sys2Proof/Machine/Issue.lean ====
section
/-! DEFINITION. Issue: fetching a line and its checks (R75 to R79, R87), the pick of a sheaf (R17), the vote for paths (R19), the pair
(R21), what is withheld (R20), the lock of R94, and page walks. -/

namespace Sys2Proof.Machine

/-! Fetch lines. -/

/-- The bits of a line of 64 bytes, as a number. -/
def lineNat (bs : List Byte) : Nat := leNat bs

/-- The line word (R75). -/
def lineWord (bs : List Byte) : Nat := leNat ((bs.drop 60).take 4)

/-- The exclusive OR of the bits of a number. -/
def parity : Nat → Nat → Bool
  | 0, _ => false
  | n + 1, x => (x % 2 = 1) != parity n (x / 2)

/-- PAR of a line's slots (R77). -/
def lineParity (bs : List Byte) : Nat :=
  ((List.range 8).map (fun j => if parity 60 (lineNat bs / 2 ^ (60 * j)) then 2 ^ j else 0)).sum

def parityOk (bs : List Byte) : Bool := lineWord bs / 2 ^ 24 = lineParity bs
/-- Reserved bits [23:9] of the line word (R78). -/
def lineReserved (bs : List Byte) : Bool := bitsAt (lineWord bs) 23 9 ≠ 0
def linePair (bs : List Byte) (slot : Nat) : Bool := decide (slot < 4) && (lineWord bs).testBit (5 + slot)

/-- The word of a slot (R75). -/
def slotWord (bs : List Byte) (slot : Nat) : BitVec 96 := BitVec.ofNat 96 (leNat ((bs.drop (12 * slot)).take 12))

def pcSlot (pc : Pc) : Nat := pc.toNat % 8
def pcLine (pc : Pc) : Nat := pc.toNat / 64

/-- Where a fetch goes, or why it fails before check 1 (R87, R177, R182, R307, R313). -/
def State.fetchLoc (s : State) (core ctx va : Nat) : Except AccFault Loc :=
  let cover := (s.regCover (.core core) ctx va).head?.map (·.idx)
  let coded := match s.xlate (.core core) ctx va with | .leaf e _ => e.testBit 8 | _ => false
  if coded then .error { cause := cREGION, addr := va, ridx := cover }
  else
    match s.xlateFor (.core core) ctx va .fetch with
    | .error f => .error { f with addr := if f.akind = 1 then va else f.addr }
    | .ok (e, bits) =>
      let l := locOf ctx e bits va none
      match s.lostAt l.pa, l.line with
      | some d, _ => .error { cause := cDIELOST, addr := va, die := d }
      | none, .sys _ => if (s.windows l.pa).length ≠ 1 then .error { cause := cPERM, addr := l.pa, akind := 3 } else .ok l
      | none, .rem _ => if s.reachable l.pa then .ok l else .error { cause := cREMOTE, addr := l.pa, akind := 3 }
      | none, _ => .ok l

/-- The 64 bytes that memory gives for a fetch line. -/
def State.fetchBytes (s : State) (l : Loc) : List Byte := ((s.line l.line).bytes.drop (l.ofs / 64 * 64)).take 64

/-- Bring a line into the instruction cache. DEDUCED (log 82). -/
def State.fillLine (s : State) (core ctx la : Nat) (l : Loc) : State :=
  let s1 := (((s.holdLine l.line).walkTouch ctx (64 * la) (.core core)).fillTlb (.core core) ctx (64 * la)).touchPa ctx l.pa
  s1.updCore core (fun c => { c with icache := (ctx, la, s1.fetchBytes l) :: c.icache })

/-- What a fetch gives: nothing yet, where no chunk can open for the instruction; a cause, a line to fetch once more, or an instruction. -/
inductive Fetched where
  | blocked
  | trap (t : Trap)
  | refetch (line : Nat)
  | instr (i : Instr)
  deriving DecidableEq, Repr

/-- Checks 1 to 3 of R87 on a line and a slot. -/
def State.checkLine (s : State) (core ctx : Nat) (lanes : Mask) (pc : Pc) (bs : List Byte) : Fetched :=
  if !parityOk bs then
    (if (s.core core).refetched.contains (ctx, pcLine pc) then .trap { cause := cFETCHPAR, check := 1, lanes := lanes }
     else .refetch (64 * pcLine pc))
  else if lineReserved bs then .trap { cause := cILLOP, check := 2, lanes := lanes }
  else
    match decode (slotWord bs (pcSlot pc)) with
    | .error _ => .trap { cause := cILLOP, check := 3, lanes := lanes }
    | .ok i => .instr i

/-- The mark of a refetch ends once the line has been used or has trapped. -/
def State.clearRefetch (s : State) (core ctx la : Nat) : State :=
  if (s.core core).refetched.contains (ctx, la) then
    s.updCore core (fun c => { c with refetched := c.refetched.filter (fun e => e ≠ (ctx, la)) })
  else s

/-- Note the fetch's translation in the chunk the instruction belongs to, for the invalidations of R179. -/
def State.noteFetch (s : State) : State :=
  match s.csh.openChunk? with
  | some _ => s.updOpen (fun c => c.use s.cur.pc.toNat)
  | none => s

/-- Fetch the instruction of the path at the head of the issue. -/
def State.fetch (s : State) : Fetched × State :=
  let p := s.cur
  let core := s.csh.core
  let ctx := s.ctm.ctx
  let la := pcLine p.pc
  if s.csh.openChunk?.isNone && s.noRoom then (.blocked, s)
  else if pcMalformed p.pc.toNat then
    (.trap { cause := cTARGET, check := 9, lanes := p.lanes, addr := p.pc.setWidth 64, akind := 1 }, s)
  else
    match (s.core core).icache.find? (fun e => e.1 = ctx && e.2.1 = la) with
    | some e =>
      let f := s.checkLine core ctx p.lanes p.pc e.2.2
      (f, match f with | .refetch _ => s | _ => (s.clearRefetch core ctx la).noteFetch)
    | none =>
      match s.fetchLoc core ctx (64 * la) with
      | .error f =>
        let g : AccFault := { f with addr := if f.akind = 1 then p.pc.toNat else f.addr }
        (.trap (g.trap p.lanes 0), s.walkTouch ctx (64 * la) (.core core))
      | .ok l =>
        let s1 := s.fillLine core ctx la l
        let f := s1.checkLine core ctx p.lanes p.pc (s.fetchBytes l)
        (f, match f with | .refetch _ => s1 | _ => (s1.clearRefetch core ctx la).noteFetch)

/-- LINE_REFETCH: the line is dropped and fetched once more (R77). -/
def execLineRefetch (core line : Nat) (s : State) : Outcome :=
  let la := line / 64
  let mine := (s.core core).icache.filter (fun e => e.2.1 = la)
  let s1 := s.updCore core (fun c =>
    { c with icache := c.icache.filter (fun e => e.2.1 ≠ la)
             refetched := mine.foldl (fun a e => if a.contains (e.1, la) then a else (e.1, la) :: a) c.refetched })
  .next (mine.foldl (fun a e =>
    match a.fetchLoc core e.1 (64 * la) with
    | .ok l => a.fillLine core e.1 la l
    | .error _ => a) s1)

/-- The cores with a team of a context. -/
def State.coresOf (s : State) (ctx : Nat) : List Nat :=
  ((s.sheaves.filter (fun p => (s.team p.2.team).ctx = ctx)).map (fun p => p.2.core)).dedup

/-- PAGE_WALK: a walk fills the TLB of the cores that run the context and the green's unit, and counts the stacks it reads; a walk
that meets a lost die ends its context (R174, R176, R307). -/
def execPageWalk (ctx va : Nat) (s : State) : Outcome :=
  let s1 := s.walkFromTouch ctx va levels (s.ptRoot ctx)
  match s.walk ctx va with
  | .leaf _ _ => .next ((s.coresOf ctx).foldl (fun a c => a.fillTlb (.core c) ctx va) (s1.fillTlb .green ctx va))
  | .dieLost d =>
    match s.teams.find? (fun p => p.2.ctx = ctx && p.2.status ≠ .ended) with
    | some p => .next (s1.endContext (mkFrame { cause := cDIELOST, addr := BitVec.ofNat 64 va, akind := 1, die := d } 0 false false) p.1 p.2.core 0)
    | none => .next s1
  | _ => .next s1

/-! Pipes (R18). -/

/-- The pipes of a quadrant: two FMA pipes share one class. -/
inductive Pipe where
  | fma | sfu | mem | scalar | branch
  deriving DecidableEq, Repr

/-- Where a pipe's busy time stands in a quadrant's list; the FMA class has two. -/
def Pipe.slots (p : Pipe) : List Nat :=
  match p with | .fma => [0, 1] | .sfu => [2] | .mem => [3] | .scalar => [4] | .branch => [5]

/-- Is a selector a scalar operand of R91? -/
def selScalar (x : Sel) : Bool := selUniform x

/-- The class of an instruction: its pipe and the cycles it holds it at a width. DESIGN CHOICE (log 91): a memory instruction whose
operands are all scalar, as an LDK may be, goes to the memory pipe. -/
def instrPipe (i : Instr) (w : Nat) : Pipe × Nat :=
  match i.toRaw, i.use with
  | some r, some (_, o, u) =>
    let op := r.opc.toNat
    let by' := fun (a b c : Nat) => if w = 16 then a else if w = 32 then b else c
    let allScalar : Bool := selIsS o.d && u.d && (!u.sa || selScalar o.sa) && (!u.sb || selScalar o.sb) && (!u.sc || selScalar o.sc)
    let f64 : Bool := r.m.toNat / 16 = 5 || ((op = 0x50 || op = 0x51) && immBits o 3 0 = 5)
    let lanes : Bool := [0x32, 0x33, 0x34, 0x35, 0x36, 0x37].contains op
    if op ≤ 0x0B || 0x90 ≤ op then (.branch, 1)
    else if lanes || 0x70 ≤ op then (.mem, by' 1 1 2)
    else if allScalar then (.scalar, 1)
    else if decide (0x48 ≤ op) && decide (op ≤ 0x4F) then (.sfu, by' 2 4 8 * (if f64 then 2 else 1))
    else if decide (0x40 ≤ op) && decide (op ≤ 0x59) && f64 then (.fma, by' 1 2 4)
    else (.fma, by' 1 1 2)
  | _, _ => (.branch, 1)

/-! One quadrant. -/

/-- The PC groups of a sheaf, lowest PC first (R15, R16). -/
def State.groups (s : State) (i : Nat) : List (Pc × Mask) :=
  let x := s.sheaf i
  let e := s.eligible i
  let pcs := sortBy id ((Mask.list e).map (fun l => (x.regs.pcOf l).toNat)).dedup
  pcs.map (fun p => (BitVec.ofNat 56 p, Mask.of 64 (fun l => Mask.has e l && (x.regs.pcOf l).toNat = p)))

/-- May a sheaf issue at all: nothing of its own holds it back? A chunk squashed four times re-executes only with its die's token (R229). -/
def State.sheafFree (s : State) (i : Nat) : Bool :=
  let x := s.sheaf i
  let t := s.team x.team
  !x.ended && x.pend = .idle && x.parked.isNone && decide (x.yieldUntil ≤ s.cycle)
    && (t.status = .resident || t.status = .saving) && s.partRuns t.part t.ctx && (s.needsToken i).isNone
    && decide ((x.chunks.filter (·.closed)).length < 2)

/-- The instruction at a PC, looked at without fetching it. -/
def State.peek (s : State) (i : Nat) (pc : Pc) : Option Instr :=
  let x := s.sheaf i
  match s.codeLine x.core (s.team x.team).ctx pc.toNat with
  | some bs => match decode (slotWord bs (pcSlot pc)) with | .ok j => some j | .error _ => none
  | none => none

/-- The pipe an instruction takes; one that will trap goes through the branch unit. -/
def State.pipeAt (s : State) (i : Nat) (pc : Pc) : Pipe × Nat :=
  match s.peek i pc with
  | some j => instrPipe j (s.team (s.sheaf i).team).hdr.width
  | none => (.branch, 1)

def Core.busyAt (c : Core) (q k : Nat) : Nat := (SMap.getD c.busy q []).getD k 0

/-- A free slot of a pipe. -/
def State.pipeFree (s : State) (core q : Nat) (p : Pipe) : Option Nat :=
  p.slots.find? (fun k => decide ((s.core core).busyAt q k ≤ s.cycle))

/-- Does an instruction push to an endpoint that is full (R17, R245): its operands are then not available? -/
def State.pushesFull (s : State) (i : Nat) (j : Option Instr) : Bool :=
  match j.bind Instr.use with
  | some (h, o, u) =>
    (match o.d with
     | .q n =>
       let x := s.sheaf i
       let ep := x.regs.boundTo n.toNat
       u.d && u.prod && !h.nw && epWrites ep && !x.nwLast && x.pushFull ep
     | _ => false)
  | none => false

def instrNw (j : Option Instr) : Bool := match j with | some k => (match k.use with | some (h, _, _) => h.nw | none => false) | none => false

/-- Could the instruction of a PC group issue now: its operands are available and its pipe is free, and no NW producer where another
ready sheaf is late (R17, R94)? DEDUCED (log 31). -/
def State.able (s : State) (core q i : Nat) (late : Bool) (g : Pc × Mask) : Bool :=
  let j := s.peek i g.1
  (s.pipeFree core q (s.pipeAt i g.1).1).isSome && !s.pushesFull i j && !(late && instrNw j)

/-- The sheaves of a quadrant in slot order. -/
def State.quadSheaves (s : State) (core q : Nat) : List Nat :=
  sortBy (fun i => (s.sheaf i).slot) ((s.sheaves.filter (fun p => p.2.core = core && p.2.quad = q && !p.2.ended)).map (·.1))

/-! The vote (R19). -/

def Sheaf.passOf (x : Sheaf) (pc : Pc) : Nat := SMap.getD x.passes pc.toNat 0

/-- Path two among the groups after path one. -/
def Sheaf.pathTwo (x : Sheaf) (gs : List (Pc × Mask)) : Option (Pc × Mask) :=
  let better := fun (f : Pc × Mask → Nat) (b : Option (Pc × Mask)) (g : Pc × Mask) =>
    match b with | some h => if f h < f g then some g else b | none => some g
  if gs.any (fun g => decide (64 ≤ x.passOf g.1)) then gs.foldl (better (fun g => x.passOf g.1)) none
  else gs.foldl (better (fun g => Mask.count g.2)) none

/-- The groups the vote picks: path one, then path two. -/
def State.voted (s : State) (i : Nat) : List (Pc × Mask) :=
  match s.groups i with
  | [] => []
  | g :: rest => g :: ((s.sheaf i).pathTwo rest).toList

/-- The groups R19 would let issue now. -/
def State.canIssue (s : State) (core q i : Nat) (late : Bool := false) : List (Pc × Mask) :=
  (s.voted i).filter (s.able core q i late)

/-! What is withheld (R20, R21). -/

/-- The queue registers an instruction pushes to, pops from, or has its engine take entries from. -/
def instrQueues (o : Opn) (u : Use) : List (BitVec 4) :=
  let q := fun (b : Bool) (x : Sel) => match x with | .q n => if b then [n] else [] | _ => []
  q u.d o.d ++ q u.sa o.sa ++ q u.sb o.sb ++ q u.sc o.sc

/-- A control-flow instruction (R108: 0x02 to 0x08), or an ERET, which moves every lane of the sheaf (R298). -/
def isControl (i : Instr) : Bool :=
  match i.toRaw with
  | some r => (decide (2 ≤ r.opc.toNat) && decide (r.opc.toNat ≤ 8)) || r.opc = 0xC1
  | none => false

/-- Is an instruction by itself one beside which nothing issues (R20)? -/
def aloneUse (j : Option Instr) : Bool :=
  match j.bind Instr.use with | some (h, _, u) => h.nw || u.closing | none => false

/-- QBIND and QSTAT name a queue register and neither push nor pop (R246, R247). -/
def onlyNames (i : Instr) : Bool := match i with | .qbind _ _ _ | .qstat _ _ _ => true | _ => false

/-- Does R20 withhold the younger of two instructions? A word that does not decode withholds nothing: it traps. DEDUCED (log 30). -/
def withheld (a b : Option Instr) : Bool :=
  aloneUse a || aloneUse b || (match a with | some x => isControl x | none => false)
  || (match a.bind Instr.use, b.bind Instr.use with
     | some (_, o, u), some (_, p, v) =>
       (u.d && v.d && o.d = p.d && selIsS o.d)
         || (!(a.any onlyNames) && !(b.any onlyNames) && (instrQueues o u).any (fun n => (instrQueues p v).contains n))
     | _, _ => false)

/-- Could a source selector read what a destination writes? Groups of up to four registers are taken whole. DEDUCED (log 29). -/
def mayRead (d : Sel) (prod : Bool) (x : Sel) : Bool :=
  match d, x with
  | .v i, .v j => decide (i.toNat < j.toNat + 4) && decide (j.toNat < i.toNat + 4)
  | .s i, .s j => i = j
  | .p i, .p j => i = j
  | _, .l _ => prod
  | _, _ => false

/-- Does an instruction read its own D: MOVI.HI keeps the low half (R127). -/
def readsD (i : Instr) : Bool := match i with | .movi _ _ m => m.sub.getLsbD 0 | _ => false

/-- Does the second of a pair read a register, predicate or latch that the first writes (R21)? The engine and system opcodes name
operands inside IMM and are never paired as the second; a word that does not decode is not paired; after a SLEEP the lanes wait. -/
def pairHazard (a b : Option Instr) : Bool :=
  match a, b with
  | some x, some y =>
    (match x.use, y.use, y.toRaw with
     | some (_, o, u), some (k, p, v), some r =>
       decide (0x90 ≤ r.opc.toNat) || (match x.toRaw with | some q => q.opc = 0xC6 | none => true)
       || (u.d && ((v.sa && mayRead o.d u.prod p.sa) || (v.sb && mayRead o.d u.prod p.sb) || (v.sc && mayRead o.d u.prod p.sc)
          || (readsD y && mayRead o.d u.prod p.d)
          || (match o.d with | .p n => n = k.pg | _ => false)))
     | _, _, _ => true)
  | _, _ => true

/-- The younger's view: what stood before the older of its cycle wrote (R20); of the chunk that the older issues in, what it held then. -/
def State.younger (s : State) (p : Path) : Path :=
  let x := s.sheaf p.sheaf
  let ch := SMap.getD (s.core x.core).latches x.quad []
  let c := x.openChunk?.getD x.newChunk
  { p with snap := some x.regs, lat := some ch, vis := some (c.id, c.held.length) }

/-- Take a pipe. -/
def State.takePipe (s : State) (core q k held : Nat) : State :=
  s.updCore core (fun c =>
    { c with busy := SMap.update c.busy q [] (fun l => (List.range 6).map (fun j => if j = k then s.cycle + held else l.getD j 0)) })

/-- The paths of a picked sheaf, older first, with the pipe slot and the cycles of each. -/
def State.choosePaths (s : State) (core q i : Nat) (late : Bool := false) : List (Path × Nat × Nat) :=
  let x := s.sheaf i
  let gs := s.groups i
  let entry := fun (g : Pc × Mask) (busy : Option Nat) =>
    let (p, n) := s.pipeAt i g.1
    if !s.able core q i late g then none
    else
      (p.slots.find? (fun k => decide ((s.core core).busyAt q k ≤ s.cycle) && busy ≠ some k)).map (fun k =>
        (({ sheaf := i, lanes := g.2, pc := g.1, split := decide (1 < gs.length), pass := x.passOf g.1 } : Path), k, n))
  match gs with
  | [] => []
  | [g] =>
    (match entry g none with
     | none => []
     | some a =>
       let n := nextPc g.1
       let bs := (s.codeLine x.core (s.team x.team).ctx g.1.toNat).getD []
       let j1 := s.peek i g.1
       let j2 := s.peek i n
       if linePair bs (pcSlot g.1) && !withheld j1 j2 && !pairHazard j1 j2 then
         (match entry (n, g.2) (some a.2.1) with
          | some b => [a, b]
          | none => [a])
       else [a])
  | g :: rest =>
    let one := entry g none
    match x.pathTwo rest with
    | none => one.toList
    | some g2 =>
      match one with
      | none => (entry g2 none).toList
      | some a =>
        if withheld (s.peek i g.1) (s.peek i g2.1) then [a]
        else match entry g2 (some a.2.1) with
          | some b => [a, b]
          | none => [a]

/-- The pass counts after an issue opportunity (R19, R23): a group whose instruction did not issue although it could have gains one, one
withheld by R20 among them; one that issued starts again at 0. DESIGN CHOICE (log 92): a group whose pipe was free at the pick could
have issued, even where a chosen path then took that pipe. -/
def State.newPasses (s : State) (core q i : Nat) (chosen : List (Path × Nat × Nat)) (late : Bool := false) : SMap Nat :=
  let x := s.sheaf i
  (s.groups i).foldl (fun m g =>
    if chosen.any (fun c => c.1.pc = g.1) then m
    else SMap.setC m g.1.toNat 0 (x.passOf g.1 + (if s.able core q i late g then 1 else 0))) []

/-- The slots that may follow a slot, as far as its word tells: the next one, a branch's target, and with `calls` a CALL's. -/
def State.flow (s : State) (i : Nat) (calls : Bool) (pc : Pc) : List Pc :=
  let all := fun (h : Hd) => h.pg = 15 && !h.pn
  let n := nextPc pc
  match s.peek i pc with
  | some (.bra h o _) => branchTarget pc o.imm :: (if all h then [] else [n])
  | some (.brd _ o _) => [branchTarget pc o.imm, n]
  | some (.call _ o _) => if calls then [branchTarget pc o.imm, n] else [n]
  | some (.jmp h _ _) | some (.jmpr h _ _) | some (.ret h _ _) | some (.exit h _ _) => if all h then [] else [n]
  | some _ => [n]
  | none => []

/-- The slots reached from a list of slots, in at most the given number of looks, beside those seen. -/
def State.reach (s : State) (i : Nat) (calls : Bool) : Nat → List Pc → List Pc → List Pc
  | 0, _, seen => seen
  | _, [], seen => seen
  | n + 1, p :: r, seen => if seen.contains p then s.reach i calls n r seen else s.reach i calls n (s.flow i calls p ++ r) (p :: seen)

/-- A restored sheaf has left its restore routine: each live lane stands at a slot that control reaches from the SAFEPT, CALLs apart, or at
one after the SAFEPT that it does not reach from the routine's start, the routine's CALLs with it (R302). DEDUCED (log 84). -/
def State.routineOver (s : State) (i : Nat) : Bool :=
  let x := s.sheaf i
  let tm := s.team x.team
  x.regs.routine && tm.status ≠ .saving &&
    (match tm.restore.find? (fun e => e.1 = i) with
     | some (_, sp) =>
       let start := ((tm.hdr.sptab.find? (fun e => e.1 = sp)).map (fun e => e.2.2)).getD 0
       let main := s.reach i false Config.routineSlots [nextPc (BitVec.ofNat 56 sp)] []
       let text := s.reach i true Config.routineSlots [BitVec.ofNat 56 start] []
       (Mask.list (s.live i)).all (fun l =>
         let p := x.regs.pcOf l
         main.contains p || (decide (sp < p.toNat) && !text.contains p))
     | none => true)

/-- Issue the instructions of a picked sheaf: they stand in the issue, older first. -/
def State.issueSheaf (s0 : State) (core q i : Nat) (late : Bool := false) : State :=
  let s := if s0.routineOver i then s0.updSheaf i (fun x => { x with regs := { x.regs with routine := false } }) else s0
  let ch := s.choosePaths core q i late
  let s1 := s.updSheaf i (fun x => { x with passes := s.newPasses core q i ch late })
  let s2 := ch.foldl (fun a c => a.takePipe core q c.2.1 c.2.2) s1
  match ch with
  | [] => s2
  | [a] => { s2 with issue := [a.1] }
  | a :: b :: _ => { s2 with issue := [a.1, s2.younger b.1] }

/-- A sheaf whose voted instruction is a push to a full endpoint closes its open chunk before it, so that the pushes and commands it
holds are released (R220, R245). -/
def State.closeFull (s : State) (i : Nat) : State :=
  if s.sheafFree i && (s.sheaf i).openChunk?.isSome && (s.voted i).any (fun g => s.pushesFull i (s.peek i g.1)) then s.updSheaf i Sheaf.close else s

/-- QUADRANT_ISSUE: one cycle of a quadrant (R17, R94). DESIGN CHOICE (log 112): of two late sheaves with an NW producer next, each bars the
other's producer. -/
def execQuadrantIssue (core q : Nat) (s0 : State) : Outcome :=
  let s := (s0.quadSheaves core q).foldl State.closeFull s0
  let all := s.quadSheaves core q
  let can := all.filter (fun i => s.sheafFree i && !(s.canIssue core q i).isEmpty)
  let late := fun (i : Nat) => can.any (fun j => j ≠ i && decide (224 ≤ (s.sheaf j).pickWait))
  let ready := can.filter (fun i => !(s.canIssue core q i (late i)).isEmpty)
  let lock := SMap.get? (s.core core).lock q
  let pick : Option Nat :=
    match lock with
    | some (i, _) => if ready.contains i then some i else none
    | none =>
      match ready.find? (fun i => decide (256 ≤ (s.sheaf i).pickWait)) with
      | some i => some i
      | none => ready.foldl (fun b i => match b with
          | some j => if (s.sheaf j).pickWait < (s.sheaf i).pickWait then some i else b
          | none => some i) none
  let wait := fun (a : State) (i : Nat) =>
    a.updSheaf i (fun x => { x with pickWait := if pick = some i then 0 else if ready.contains i then x.pickWait + 1 else 0 })
  let s1 := all.foldl wait s
  match pick with
  | some i =>
    let s2 := s1.updCore core (fun c => { c with lock := if lock.isSome then SMap.set c.lock q (i, 0) else c.lock })
    .next (s2.issueSheaf core q i (late i))
  | none =>
    match lock with
    | some (i, n) => .next (s1.updCore core (fun c => { c with lock := SMap.set c.lock q (i, n + 1) }))
    | none => .next s1

/-- NW_LOCK_EXPIRE: 32 consecutive cycles in which the producer's sheaf was not ready (R94). -/
def execNwLockExpire (core q : Nat) (s : State) : Outcome :=
  match SMap.get? (s.core core).lock q with
  | some (_, n) => .next (if 32 ≤ n then s.updCore core (fun c => { c with lock := SMap.erase c.lock q }) else s)
  | none => .next s

end Sys2Proof.Machine
end

