-- ==== Sys2Proof/Machine/Traps.lean ====
section
/-! DEFINITION. What follows a trap outside the instruction that raised it: handler entry (R292), team swap-out and resumption (R303,
R304), safe points (R301, R302), soft errors (R72, R73, R306) and the loss of a die (R307). -/

namespace Sys2Proof.Machine

/-- HANDLER_ENTRY: the prefix of a trapping sheaf has committed, and the cause takes its course (R230, R292). -/
def execHandlerEntry (i : Nat) (s : State) : Outcome :=
  let x := s.sheaf i
  match x.pend with
  | .trap t p => if x.uncommitted || !s.sheafRuns i then .next s else .next ((s.updSheaf i Sheaf.dropEmpty).enterTrap i t p)
  | _ => .next s

/-! Ending a context without an instruction that failed. -/

/-- End a context for a cause that no instruction raised: the record names a team of the context that has not ended, if there is one.
DEDUCED (log 75). -/
def State.endCtx (s : State) (f : Frame) (ctx : Nat) : State :=
  match s.teams.find? (fun p => p.2.ctx = ctx && p.2.status ≠ .ended) with
  | some p => s.endContext f p.1 p.2.core 0
  | none =>
    if s.ended.contains ctx then s
    else
      let part := ((s.parts.find? (fun p => p.2.ctx = some ctx)).map (·.1)).getD 0
      (((s.putRecord ctx (recordBytes f 0 0 0 0 part (s.diesMask ctx) 0)).emit (.msix (256 + part))).stopContext ctx)

/-! Team swap-out (R303). -/

/-- The address of a swap slot (R339). -/
def State.swapAddr (s : State) (ctx k : Nat) : Nat := s.desc ctx 307 279 * 2 ^ 23 + k * 2 ^ 23

/-- Can hardware write and read a slot: local HBM4 of a die that is served? -/
def State.slotOk (s : State) (a : Nat) : Bool :=
  match paDie a, paDie (a + 2 ^ 23 - 1) with
  | some d, some e => !s.dieAbsent d && !s.dieAbsent e
  | _, _ => false

/-- The lowest free swap slot of a context. -/
def State.freeSlot (s : State) (ctx : Nat) : Option Nat :=
  (List.range (s.desc ctx 415 400)).find? (fun k => !s.teams.any (fun p => p.2.ctx = ctx && p.2.slot = some k && p.2.status ≠ .ended))

/-- Is a command unable to go on: stopped, behind another, without the entry or the place it needs, or halted with its partition (R305)? -/
def State.cmdStuck (s : State) (t : Nat) (c : Cmd) : Bool :=
  let x := s.sheaf c.sheaf
  c.stopped || (!s.engRuns t c && (match c.stage with | .released => true | .copied => true | .pushing => true | _ => false)) ||
  (match c.stage with
   | .released =>
     (match c.kind with
      | .mma a => !(s.team t).turn c || (s.doMma t c a).isNone
      | .gath _ _ idx => !(s.team t).turn c || (SMap.get? (s.core x.core).gather x.quad).isSome
          || (idx.isNone && (x.endpoint 4).entries.isEmpty && !x.ended)
      | .cpy _ _ _ _ | .cpym _ _ => false
      | _ => !(s.team t).turn c)
   | .pushing => !x.ended && (s.pushBefore t c || decide (Config.endpointEntries ≤ (x.endpoint c.pushTo).entries.length))
   | _ => false)

/-- Has everything of a team come to rest that a swap-out waits for: no chunk closed and not committed, no access or payload on its way, every
command stopped or stuck? DEDUCED (log 74). -/
def State.atRest (s : State) (t : Nat) : Bool :=
  let ids := s.sheavesOf t
  !ids.any (fun i => (s.sheaf i).chunks.any (·.closed) || (s.sheaf i).pend.performing)
  && (s.team t).cmds.all (fun c => s.cmdStuck t c && !s.pubs.any (fun p => p.cmd = some c.id) && !s.flights.any (fun f => f.cmd = some c.id))

/-- Take a sheaf out of its core: its open chunk is squashed, the L0 result of an NW producer that stands is written to its register, sleeping
lanes are awake, its gather latch goes with it; a FENCE that waits at its scope waits on (R95, R231, R300, R303). -/
def State.leaveCore (s : State) (i : Nat) : State :=
  let s1 := (s.squashIf i (fun _ => true)).settleNw i
  let x := s1.sheaf i
  let mine := fun (g : GatherLatch) => g.sheaf = i
  let g := (SMap.get? (s1.core x.core).gather x.quad).filter mine
  let y : Sheaf := { x with
    pend := (match x.pend with | .fence _ _ _ _ => x.pend | _ => .idle), gath := g, nwLast := false, waits := x.waits.filter (fun w => match w.2 with | .sleep _ => false | _ => true) }
  ((s1.setSheaf i y).updCore x.core (fun c =>
    { c with gather := if g.isSome then SMap.erase c.gather x.quad else c.gather
             lock := c.lock.filter (fun p => p.2.1 ≠ i) })).loseLatches i

/-- TEAM_SWAP_OUT: the team leaves its core, its state stands in the slot, and the host receives the record (R303). -/
def execTeamSwapOut (t : Nat) (s : State) : Outcome :=
  let tm := s.team t
  match tm.status, tm.fault with
  | .faulted, some (tr, p, eng) =>
    if !s.atRest t then .next s
    else
      let x := s.sheaf p.sheaf
      let nest := !eng && x.hm
      let f := mkFrame tr p.pc eng nest
      match s.freeSlot tm.ctx with
      | none => .next (s.endContext f t x.core x.idx)
      | some k =>
        let a := s.swapAddr tm.ctx k
        if !s.slotOk a then
          .next (s.endContext (mkFrame { cause := cPERM, addr := BitVec.ofNat 64 a, akind := 3 } p.pc eng nest) t x.core x.idx)
        else
          let s1 := (s.sheavesOf t).foldl State.leaveCore (s.touchPa tm.ctx a)
          .next ((s1.writeRecord f t x.core x.idx).updTeam t (fun m => { m with status := .swapped, slot := some k }))
  | _, _ => .next s

/-! Registers taken from PHASE 5 on (R348). -/

/-- Does the aperture take writes of configuration: PHASE 5 or 6? -/
def State.open' (s : State) : Bool := s.phase = 5 || s.phase = 6

/-- TRESUME_WRITE (R304, R341): the register takes the fields written, and a team swapped out re-enters the distributor, or its context ends
with PAGE. DEDUCED (log 71). -/
def execTresumeWrite (val : W64) (s : State) : Outcome :=
  let v := val.toNat
  let s1 := { s with tresume := val &&& 0xFFFFFFFF0001FFFF }
  let ctx := bitsAt v 15 0
  match s.teams.find? (fun p => p.2.ctx = ctx && p.2.index = bitsAt v 63 32 && p.2.status = .swapped) with
  | some (t, tm) =>
    if !s.open' then .next s
    else if v.testBit 16 then
      match tm.fault with
      | some (tr, p, eng) =>
        .next (s1.endContext (mkFrame tr p.pc eng (!eng && (s.sheaf p.sheaf).hm)) t (s.sheaf p.sheaf).core (s.sheaf p.sheaf).idx)
      | none => .next s
    else .next (s1.updTeam t (fun m => { m with status := .resumed }))
  | none => .next s

/-! Safe points (R301, R302). -/

/-- PREEMPT_REQUEST: PREQ reads 1, sleeping lanes wake, each open chunk closes after the next instruction (R230, R300). -/
def execPreemptRequest (t : Nat) (s : State) : Outcome :=
  if (s.team t).status ≠ .resident then .next s
  else
    let one := fun (x : Sheaf) =>
      { x with waits := x.waits.filter (fun w => match w.2 with | .sleep _ => false | _ => true), closeNext := x.openChunk?.isSome }
    .next ((s.sheavesOf t).foldl (fun a i => a.updSheaf i one) (s.updTeam t (fun m => { m with preq := true })))

/-- PREEMPTION_LIMIT_EXPIRE: the team keeps running, and the launch unit reports it (R302). DEDUCED (log 72). -/
def execPreemptionLimitExpire (t : Nat) (s : State) : Outcome :=
  let tm := s.team t
  if tm.preq && tm.status = .resident then
    .next (((s.sheavesOf t).foldl (fun a i => a.updSheaf i (fun x => { x with parked := none, closeNext := false }))
      (s.updTeam t (fun m => { m with preq := false }))).emit (.limitReport t))
  else .next s

/-- The sheaves of a team that have not ended. -/
def State.running (s : State) (t : Nat) : List Nat := (s.sheavesOf t).filter (fun i => !(s.sheaf i).ended)

/-- The save area a team uses: its own, or the lowest that no other team of the context uses (R301, R339). -/
def State.freeArea (s : State) (t : Nat) : Option Nat :=
  let tm := s.team t
  let used := fun (k : Nat) => s.teams.any (fun p => p.1 ≠ t && p.2.ctx = tm.ctx && p.2.area = some k
    && (p.2.status = .saving || p.2.status = .suspended || (p.2.status ≠ .ended && (s.sheavesOf p.1).any (fun i => (s.sheaf i).regs.routine))))
  (List.range (s.desc tm.ctx 431 416)).find? (fun k => !used k)

/-- A failed TGT check at the start of a team, a sheaf or a routine (R293). -/
def startFrame (pc : Nat) (w : Nat) : Frame :=
  mkFrame { cause := cTARGET, lanes := allLanes w, addr := BitVec.ofNat 64 pc, akind := 1 } (BitVec.ofNat 56 pc) false false

/-- SAVE_ROUTINE_START (R301). -/
def execSaveRoutineStart (t : Nat) (s : State) : Outcome :=
  let tm := s.team t
  let ids := s.running t
  let ready := tm.preq && tm.status = .resident && !ids.isEmpty && tm.cmds.isEmpty && s.teamRuns t
    && ids.all (fun i => (s.sheaf i).parked.isSome && !(s.sheaf i).uncommitted)
  match ready, s.freeArea t with
  | true, some k =>
    let savea := (s.desc tm.ctx 511 456 + k * 2 ^ (s.desc tm.ctx 388 384)) % 2 ^ 56
    let save := fun (i : Nat) =>
      let sp := ((s.sheaf i).parked.getD 0).toNat
      ((tm.hdr.sptab.find? (fun e => e.1 = sp)).map (fun e => e.2.1)).getD 0
    (match ids.find? (fun i => s.targetBad (s.sheaf i).core tm.ctx (save i)) with
     | some i => .next (s.endContext (startFrame (save i) tm.hdr.width) t (s.sheaf i).core (s.sheaf i).idx)
     | none =>
       let start := fun (a : State) (i : Nat) =>
         let x := a.sheaf i
         let r : Regs := { x.regs with pc := setLanes tm.hdr.width x.regs.pc 0 (a.live i) (BitVec.ofNat 56 (save i)), routine := true }
         (a.setSheaf i { x.dropEmpty with regs := r, parked := none, hm := false, tg := 0, savedPc := [], savedWaits := [] }).loseLatches i
       let places := ids.map (fun i => (i, ((s.sheaf i).parked.getD 0).toNat))
       .next (ids.foldl start (s.updTeam t (fun m =>
         { m with status := .saving, inSave := true, area := some k, savea := savea, restore := places }))))
  | _, _ => .next s

/-- What a suspended sheaf keeps: its ALLOW and its extended-block mask (R301). DEDUCED (log 73). -/
def Sheaf.suspend (x : Sheaf) : Sheaf :=
  { team := x.team, idx := x.idx, core := x.core, quad := x.quad, slot := x.slot, nextChunk := x.nextChunk, ended := x.ended, ext := x.ext, regs := { allow := x.regs.allow } }

/-- TEAM_SUSPEND: every save routine has ended, its chunks have committed, and every command has completed (R301, R308). -/
def execTeamSuspend (t : Nat) (s : State) : Outcome :=
  let tm := s.team t
  let ids := s.running t
  if tm.status = .saving && tm.cmds.isEmpty && ids.all (fun i => s.live i = 0 && !(s.sheaf i).uncommitted && (s.sheaf i).pend = .idle) then
    let out := fun (a : State) (i : Nat) =>
      let x := a.sheaf i
      let a1 := (a.loseLatches i).updCore x.core (fun c =>
        { c with gather := c.gather.filter (fun p => p.2.sheaf ≠ i), lock := c.lock.filter (fun p => p.2.1 ≠ i) })
      let a2 := { a1 with tokens := a1.tokens.filter (fun p => p.2.1 ≠ i), precedence := a1.precedence.filter (fun k => k ≠ i) }
      a2.setSheaf i x.suspend
    .next ((ids.foldl out s).updTeam t (fun m =>
      { m with status := .suspended, inSave := false, preq := false, sp := [], splb := [], spfe := [], sppoi := [], tiles := [], xq := [] }))
  else .next s

/-! Soft errors (R72, R73, R306). -/

/-- The registers whose shadows an error in a vector register poisons: across a pair both (R73). -/
def Regs.shadowsOf (r : Regs) (n : Nat) : List Nat := if (r.vreg n).wf then [n / 2 * 2, n / 2 * 2 + 1] else [n]

/-- Poison the shadow of one register on some lanes. -/
def Regs.poisonOne (r : Regs) (w : Nat) (m : Mask) (rawTag : Bool) (k : Nat) : Regs :=
  let o := r.vreg k
  { r with v := SMap.set r.v k { o with sh := setLanes w o.sh 0 m 0xFFFF, tag := if rawTag then .raw else o.tag } }

/-- Poison a vector register of a sheaf on some lanes. A register that no chunk from some chunk on has written has not been saved there, so that
a squash back to it leaves the poison (R223, R228). -/
def Sheaf.poisonV (x : Sheaf) (w n : Nat) (m : Mask) (rawTag : Bool) : Sheaf :=
  let put := fun (r : Regs) (ks : List Nat) => ks.foldl (fun a k => a.poisonOne w m (rawTag && k = n) k) r
  let ks := x.regs.shadowsOf n
  { x with
    regs := put x.regs ks
    chunks := x.chunks.zipIdx.map (fun c =>
      { c.1 with ckpt := put c.1.ckpt (ks.filter (fun k => !(x.chunks.drop c.2).any (fun d => d.vregs.contains k))) }) }

def bumpAt (l : List W64) (k : Nat) : List W64 :=
  (List.range 6).map (fun j => let x := l.getD j 0; if j = k && x ≠ ~~~(0 : W64) then x + 1 else x)

/-- Count in a telemetry register, which saturates (R344). -/
def State.count (s : State) (k : Nat) : State := { s with tele := bumpAt s.tele k }

/-- SOFT_ERROR: the kinds of place are numbered 0 a corrected register value, 1 a corrected line, 2 a vector register's value or shadow (sheaf,
register, lane), 3 a vector register's tag (sheaf, register), 4 a scalar (sheaf, register), 5 a speculative line or a buffered scratchpad
store (sheaf, chunk), 6 a line of the local map (line), 7 a scratchpad line (team, line), 8 a fetch line (core, line address), 9 a predicate,
PC, wait state, checkpoint store, counter, barrier, queue entry or frame register (sheaf), 10 a page-table, region-table or queue-table
read (context, physical address), 11 a remote line held here (line), 12 a half of a system line held here (half). DESIGN CHOICE (log 111):
a poisoned value keeps the bits it had. -/
def execSoftError (site a b c : Nat) (s : State) : Outcome :=
  let w := (s.team (s.sheaf a).team).hdr.width
  if [2, 3, 4, 5, 9].contains site && (SMap.get? s.sheaves a).isNone then .next s
  else
  match site with
  | 0 => .next (s.count 0)
  | 1 => .next (s.count 1)
  | 2 => .next (s.updSheaf a (fun x => x.poisonV w b (Mask.of 64 (fun l => l = c)) false))
  | 3 => .next (s.updSheaf a (fun x => x.poisonV w b (allLanes w) true))
  | 4 => .next (s.updSheaf a (fun x =>
      let o := x.regs.sreg b
      { x with regs := { x.regs with s := SMap.set x.regs.s b { o with bnd := 0xFFFFFFFF } } }))
  | 5 => .next (s.squashIf a (fun k => k.id = b))
  | 6 => .next (({ s with poison := SMap.setC s.poison a false true }.markAnew a true).count 2)
  | 7 => .next ((s.updTeam a (fun m => { m with sppoi := SMap.setC m.sppoi b false true })).count 2)
  | 8 => .next (s.updCore a (fun k =>
      { k with icache := k.icache.map (fun e =>
          if e.2.1 = b / 64 then (e.1, e.2.1, (List.range 64).map (fun j => if j = 0 then e.2.2.getD 0 0 ^^^ 1 else e.2.2.getD j 0)) else e) }))
  | 9 =>
    let x := s.sheaf a
    .next (s.endContext (mkFrame { cause := cPOISON } (x.regs.pcOf (lowest (s.live a))) false x.hm) x.team x.core x.idx)
  | 10 => .next (s.endCtx (mkFrame { cause := cPOISON, addr := BitVec.ofNat 64 b, akind := 3 } 0 false false) a)
  | 11 => .next (match SMap.get? s.remHeld a with
    | some d => { s with remHeld := SMap.set s.remHeld a { d with poison := true } }.count 2
    | none => s)
  | 12 => .next (match SMap.get? s.sysHeld a with
    | some d => { s with sysHeld := SMap.set s.sysHeld a { d with poison := true } }.count 2
    | none => s)
  | _ => .next s

/-! Die loss (R307). -/

/-- The contexts whose touched-dies mask holds a die. -/
def State.touching (s : State) (d : Nat) : List Nat :=
  let b := s.descAddr 0 + 56
  s.mem.filterMap (fun c =>
    let k := (c.1 - b) / 64
    if b ≤ c.1 ∧ (c.1 - b) % 64 = 0 ∧ k < 2 ^ 16 ∧ c.2.getLsbD d ∧ s.desc k 63 63 = 1 then some k else none)

/-- DIE_LOSS. DESIGN CHOICE (log 98): the Ouvhel ports of the die's package edge stay up. -/
def execDieLoss (d : Nat) (s : State) : Outcome :=
  if !s.open' || decide (Config.dies ≤ d) || s.dieAbsent d then .next s
  else
    let s1 := ({ s with absent := s.absent ||| BitVec.ofNat 8 (2 ^ d) }).emit (.msix 267)
    .next ((s.touching d).foldl (fun a ctx => a.endCtx (mkFrame { cause := cDIELOST, die := d } 0 false false) ctx) s1)

end Sys2Proof.Machine
end

