-- ==== Sys2Proof/Machine/Launch.lean ====
section
/-! DEFINITION. The launch unit and its distributor: queues and doorbells (R269, R270), packets (R271 to R276), placement (R277, R278), the
ends of sheaves, teams and launches (R279, R280), child launches (R287). -/

namespace Sys2Proof.Machine

/-! The launch unit's own accesses, through the green's translation unit in the queue's context. -/

/-- Where an access of the launch unit goes; a coded or absent target, or an RO one for a write, forbids it (R273). -/
def State.luLoc (s : State) (ctx va : Nat) (a : Acc) : Option Loc :=
  if !s.descOk ctx then none
  else
    match s.globalLoc .green ctx va a with
    | .error _ => none
    | .ok l =>
      if l.isCoded || (l.ro && a ≠ .load) then none
      else match l.line with
        | .rem _ => if s.reachable l.pa then some l else none
        | _ => some l

/-- What the green's unit holds after the access, and the stacks touched by its walk and by the access (R307). -/
def State.luNote (s : State) (ctx va : Nat) (l : Loc) : State :=
  (((s.walkTouch ctx va .green).fillTlb .green ctx va).fillReg .green ctx va).touchPa ctx l.pa

/-- What an access of the launch unit that fails leaves: the stacks of its walk and of the region table count (R307). -/
def State.luTried (s : State) (ctx va : Nat) : State := if s.descOk ctx then s.tryTouch .green ctx va else s

/-- What a read of the launch unit leaves. -/
def State.luSeen (s : State) (ctx va : Nat) : State :=
  match s.luLoc ctx va .load with | some l => s.luNote ctx va l | none => s.luTried ctx va

/-- The lost die that an access of the launch unit would reach (R307). -/
def State.luLost (s : State) (ctx va : Nat) (a : Acc) : Option Nat :=
  if !s.descOk ctx then none
  else match s.globalLoc .green ctx va a with | .error f => if f.cause = cDIELOST then some f.die else none | .ok _ => none

/-- An access of the launch unit that would reach a lost die ends the context with DIELOST (R307); otherwise what its failure brings. -/
def State.luFails (s : State) (ctx va : Nat) (a : Acc) (f : State → State) : State :=
  match s.luLost ctx va a with
  | some d => s.endCtx (mkFrame { cause := cDIELOST, addr := BitVec.ofNat 64 va, akind := 1, die := d } 0 false false) ctx
  | none => f s

/-- Note the test of a DEP word, where there is one. -/
def State.tookDep (s : State) (ctx dep : Nat) : State := if dep = 0 then s else s.luSeen ctx dep

/-- Read `n` bytes that lie in one line. DEDUCED (log 67). -/
def State.luRead (s : State) (ctx va n : Nat) : Option Nat :=
  (s.luLoc ctx va .load).map (fun l => leNat (((s.line l.line).bytes.drop l.ofs).take n))

/-- Test a word at the home of its line (R272): no copy that an acquire at SYS scope drops is tested. -/
def State.luTest (s : State) (ctx va : Nat) : Option Nat := (s.acquire true).luRead ctx va 8

/-- Write bytes that lie in one line: at the green at once, the line untracked (R56). -/
def State.luPut (s : State) (l : Loc) (bs : List Byte) : State :=
  match l.line with
  | .mem _ => s.greenWrite l.pa bs
  | .sys _ => s.sysPoke l.pa bs
  | .rem n =>
    if remDev l.pa = s.devnum then s.greenWrite (remOfs l.pa) bs
    else s.remWrite n { line := .rem n, bytes := bs.zipIdx.map (fun b => (l.ofs + b.2, b.1)), untracked := true }
  | _ => s

/-- Write a word of the launch unit; `fail`: what a failure brings (R273). -/
def State.luWrite (s : State) (ctx va : Nat) (bs : List Byte) (fail : State → State) : State :=
  match s.luLoc ctx va .store with
  | some l => (s.luNote ctx va l).luPut l bs
  | none => (s.luTried ctx va).luFails ctx va .store fail

/-- Where a 64-bit atomic of the launch unit goes. A location whose atomics fault ATYPE refuses it. -/
def State.luWord (s : State) (ctx va : Nat) : Option Loc := (s.luLoc ctx va .atomic).filter (fun l => (s.atomicRule none l).isNone)

/-- A 64-bit atomic of the launch unit at the home of a word (R211, R272, R279), then `done`; `fail`: what a failure brings (R273). -/
def State.luAtomic (s : State) (ctx va : Nat) (f : Nat → Nat) (done fail : State → State) : State :=
  match s.luWord ctx va with
  | some l =>
    let old := leNat (((s.atomHome l.line).bytes.drop l.ofs).take 8)
    done ((s.luNote ctx va l).luPut l (leBytes 8 (f old % 2 ^ 64)))
  | none => (s.luTried ctx va).luFails ctx va .atomic fail

/-- May the launch unit write a word now: every entry of its line is published, and no priority-token holder keeps it back (R211, R229)? -/
def State.luFree (s : State) (ctx va : Nat) : Bool :=
  match s.luLoc ctx va .atomic with
  | some l => !s.lineBusy (s.localLine l.line) && (s.deferring none [(s.localLine l.line).name] [(s.localLine l.line).name] none).isEmpty
  | none => true

/-! Queues (R269, R270, R273). -/

def State.queue (s : State) (q : Nat) : Queue := SMap.getD s.queues q {}
def State.setQueue (s : State) (q : Nat) (x : Queue) : State := { s with queues := SMap.set s.queues q x }
def Queue.en (x : Queue) : Bool := x.d0.getLsbD 63
def Queue.halt (x : Queue) : Bool := x.d0.getLsbD 62
def Queue.prio (x : Queue) : Nat := bitsAt x.d0.toNat 61 60
def Queue.pmask (x : Queue) : Nat := bitsAt x.d0.toNat 59 52
def Queue.ctx (x : Queue) : Nat := bitsAt x.d0.toNat 47 32
def Queue.base (x : Queue) : Nat := bitsAt x.d1.toNat 55 6 * 64
/-- Slots of the queue. -/
def Queue.slots (x : Queue) : Nat := 2 ^ (bitsAt x.d1.toNat 5 0 - 6)
def Queue.ridxVa (x : Queue) : Nat := bitsAt x.d2.toNat 55 3 * 8
def Queue.errVa (x : Queue) : Nat := bitsAt x.d3.toNat 55 5 * 32
/-- The address of packet `i`. -/
def Queue.slotVa (x : Queue) (i : Nat) : Nat := (x.base + 64 * (i % x.slots)) % 2 ^ 56

/-- The error record (R273). -/
def errBytes (idx code ty addr : Nat) : List Byte :=
  leBytes 8 idx ++ leBytes 1 code ++ leBytes 1 ty ++ List.replicate 6 0 ++ leBytes 8 addr ++ List.replicate 8 0

/-- Raise the queue's interrupt, and write an error record; a record that cannot be written is lost (R273). -/
def State.queueError (s : State) (q idx code ty addr : Nat) : State :=
  let x := s.queue q
  (s.emit (.msix q)).luWrite x.ctx x.errVa (errBytes idx code ty addr) id

/-- Halt a queue with a code (R273). -/
def State.haltQueue (s : State) (q idx code ty addr : Nat) : State :=
  let x := s.queue q
  (s.setQueue q { x with d0 := x.d0 ||| 0x4000000000000000, waiting := false }).queueError q idx code ty addr

/-- The failed access of a code 0x05 (R273): the queue halts, or the context ends where a lost die is met (R307). -/
def State.haltAccess (s : State) (q idx ty addr : Nat) (a : Acc) : State :=
  s.luFails (s.queue q).ctx addr a (fun b => b.haltQueue q idx 0x05 ty addr)

/-- The TYPE of the packet at the read index, where there is one that can be read; 0 otherwise (R273). DEDUCED (log 66). -/
def State.headType (s : State) (q : Nat) : Nat :=
  let x := s.queue q
  if x.ridx < x.widx then (((s.acquire true).luRead x.ctx (x.slotVa x.ridx) 64).getD 0) % 256 else 0

/-- Note the read of a packet. -/
def State.tookPacket (s : State) (q : Nat) : State :=
  let x := s.queue q
  (s.acquire true).luSeen x.ctx (x.slotVa x.ridx)

/-- A doorbell observed (R270, R273, R339). -/
def State.observe (s : State) (q w : Nat) : State :=
  let x := s.queue q
  if !s.descOk x.ctx then s.haltQueue q x.ridx 0x05 0 0
  else if w < x.widx ∨ x.ridx + x.slots < w then (if x.ridx < x.widx then s.tookPacket q else s).haltQueue q x.ridx 0x09 (s.headType q) w
  else s.setQueue q { x with widx := w }

/-- DOORBELL (R270, R346, R348). -/
def execDoorbell (off size : Nat) (val : W64) (s : State) : Outcome :=
  let q := off / 64
  if s.phase ≠ 5 || size ≠ 8 || off % 64 ≠ 0 || decide (256 ≤ q) then .next s
  else
    let x := s.queue q
    .next (if x.en then s.observe q val.toNat else s.setQueue q { x with recorded := some val.toNat })

/-- A read of the doorbell aperture (R270). -/
def State.readDoorbell (_ : State) (_off : Nat) : W64 := 0

/-- QD0_WRITE: HALT is only cleared by a write; EN set to 1 takes the index recorded while it was 0, as a doorbell written now: from QUIESCE on
none is accepted (R269, R270, R346). -/
def execQd0Write (q : Nat) (val : W64) (s : State) : Outcome :=
  if !s.open' || decide (256 ≤ q) then .next s
  else
    let x := s.queue q
    let keep : W64 := if x.halt && val.getLsbD 62 then 0x4000000000000000 else 0
    let d0 := (val &&& 0xBFF0FFFF00000000) ||| keep
    let y : Queue := { x with d0 := d0 }
    let s1 := s.setQueue q y
    match x.en, y.en, x.recorded with
    | false, true, some w =>
      let s2 := s1.setQueue q { y with recorded := none }
      .next (if s.phase = 5 then s2.observe q w else s2)
    | _, _, _ => .next s1

/-- QD1_WRITE: another LOG2N than 6 to 30 makes the write ignored (R269). -/
def execQd1Write (q : Nat) (val : W64) (s : State) : Outcome :=
  let n := bitsAt val.toNat 5 0
  if !s.open' || decide (256 ≤ q) || decide (n < 6) || decide (30 < n) then .next s
  else .next (s.setQueue q { s.queue q with d1 := val &&& 0x00FFFFFFFFFFFFFF })

/-! Partitions (R288, R340). -/

def State.nparts (s : State) : Nat := 2 ^ (bitsAt s.partcfg.toNat 1 0)
def State.partDies (s : State) (p : Nat) : List Nat :=
  let k := s.nparts
  (List.range 8).filter (fun d => decide (p * 8 / k ≤ d) && decide (d < (p + 1) * 8 / k))
/-- Does a partition take launches: configured, and with no ABSENT die? -/
def State.partOk (s : State) (p : Nat) : Bool := decide (p < s.nparts) && (s.partDies p).all (fun d => !s.dieAbsent d)

/-! Placement (R12, R13, R277). -/

/-- The core of the pair and the quadrant of sheaf i (R12). -/
def placeOf (pair : Bool) (i : Nat) : Nat × Nat := if pair then (i % 2, i / 2 % 4) else (0, i % 4)

/-- The teams that hold resources for a context. -/
def State.placed (s : State) (ctx : Nat) : List Nat :=
  (s.teams.filter (fun p => p.2.ctx = ctx && (p.2.status = .resident || p.2.status = .faulted || p.2.status = .saving))).map (·.1)

/-- Sheaves of a team on a quadrant of a core. -/
def State.onQuad (s : State) (t core q : Nat) : List Nat := (s.sheavesOf t).filter (fun i => (s.sheaf i).core = core && (s.sheaf i).quad = q)

/-- Does a team with these sheaves find room beside the teams of `beside` (R13)? -/
def State.room (s : State) (beside : List Nat) (h : Header) (idxs : List Nat) (core : Nat) : Bool :=
  let offs := if h.pair then [0, 1] else [0]
  let w := h.width
  let lines := fun (x : Header) => (x.scratch + 127) / 128 * 128
  let coreHas := fun (t c : Nat) => let m := s.team t; decide (m.core = c) || (m.hdr.pair && decide (m.core + 1 = c))
  offs.all (fun o =>
    let c := core + o
    let there := beside.filter (fun t => coreHas t c)
    decide ((there.map (fun t => lines (s.team t).hdr)).sum + lines h ≤ Config.scratchPerCore)
    && decide ((there.map (fun t => (s.team t).hdr.acc)).sum + h.acc ≤ Config.tilesPerCore)
    && (List.range 4).all (fun q =>
      let k := (idxs.filter (fun i => placeOf h.pair i = (o, q))).length
      let live := fun (t : Nat) => (s.onQuad t c q).filter (fun i => !(s.sheaf i).ended)
      let n := (there.map (fun t => (live t).length)).sum
      let lanes := (there.map (fun t => (live t).length * (s.team t).hdr.width)).sum
      let regs := (there.map (fun t =>
        let m := (s.team t).hdr
        (live t).length * m.regs * m.width + (if (s.onQuad t c q).isEmpty then 0 else m.xpool * 16 * m.width))).sum
      k = 0 || (decide (n + k ≤ Config.sheafSlots) && decide (lanes + k * w ≤ Config.lanesPerQuad)
        && decide (regs + k * h.regs * w + h.xpool * 16 * w ≤ Config.laneRegsPerQuad))))

/-- The sheaf numbers of a team that have to be placed. -/
def State.toPlace (s : State) (t : Nat) : List Nat :=
  let m := s.team t
  if m.status = .waiting then List.range m.sheaves else (s.running t).map (fun i => (s.sheaf i).idx)

/-- May a team go to a core now: in its partition, with room, its gather latches free, its launch's stagger kept (R277)? -/
def State.fits (s : State) (t core : Nat) : Bool :=
  let m := s.team t
  let l := s.launch m.launch
  let d := core / Config.coresPerDie
  (s.partDies m.part).contains d && !s.dieAbsent d && (!m.hdr.pair || core % 2 = 0)
  && s.room (s.placed m.ctx) m.hdr (s.toPlace t) core
  && (m.status = .waiting || (s.running t).all (fun i =>
      let x := s.sheaf i
      let p := placeOf m.hdr.pair x.idx
      x.gath.isNone || (SMap.get? (s.core (core + p.1)).gather p.2).isNone))
  && (m.status ≠ .waiting || l.stagger = 0
      || (match SMap.get? l.lastStart d with | some c => decide (c + l.stagger ≤ s.cycle) | none => true))

/-- The cores, in ascending order, to which a team may go now. -/
def State.cores' (s : State) (t : Nat) : List Nat :=
  ((s.partDies (s.team t).part).flatMap (fun d => (List.range Config.coresPerDie).map (fun c => d * Config.coresPerDie + c))).filter (s.fits t)

def Launch.total (l : Launch) : Nat := l.fx * l.fy * l.fz

/-- Is a word ≤ 0 as I64 (R276)? -/
def State.depMet (s : State) (ctx dep : Nat) : Bool :=
  dep = 0 || (match s.luTest ctx dep with | some v => decide (sInt 64 v ≤ 0) | none => false)

/-- Is the wait of a child for those that SEQ names over, and does its DEP word read ≤ 0 (R276, R287)? -/
def State.childMet (s : State) (l : Launch) : Bool :=
  l.after.all (fun k => (s.launch k).completed || (SMap.get? s.launches k).isNone) && s.depMet l.ctx l.dep

/-- May a team be placed as far as its launch goes: earlier launches of the queue have started, a child has become ready (R276, R287)? -/
def State.launchOpen (s : State) (t : Nat) : Bool :=
  let m := s.team t
  let l := s.launch m.launch
  (m.status = .resumed || m.status = .suspended)
  || (m.status = .waiting
      && (if l.child then
            decide (0 < l.started) || l.ready
          else !s.launches.any (fun p => !p.2.child && p.2.queue = l.queue && decide (p.2.pkt < l.pkt) && decide (p.2.started < p.2.total))))

/-- The team the distributor serves next: of those that find a place, the highest priority, then the queue served longest ago (R276, R277).
DESIGN CHOICE (log 69). -/
def State.placeChoice (s : State) : Option Nat :=
  let key := fun (t : Nat) => let l := s.launch (s.team t).launch; (l.prio, (s.queue l.queue).turn, t)
  let less := fun (a b : Nat × Nat × Nat) => decide (a.1 < b.1) || (a.1 = b.1 && (decide (a.2.1 < b.2.1) || (a.2.1 = b.2.1 && decide (a.2.2 < b.2.2))))
  (s.teamIds.filter (fun t => s.launchOpen t && s.teamRuns t && (s.phase = 5 || s.phase = 6) && !(s.cores' t).isEmpty)).foldl
    (fun b t => match b with | some u => if less (key t) (key u) then some t else b | none => some t) none

/-- The lowest free slot of a quadrant. -/
def State.freeSheafSlot (s : State) (ctx core q : Nat) : Nat :=
  let used := ((s.placed ctx).flatMap (fun t => s.onQuad t core q)).filter (fun i => !(s.sheaf i).ended)
  ((List.range Config.sheafSlots).find? (fun k => !used.any (fun i => (s.sheaf i).slot = k))).getD 0

/-- Hand the next team of a launch to the distributor. -/
def State.nextTeam (s : State) (lid : Nat) : State :=
  let l := s.launch lid
  if l.total ≤ l.started then s
  else
    let m : Team := { launch := lid, index := l.started, ctx := l.ctx, part := l.part, sheaves := l.sheaves, hdr := l.hdr }
    { s.setTeam s.nextId m with nextId := s.nextId + 1 }

/-- A packet is consumed: the read index passes it and is written to the RIDX word (R270, R273). -/
def State.consume (s : State) (q ty : Nat) : State :=
  let x := s.queue q
  let y : Queue := { x with ridx := x.ridx + 1, taken := x.ridx + 1, waiting := false }
  (s.setQueue q y).luWrite y.ctx y.ridxVa (leBytes 8 y.ridx) (fun b => b.haltQueue q x.ridx 0x05 ty y.ridxVa)

/-- The context's hint ring as read when a team is placed or the context is switched in (R319). -/
def State.readRing (s : State) (ctx : Nat) : State :=
  let cb := s.hintCb ctx
  if cb = 0 then s
  else
    let r := SMap.getD s.hints ctx {}
    let b : W64 := BitVec.ofNat 64 (leNat (s.sysPeek (2 ^ 50 + cb) 8))
    let w := leNat (s.sysPeek (2 ^ 50 + cb + 8) 8)
    { s with hints := SMap.set s.hints ctx { r with base := b &&& 0x0003FFFFFFFFF01F, wi := w } }

/-- The sheaves of a fresh team (R12, R25, R30, R278). -/
def State.makeSheaves (s : State) (t core : Nat) : State :=
  let m := s.team t
  (List.range m.sheaves).foldl (fun a i =>
    let p := placeOf m.hdr.pair i
    let c := core + p.1
    let x : Sheaf := { team := t, idx := i, core := c, quad := p.2, slot := a.freeSheafSlot m.ctx c p.2, regs := { allow := m.hdr.allow, pc := List.replicate m.hdr.width (BitVec.ofNat 56 m.hdr.entry) } }
    { a.setSheaf a.nextId x with nextId := a.nextId + 1 }) s

/-- Put the sheaves of a team that returns on their quadrants (R12, R302, R304). -/
def State.seatSheaves (s : State) (t core : Nat) : State :=
  let m := s.team t
  (s.running t).foldl (fun a i =>
    let x := a.sheaf i
    let p := placeOf m.hdr.pair x.idx
    let c := core + p.1
    let slot := a.freeSheafSlot m.ctx c p.2
    let a1 := a.setSheaf i { x with core := c, quad := p.2, slot := slot, gath := none }
    (match x.gath with
     | some g => a1.updCore c (fun y => { y with gather := SMap.set y.gather p.2 g })
     | none => a1)) s

/-- A fresh team starts; with the launch's first team its packet is consumed (R270, R278, R293). -/
def State.startTeam (s : State) (t core : Nat) : State :=
  let m := s.team t
  let l := s.launch m.launch
  let d := core / Config.coresPerDie
  let s1 := (s.updTeam t (fun y => { y with core := core })).makeSheaves t core
  let s2 := s1.updTeam t (fun y => { y with status := .resident })
  let l2 : Launch := { l with started := l.started + 1, lastStart := SMap.set l.lastStart d s.cycle }
  let s3 := ({ s2 with launches := SMap.set s2.launches m.launch l2 }).nextTeam m.launch
  let s4 := if l.started = 0 && !l.child then s3.consume l.queue 0x01 else s3
  if s4.targetBad core m.ctx m.hdr.entry then s4.endContext (startFrame m.hdr.entry m.hdr.width) t core 0 else s4

/-- A team swapped out returns: each sheaf at the opening of its squashed chunk, each stopped command at its element or row (R304); one
whose save routines run goes on with them (R301). -/
def State.resumeTeam (s : State) (t core : Nat) : State :=
  let m := s.team t
  let a := s.swapAddr m.ctx (m.slot.getD 0)
  if !s.slotOk a then
    s.endContext (mkFrame { cause := cPERM, addr := BitVec.ofNat 64 a, akind := 3 } 0 false false) t core 0
  else
    ((s.touchPa m.ctx a).seatSheaves t core).updTeam t (fun y =>
      { y with core := core, status := if y.inSave then .saving else .resident, slot := none, fault := none, cmds := y.cmds.map (fun c => { c with stopped := false }) })

/-- A suspended team returns: each sheaf starts at its restore routine (R302, R293). -/
def State.restoreTeam (s : State) (t core : Nat) : State :=
  let m := s.team t
  let s1 := (s.seatSheaves t core).updTeam t (fun y => { y with core := core, status := .resident })
  let pcOf := fun (i : Nat) =>
    let sp := ((m.restore.find? (fun e => e.1 = i)).map (·.2)).getD 0
    ((m.hdr.sptab.find? (fun e => e.1 = sp)).map (fun e => e.2.2)).getD 0
  match (s1.running t).find? (fun i => s1.targetBad (s1.sheaf i).core m.ctx (pcOf i)) with
  | some i => s1.endContext (startFrame (pcOf i) m.hdr.width) t (s1.sheaf i).core (s1.sheaf i).idx
  | none => (s1.running t).foldl (fun a i => a.updSheaf i (fun x =>
      { x with regs := { x.regs with pc := List.replicate m.hdr.width (BitVec.ofNat 56 (pcOf i)), routine := true } })) s1

/-- The instruction caches of a team's cores are empty when the first team of its launch comes to them (R82). DEDUCED (log 99). -/
def State.freshCode (s : State) (t core : Nat) : State :=
  let m := s.team t
  let there := fun (c : Nat) => s.teams.any (fun p => p.1 ≠ t && p.2.launch = m.launch && p.2.status ≠ .waiting
    && (decide (p.2.core = c) || (p.2.hdr.pair && decide (p.2.core + 1 = c))))
  (if m.hdr.pair then [core, core + 1] else [core]).foldl
    (fun a c => if there c then a else a.updCore c (fun k => { k with icache := [], refetched := [] })) s

/-- TEAM_PLACE: the distributor's next team goes to a core that can take it (R277). -/
def execTeamPlace (t core : Nat) (s : State) : Outcome :=
  if s.placeChoice ≠ some t || !s.fits t core then .next s
  else
    let m := s.team t
    let q := (s.launch m.launch).queue
    let d := core / Config.coresPerDie
    let s1 := (((s.setQueue q { s.queue q with turn := s.nextId }).touchDie m.ctx d).readRing m.ctx).freshCode t core
    let s2 := { s1 with nextId := s1.nextId + 1 }
    .next (match m.status with
      | .waiting => s2.startTeam t core
      | .resumed => s2.resumeTeam t core
      | .suspended => s2.restoreTeam t core
      | _ => s)

/-! Packets (R271, R272, R273). -/

/-- The packet at the head of a served queue, as read with an acquire at SYS scope; none where it cannot be read. -/
def State.headPacket (s : State) (q : Nat) : Option (Option Nat) :=
  let x := s.queue q
  if s.open' && x.en && !x.halt && decide (x.taken = x.ridx) && decide (x.ridx < x.widx) then
    some ((s.acquire true).luRead x.ctx (x.slotVa x.ridx) 64)
  else none

/-- Of several causes the lowest code is recorded (R273). -/
def lowestCode (l : List (Nat × Nat)) : Option (Nat × Nat) :=
  l.foldl (fun b e => match b with | some c => if e.1 < c.1 then some e else b | none => some e) none

/-- Of the reads that failed with a code 0x05, one that met a lost die (R307). -/
def State.lostRead (s : State) (ctx : Nat) (l : List (Nat × Nat)) : Option Nat :=
  (l.find? (fun e => e.1 = 5 && (s.luLost ctx e.2 .load).isSome)).map (·.2)

/-- Halt a queue for the causes of a packet that hold: with the lowest code, or by the end of its context where a read met a lost die. -/
def State.haltCodes (s : State) (q ty : Nat) (l : List (Nat × Nat)) : State :=
  let x := s.queue q
  match s.lostRead x.ctx l, lowestCode l with
  | some va, _ => s.haltAccess q x.ridx ty va .load
  | none, some c => s.haltQueue q x.ridx c.1 ty c.2
  | none, none => s

/-- Codes 2 to 4 of a KERNEL packet. DEDUCED (log 65). -/
def kernelCodes (p : Nat) : List (Nat × Nat) :=
  let kobj := bitsAt p 183 128
  let dep := bitsAt p 375 320
  let done := bitsAt p 311 256
  (if bitsAt p 511 440 ≠ 0 || bitsAt p 383 376 ≠ 0 || bitsAt p 319 312 ≠ 0 || bitsAt p 255 248 ≠ 0 || bitsAt p 191 184 ≠ 0
      || bitsAt p 127 101 ≠ 0 || p.testBit 15 || bitsAt p 11 9 ≠ 0 then [(2, 0)] else [])
  ++ (if bitsAt p 95 80 = 0 || bitsAt p 79 64 = 0 || bitsAt p 63 32 = 0 then [(3, 0)] else [])
  ++ (if kobj % 64 ≠ 0 then [(4, kobj)] else if done % 8 ≠ 0 then [(4, done)] else if dep % 8 ≠ 0 then [(4, dep)] else [])

/-- The header a kernel object names (R274). -/
def headerOf (h : Nat) (tab : List (Nat × Nat × Nat)) : Header :=
  { entry := bitsAt h 55 0, width := 16 * 2 ^ (bitsAt h 65 64), pair := h.testBit 66, bounds := h.testBit 67, regs := 8 * bitsAt h 76 72
    xpool := bitsAt h 85 80, acc := bitsAt h 96 88, scratch := bitsAt h 147 128, allow := BitVec.ofNat 32 (bitsAt h 191 160)
    trappc := bitsAt h 247 192, sptab := tab }

/-- Is a header malformed as far as its own 64 bytes go (R275)? DEDUCED (log 66). -/
def headerBad (h : Nat) : Bool :=
  bitsAt h 511 336 ≠ 0 || bitsAt h 319 312 ≠ 0 || bitsAt h 255 248 ≠ 0 || bitsAt h 159 148 ≠ 0 || bitsAt h 127 97 ≠ 0 || bitsAt h 87 86 ≠ 0
  || bitsAt h 79 77 ≠ 0 || bitsAt h 71 68 ≠ 0 || bitsAt h 63 56 ≠ 1 || bitsAt h 65 64 = 3 || bitsAt h 76 72 = 0 || decide (16 < bitsAt h 76 72)
  || decide (32 < bitsAt h 85 80) || decide (256 < bitsAt h 96 88) || decide (524288 < bitsAt h 147 128)
  || allowBad (BitVec.ofNat 32 (bitsAt h 191 160)) || pcMalformed (bitsAt h 55 0)
  || (bitsAt h 247 192 ≠ 0 && pcMalformed (bitsAt h 247 192)) || (bitsAt h 311 256 ≠ 0 && bitsAt h 335 320 = 0)

/-- Read the safe-point table: its entries, or the address that cannot be read. -/
def State.readTable (s : State) (ctx : Nat) : Nat → Nat → Except Nat (List (Nat × Nat × Nat))
  | _, 0 => .ok []
  | va, n + 1 =>
    let rd := fun (k : Nat) => s.luRead ctx (va + 8 * k) 8
    match rd 0, rd 1, rd 2 with
    | some a, some b, some c =>
      (match s.readTable ctx (va + 24) n with
       | .ok r => .ok ((a % 2 ^ 56, b % 2 ^ 56, c % 2 ^ 56) :: r)
       | .error e => .error e)
    | none, _, _ => .error va
    | _, none, _ => .error (va + 8)
    | _, _, none => .error (va + 16)

/-- What the kernel object gives: a header, or the codes of R273 that hold with their addresses. -/
def State.readHeader (s : State) (ctx kobj nsh : Nat) : List (Nat × Nat) × Header :=
  if kobj % 64 ≠ 0 then ([], {})
  else
    match s.luRead ctx kobj 64 with
    | none => ([(5, kobj)], {})
    | some h =>
      let sptab := bitsAt h 311 256
      let bad : List (Nat × Nat) := if headerBad h then [(6, 0)] else []
      if sptab % 8 ≠ 0 then ((4, sptab) :: bad, {})
      else
        match s.readTable ctx sptab (bitsAt h 335 320) with
        | .error e => ((5, e) :: bad, {})
        | .ok tab =>
          let hd := headerOf h tab
          let pcs : List (Nat × Nat) := if tab.any (fun e => pcMalformed e.1 || pcMalformed e.2.1 || pcMalformed e.2.2) then [(6, 0)] else []
          let fit : List (Nat × Nat) := if bad.isEmpty && !s.room [] hd (List.range nsh) 0 then [(7, 0)] else []
          (bad ++ pcs ++ fit, hd)

/-- Note the reads of a safe-point table, up to one that fails. -/
def State.tookTable (s : State) (ctx : Nat) : Nat → Nat → State
  | _, 0 => s
  | va, n + 1 =>
    let s1 := [0, 8, 16].foldl (fun a k => a.luSeen ctx (va + k)) s
    if [0, 8, 16].any (fun k => (s.luRead ctx (va + k) 8).isNone) then s1 else s1.tookTable ctx (va + 24) n

/-- Note the reads of a kernel object and its safe-point table. -/
def State.tookHeader (s : State) (ctx kobj : Nat) : State :=
  if kobj % 64 ≠ 0 then s
  else
    let s1 := s.luSeen ctx kobj
    match s.luRead ctx kobj 64 with
    | some h => if bitsAt h 311 256 % 8 = 0 then s1.tookTable ctx (bitsAt h 311 256) (bitsAt h 335 320) else s1
    | none => s1
/-- A launch from a KERNEL packet. -/
def launchOf (p : Nat) (hd : Header) (q pkt prio ctx : Nat) (child : Bool) (after : List Nat) : Launch :=
  { queue := q, pkt := pkt, prio := prio, ctx := ctx, part := bitsAt p 14 12, hdr := hd, fx := bitsAt p 63 32, fy := bitsAt p 79 64
    fz := bitsAt p 95 80, sheaves := bitsAt p 100 96 + 1, stagger := bitsAt p 31 16, argp := bitsAt p 247 192, imgb := bitsAt p 439 384
    kobj := bitsAt p 183 128, done := bitsAt p 311 256, dep := bitsAt p 375 320, child := child, after := after }

/-- KERNEL: a ready packet becomes a launch whose teams go to the distributor; a malformed one, or a packet of no type, halts the queue (R271,
R273, R276). -/
def execKernelPkt (q : Nat) (s : State) : Outcome :=
  let x := s.queue q
  match s.headPacket q with
  | none => .next s
  | some none => .next ((s.tookPacket q).haltAccess q x.ridx 0 (x.slotVa x.ridx) .load)
  | some (some p) =>
    let ty := p % 256
    if ty = 2 ∨ ty = 3 then .next s
    else if ty ≠ 1 then .next ((s.tookPacket q).haltQueue q x.ridx 0x01 ty 0)
    else
      let part := bitsAt p 14 12
      let dep := bitsAt p 375 320
      let s1 := ((s.tookPacket q).tookDep x.ctx dep).tookHeader x.ctx (bitsAt p 183 128)
      let own := kernelCodes p ++ (if x.pmask.testBit part && s.partOk part then [] else [(8, 0)])
        ++ (if dep ≠ 0 && dep % 8 = 0 && (s1.luTest x.ctx dep).isNone then [(5, dep)] else [])
      let (codes, hd) := s1.readHeader x.ctx (bitsAt p 183 128) (bitsAt p 100 96 + 1)
      if !own.isEmpty then .next (s1.haltCodes q ty (own ++ codes))
      else if (p.testBit 8 && !x.running.isEmpty) || !s1.depMet x.ctx dep then
        (match s1.lostRead x.ctx codes with
         | some va => .next (s1.haltAccess q x.ridx ty va .load)
         | none => .next ((s.tookDep x.ctx dep).tookHeader x.ctx (bitsAt p 183 128)))
      else if !codes.isEmpty then .next (s1.haltCodes q ty codes)
      else
        let l := launchOf p hd q x.ridx x.prio x.ctx false []
        let s2 := { s1.setQueue q { x with taken := x.ridx + 1, running := x.running ++ [(x.ridx, s1.nextId)] } with
          launches := SMap.set s1.launches s1.nextId l, nextId := s1.nextId + 1, ended := s1.ended.filter (fun c => c ≠ x.ctx) }
        .next (s2.nextTeam s1.nextId)

/-- Does a word satisfy the comparison of a WAIT (R272)? -/
def waitHolds (cc : Nat) (w v : Nat) : Bool :=
  let a := sInt 64 w
  let b := sInt 64 v
  match cc with | 0 => a = b | 1 => a ≠ b | 2 => decide (a < b) | _ => decide (b ≤ a)

/-- Test a WAIT packet at the head of a queue (R272). -/
def State.tryWait (s : State) (q p : Nat) : State :=
  let x := s.queue q
  let addr := bitsAt p 119 64
  let codes := (if bitsAt p 511 192 ≠ 0 || bitsAt p 127 120 ≠ 0 || bitsAt p 63 12 ≠ 0 || p.testBit 8 || decide (3 < bitsAt p 11 9) then [(2, 0)] else [])
    ++ (if addr % 8 ≠ 0 then [(4, addr)] else if (s.luTest x.ctx addr).isNone then [(5, addr)] else [])
  let s1 := if addr % 8 = 0 then s.luSeen x.ctx addr else s
  if !codes.isEmpty then s1.haltCodes q 0x02 codes
  else if waitHolds (bitsAt p 11 9) ((s.luTest x.ctx addr).getD 0) (bitsAt p 191 128) then s1.consume q 0x02
  else s1.setQueue q { x with waiting := true }

/-- WAIT: the packet stops its queue until its condition holds. -/
def execWaitPkt (q : Nat) (s : State) : Outcome :=
  match s.headPacket q with
  | some (some p) => if p % 256 = 2 && !(s.queue q).waiting then .next ((s.tookPacket q).tryWait q p) else .next s
  | _ => .next s

/-- WAIT_POLL: the word is tested again. -/
def execWaitPoll (q : Nat) (s : State) : Outcome :=
  match s.headPacket q with
  | some (some p) => if p % 256 = 2 && (s.queue q).waiting then .next (s.tryWait q p) else .next s
  | _ => .next s

/-- Is every write of the device where a release at SYS scope needs it (R236)? -/
def State.sysReleased (s : State) : Bool := s.pubs.isEmpty && s.flights.all (fun f => match f.kind with | .value _ => true | _ => false)

/-- SIGNAL: once every earlier packet has completed, a release at SYS scope and one atomic (R272). -/
def execSignalPkt (q : Nat) (s : State) : Outcome :=
  let x := s.queue q
  match s.headPacket q with
  | some (some p) =>
    if p % 256 ≠ 3 then .next s
    else
      let addr := bitsAt p 119 64
      let codes := (if bitsAt p 511 192 ≠ 0 || bitsAt p 127 120 ≠ 0 || bitsAt p 63 10 ≠ 0 || p.testBit 8 then [(2, 0)] else [])
        ++ (if addr % 8 ≠ 0 then [(4, addr)] else [])
      if !codes.isEmpty then .next ((s.tookPacket q).haltCodes q 0x03 codes)
      else if !x.running.isEmpty || !s.sysReleased || !s.luFree x.ctx addr then .next s
      else
        let v := bitsAt p 191 128
        .next ({ s.tookPacket q with green := [] }.luAtomic x.ctx addr (fun w => if p.testBit 9 then w + v else v)
          (fun a => a.consume q 0x03) (fun a => a.haltQueue q x.ridx 0x05 0x03 addr))
  | _ => .next s

/-! Child launches (R287). -/

/-- A child of a partition that waits on a DEP word which can no longer be read: its launch (R273, R276, R287). -/
def State.lostDep (s : State) (part : Nat) : Option Nat :=
  (s.launches.find? (fun p => p.2.child && p.2.part = part && !p.2.ready && decide (p.2.started = 0) && p.2.dep ≠ 0
    && (s.luTest p.2.ctx p.2.dep).isNone)).map (·.1)

/-- The launches of a partition's children that become ready now. -/
def State.nowReady (s : State) (part : Nat) : List Nat :=
  (s.launches.filter (fun p => p.2.child && p.2.part = part && !p.2.ready && s.childMet p.2)).map (·.1)

/-- A child that has become ready stays so, whatever its DEP word reads later, while its context is out as well (R276, R288). -/
def State.markReady (s : State) (lid : Nat) : State :=
  let l := s.launch lid
  { s.tookDep l.ctx l.dep with launches := SMap.set s.launches lid { l with ready := true } }

/-- A child is dropped for its causes and recorded; where a read met a lost die its context ends (R287, R307). -/
def State.childError (s : State) (l : Launch) (ty : Nat) (codes : List (Nat × Nat)) : State :=
  match s.lostRead l.ctx codes, lowestCode codes with
  | some va, _ => s.luFails l.ctx va .load id
  | none, some c => s.queueError l.queue l.pkt c.1 ty c.2
  | none, none => s

/-- A malformed child is dropped, its launch and its waiting team with it, and recorded (R287). It counts as completed for a later child's
SEQ. DEDUCED (log 68). -/
def State.dropChild (s : State) (l : Nat) : State :=
  let n := s.launch l
  let s1 := s.luTried n.ctx n.dep
  ({ s1 with launches := SMap.erase s1.launches l, teams := s1.teams.filter (fun p => !(decide (p.2.launch = l) && decide (p.2.status = TeamStatus.waiting))) }).childError
    n 0x01 [(5, n.dep)]

/-- CHILD_PACKET_READ: a waiting child whose DEP word cannot be read is dropped; those that have become ready are noted; else the oldest released
child of a partition is read, and dropped if it is malformed. DEDUCED (log 68). -/
def execChildPacketRead (part : Nat) (s : State) : Outcome :=
  if !s.open' then .next s
  else
  match s.lostDep part, s.nowReady part, SMap.getD s.children part [] with
  | some l, _, _ => .next (s.dropChild l)
  | none, l :: ls, _ => .next ((l :: ls).foldl State.markReady s)
  | none, [], [] => .next s
  | none, [], c :: rest =>
    let pl := s.launch c.parent
    let s1 := { s with children := SMap.set s.children part rest }
    let s2 := s1.luSeen pl.ctx c.va
    match s1.luRead pl.ctx c.va 64 with
    | none => .next (s2.childError pl 0 [(5, c.va)])
    | some p =>
      let ty := p % 256
      if ty ≠ 1 then .next (s2.queueError pl.queue pl.pkt 0x01 ty 0)
      else
        let dep := bitsAt p 375 320
        let own := kernelCodes p
          ++ (if bitsAt p 14 12 = part && s.partOk part && (s.queue pl.queue).pmask.testBit part then [] else [(8, 0)])
          ++ (if dep ≠ 0 && dep % 8 = 0 && (s2.luTest pl.ctx dep).isNone then [(5, dep)] else [])
        let (codes, hd) := s2.readHeader pl.ctx (bitsAt p 183 128) (bitsAt p 100 96 + 1)
        let s3 := (s2.tookDep pl.ctx dep).tookHeader pl.ctx (bitsAt p 183 128)
        if !(own ++ codes).isEmpty then .next (s3.childError pl ty (own ++ codes))
        else
          let before := (s.team c.team).lastChild
          let l := launchOf p hd pl.queue pl.pkt c.prio pl.ctx true (if p.testBit 8 then before else [])
          let s4 := s3.updTeam c.team (fun m => { m with lastChild := before ++ [c.launch] })
          let s5 := { s4 with launches := SMap.set s4.launches c.launch { l with ready := s2.childMet l } }
          .next (s5.nextTeam c.launch)

/-! Ends (R114, R279, R280). -/

/-- SHEAF_END: its endpoints are emptied, its gather latch and its extended blocks are free, its requests for blocks are over (R285). A sheaf
whose team is being saved is kept for its suspension (R301). -/
def execSheafEnd (i : Nat) (s : State) : Outcome :=
  let x := s.sheaf i
  if (SMap.get? s.sheaves i).isNone || x.ended || (s.team x.team).inSave || s.live i ≠ 0 || x.uncommitted || x.pend ≠ .idle then .next s
  else
    let s1 := (s.coverAll i).updSheaf i (fun y => { y with eps := [], ext := 0, ended := true, chunks := [], waits := [], parked := none })
    .next { (s1.updTeam x.team (fun m => { m with xq := m.xq.filter (fun e => e.1 ≠ i) })).updCore x.core (fun c =>
      { c with gather := c.gather.filter (fun p => p.2.sheaf ≠ i), lock := c.lock.filter (fun p => p.2.1 ≠ i) }) with
      tokens := s1.tokens.filter (fun p => p.2.1 ≠ i), precedence := s1.precedence.filter (fun k => k ≠ i) }

/-- LAUNCH_COMPLETE: everything of the launch is visible at SYS scope; the completion word loses 1 (R279). -/
def State.completeLaunch (s : State) (lid : Nat) : State :=
  let l := s.launch lid
  let x := s.queue l.queue
  let s1 := { s with green := [], launches := SMap.set s.launches lid { l with completed := true } }
  let s2 := if l.child then s1 else s1.setQueue l.queue { x with running := x.running.filter (fun r => r.2 ≠ lid) }
  if l.done = 0 then s2
  else s2.luAtomic l.ctx l.done (fun w => w + (2 ^ 64 - 1)) id
    (fun a => if l.child then a.queueError l.queue l.pkt 0x05 0x01 l.done else a.haltQueue l.queue l.pkt 0x05 0x01 l.done)

/-- TEAM_END: every sheaf has ended and every command has completed; the last team of a launch completes it. -/
def execTeamEnd (t : Nat) (s : State) : Outcome :=
  let m := s.team t
  let l := s.launch m.launch
  let ids := s.sheavesOf t
  let last := decide (l.total ≤ l.ended + 1)
  if m.status ≠ .resident || ids.isEmpty || !ids.all (fun i => (s.sheaf i).ended) || !m.cmds.isEmpty then .next s
  else if last && (!s.sysReleased || (l.done ≠ 0 && !s.luFree l.ctx l.done)) then .next s
  else
    let s1 := { s with
      sheaves := s.sheaves.filter (fun p => p.2.team ≠ t)
      launches := SMap.set s.launches m.launch { l with ended := l.ended + 1 } }
    let s2 := s1.updTeam t (fun y => { y with status := .ended, sp := [], splb := [], spfe := [], sppoi := [], tiles := [] })
    .next (if last then s2.completeLaunch m.launch else s2)

end Sys2Proof.Machine
end

