-- ==== Sys2Proof/Machine/Host.lean ====
section
/-! DEFINITION. Partitions and their switches (R305, R340, R341), invalidations (R179), the host's and the pools' accesses (R310, R314 to
R317), evictions (R235) and the timeouts of remote and system accesses (R317, R321). -/

namespace Sys2Proof.Machine

/-! Partitions. -/

/-- PARTCFG: taken only while no partition holds a context; CARVE 9 to 15 make the write ignored (R340). -/
def execPartcfg (val : W64) (s : State) : Outcome :=
  if !s.open' || s.parts.any (fun p => p.2.ctx.isSome) || decide (8 < bitsAt val.toNat 6 3) then .next s
  else .next { s with partcfg := val &&& 0x7B }

def State.part (s : State) (p : Nat) : Partition := SMap.getD s.parts p {}

/-- The sheaves of a partition's context that stand on its cores. -/
def State.partSheaves (s : State) (p : Nat) : List Nat :=
  match (s.part p).ctx with
  | some c => ((s.placed c).filter (fun t => (s.team t).part = p)).flatMap s.sheavesOf
  | none => []

/-- Halt a sheaf: its open chunk is squashed, the L0 result of an NW producer that stands is written to its register, and its sleeping lanes
wake (R95, R300, R305). -/
def State.haltSheaf (s : State) (i : Nat) : State :=
  let s1 := (match (s.sheaf i).openChunk? with | some _ => s.squash i ((s.sheaf i).chunks.length - 1) | none => s.loseLatches i).settleNw i
  s1.updSheaf i (fun x => { x with waits := x.waits.filter (fun w => match w.2 with | .sleep _ => false | _ => true) })

/-- PARTSW: BUSY starts the switch; a write while BUSY reads 1 is ignored (R305, R341). DEDUCED (log 70). -/
def execPartsw (p : Nat) (val : W64) (s : State) : Outcome :=
  let x := s.part p
  if !s.open' || decide (s.nparts ≤ p) || x.busy then .next s
  else
    let y : Partition := { x with idle := val.getLsbD 62, next := bitsAt val.toNat 47 32, busy := val.getLsbD 63 }
    let s1 := if y.busy then (s.partSheaves p).foldl State.haltSheaf s else s
    .next { s1 with parts := SMap.set s1.parts p y }

/-- Does a team hold a draining tile whose drain with REL has faulted and is not complete (R308)? -/
def Team.heldDrain (m : Team) : Bool := m.cmds.any Cmd.heldDrain

/-- Have the cores of a partition halted: no chunk waits to commit, no access is under way, no team is being swapped out, and no team of the
context holds a faulted drain with REL (R305, R308, R341)? DEDUCED (log 74). -/
def State.partHalted (s : State) (p : Nat) : Bool :=
  !(s.partSheaves p).any (fun i => (s.sheaf i).chunks.any (·.closed) || (s.sheaf i).pend.performing)
  && !s.teams.any (fun q => q.2.part = p && (decide (q.2.status = .faulted)
      || (decide (q.2.status ≠ .ended) && decide (some q.2.ctx = (s.part p).ctx) && q.2.heldDrain)))

/-- Move a sheaf's gather latch into its state. -/
def State.storeGath (s : State) (i : Nat) : State :=
  let x := s.sheaf i
  match SMap.get? (s.core x.core).gather x.quad with
  | some g => if g.sheaf = i then (s.setSheaf i { x with gath := some g }).updCore x.core (fun c => { c with gather := SMap.erase c.gather x.quad }) else s
  | none => s

/-- Move a sheaf's gather latch back to its quadrant. -/
def State.loadGath (s : State) (i : Nat) : State :=
  let x := s.sheaf i
  match x.gath with
  | some g => (s.setSheaf i { x with gath := none }).updCore x.core (fun c => { c with gather := SMap.set c.gather x.quad g })
  | none => s

/-- Does a switch stage through HBM4: are the carve's 96 MiB slots too few for the outgoing and the incoming state of every die (R305, R340)? -/
def State.stages (s : State) (p : Nat) : Bool :=
  let x := s.part p
  let n := (if x.ctx.isSome then 1 else 0) + (if x.idle then 0 else 1)
  decide (s.carve / (96 * 2 ^ 20) < (s.partDies p).length * n)

/-- PARTITION_SWITCH_DONE: the incoming context stands where it stopped (R305, R345). The L0 result of an NW producer that was still being
performed at the halt is written to its register (R95). -/
def execPartitionSwitchDone (p : Nat) (s : State) : Outcome :=
  let x := s.part p
  if !x.busy || !s.partHalted p then .next s
  else
    let out := s.partSheaves p
    let s1 := out.foldl (fun a i => ((a.settleNw i).loseLatches i).storeGath i) s
    let s2 := out.foldl (fun a i => a.updCore (a.sheaf i).core (fun c => { c with lock := c.lock.filter (fun q => q.2.1 ≠ i) })) s1
    let y : Partition := { x with busy := false, staged := s.stages p, ctx := if x.idle then none else some x.next }
    let s3 := { s2 with parts := SMap.set s2.parts p y }
    let s4 := (s3.partSheaves p).foldl State.loadGath s3
    .next ((if x.idle then s4 else s4.readRing x.next).emit (.msix 266))

/-! Invalidation (R179). -/

/-- The range a command covers. DESIGN CHOICE (log 114): a VA that is not aligned to the range's size is rounded down to it. -/
def State.tlbiRange (s : State) : Nat × Nat :=
  let n := bitsAt s.tlbicmd.toNat 5 0
  let k := if n < 16 ∨ 56 < n then 56 else n
  let lo := s.tlbiva.toNat / 2 ^ k * 2 ^ k
  (lo, lo + 2 ^ k)

def State.tlbiCovers (s : State) (ctx lo hi : Nat) : Bool :=
  let v := s.tlbicmd.toNat
  let mine : Bool := bitsAt v 31 16 = ctx
  match bitsAt v 9 8 with
  | 0 => mine
  | 1 => let r := s.tlbiRange; mine && decide (lo < r.2) && decide (r.1 < hi)
  | 2 => true
  | _ => false

/-- TLBICMD: BUSY starts an invalidation; KIND 3 clears it at once; a write while BUSY reads 1 is ignored. -/
def execTlbicmd (val : W64) (s : State) : Outcome :=
  if !s.open' || s.tlbicmd.getLsbD 63 then .next s
  else
    let v := val &&& 0x80000000FFFF033F
    .next { s with tlbicmd := if bitsAt v.toNat 9 8 = 3 then v &&& 0x7FFFFFFFFFFFFFFF else v }

/-- Does the command drop a held translation? -/
def State.tlbDrops (s : State) (e : TlbEntry) : Bool := s.tlbiCovers e.ctx (e.page * 2 ^ e.bits) ((e.page + 1) * 2 ^ e.bits)

/-- Does a chunk use a translation that the command drops: of a page it covers, or one its core holds for a larger page that it covers in part?
The page of the chunk's first fetch is found by the PCs it opened at; those of its later fetches it has noted. DEDUCED (log 54). -/
def State.chunkDropped (s : State) (i : Nat) (c : Chunk) : Bool :=
  let x := s.sheaf i
  let ctx := (s.team x.team).ctx
  (c.pages ++ c.ckpt.pc.map (fun (p : Pc) => p.toNat / 2 ^ 16)).any (fun p =>
    s.tlbiCovers ctx (p * 2 ^ 16) ((p + 1) * 2 ^ 16)
    || (s.core x.core).tlb.any (fun e => e.ctx = ctx && e.page = p * 2 ^ 16 / 2 ^ e.bits && s.tlbDrops e))

/-- TLB_INVALIDATE_DONE: covered copies are dropped, chunks that used them squashed, engine elements that used them complete. -/
def execTlbInvalidateDone (s : State) : Outcome :=
  if !s.tlbicmd.getLsbD 63 || s.pubs.any (fun p => p.cmd.isSome) || s.flights.any (fun f => f.cmd.isSome) then .next s
  else
    let keepT := fun (e : TlbEntry) => !s.tlbDrops e
    let keepR := fun (e : RegEntry) => !s.tlbiCovers e.ctx e.base (e.base + e.size)
    let keepI := fun (e : Nat × Nat × List Byte) => !s.tlbiCovers e.1 (64 * e.2.1) (64 * e.2.1 + 64)
    let cores := s.cores.map (fun p =>
      let c := p.2
      (p.1, { c with tlb := c.tlb.filter keepT, regions := c.regions.filter keepR, icache := c.icache.filter keepI }))
    let s1 := { s with cores := cores, gtlb := s.gtlb.filter keepT, gregions := s.gregions.filter keepR, tlbicmd := s.tlbicmd &&& 0x7FFFFFFFFFFFFFFF }
    .next (s.sheafIds.foldl (fun a i => a.squashIf i (s.chunkDropped i)) s1)

/-! The host and the pools. -/

/-- Is the host link up: PHASE 4 to 6 (R336)? -/
def State.hostUp (s : State) : Bool := decide (4 ≤ s.phase) && decide (s.phase ≤ 6)

/-- Bytes of the local map as the green's memory-side cache holds them. -/
def State.greenRead (s : State) (pa n : Nat) : List Byte × Bool :=
  ((List.range n).map (fun k => (s.greenLine ((pa + k) / 128)).bytes.getD ((pa + k) % 128) 0),
   (List.range n).any (fun k => (s.greenLine ((pa + k) / 128)).poison))

/-- HOST_READ: served at the green's memory-side cache (R310). A lost die's stack is not served: the data come back poisoned. -/
def execHostRead (pa size : Nat) (s : State) : Outcome :=
  if !s.hostUp then .next s
  else if !(s.localOk pa && s.localOk (pa + size - 1)) then .fault (.noSuchAddress pa)
  else
    match paDie pa with
    | some d => if s.dieAbsent d then .next (s.emit (.data [] true)) else let r := s.greenRead pa size; .next (s.emit (.data r.1 r.2))
    | none => let r := s.greenRead pa size; .next (s.emit (.data r.1 r.2))

/-- Bytes of an outside write, line by line. -/
def outsideWrites (pa : Nat) (bs : List Byte) (poison : Bool) : List LineWrite :=
  (List.range ((pa % 128 + bs.length + 127) / 128)).map (fun k =>
    let n := pa / 128 + k
    let mine := (bs.zipIdx.filter (fun b => (pa + b.2) / 128 = n)).map (fun b => ((pa + b.2) % 128, b.1))
    { line := .mem n, bytes := mine, untracked := true, elems := if poison then mine.map (fun b => ⟨b.1, 1, 0xFFFFFFFF⟩) else [] })

/-- A write of host or pool memory by its owner: ownership held here is taken back first (R315, R317). -/
def State.ownerWrite (s : State) (pa : Nat) (bs : List Byte) (poison : Bool) : State :=
  let halves := (List.range ((pa % 64 + bs.length + 63) / 64)).map (fun k => pa / 64 + k)
  let s1 := halves.foldl (fun a k => if (a.sysHalf k).owned then a.dropHalf k else a) s
  match s1.winTarget pa with
  | none => s1
  | some (_, key) =>
    let mark := fun (m : SMap Bool) (k : Nat) =>
      let lo := key / 64 * 64 + 64 * k
      let full : Bool := decide (key ≤ lo) && decide (lo + 64 ≤ key + bs.length)
      if poison then SMap.setC m (lo / 64) false true else if full then SMap.setC m (lo / 64) false false else m
    { s1 with ext := Memory.write s1.ext key bs, extPoison := (List.range halves.length).foldl mark s1.extPoison }

/-- HOST_WRITE: a published entry that leaves its lines untracked (R56, R233, R310); on a system address, the owner's own write. -/
def execHostWrite (pa : Nat) (bytes : List Byte) (poison : Bool) (s : State) : Outcome :=
  if !s.hostUp || bytes.isEmpty then .next s
  else if paSystem pa then .next (s.ownerWrite pa bytes poison)
  else if !(s.localOk pa && s.localOk (pa + bytes.length - 1)) then .fault (.noSuchAddress pa)
  else
    match paDie pa with
    | some d => if s.dieAbsent d then .next s else .next (s.publishGreen (outsideWrites pa bytes poison))
    | none => .next (s.publishGreen (outsideWrites pa bytes poison))

/-- HOST_SNOOP: the host takes back a half of a host-coherent window; modified bytes go with it (R315). -/
def execHostSnoop (pa : Nat) (s : State) : Outcome :=
  match s.winTarget pa with
  | some (0, _) => .next (s.dropHalf (pa / 64))
  | _ => .next s

/-- BACK_INVALIDATE: a pool takes back a half of a pool-coherent window (R315). -/
def execBackInvalidate (pa : Nat) (s : State) : Outcome :=
  match s.winTarget pa with
  | some (1, _) => .next (s.dropHalf (pa / 64))
  | _ => .next s

/-- LINE_EVICTION: key 3n names the local line n, which is written back to the green; 3n + 1 the remote line n; 3n + 2 the system half n, a
modified one being written back (R235, R314). DEDUCED (log 53). -/
def execLineEviction (key : Nat) (s : State) : Outcome :=
  let n := key / 3
  match key % 3 with
  | 0 => .next { s with green := SMap.erase s.green n }
  | 1 => .next { s with remHeld := SMap.erase s.remHeld n }
  | _ => .next (s.dropHalf n)

/-! Timeouts (R317, R321). -/

/-- An access that fails while it is performed is over, and ends its context with REMOTE (R291, R317, R321); `at'`: the place that failed. -/
def State.accessFails (at' : Nat → Bool) (s : State) (f : Flight) : State :=
  let x := s.sheaf f.sheaf
  let pa := (f.places.find? at').getD f.pa
  let eng := f.cmd.isSome
  let s1 := { s with flights := s.flights.filter (fun g => g.id ≠ f.id) }
  s1.endContext (mkFrame { cause := cREMOTE, lanes := f.lanes, addr := BitVec.ofNat 64 pa, akind := 3 } f.pc eng (!eng && x.hm)) f.team x.core x.idx

/-- REMOTE_TIMEOUT; so ends a RED too whose switch has departed with its contribution (R324). -/
def execRemoteTimeout (id : Nat) (s : State) : Outcome :=
  match s.flights.find? (fun f => f.id = id && f.remote) with
  | some f => .next (s.accessFails paRemote f)
  | none => .next s

/-- SYSTEM_ACCESS_TIMEOUT. -/
def execSystemAccessTimeout (id : Nat) (s : State) : Outcome :=
  match s.flights.find? (fun f => f.id = id && f.places.any paSystem) with
  | some f => .next (s.accessFails paSystem f)
  | none => .next s

end Sys2Proof.Machine
end

