-- ==== Sys2Proof/Machine/Fabric.lean ====
section
/-! DEFINITION. The Ouvhel fabric: ports and their lanes (R325 to R327), keys (R328, R329), events (R330), peers and their requests (R321,
R322, R324, R333, R235). -/

namespace Sys2Proof.Machine

def State.port' (s : State) (p : Nat) : Port := SMap.getD s.ports p {}
def State.setPort (s : State) (p : Nat) (x : Port) : State := { s with ports := SMap.set s.ports p x }

/-- WIDTH of PORTSTAT: 0 down, 1 two lanes, 2 one lane (R326, R327). -/
def Port.width (x : Port) : Nat :=
  if !x.up then 0 else if (if x.fail.getLsbD 0 then 1 else 0) + (if x.fail.getLsbD 1 then 1 else 0) + (if x.fail.getLsbD 2 then 1 else 0) ≤ 1 then 1 else 2

/-- The words of a slot: the key's four, then the salt. PRESUMED (log 11). -/
def keyWords : Nat := 5
/-- Does a slot hold a whole key? -/
def KeySlot.whole (k : KeySlot) : Bool := (List.range keyWords).all (fun w => (SMap.get? k.words w).isSome)
/-- RXOLD: the receiver holds a key under both indices (R327). -/
def Port.rxold (x : Port) : Bool := (SMap.getD x.rx 0 {}).whole && (SMap.getD x.rx 1 {}).whole

/-- PORTSTAT (R327). -/
def Port.stat (x : Port) : Nat :=
  (if x.up then 1 else 0) + x.fail.toNat * 2 ^ 4 + (if x.spared then 2 ^ 7 else 0) + x.width * 2 ^ 8 + x.txki * 2 ^ 10
  + (if x.rxold then 2 ^ 11 else 0) + x.replay * 2 ^ 16 + x.crcerr * 2 ^ 32

/-! Events (R330). -/

/-- Post a fabric event: a record in the ring where it has a place, and vector 264. -/
def State.postEvent (s : State) (kind p dev : Nat) : State :=
  let n := bitsAt s.ringBase.toNat 4 0
  let bs := leBytes 1 kind ++ leBytes 1 p ++ leBytes 1 (if kind = 7 ∨ kind = 8 then 0 else bitsAt (s.port' p).stat 9 4) ++ leBytes 1 0 ++ leBytes 2 dev
    ++ List.replicate 10 0
  let wi := s.ringWi.toNat
  let s1 := if n = 0 then s
    else if 2 ^ n ≤ wi - s.ringRi.toNat then { s with ringDropped := s.ringDropped + 1 }
    else { s.sysPoke (2 ^ 50 + bitsAt s.ringBase.toNat 49 12 * 4096 + wi % 2 ^ n * 16) bs with ringWi := s.ringWi + 1 }
  s1.emit (.msix 264)

def evSPARE : Nat := 1
def evHALVE : Nat := 2
def evDOWN : Nat := 3
def evUP : Nat := 4
def evKEYERR : Nat := 5
def evKEYAGE : Nat := 6
def evPEERGONE : Nat := 7
def evPEERNEW : Nat := 8

/-- A 16-bit count that saturates. -/
def sat16 (n : Nat) : Nat := min n 0xFFFF

/-! Peers that go (R333). -/

/-- A device departs: its lines are dropped, contexts with an access outstanding end with REMOTE, PEERGONE is posted, the state of its ordered
channels is discarded (R333). -/
def State.departPeer (s : State) (dev : Nat) : State :=
  let s1 := { s with
    peers := s.peers.filter (fun d => d ≠ dev)
    routes := SMap.erase s.routes dev
    remHeld := s.remHeld.filter (fun l => remDev (128 * l.1) ≠ dev)
    chanSeq := s.chanSeq.filter (fun c => c.1 / 8 % 2048 ≠ dev)
    chanNext := s.chanNext.filter (fun c => c.1 ≠ dev)
    chanHeld := s.chanHeld.filter (fun c => c.1 ≠ dev) }
  let lost := s1.flights.filter (fun f => f.toDevice dev)
  let rest := { s1 with flights := s1.flights.filter (fun f => !f.toDevice dev) }
  (lost.foldl (State.accessFails (fun a => paRemote a && remDev a = dev)) rest).postEvent evPEERGONE 0 dev

/-! Sending. -/

/-- Is there a port that is up and leads to a device number (R320)? -/
def State.routed (s : State) (dev : Nat) : Bool := (SMap.getD s.routes dev []).any (fun p => (s.port' p).up)

/-- The port that carries an access to a device: the lowest of its routes that is up. DEDUCED (log 76). -/
def State.outPort (s : State) (dev : Nat) : Option Nat :=
  (s.ports.find? (fun p => p.2.up && (SMap.getD s.routes dev []).contains p.1)).map (·.1)

/-- Another port that is up toward the neighbour of a port (R326). -/
def State.sidePort (s : State) (p : Nat) : Option Nat :=
  (s.ports.find? (fun q => q.2.up && q.1 ≠ p && decide (q.2.nbr = (s.port' p).nbr))).map (·.1)

/-- Every unacknowledged flit is sent again, in order, under its own key and IV (R325, R329). -/
def Port.resend (x : Port) : Port := { x with replay := sat16 (x.replay + x.unacked.length) }

/-- Port `p` has gone down: the devices that it led to and no other port leads to depart (R326, R333). -/
def State.departUnrouted (s : State) (p : Nat) : State :=
  (s.peers.filter (fun d => (SMap.getD s.routes d []).contains p && !s.routed d)).foldl State.departPeer s

/-- Send `n` flits through a port, each under the current key, the count of flits its IV (R328). At 2^63 the port asks for a rollover; past
2^64 − 1 it goes down, and what it has not had acknowledged goes out through another port toward the same neighbour (R326, R329). Without
LINKENC flits travel unencrypted, and no key counts them (R338). -/
def State.sendFlits : Nat → Nat → Nat → State → State
  | 0, _, _, s => s
  | f + 1, p, n, s =>
    let x := s.port' p
    if !s.feat 0 5 then s.setPort p { x with unacked := x.unacked ++ List.replicate n ⟨x.txki, 0⟩ }
    else
      let k := SMap.getD x.tx x.txki {}
      let m := min n (2 ^ 64 - 1 - k.count)
      let y : Port := { x with
        tx := SMap.set x.tx x.txki { k with count := k.count + m }
        unacked := x.unacked ++ (List.range m).map (fun j => ⟨x.txki, k.count + j⟩) }
      let s1 := s.setPort p y
      let s2 := if decide (k.count < 2 ^ 63) && decide (2 ^ 63 ≤ k.count + m) then s1.postEvent evKEYAGE p 0 else s1
      if m = n then s2
      else
        let s3 := (s2.setPort p { y with up := false, unacked := [] }).postEvent evDOWN p 0
        (match s3.sidePort p with
         | some o => s3.sendFlits f o (y.unacked.length + (n - m))
         | none => s3).departUnrouted p

/-- Ports of the device (R6). -/
def portCount : Nat := 128

/-- A port goes down: its unacknowledged flits go out again through another port toward the same neighbour, if there is one, and the devices
that no other port leads to depart (R326, R333). DEDUCED (log 76). -/
def State.portDown (s : State) (p : Nat) (x : Port) : State :=
  let s1 := (s.setPort p { x with up := false, unacked := [] }).postEvent evDOWN p 0
  (match s1.sidePort p with
   | some o => s1.sendFlits portCount o x.unacked.length
   | none => s1).departUnrouted p

/-- Remote accesses put in flight go out as flits, one for each line, through a port that leads to their device. -/
def State.transmit (s : State) : State :=
  let go := (s.flights.filter (fun f => decide (s.sentUpTo ≤ f.id))).flatMap (fun f =>
    f.places.filter (fun a => paRemote a && remDev a ≠ s.devnum))
  go.foldl (fun a pa => match a.outPort (remDev pa) with | some p => a.sendFlits portCount p 1 | none => a) { s with sentUpTo := s.nextId }

/-! Ports. -/

/-- PORTSTAT: any write clears CRCERR and REPLAY (R327). -/
def execPortstat (p : Nat) (_val : W64) (s : State) : Outcome :=
  if !s.open' || decide (portCount ≤ p) then .next s
  else .next (s.setPort p { s.port' p with crcerr := 0, replay := 0 })

/-- FLIT_REPLAY. -/
def execFlitReplay (p : Nat) (s : State) : Outcome :=
  if !(s.port' p).up then .next s else .next (s.setPort p (s.port' p).resend)

/-- LANE_FAIL (R326): the first failure brings in lane 2, the second halves the width, the third takes the port down. -/
def execLaneFail (p lane : Nat) (s : State) : Outcome :=
  let x := s.port' p
  if !x.up || decide (2 < lane) || x.fail.getLsbD lane then .next s
  else
    let f : BitVec 3 := x.fail ||| BitVec.ofNat 3 (2 ^ lane)
    let y : Port := { x with fail := f, spared := x.spared || (x.fail = 0 && lane ≠ 2) }
    if f = 7 then .next (s.portDown p y)
    else if x.fail = 0 then (if lane = 2 then .next (s.setPort p y) else .next ((s.setPort p y.resend).postEvent evSPARE p 0))
    else .next ((s.setPort p y.resend).postEvent evHALVE p 0)

/-- LINK_UP: a port trains with a neighbour's port, if the fabric was accepted, and LINKENC at both ends or at neither (R327, R338). -/
def execLinkUp (e : LinkEnd) (s : State) : Outcome :=
  let p := e.port
  if !s.open' || !s.feat 0 4 || decide (portCount ≤ p) || (s.port' p).up || s.peerEnc.contains p ≠ s.feat 0 5 then .next s
  else .next ((s.setPort p { s.port' p with
    up := true, fail := 0, spared := false, tagfails := 0, nbr := e.nbr, rxNum := 0, newFrom := none }).postEvent evUP p 0)

/-! Keys (R328, R329). -/

/-- Is a slot in use: the current key of a port that is up, the old key until its flits are acknowledged? -/
def Port.slotBusy (x : Port) (rx : Bool) (idx : Nat) : Bool :=
  x.up && (if rx then decide (idx = x.rxki) || x.rxold else decide (idx = x.txki) || x.unacked.any (fun f => f.key = idx))

/-- KEY_SLOT_WRITE: a slot in use keeps its key, and KEYERR is posted. A write to a slot whose key is whole begins another key (R327, R329). -/
def execKeySlotWrite (p : Nat) (rx : Bool) (idx word : Nat) (val : W64) (s : State) : Outcome :=
  let x := s.port' p
  if !s.open' || decide (portCount ≤ p) || decide (1 < idx) || decide (keyWords ≤ word) then .next s
  else if x.slotBusy rx idx then .next (s.postEvent evKEYERR p 0)
  else
    let k := SMap.getD (if rx then x.rx else x.tx) idx {}
    let y : KeySlot := { words := SMap.set (if k.whole then [] else k.words) word val, count := 0 }
    .next (s.setPort p (if rx then { x with rx := SMap.set x.rx idx y } else { x with tx := SMap.set x.tx idx y }))

/-- A write of the aperture to word `w` of a slot's four: once the key's words stand it brings the salt. PRESUMED (log 11). -/
def State.keyWordAt (s : State) (p : Nat) (rx : Bool) (idx w : Nat) : Nat :=
  let x := s.port' p
  let k := SMap.getD (if rx then x.rx else x.tx) idx {}
  if (List.range 4).all (fun j => (SMap.get? k.words j).isSome) && !k.whole then 4 else w

/-- KEYCMD: OP 1 switches TXKI; new flits use the new index (R329). PRESUMED (log 11). -/
def execKeycmd (p : Nat) (val : W64) (s : State) : Outcome :=
  let x := s.port' p
  if !s.open' || decide (portCount ≤ p) || bitsAt val.toNat 1 0 ≠ 1 then .next s
  else .next (s.setPort p { x with txki := 1 - x.txki })

/-- FLIT_ACK: the oldest unacknowledged flit is retired; with the last one under the old key that key is erased (R329). -/
def execFlitAck (p : Nat) (s : State) : Outcome :=
  let x := s.port' p
  match x.unacked with
  | [] => .next s
  | f :: rest =>
    let old := f.key ≠ x.txki && !rest.any (fun g => g.key = f.key)
    .next (s.setPort p { x with unacked := rest, tx := if old then SMap.erase x.tx f.key else x.tx })

/-- Is a flit refused for its tag: the tag fails, or the slot of its index holds no key (R328, R329)? -/
def State.tagRefused (s : State) (x : Port) (key : Nat) (tagOk : Bool) : Bool :=
  s.feat 0 5 && (!tagOk || (key ≠ x.rxki && !(SMap.getD x.rx key {}).whole))

/-- Note the index of flit `num`: the first seen under the other index tells where the flits under the old one end. -/
def Port.seeKey (x : Port) (num key : Nat) : Port :=
  if key = x.rxki then x else { x with newFrom := some (min num (x.newFrom.getD num)) }

/-- Once every flit under the old index has been accepted, and so acknowledged, the old key is erased (R329). -/
def Port.dropOld (x : Port) : Port :=
  if x.newFrom.any (fun n => decide (n ≤ x.rxNum)) then { x with newFrom := none, rx := SMap.erase x.rx x.rxki, rxki := 1 - x.rxki } else x

/-- The flit whose turn it is: refused for its tag, the fourth time with the port going down, or accepted (R325, R329). -/
def State.takeFlit (p num key : Nat) (tagOk : Bool) (s : State) : Outcome :=
  let x := s.port' p
  if s.tagRefused x key tagOk then
    let y : Port := { x with tagfails := x.tagfails + 1 }
    if 4 ≤ y.tagfails then .next ((s.portDown p { y with tagfails := 0 }).postEvent evKEYERR p 0) else .next (s.setPort p y)
  else .next (s.setPort p { x.seeKey num key with tagfails := 0, rxNum := num + 1 }.dropOld)

/-- FLIT_RECEIVE: flit `num` of a port comes in. One whose CRC fails is refused. After a refusal no later flit is accepted until the refused one has
come again: of a later one only its index is noted; one accepted before changes nothing. DEDUCED (log 118). -/
def execFlitReceive (f : FlitIn) (key : Nat) (crcOk tagOk : Bool) (s : State) : Outcome :=
  let p := f.port
  let num := f.num
  let x := s.port' p
  if !x.up then .next s
  else if !crcOk then .next (s.setPort p { x with crcerr := sat16 (x.crcerr + 1) })
  else if num = x.rxNum then s.takeFlit p num key tagOk
  else if num < x.rxNum || s.tagRefused x key tagOk then .next s
  else .next (s.setPort p (x.seeKey num key))

/-! Peers (R320, R333). -/

/-- PEER_ARRIVE: the fabric manager assigns a number, which the ports `via` lead to. -/
def execPeerArrive (a : Arrival) (s : State) : Outcome :=
  let dev := a.dev
  if !s.open' || !s.feat 0 4 || decide (1151 < dev) || s.peers.contains dev || !a.via.any (fun p => (s.port' p).up) then .next s
  else .next ({ s with peers := s.peers ++ [dev], routes := SMap.set s.routes dev a.via }.postEvent evPEERNEW 0 dev)

/-- PEER_DEPART (R333). -/
def execPeerDepart (dev : Nat) (s : State) : Outcome :=
  if !s.peers.contains dev then .next s else .next (s.departPeer dev)

/-- The address of the first byte a write to a local line writes. -/
def LineWrite.place (w : LineWrite) : Nat :=
  (match w.line with | .mem n => 128 * n | _ => 0) + ((w.bytes.head?).map (·.1)).getD 0

/-- Publish an ordered store in its turn: one that comes early is held (R322). Each is acknowledged once it is applied. -/
def State.ordered (s : State) (dev key seq : Nat) (w : LineWrite) : State :=
  let next := ((s.chanNext.find? (fun c => c.1 = dev && c.2.1 = key)).map (·.2.2)).getD 0
  let at' := fun (a : State) (n : Nat) => { a with chanNext := (dev, key, n) :: a.chanNext.filter (fun c => !(c.1 = dev && c.2.1 = key)) }
  if seq < next then s.emit (.peerAck w.place)
  else if next < seq then { s with chanHeld := s.chanHeld ++ [(dev, key, seq, w)] }
  else
    let s1 := at' (s.publishGreen [w] (some w.place)) (next + 1)
    (List.range s.chanHeld.length).foldl (fun a k =>
      match a.chanHeld.find? (fun c => c.1 = dev && c.2.1 = key && c.2.2.1 = next + 1 + k) with
      | some c => at' ({ a with chanHeld := a.chanHeld.filter (fun e => !(e.1 = dev && e.2.1 = key && e.2.2.1 = next + 1 + k)) }.publishGreen [c.2.2.2] (some c.2.2.2.place)) (next + 2 + k)
      | none => a) s1

/-- An operation from outside on a local line waits for its round (R211, R214, R233). `green`: its home is the green; `ack`: the contributor to
acknowledge. -/
def State.publishOp (s : State) (green : Bool) (ack : Option Nat) (o : PubOp) (n : Nat) : State :=
  let w : LineWrite := ((s.opPlan (.mem n) o).ws.head?).getD { line := .mem n }
  { s with pubs := s.pubs ++ [{ w := w, green := green, ack := ack, op := some o }] }

/-- PEER_REQUEST: a load at the green's memory-side cache with its LB64; a store as a published entry at the green, acknowledged once it is applied; an atomic at the line's home, whose value goes back when its round has come (R186, R211,
R233, R235, R321). The stack of a lost die answers REMOTE (R333). -/
def execPeerRequest (pa : Nat) (req : PeerReq) (s : State) : Outcome :=
  if !s.open' then .next s
  else if !s.localOk pa then .fault (.noSuchAddress pa)
  else if (match paDie pa with | some d => s.dieAbsent d | none => false) then .next (s.emit .peerError)
  else
    let n := pa / 128
    let loc : Loc := ⟨.mem n, pa % 128, pa, none⟩
    let op := fun (k : Nat) (ty : Ty) (c x : W64) (b : EB32) =>
      let o := Bnd.ofEb32 b
      ({ op := k, ty := ty, cmp := c, ofs := pa % 128, x := x, bnd := o.x, poi := o.poi, bnds := true, reply := true } : PubOp)
    match req with
    | .load => let d := s.greenLine n; .next (s.emit (.peerData d.bytes d.lb d.poison))
    | .store len els chan =>
      let ws := buildWrites [⟨loc, len, els.map (fun e => (e.1.toNat, Bnd.ofEb32 e.2))⟩] (decide (len = 8)) false
      (match chan, ws with
       | _, [] => .next (s.emit (.peerAck pa))
       | some c, w :: _ => .next (s.ordered c.1 c.2.1 c.2.2 w)
       | none, _ => .next (s.publishGreen ws (some pa)))
    | .atomic k ty x b => .next (s.publishOp (decide (granaryBase ≤ pa)) none (op k.toNat ty 0 x b) n)
    | .cas ty c x b => .next (s.publishOp (decide (granaryBase ≤ pa)) none (op casOp ty c x b) n)

/-- RED_GROUP_APPLY: a group is applied as one RED, and its contributors are acknowledged (R214, R324). -/
def execRedGroupApply (pa : Nat) (op : BitVec 3) (ty : Ty) (x : W64) (bnd : EB32) (s : State) : Outcome :=
  if !s.open' then .next s
  else if !s.localOk pa then .fault (.noSuchAddress pa)
  else if (match paDie pa with | some d => s.dieAbsent d | none => false) then .next (s.emit .peerError)
  else
    let b := Bnd.ofEb32 bnd
    .next (s.publishOp true (some pa) { op := op.toNat, ty := ty, ofs := pa % 128, x := x, bnd := b.x, poi := b.poi, bnds := true } (pa / 128))

end Sys2Proof.Machine
end

