-- ==== Sys2Proof/Machine/Power.lean ====
section
/-! DEFINITION. Power and telemetry (R342 to R344), bring-up (R335 to R338, R346), and the register aperture (R334, R348). -/

namespace Sys2Proof.Machine

/-! Power (R342, R343). -/

/-- LIMIT as it acts. -/
def State.limit (s : State) : Nat := max 700 (min 2000 (bitsAt s.pwrlim.toNat 15 0))
def State.ramp (s : State) : Nat := bitsAt s.pwrcfg.toNat 15 0

/-- TARGET after one millisecond, or at once where RAMP is 0. -/
def State.stepTarget (s : State) : Nat :=
  let l := s.limit
  if s.ramp = 0 then l else if s.target < l then min l (s.target + s.ramp) else max l (s.target - s.ramp)

/-- Aperture writes that R348 takes in every phase: the power block and the telemetry counters. -/
def execPwrlim (val : W64) (s : State) : Outcome :=
  let s1 := { s with pwrlim := val &&& 0xFFFF }
  .next (if s1.ramp = 0 then { s1 with target := s1.limit } else s1)

/-- A write of PWRCFG: a RAMP of 0 takes TARGET to LIMIT at once. -/
def State.setPwrcfg (s : State) (val : W64) : State :=
  let s1 := { s with pwrcfg := val &&& 0xFFFFFFFF }
  if s1.ramp = 0 then { s1 with target := s1.limit } else s1

/-- WINDOW as it acts, in milliseconds. -/
def State.window (s : State) : Nat := max 1 (min 1000 (bitsAt s.pwrcfg.toNat 31 16))

/-- The mean of the last samples of the window, or of as many as there have been since reset. DEDUCED (log 78). -/
def meanOf (w : Nat) (l : List Nat) : Nat := (l.take w).sum / (l.take w).length

def State.throttled (s : State) : Bool := decide (s.clkMhz < 700)

/-- One step of the clock that the next round boundary brings: down while `avg`, in mW, is above TARGET, up while it is below. At 350 MHz matrix issue is
halved, and FLOOR says that AVG is still above TARGET there. -/
def State.stepClock (s : State) (avg : Nat) : State :=
  if 1000 * s.target < avg then
    if 350 < s.clkNext then { s with clkNext := max 350 (s.clkNext - 25), pwrFloor := false } else { s with pwrFloor := true }
  else if avg < 1000 * s.target then { s with clkNext := min 700 (s.clkNext + 25), pwrFloor := false }
  else { s with pwrFloor := false }

/-- The clock at a commit-round boundary, and vector 265 where THROTTLED changes with it (R343, R345). -/
def State.takeClock (s : State) : State :=
  if s.cycle % Config.roundCycles ≠ 0 || s.clkNext = s.clkMhz then s
  else
    let s1 := { s with clkMhz := s.clkNext }
    if s1.throttled ≠ s.throttled then s1.emit (.msix 265) else s1

/-- POWER_CONTROL_TICK: one millisecond of `inst` W and `milli` mW, at `temp` °C (R342 to R345). DEDUCED (log 78). -/
def execPowerControlTick (inst milli temp : Nat) (s : State) : Outcome :=
  let p := 1000 * inst + milli
  let l := (p :: s.samples).take 1000
  let avg := meanOf s.window l
  let s1 := { s with
    target := s.stepTarget, inst := min (p / 1000) 0xFFFF, samples := l, avg := min (avg / 1000) 0xFFFF, energy := s.energy + p }
  let s2 := s1.stepClock avg
  let s3 := if s2.throttled then s2.count 3 else s2
  let s4 := if s3.pwrFloor then s3.count 4 else s3
  let s5 := { s4 with tele := (List.range 6).map (fun k => if k = 5 then BitVec.ofNat 64 (temp % 2 ^ 16) else s4.tele.getD k 0) }
  .next (if s5.pwrFloor ≠ s.pwrFloor then s5.emit (.msix 265) else s5)

/-- TELEMETRY_CLEAR: any write clears a counter; the temperature is not cleared (R344). -/
def execTelemetryClear (k : Nat) (s : State) : Outcome :=
  .next (if k < 5 then { s with tele := (List.range 6).map (fun j => if j = k then 0 else s.tele.getD j 0) } else s)

/-- PWRSTAT (R342). -/
def State.pwrstat (s : State) : Nat :=
  s.target * 2 ^ 48 + s.clkMhz * 2 ^ 32 + (if s.pwrFloor then 4 else 0) + (if s.target ≠ s.limit then 2 else 0) + (if s.throttled then 1 else 0)

/-- PWRMEAS (R342): the power of a millisecond in mW is its energy in µJ. -/
def State.pwrmeas (s : State) : Nat := s.energy / 1000000 % 2 ^ 32 * 2 ^ 32 + s.avg * 2 ^ 16 + s.inst

/-! Bring-up (R336). -/

/-- The device again as after reset; what stands outside it, and what it has said, stay. -/
def State.restart (s : State) : State :=
  { State.reset with ext := s.ext, extPoison := s.extPoison, extLb := s.extLb, peerEnc := s.peerEnc, out := s.out, freeCtr := s.freeCtr }

/-- COLD_RESET. -/
def execColdReset (s : State) : Outcome := .next s.restart

/-- DEVCMD RESET: every context ends without a record (R336). -/
def execReset (s : State) : Outcome := .next s.restart

/-- FEATOFFn (R338). -/
def featOff (n : Nat) : W64 := if n = 0 then 0x1FF else if n = 1 then 0x1F else 0

/-- DEVCMD GO: in PHASE 4 the accepted features are fixed and the queues are served (R336, R338). -/
def execGo (s : State) : Outcome :=
  .next (if s.phase = 4 then { s with phase := 5, featack := (List.range 4).map (fun n => featOff n &&& s.featack.getD n 0) } else s)

/-- DEVCMD QUIESCE: in PHASE 5 modified system lines are written back, and doorbells are no longer accepted (R346). -/
def execQuiesce (s : State) : Outcome :=
  if s.phase ≠ 5 then .next s
  else
    let back := fun (a : State) (p : Nat × SysHalf) =>
      if !p.2.dirty then a
      else
        match p.2.key with
        | some key =>
          { a with ext := Memory.write a.ext key p.2.bytes, extPoison := SMap.setC a.extPoison (key / 64) false p.2.poison
                   sysHeld := SMap.set a.sysHeld p.1 { p.2 with dirty := false } }
        | none => a
    .next { s.sysHeld.foldl back s with phase := 6 }

/-- The fuse map of a die: 72 of its 80 built cores are enabled, a bit each (R337); the eight that are not are the die's own.
DESIGN CHOICE (log 10). -/
def fuseMap (d : Nat) : W64 × W64 :=
  let cores := (List.range 8).foldl (fun l k => l.eraseIdx (Config.fuseDrop d k % l.length)) (List.range 80)
  let m := cores.foldl (fun m c => m + 2 ^ c) 0
  (BitVec.ofNat 64 m, BitVec.ofNat 64 (m / 2 ^ 64))

/-- BRINGUP_PHASE_DONE: PHASES 0 to 3 end in turn, or in PHASE 15 with a failure code; LINKS sets ABSENT, FUSE loads the fuse maps, MEM writes
every location (R336, R337). In PHASE 4 the host link may fail; GO ends that phase. -/
def execBringupPhaseDone (absent fail : Byte) (s : State) : Outcome :=
  if 4 < s.phase ∨ (s.phase = 4 ∧ fail ≠ 3) then .next s
  else if 1 ≤ fail.toNat ∧ fail.toNat ≤ 3 then .next { s with phase := 15, failCode := fail }
  else
    match s.phase with
    | 1 => .next { s with phase := 2, fuse := (List.range Config.dies).map (fun d => (d, fuseMap d)) }
    | 2 => .next { s with phase := 3, mem := [], lb := [], poison := [], blockClean := [] }
    | 3 => .next { s with phase := 4, absent := absent }
    | n => .next { s with phase := n + 1 }

/-! The aperture (R334, R348). -/

/-- HINTRB's fields, which the event ring's base register shares (R319, R330). -/
def ringMask : W64 := 0x0003FFFFFFFFF01F

/-- The fields of SYSWINA and SYSWINB that are not reserved (R312). -/
def winMaskA : W64 := 0xFC03FFFFC00FFFFF
def winMaskB : W64 := 0x000FFFFFC0000000

/-- A register without behaviour of its own: the state after a write in PHASE 5 or 6, its reserved bits dropped (R5); those of a window stay
in the state, since they make it not valid (R312), and read 0. TLBIVA ignores writes while BUSY (R179). DEDUCED (log 77). -/
def State.plainWrite (s : State) (off : Nat) (v : W64) : State :=
  if off = 0x10 then { s with ctxtb := v &&& 0x000FFFFFFFFFFFC0 }
  else if off = 0x3000 then (if s.tlbicmd.getLsbD 63 then s else { s with tlbiva := v &&& 0x00FFFFFFFFFF0000 })
  else if 0x4000 ≤ off ∧ off < 0x4100 then
    let w := (off - 0x4000) / 16
    if off % 16 = 0 then { s with sysA := SMap.setC s.sysA w 0 v } else { s with sysB := SMap.setC s.sysB w 0 v }
  else if off = 0x4200 then { s with ringBase := v &&& ringMask }
  else if off = 0x4210 then { s with ringRi := v }
  else if 0x10000 ≤ off ∧ off < 0x12000 then
    let q := (off - 0x10000) / 32
    let x := SMap.getD s.queues q {}
    (match (off - 0x10000) % 32 with
     | 16 => { s with queues := SMap.set s.queues q { x with d2 := v &&& 0x00FFFFFFFFFFFFF8 } }
     | 24 => { s with queues := SMap.set s.queues q { x with d3 := v &&& 0x00FFFFFFFFFFFFE0 } }
     | _ => s)
  else if off = 0x30000 then { s with devnum := v.toNat % 2 ^ 11 }
  else if 0x30100 ≤ off ∧ off < 0x30180 then
    (if s.feat 0 6 then { s with redwin := SMap.setC s.redwin ((off - 0x30100) / 8) 0 (v &&& 0xFFFFE0FFFFFFFFFF) } else s)
  else s

/-- REGISTER_WRITE: an aligned 8-byte write of the aperture. A register with behaviour of its own takes the write as that event; PHASES 0 to 4
and 15 take only DEVCMD, FEATACK, the power block and the telemetry counters (R334, R348). -/
def execRegisterWrite (off : Nat) (val : W64) (s : State) : Outcome :=
  let in' := fun (lo n : Nat) => decide (lo ≤ off) && decide (off < lo + n)
  if off % 8 ≠ 0 then .next s
  else if off = 0x08 then
    (match bitsAt val.toNat 1 0 with
     | 1 => execGo s
     | 2 => execReset s
     | 3 => execQuiesce s
     | _ => .next s)
  else if in' 0x60 0x20 then
    (if s.phase = 4 then .next { s with featack := (List.range 4).map (fun n => if n = (off - 0x60) / 8 then val else s.featack.getD n 0) } else .next s)
  else if off = 0x2000 then execPwrlim val s
  else if off = 0x2008 then .next (s.setPwrcfg val)
  else if in' 0x2100 0x30 then execTelemetryClear ((off - 0x2100) / 8) s
  else if !s.open' then .next s
  else if off = 0x1000 then execPartcfg val s
  else if off = 0x1008 then execTresumeWrite val s
  else if in' 0x1040 0x40 then execPartsw ((off - 0x1040) / 8) val s
  else if off = 0x3008 then execTlbicmd val s
  else if in' 0x10000 0x2000 && decide (off % 32 = 0) then execQd0Write ((off - 0x10000) / 32) val s
  else if in' 0x10000 0x2000 && decide (off % 32 = 8) then execQd1Write ((off - 0x10000) / 32) val s
  else if in' 0x20000 0x8000 then
    let p := (off - 0x20000) / 256
    let o := off % 256
    (if o = 0 then execPortstat p val s
     else if o = 8 then execKeycmd p val s
     else if 0x40 ≤ o ∧ o < 0x80 then
       (let i := (o - 0x40) / 32; execKeySlotWrite p false i (s.keyWordAt p false i (o % 32 / 8)) val s)
     else if 0x80 ≤ o ∧ o < 0xC0 then
       (let i := (o - 0x80) / 32; execKeySlotWrite p true i (s.keyWordAt p true i (o % 32 / 8)) val s)
     else .next s)
  else .next (s.plainWrite off val)

/-- What an aligned 8-byte read of the aperture returns; offsets not listed, DEVCMD and the key slots read 0 (R334, R335, R328). -/
def State.readReg (s : State) (off : Nat) : W64 :=
  let k := fun (lo step : Nat) => (off - lo) / step
  let in' := fun (lo n : Nat) => decide (lo ≤ off) && decide (off < lo + n)
  if off = 0 then BitVec.ofNat 64 (s.phase + s.failCode.toNat * 2 ^ 8 + s.absent.toNat * 2 ^ 16)
  else if off = 0x10 then s.ctxtb
  else if in' 0x40 0x20 then (if 4 ≤ s.phase then featOff (k 0x40 8) else 0)
  else if in' 0x60 0x20 then s.featack.getD (k 0x60 8) 0
  else if in' 0x100 0x80 then (let f := SMap.getD s.fuse (k 0x100 16) (0, 0); if off % 16 = 0 then f.1 else f.2)
  else if off = 0x1000 then s.partcfg
  else if off = 0x1008 then s.tresume
  else if in' 0x1040 0x40 then
    let x := s.part (k 0x1040 8)
    BitVec.ofNat 64 ((if x.busy then 2 ^ 63 else 0) + (if x.idle then 2 ^ 62 else 0) + (if x.staged then 2 ^ 61 else 0) + x.next * 2 ^ 32)
  else if off = 0x2000 then s.pwrlim
  else if off = 0x2008 then s.pwrcfg
  else if off = 0x2010 then BitVec.ofNat 64 s.pwrstat
  else if off = 0x2018 then BitVec.ofNat 64 s.pwrmeas
  else if in' 0x2100 0x30 then s.tele.getD (k 0x2100 8) 0
  else if off = 0x3000 then s.tlbiva
  else if off = 0x3008 then s.tlbicmd
  else if in' 0x4000 0x100 then (if off % 16 = 0 then SMap.getD s.sysA (k 0x4000 16) 0 &&& winMaskA else SMap.getD s.sysB (k 0x4000 16) 0 &&& winMaskB)
  else if off = 0x4200 then s.ringBase
  else if off = 0x4208 then s.ringWi
  else if off = 0x4210 then s.ringRi
  else if in' 0x10000 0x2000 then
    let x := s.queue (k 0x10000 32)
    (match (off - 0x10000) % 32 with | 0 => x.d0 | 8 => x.d1 | 16 => x.d2 | 24 => x.d3 | _ => 0)
  else if in' 0x20000 0x8000 && decide (off % 256 = 0) then BitVec.ofNat 64 (s.port' (k 0x20000 256)).stat
  else if off = 0x30000 then BitVec.ofNat 64 s.devnum
  else if in' 0x30100 0x80 then SMap.getD s.redwin (k 0x30100 8) 0
  else 0

end Sys2Proof.Machine
end

