-- ==== Sys2Proof/Machine/Agenda.lean ====
section
/-! DEFINITION. One cycle of the device: the events whose time may have come, in one order of the many the spec allows, and the program a host
places for a first instruction. -/

namespace Sys2Proof.Machine

/-- The sheaves whose atomic waits for its round, in the order in which they came to it (R211). -/
def State.roundAtomics (s : State) : List Nat :=
  let turn := fun (i : Nat) => match (s.sheaf i).pend with | .atomic n _ _ => some n | _ => none
  sortBy (fun i => (turn i).getD 0) (s.sheafIds.filter (fun i => (turn i).isSome))

/-- The round of a cycle with the atomics performed in it, and then the tokens to be taken (R226, R229, R233). -/
def State.roundEvents (s : State) : List Instr :=
  (if s.cycle % Config.roundCycles ≠ 0 then [] else .commitRound :: s.roundAtomics.map .boundaryPerform)
  ++ (s.sheafIds.filter (fun i => (s.needsToken i).isSome)).map Instr.priorityTokenTake

/-- What a sheaf that waits at an instruction may do (R200, R211, R230, R235). -/
def State.pendEvents (s : State) : List Instr :=
  s.sheafIds.filterMap (fun i =>
    match (s.sheaf i).pend with
    | .idle => none
    | .boundary _ => some (.boundaryPerform i)
    | .release _ _ _ => some (.podRelease i)
    | .fence _ _ _ _ => some (.podRelease i)
    | .trap _ _ => some (.handlerEntry i)
    | .atomic _ _ _ => none
    | .access _ => none)

/-- The test of one waiting lane (R347). -/
def State.laneEvent (s : State) (i : Nat) (w : Nat × Wait) : Option Instr :=
  match w.2 with
  | .ldf _ _ _ _ => some (.ldfComplete i w.1)
  | .ste _ _ _ _ => some (.steComplete i w.1)
  | .waita _ _ _ _ _ _ _ => if s.cycle % 64 = 0 then none else some (.waitaComplete i w.1)
  | .sleep n => if n ≤ s.cycle then some (.sleepExpire i w.1) else none
  | _ => none

/-- The tests of a sheaf's waits. -/
def State.waitEvents (s : State) (i : Nat) : List Instr :=
  let x := s.sheaf i
  let any := fun (f : Wait → Bool) => x.waits.any (fun w => f w.2)
  x.waits.filterMap (s.laneEvent i)
  ++ (if s.cycle % 64 = 0 && any (fun w => match w with | .waita _ _ _ _ _ _ _ => true | _ => false) then [.waitaPoll i] else [])
  ++ (if any (fun w => match w with | .wtc _ _ => true | .wto _ _ => true | _ => false) then [.counterWaitWake i] else [])
  ++ (if any (fun w => match w with | .pop _ => true | _ => false) then [.queuePopWake i] else [])
  ++ (if x.yieldUntil ≠ 0 && decide (x.yieldUntil ≤ s.cycle) then [.yieldExpire i] else [])

/-- What an engine may do with a command. -/
def cmdEvent (t : Nat) (c : Cmd) : Option Instr :=
  match c.stage with
  | .done => none
  | .sent => none
  | .pushing => some (.engineQueuePush t c.id)
  | .copied =>
    (match c.kind with
     | .cpym _ _ => some (.cpymMmaIssue t c.id)
     | .mdrain _ => some (.mdrainPerform t c.id)
     | _ => none)
  | .released =>
    (match c.kind with
     | .mma _ => some (.mmaPerform t c.id)
     | .mzero _ => some (.tileFillPerform t c.id)
     | .mload _ _ _ => some (.tileFillPerform t c.id)
     | .mdrain _ => some (.mdrainPerform t c.id)
     | .gath _ _ _ => some (.gatherPerform t c.id)
     | .cpy _ _ _ _ => some (.copyPerform t c.id)
     | .cpym _ _ => some (.copyPerform t c.id))

/-- What a team may do beside its sheaves' instructions. -/
def State.teamEvents (s : State) (t : Nat) : List Instr :=
  let m := s.team t
  m.cmds.filterMap (cmdEvent t)
  ++ ((m.xq.map (fun e => m.quadOf (s.sheaf e.1))).dedup).map (Instr.xacqGrant t)
  ++ (match m.status with
      | .faulted => [.teamSwapOut t]
      | .saving => [.teamSuspend t]
      | .resident =>
        (if m.preq then [.saveRoutineStart t] else [])
        ++ (if m.cmds.isEmpty && (s.sheavesOf t).all (fun i => (s.sheaf i).ended) then [.teamEnd t] else [])
      | _ => [])

/-- Sheaves that may end (R114). -/
def State.endEvents (s : State) : List Instr :=
  (s.sheafIds.filter (fun i => !(s.sheaf i).ended && s.live i = 0)).map Instr.sheafEnd

/-- What the launch unit may do with a queue. -/
def State.queueEvents (s : State) (q : Nat) : List Instr :=
  match s.headPacket q with
  | none => []
  | some none => [.kernelPkt q]
  | some (some p) => if p % 256 = 2 then (if (s.queue q).waiting then [.waitPoll q] else [.waitPkt q]) else if p % 256 = 3 then [.signalPkt q] else [.kernelPkt q]

/-- What the launch unit and the green may do. -/
def State.greenEvents (s : State) : List Instr :=
  (s.queues.map (·.1)).flatMap s.queueEvents
  ++ (((s.children.filter (fun p => !p.2.isEmpty)).map (·.1) ++ (List.range s.nparts).filter (fun p => (s.lostDep p).isSome || !(s.nowReady p).isEmpty)).dedup).map
      Instr.childPacketRead
  ++ (match s.placeChoice with | some t => ((s.cores' t).head?.map (fun c => Instr.teamPlace t c)).toList | none => [])
  ++ ((s.parts.filter (fun p => p.2.busy)).map (fun p => Instr.partitionSwitchDone p.1))
  ++ (if s.tlbicmd.getLsbD 63 then [.tlbInvalidateDone] else [])

/-- The quadrants whose cycle matters, by core and quadrant: where a sheaf may issue, one held back keeps a wait (R17), or a lock stands. -/
def State.issueEvents (s : State) : List Instr :=
  let qs := ((s.sheafIds.filter (fun i => s.sheafFree i || decide ((s.sheaf i).pickWait ≠ 0))).map (fun i => ((s.sheaf i).core, (s.sheaf i).quad))
    ++ s.cores.flatMap (fun c => c.2.lock.map (fun l => (c.1, l.1)))).dedup
  qs.map (fun p => .quadrantIssue p.1 p.2)

/-- Locks to be ended (R94). -/
def State.lockEvents (s : State) : List Instr :=
  s.cores.flatMap (fun c => (c.2.lock.filter (fun l => decide (32 ≤ l.2.2))).map (fun l => Instr.nwLockExpire c.1 l.1))

/-- One cycle passes; the events of the cycle stand in the agenda. DESIGN CHOICE (log 5). DESIGN CHOICE (log 6). -/
def State.tick (s : State) : State :=
  let s1 := ({ s with cycle := s.cycle + 1 } : State).transmit.takeClock
  { s1 with agenda :=
      s1.roundEvents ++ s1.flights.map (fun f => Instr.accessCompletion f.id) ++ s1.pendEvents ++ s1.sheafIds.flatMap s1.waitEvents
      ++ s1.lockEvents ++ s1.teamIds.flatMap s1.teamEvents ++ s1.endEvents ++ s1.greenEvents ++ s1.issueEvents }

/-! A first instruction. -/

/-- A fetch line with one instruction in slot 0, its TGT bit set and its PAR right (R75 to R77). -/
def lineWith (w : Nat) : List Byte :=
  let body := leBytes 12 w ++ List.replicate 48 0
  body ++ leBytes 4 (1 + lineParity (body ++ [1, 0, 0, 0]) * 2 ^ 24)

/-- A team of one sheaf of sixteen lanes of context 0 on core 0, its code line in the instruction cache, about to issue slot 0. -/
def State.place (s : State) (w : Nat) : State :=
  let hd : Header := { regs := 128 }
  let c := s.core 0
  { s with
    parts := SMap.set s.parts 0 { ctx := some 0 }
    teams := SMap.set s.teams 0 { hdr := hd, status := .resident }
    sheaves := SMap.set s.sheaves 0 { regs := { pc := List.replicate 16 0 } }
    cores := SMap.set s.cores 0 { c with icache := (0, 0, lineWith w) :: c.icache.filter (fun e => !(e.1 = 0 && e.2.1 = 0)) }
    issue := [{ sheaf := 0, lanes := allLanes 16, pc := 0 }] }

end Sys2Proof.Machine
end

