-- ==== Sys2Proof/Machine/Dispatch.lean ====
section
/-! DEFINITION. One meaning for each instruction and each event. -/

namespace Sys2Proof.Machine

def exec (i : Instr) (s : State) : Host.Outcome State Fault Refusal :=
  match i with
  | .nop h o m => Sys2Proof.Machine.execNop h o m s
  | .bra h o m => Sys2Proof.Machine.execBra h o m s
  | .jmp h o m => Sys2Proof.Machine.execJmp h o m s
  | .jmpr h o m => Sys2Proof.Machine.execJmpr h o m s
  | .call h o m => Sys2Proof.Machine.execCall h o m s
  | .ret h o m => Sys2Proof.Machine.execRet h o m s
  | .exit h o m => Sys2Proof.Machine.execExit h o m s
  | .brd h o m => Sys2Proof.Machine.execBrd h o m s
  | .safept h o m => Sys2Proof.Machine.execSafept h o m s
  | .yield h o m => Sys2Proof.Machine.execYield h o m s
  | .cclose h o m => Sys2Proof.Machine.execCclose h o m s
  | .iadd h o m => Sys2Proof.Machine.execIadd h o m s
  | .isub h o m => Sys2Proof.Machine.execIsub h o m s
  | .imul h o m => Sys2Proof.Machine.execImul h o m s
  | .imulh h o m => Sys2Proof.Machine.execImulh h o m s
  | .imad h o m => Sys2Proof.Machine.execImad h o m s
  | .imin h o m => Sys2Proof.Machine.execImin h o m s
  | .imax h o m => Sys2Proof.Machine.execImax h o m s
  | .iabs h o m => Sys2Proof.Machine.execIabs h o m s
  | .bitAnd h o m => Sys2Proof.Machine.execAnd h o m s
  | .bitOr h o m => Sys2Proof.Machine.execOr h o m s
  | .bitXor h o m => Sys2Proof.Machine.execXor h o m s
  | .bitNot h o m => Sys2Proof.Machine.execNot h o m s
  | .shl h o m => Sys2Proof.Machine.execShl h o m s
  | .shr h o m => Sys2Proof.Machine.execShr h o m s
  | .sar h o m => Sys2Proof.Machine.execSar h o m s
  | .bfe h o m => Sys2Proof.Machine.execBfe h o m s
  | .bfi h o m => Sys2Proof.Machine.execBfi h o m s
  | .popc h o m => Sys2Proof.Machine.execPopc h o m s
  | .clz h o m => Sys2Proof.Machine.execClz h o m s
  | .brev h o m => Sys2Proof.Machine.execBrev h o m s
  | .isetp h o m => Sys2Proof.Machine.execIsetp h o m s
  | .sel h o m => Sys2Proof.Machine.execSel h o m s
  | .mov h o m => Sys2Proof.Machine.execMov h o m s
  | .movi h o m => Sys2Proof.Machine.execMovi h o m s
  | .lea h o m => Sys2Proof.Machine.execLea h o m s
  | .plop h o m => Sys2Proof.Machine.execPlop h o m s
  | .pmov h o m => Sys2Proof.Machine.execPmov h o m s
  | .vote h o m => Sys2Proof.Machine.execVote h o m s
  | .shfl h o m => Sys2Proof.Machine.execShfl h o m s
  | .rdlane h o m => Sys2Proof.Machine.execRdlane h o m s
  | .wrlane h o m => Sys2Proof.Machine.execWrlane h o m s
  | .sredux h o m => Sys2Proof.Machine.execSredux h o m s
  | .matchLanes h o m => Sys2Proof.Machine.execMatch h o m s
  | .fadd h o m => Sys2Proof.Machine.execFadd h o m s
  | .fsub h o m => Sys2Proof.Machine.execFsub h o m s
  | .fmul h o m => Sys2Proof.Machine.execFmul h o m s
  | .ffma h o m => Sys2Proof.Machine.execFfma h o m s
  | .fmin h o m => Sys2Proof.Machine.execFmin h o m s
  | .fmax h o m => Sys2Proof.Machine.execFmax h o m s
  | .fsetp h o m => Sys2Proof.Machine.execFsetp h o m s
  | .fclass h o m => Sys2Proof.Machine.execFclass h o m s
  | .frcp h o m => Sys2Proof.Machine.execFrcp h o m s
  | .frsq h o m => Sys2Proof.Machine.execFrsq h o m s
  | .fsqrt h o m => Sys2Proof.Machine.execFsqrt h o m s
  | .fdiv h o m => Sys2Proof.Machine.execFdiv h o m s
  | .fexp2 h o m => Sys2Proof.Machine.execFexp2 h o m s
  | .flog2 h o m => Sys2Proof.Machine.execFlog2 h o m s
  | .fsinpi h o m => Sys2Proof.Machine.execFsinpi h o m s
  | .fcospi h o m => Sys2Proof.Machine.execFcospi h o m s
  | .cvt h o m => Sys2Proof.Machine.execCvt h o m s
  | .cvtq h o m => Sys2Proof.Machine.execCvtq h o m s
  | .pack h o m => Sys2Proof.Machine.execPack h o m s
  | .unpk h o m => Sys2Proof.Machine.execUnpk h o m s
  | .qdeq h o m => Sys2Proof.Machine.execQdeq h o m s
  | .dot2 h o m => Sys2Proof.Machine.execDot2 h o m s
  | .dot4 h o m => Sys2Proof.Machine.execDot4 h o m s
  | .f6join h o m => Sys2Proof.Machine.execF6join h o m s
  | .frnd h o m => Sys2Proof.Machine.execFrnd h o m s
  | .fscl h o m => Sys2Proof.Machine.execFscl h o m s
  | .bget h o m => Sys2Proof.Machine.execBget h o m s
  | .bset h o m => Sys2Proof.Machine.execBset h o m s
  | .badd h o m => Sys2Proof.Machine.execBadd h o m s
  | .bmax h o m => Sys2Proof.Machine.execBmax h o m s
  | .bchk h o m => Sys2Proof.Machine.execBchk h o m s
  | .bclr h o m => Sys2Proof.Machine.execBclr h o m s
  | .bmode h o m => Sys2Proof.Machine.execBmode h o m s
  | .ld h o m => Sys2Proof.Machine.execLd h o m s
  | .st h o m => Sys2Proof.Machine.execSt h o m s
  | .lds h o m => Sys2Proof.Machine.execLds h o m s
  | .sts h o m => Sys2Proof.Machine.execSts h o m s
  | .ldf h o m => Sys2Proof.Machine.execLdf h o m s
  | .ste h o m => Sys2Proof.Machine.execSte h o m s
  | .feset h o m => Sys2Proof.Machine.execFeset h o m s
  | .ldk h o m => Sys2Proof.Machine.execLdk h o m s
  | .pref h o m => Sys2Proof.Machine.execPref h o m s
  | .atom h o m => Sys2Proof.Machine.execAtom h o m s
  | .cas h o m => Sys2Proof.Machine.execCas h o m s
  | .red h o m => Sys2Proof.Machine.execRed h o m s
  | .fence h o m => Sys2Proof.Machine.execFence h o m s
  | .sealRegion h o m => Sys2Proof.Machine.execSeal h o m s
  | .unsealRegion h o m => Sys2Proof.Machine.execUnseal h o m s
  | .hint h o m => Sys2Proof.Machine.execHint h o m s
  | .waita h o m => Sys2Proof.Machine.execWaita h o m s
  | .bari h o m => Sys2Proof.Machine.execBari h o m s
  | .bara h o m => Sys2Proof.Machine.execBara h o m s
  | .barw h o m => Sys2Proof.Machine.execBarw h o m s
  | .barq h o m => Sys2Proof.Machine.execBarq h o m s
  | .xacq h o m => Sys2Proof.Machine.execXacq h o m s
  | .xrel h o m => Sys2Proof.Machine.execXrel h o m s
  | .lnch h o m => Sys2Proof.Machine.execLnch h o m s
  | .qbind h o m => Sys2Proof.Machine.execQbind h o m s
  | .qstat h o m => Sys2Proof.Machine.execQstat h o m s
  | .mma h o m => Sys2Proof.Machine.execMma h o m s
  | .mzero h o m => Sys2Proof.Machine.execMzero h o m s
  | .mload h o m => Sys2Proof.Machine.execMload h o m s
  | .mdrain h o m => Sys2Proof.Machine.execMdrain h o m s
  | .gath h o m => Sys2Proof.Machine.execGath h o m s
  | .spcmp h o m => Sys2Proof.Machine.execSpcmp h o m s
  | .cpy h o m => Sys2Proof.Machine.execCpy h o m s
  | .cpym h o m => Sys2Proof.Machine.execCpym h o m s
  | .wtc h o m => Sys2Proof.Machine.execWtc h o m s
  | .wto h o m => Sys2Proof.Machine.execWto h o m s
  | .trap h o m => Sys2Proof.Machine.execTrap h o m s
  | .eret h o m => Sys2Proof.Machine.execEret h o m s
  | .srd h o m => Sys2Proof.Machine.execSrd h o m s
  | .swr h o m => Sys2Proof.Machine.execSwr h o m s
  | .clk h o m => Sys2Proof.Machine.execClk h o m s
  | .bkpt h o m => Sys2Proof.Machine.execBkpt h o m s
  | .sleep h o m => Sys2Proof.Machine.execSleep h o m s
  | .quadrantIssue core quad => Sys2Proof.Machine.execQuadrantIssue core quad s
  | .nwLockExpire core quad => Sys2Proof.Machine.execNwLockExpire core quad s
  | .lineRefetch core line => Sys2Proof.Machine.execLineRefetch core line s
  | .pageWalk ctx va => Sys2Proof.Machine.execPageWalk ctx va s
  | .commitRound => Sys2Proof.Machine.execCommitRound s
  | .priorityTokenTake sheaf => Sys2Proof.Machine.execPriorityTokenTake sheaf s
  | .boundaryPerform sheaf => Sys2Proof.Machine.execBoundaryPerform sheaf s
  | .podRelease sheaf => Sys2Proof.Machine.execPodRelease sheaf s
  | .accessCompletion id => Sys2Proof.Machine.execAccessCompletion id s
  | .ldfComplete sheaf lane => Sys2Proof.Machine.execLdfComplete sheaf lane s
  | .steComplete sheaf lane => Sys2Proof.Machine.execSteComplete sheaf lane s
  | .waitaComplete sheaf lane => Sys2Proof.Machine.execWaitaComplete sheaf lane s
  | .waitaPoll sheaf => Sys2Proof.Machine.execWaitaPoll sheaf s
  | .xacqGrant team quad => Sys2Proof.Machine.execXacqGrant team quad s
  | .counterWaitWake sheaf => Sys2Proof.Machine.execCounterWaitWake sheaf s
  | .queuePopWake sheaf => Sys2Proof.Machine.execQueuePopWake sheaf s
  | .sleepExpire sheaf lane => Sys2Proof.Machine.execSleepExpire sheaf lane s
  | .yieldExpire sheaf => Sys2Proof.Machine.execYieldExpire sheaf s
  | .mmaPerform team cmd => Sys2Proof.Machine.execMmaPerform team cmd s
  | .tileFillPerform team cmd => Sys2Proof.Machine.execTileFillPerform team cmd s
  | .mdrainPerform team cmd => Sys2Proof.Machine.execMdrainPerform team cmd s
  | .engineQueuePush team cmd => Sys2Proof.Machine.execEngineQueuePush team cmd s
  | .copyPerform team cmd => Sys2Proof.Machine.execCopyPerform team cmd s
  | .cpymMmaIssue team cmd => Sys2Proof.Machine.execCpymMmaIssue team cmd s
  | .gatherPerform team cmd => Sys2Proof.Machine.execGatherPerform team cmd s
  | .handlerEntry sheaf => Sys2Proof.Machine.execHandlerEntry sheaf s
  | .teamSwapOut team => Sys2Proof.Machine.execTeamSwapOut team s
  | .tresumeWrite val => Sys2Proof.Machine.execTresumeWrite val s
  | .preemptRequest team => Sys2Proof.Machine.execPreemptRequest team s
  | .saveRoutineStart team => Sys2Proof.Machine.execSaveRoutineStart team s
  | .teamSuspend team => Sys2Proof.Machine.execTeamSuspend team s
  | .teamPlace team core => Sys2Proof.Machine.execTeamPlace team core s
  | .sheafEnd sheaf => Sys2Proof.Machine.execSheafEnd sheaf s
  | .teamEnd team => Sys2Proof.Machine.execTeamEnd team s
  | .doorbell off size val => Sys2Proof.Machine.execDoorbell off size val s
  | .qd0Write q val => Sys2Proof.Machine.execQd0Write q val s
  | .qd1Write q val => Sys2Proof.Machine.execQd1Write q val s
  | .kernelPkt q => Sys2Proof.Machine.execKernelPkt q s
  | .waitPkt q => Sys2Proof.Machine.execWaitPkt q s
  | .waitPoll q => Sys2Proof.Machine.execWaitPoll q s
  | .signalPkt q => Sys2Proof.Machine.execSignalPkt q s
  | .childPacketRead part => Sys2Proof.Machine.execChildPacketRead part s
  | .tlbicmd val => Sys2Proof.Machine.execTlbicmd val s
  | .tlbInvalidateDone => Sys2Proof.Machine.execTlbInvalidateDone s
  | .partcfg val => Sys2Proof.Machine.execPartcfg val s
  | .partsw p val => Sys2Proof.Machine.execPartsw p val s
  | .partitionSwitchDone p => Sys2Proof.Machine.execPartitionSwitchDone p s
  | .go => Sys2Proof.Machine.execGo s
  | .reset => Sys2Proof.Machine.execReset s
  | .quiesce => Sys2Proof.Machine.execQuiesce s
  | .coldReset => Sys2Proof.Machine.execColdReset s
  | .bringupPhaseDone absent fail => Sys2Proof.Machine.execBringupPhaseDone absent fail s
  | .registerWrite off val => Sys2Proof.Machine.execRegisterWrite off val s
  | .telemetryClear k => Sys2Proof.Machine.execTelemetryClear k s
  | .pwrlim val => Sys2Proof.Machine.execPwrlim val s
  | .powerControlTick inst milli temp => Sys2Proof.Machine.execPowerControlTick inst milli temp s
  | .portstat p val => Sys2Proof.Machine.execPortstat p val s
  | .keycmd p val => Sys2Proof.Machine.execKeycmd p val s
  | .keySlotWrite p rx idx word val => Sys2Proof.Machine.execKeySlotWrite p rx idx word val s
  | .flitReceive p key crcOk tagOk => Sys2Proof.Machine.execFlitReceive p key crcOk tagOk s
  | .flitReplay p => Sys2Proof.Machine.execFlitReplay p s
  | .flitAck p => Sys2Proof.Machine.execFlitAck p s
  | .laneFail p lane => Sys2Proof.Machine.execLaneFail p lane s
  | .linkUp p => Sys2Proof.Machine.execLinkUp p s
  | .peerDepart dev => Sys2Proof.Machine.execPeerDepart dev s
  | .peerArrive dev => Sys2Proof.Machine.execPeerArrive dev s
  | .peerRequest pa req => Sys2Proof.Machine.execPeerRequest pa req s
  | .redGroupApply pa op ty x bnd => Sys2Proof.Machine.execRedGroupApply pa op ty x bnd s
  | .remoteTimeout id => Sys2Proof.Machine.execRemoteTimeout id s
  | .systemAccessTimeout id => Sys2Proof.Machine.execSystemAccessTimeout id s
  | .hostRead pa size => Sys2Proof.Machine.execHostRead pa size s
  | .hostWrite pa bytes poison => Sys2Proof.Machine.execHostWrite pa bytes poison s
  | .hostSnoop pa => Sys2Proof.Machine.execHostSnoop pa s
  | .backInvalidate pa => Sys2Proof.Machine.execBackInvalidate pa s
  | .softError site a b c => Sys2Proof.Machine.execSoftError site a b c s
  | .dieLoss d => Sys2Proof.Machine.execDieLoss d s
  | .lineEviction key => Sys2Proof.Machine.execLineEviction key s
  | .preemptionLimitExpire team => Sys2Proof.Machine.execPreemptionLimitExpire team s

end Sys2Proof.Machine
end

