-- ==== Sys2Proof/Machine/Step.lean ====
section
/-! DEFINITION. One step: the instruction at the head of the issue is fetched, checked and executed; else the next event of the agenda happens; else
a cycle passes. -/

namespace Sys2Proof.Machine

def step (s : State) : Host.Outcome State Fault Refusal :=
  match s.issue with
  | _ :: _ =>
    (match s.fetch with
     | (.blocked, s1) => .next s1.awaitRoom
     | (.trap t, s1) => .next (s1.raise t)
     | (.refetch line, s1) => exec (.lineRefetch s1.csh.core line) s1
     | (.instr i, s1) => exec i s1)
  | [] =>
    (match s.agenda with
     | e :: r => exec e { s with agenda := r }
     | [] => .next s.tick)

/-- The state with an instruction placed where the next step fetches it. DESIGN CHOICE (log 3). -/
def State.withFetchWord (s : State) (nbits w : Nat) : State := s.place (w % 2 ^ nbits % 2 ^ 96)

end Sys2Proof.Machine
end

