-- ==== Sys2Proof/Safety.lean ====
section
/-! DEFINITION. The terms in which claims about the machine are stated: when an instruction passes its checks, what it leaves alone, what a
write through D leaves behind, and what every step keeps. -/

namespace Sys2Proof.Machine

/-! Before an instruction. -/

/-- The lanes the frame of a failed check records: the active ones, or the path's where none is active (R87). -/
def State.checkLanes (s : State) (h : Hd) : Mask := if s.active h = 0 then s.cur.lanes else s.active h

/-- An instruction passes checks 4 to 8 of R87 and the QUEUE cause of R242, and neither a queue nor the register limit of a chunk holds
it back (R220, R244, R245); NW writes neither a queue nor a register, and no active lane writes no register (R86, R105). -/
abbrev Ready (h : Hd) (imm : W32) (d : Option Dst) (as : List Src) (s : State) : Prop :=
  s.operandTrap (s.checkLanes h) d as = none
  ∧ s.strictTrap imm (d.any (fun x => d16Of x.sel x.w64)) (s.active h) as = none
  ∧ s.queueTrap (s.checkLanes h) d as = none
  ∧ s.popWaits as = none ∧ s.pushWaits (if h.nw then none else d) = false
  ∧ s.vregsFull (if s.active h = 0 then none else if h.nw then none else d) = false

/-- The order of a sheaf's chunks: only the youngest may stand open, and one that has executed nothing holds nothing (R219); a lane waits on
one condition at a time. -/
def Sheaf.tidy (x : Sheaf) : Prop :=
  (∀ c ∈ x.chunks.dropLast, c.closed = true) ∧ (∀ c ∈ x.chunks, c.count = 0 → c.closed = false ∧ c.held = [])
  ∧ (x.waits.map (·.1)).Nodup ∧ (x.savedWaits.map (·.1)).Nodup

/-- Every earlier chunk of the path's sheaf has committed: a boundary instruction is performed now (R221). -/
abbrev AtBoundary (s : State) : Prop := s.csh.uncommitted = false ∧ s.csh.tidy

/-- An earlier chunk of the path's sheaf has not committed. -/
abbrev BeforeBoundary (s : State) : Prop := s.csh.uncommitted = true ∧ s.csh.tidy

/-- Is lane `l` among the lanes that execute? -/
abbrev State.on (s : State) (h : Hd) (l : Nat) : Prop := l < 64 ∧ Mask.has (s.active h) l = true

/-- The cause of a latch source (R93): LATCH where the latch is lost with no fallback, ILLOPND where a 64-bit read meets a 32-bit entry. -/
def State.latchBad (s : State) (a : Src) : Option Nat :=
  match a.sel with
  | .l n => (match s.latchRead n.toNat with
    | .lost => some cLATCH
    | .held e => if a.w64 && !e.w64 then some cILLOPND else none
    | .fallback _ => none)
  | _ => none

/-- The fields at which checks 4, 5 and 9 fail first, in the order D, SA, SB, SC; a queue named twice stands after the selectors. -/
def State.badField (s : State) (d : Option Dst) (as : List Src) : Option Nat :=
  (firstField d as (fun x => s.dstBad x (as.all (fun a => selUniform a.sel))) s.srcBad).or (dupQueue as [])
def State.awayField (s : State) (d : Option Dst) (as : List Src) : Option Nat :=
  firstField d as (fun x => x.vregs.any (fun n => s.holding n = .ext)) (fun a => a.vregs.any (fun n => s.holding n = .ext))
def State.queueField (s : State) (d : Option Dst) (as : List Src) : Option Nat :=
  firstField d as (fun x => match x.sel with | .q n => !epWrites (s.rregs.boundTo n.toNat) | _ => false)
    (fun a => match a.sel with
      | .q n => !epReads (s.rregs.boundTo n.toNat) || (match s.headEntry n with | some e => e.w64 ≠ a.w64 | none => false)
      | _ => false)

/-! After an instruction. -/

/-- The lanes of the path stand at the next slot, every other lane where it stood, and the instruction no longer issues (R79). -/
structure Advanced (s t : State) : Prop where
  moved : ∀ l, l < s.width → Mask.has s.cur.lanes l = true → (t.sheaf s.cur.sheaf).regs.pcOf l = nextPc s.cur.pc
  stayed : ∀ l, l < s.width → Mask.has s.cur.lanes l = false → (t.sheaf s.cur.sheaf).regs.pcOf l = s.csh.regs.pcOf l
  issued : t.issue = s.issue.tail

/-- Outside the path's sheaf and its core, everything stands as before: memory, every other sheaf, teams, launches, and every register
of the device. -/
structure OnlyPath (s t : State) : Prop where
  rest : t = { s with sheaves := t.sheaves, cores := t.cores, issue := t.issue }
  sheaves : ∀ j, j ≠ s.cur.sheaf → t.sheaf j = s.sheaf j
  cores : ∀ c, c ≠ s.csh.core → t.core c = s.core c
  caches : (t.core s.csh.core).icache = (s.core s.csh.core).icache ∧ (t.core s.csh.core).tlb = (s.core s.csh.core).tlb
    ∧ (t.core s.csh.core).regions = (s.core s.csh.core).regions ∧ (t.core s.csh.core).gather = (s.core s.csh.core).gather

/-- The byte of a line as a sheaf sees it: its own stores over the committed line (R203, R222). -/
def State.seen (s : State) (i : Nat) (l : Line) (k : Nat) : Byte := (overlay (s.line l) l (s.heldWrites i none)).bytes.getD k 0

/-- No byte of any line, as any sheaf sees it, has changed: nothing is stored. -/
def Unstored (s t : State) : Prop := ∀ (i : Nat) (l : Line) (k : Nat), t.seen i l k = s.seen i l k

/-- Registers outside the listed ones stand as before: vectors, scalars, predicates, ALLOW, the exits, the queue bindings. -/
structure RegsFrame (x y : Regs) (vs ss ps : List Nat) : Prop where
  v : ∀ n, n ∉ vs → y.vreg n = x.vreg n
  s : ∀ n, n ∉ ss → y.sreg n = x.sreg n
  p : ∀ n, n ∉ ps → SMap.getD y.p n {} = SMap.getD x.p n {}
  allow : y.allow = x.allow
  exited : y.exited = x.exited
  qbind : y.qbind = x.qbind
  routine : y.routine = x.routine

/-- The exception registers and what else a sheaf holds beside its registers, chunks and endpoints stand as before (R291). -/
structure SheafFrame (x y : Sheaf) : Prop where
  frame : y.frame = x.frame
  hm : y.hm = x.hm
  tg : y.tg = x.tg
  saved : y.savedPc = x.savedPc ∧ y.savedWaits = x.savedWaits
  ext : y.ext = x.ext
  waits : y.waits = x.waits
  place : y.team = x.team ∧ y.idx = x.idx ∧ y.core = x.core ∧ y.quad = x.quad ∧ y.slot = x.slot
  state : y.pend = x.pend ∧ y.young = x.young ∧ y.parked = x.parked ∧ y.ended = x.ended ∧ y.gate = x.gate

/-- The vector registers, the scalars and the predicates that a destination names. -/
def dstVs (d : Sel) (cnt : Nat) : List Nat := vregsOf d cnt
def dstSs (d : Sel) : List Nat := match d with | .s n => [n.toNat] | _ => []
def dstPs (d : Sel) : List Nat := match d with | .p n => [n.toNat] | _ => []

/-- One word of a vector register pair or register after a write: its value, its shadow, its tag and its width flag (R31, R36). -/
def VecHolds (r : Regs) (n l : Nat) (w64 : Bool) (tag : Ty) (v : Nat) (b : Bnd) : Prop :=
  (r.vreg n).tag = tag ∧ (r.vreg n).wf = w64
  ∧ (if w64 then r.vVal64 n l = v % 2 ^ 64 ∧ lane (r.vreg n).sh l 0 = b.eb32.extractLsb' 0 16
        ∧ lane (r.vreg (n + 1)).sh l 0 = b.eb32.extractLsb' 16 16
      else r.vVal32 n l = v % 2 ^ 32 ∧ lane (r.vreg n).sh l 0 = b.eb16)

/-- D after an instruction without NW (R106's wr): a vector register on the active lanes, the other lanes as before; a scalar once, from
the lowest active lane; nothing where no lane is active. With bounds off only poison is kept (R70). -/
def Wrote (s t : State) (h : Hd) (d : Sel) (w64 : Bool) (tag : Ty) (res : Nat → Nat × Bnd) : Prop :=
  let a := s.active h
  let x := s.csh.regs
  let y := (t.sheaf s.cur.sheaf).regs
  h.nw = false →
  match d with
  | .v n =>
    (∀ l, l < s.width → Mask.has a l = true → VecHolds y n.toNat l w64 tag (res l).1 (s.bnd (res l).2))
    ∧ (∀ l, l < s.width → Mask.has a l = false → y.vVal32 n.toNat l = x.vVal32 n.toNat l
        ∧ (w64 = true → y.vVal32 (n.toNat + 1) l = x.vVal32 (n.toNat + 1) l))
    ∧ (a = 0 → y.vreg n.toNat = x.vreg n.toNat)
  | .s n =>
    if a = 0 then y.sreg n.toNat = x.sreg n.toNat
    else
      let v := (res (lowest a)).1
      (y.sreg n.toNat).tag = tag ∧ (y.sreg n.toNat).bnd = (s.bnd (res (lowest a)).2).eb32
      ∧ (y.sreg n.toNat).val =
          (if w64 then BitVec.ofNat 64 v else if tag = .i32 then (BitVec.ofNat 32 v).signExtend 64 else (BitVec.ofNat 32 v).setWidth 64)
  | .q n => ∃ c, (t.sheaf s.cur.sheaf).chunks.getLast? = some c ∧ c.held.getLast? = some (.push (s.rregs.boundTo n.toNat)
      { w64 := w64, tag := tag
        val := lanesOf s.width (fun l => if Mask.has a l then BitVec.ofNat 64 (res l).1 else 0)
        bnd := lanesOf s.width (fun l => if Mask.has a l then dstBnd d w64 (s.bnd (res l).2) else 0) })
  | _ => True

/-- The chain of bypass latches of the path's quadrant in a state. -/
def State.chainIn (s t : State) : List Latch := SMap.getD (t.core s.csh.core).latches s.csh.quad []

/-- The bypass-latch entry of a producer (R92): the result's word, bound and tag on the lanes written, the register as it stood on the others;
NW leaves the result there alone (R86). A scalar's entry holds its value on every lane. It is the youngest of four; an instruction that has
issued before, and waited for its access or its round, fills the entry it took then, where it stands by now. -/
def Latched (s t : State) (h : Hd) (d : Sel) (w64 : Bool) (tag : Ty) (res : Nat → Nat × Bnd) : Prop :=
  let a := s.active h
  let was := fun l => s.csh.regs.raw d w64 l
  (match d with | .v _ => true | .s _ => true | _ => h.nw) = true →
  ∃ e : Latch, e.sheaf = s.cur.sheaf ∧ e.dst = d ∧ e.nw = h.nw ∧ e.w64 = w64 ∧ e.tag = tag ∧ e.oldTag = (was 0).tag ∧ e.awaits = false
    ∧ (∀ l, l < s.width → l < 64 →
        let new := match d with | .s _ => a ≠ 0 | _ => Mask.has a l = true
        let k := match d with | .s _ => lowest a | _ => l
        (Mask.has e.lanes l = true ↔ new)
        ∧ (new → lane e.val l 0 = BitVec.ofNat 64 (res k).1 ∧ lane e.bnd l 0 = dstBnd d w64 (s.bnd (res k).2))
        ∧ (¬ new → lane e.val l 0 = BitVec.ofNat 64 (was l).bits ∧ lane e.bnd l 0 = dstBnd d w64 (was l).bnd))
    ∧ (s.cur.issued = false → s.chainIn t = e :: (s.chainIn s).take 3)
    ∧ (s.cur.issued = true → s.chainIn t = e.fill s.cur.sheaf (s.chainIn s))

/-- A producer that writes D and nothing else completes: D holds the results, the path advances, all else stands as before. -/
def Produces (i : Instr) (s : State) (h : Hd) (o : Opn) (w64 : Bool) (tag : Ty) (res : Nat → Nat × Bnd) : Prop :=
  ∃ t, exec i s = .next t ∧ Wrote s t h o.d w64 tag res ∧ Latched s t h o.d w64 tag res ∧ Advanced s t ∧ OnlyPath s t
    ∧ Unstored s t ∧ SheafFrame s.csh (t.sheaf s.cur.sheaf)
    ∧ RegsFrame s.csh.regs (t.sheaf s.cur.sheaf).regs
        (if h.nw then [] else dstVs o.d (if w64 then 2 else 1)) (if h.nw then [] else dstSs o.d) []

/-- A predicate destination completes: its value and doubt bits on the active lanes, the other lanes as before (R34, R106). -/
def Decides (i : Instr) (s : State) (h : Hd) (o : Opn) (res : Nat → Bool × Bool) : Prop :=
  ∃ t, exec i s = .next t
    ∧ (∀ n, o.d = .p n → n ≠ 15 → ∀ l, l < 64 →
        let y := (t.sheaf s.cur.sheaf).regs.pred n
        let x := s.csh.regs.pred n
        if Mask.has (s.active h) l then Mask.has y.val l = (res l).1 ∧ Mask.has y.doubt l = (s.boundsOn && (res l).2)
        else Mask.has y.val l = Mask.has x.val l ∧ Mask.has y.doubt l = Mask.has x.doubt l)
    ∧ Advanced s t ∧ OnlyPath s t ∧ Unstored s t ∧ SheafFrame s.csh (t.sheaf s.cur.sheaf)
    ∧ RegsFrame s.csh.regs (t.sheaf s.cur.sheaf).regs [] [] (dstPs o.d)

/-- Nothing but the place of the path's lanes and the chunk it executes in differs: no register, no predicate, no byte, nothing of
another sheaf. -/
structure Untouched (s t : State) : Prop where
  path : OnlyPath s t
  bytes : Unstored s t
  sheaf : SheafFrame s.csh (t.sheaf s.cur.sheaf)
  regs : RegsFrame s.csh.regs (t.sheaf s.cur.sheaf).regs [] [] []

/-- An instruction that only moves its path on: nothing else of the machine changes. -/
def Passes (i : Instr) (s : State) : Prop := ∃ t, exec i s = .next t ∧ Advanced s t ∧ Untouched s t

/-- An entry that writes D from its sources: once its checks pass it completes, and D takes what `res` gives from the sources read. -/
def Computes (i : Instr) (h : Hd) (o : Opn) (d : Dst) (as : List Src) (tag : State → Ty)
    (res : State → (Src → Nat → Val) → Nat → Nat × Bnd) : Prop :=
  ∀ s, Ready h o.imm (some d) as s → Produces i s h o d.w64 (tag s) (res s (s.rd o.imm (d16Of o.d d.w64)))

/-- An entry that writes a predicate from its sources. -/
def Tests (i : Instr) (h : Hd) (o : Opn) (as : List Src) (res : State → (Src → Nat → Val) → Nat → Bool × Bool) : Prop :=
  ∀ s, Ready h o.imm (some { sel := o.d, w64 := false, predOnly := true }) as s → Decides i s h o (res s (s.rd o.imm false))

/-- The path moves: lane l of it to `go l`, every other lane stands; nothing else of the machine changes but its chunk. -/
structure Moved (s t : State) (go : Nat → Pc) : Prop where
  pc : ∀ l, l < s.width → (t.sheaf s.cur.sheaf).regs.pcOf l = if Mask.has s.cur.lanes l then go l else s.csh.regs.pcOf l
  issued : t.issue = s.issue.tail

/-- A control transfer completes. -/
def Moves (i : Instr) (s : State) (go : Nat → Pc) : Prop :=
  ∃ t, exec i s = .next t ∧ Moved s t go ∧ Untouched s t

/-- The chunk the sheaf executed in is closed: its youngest chunk takes no more instructions (R219). -/
def ChunkClosed (t : State) (i : Nat) : Prop := ∃ c, (t.sheaf i).chunks.getLast? = some c ∧ c.closed = true

/-- A trap raised at the current instruction: it is the outcome, and no register, predicate or memory byte is written by it. -/
def Raises (i : Instr) (s : State) (t : Trap) : Prop := exec i s = .next (s.raise t)

/-- Checks 4 to 8 of R87 in their order, and QUEUE after them (R242): the first that fails raises its cause, on the active lanes, or on the
path's where none is active; check 7 names those of them whose source has the wrong tag, check 8 those that read an infinite bound. A check's
premises are that the earlier ones pass. -/
def ChecksAt (i : Instr) (h : Hd) (imm : W32) (d : Option Dst) (as : List Src) (s : State) : Prop :=
    let m := s.checkLanes h
    let wrong := fun (a : Src) (t : Ty) => t ∈ s.srcTags m a ∧ a.tagBad (allowFxc s.allow) t = true
    let onLane := fun (l : Nat) => ∃ a ∈ as, ∃ t ∈ s.srcTags (Mask.of 64 (fun k => k = l)) a, a.tagBad (allowFxc s.allow) t = true
    let tagged := fun (a : Src) => ∃ t, wrong a t
    let inf := fun (a : Src) (l : Nat) => (s.rd imm (d.any (fun x => d16Of x.sel x.w64)) a l).bnd.isInf = true
    let strict := allowStrict s.allow = true ∧ ∃ a ∈ as, ∃ l, s.on h l ∧ inf a l
    (∀ f, s.badField d as = some f → Raises i s { cause := cILLOPND, check := 4, lanes := m, opnd := f })
    ∧ (s.badField d as = none →
      (∀ f, s.awayField d as = some f → Raises i s { cause := cXREG, check := 5, lanes := m, opnd := f })
      ∧ (s.awayField d as = none →
        (∀ a c, as.find? (fun a => (s.latchBad a).isSome) = some a → s.latchBad a = some c →
          Raises i s { cause := c, check := 6, lanes := m, opnd := a.fld })
        ∧ ((∀ a ∈ as, s.latchBad a = none) →
          (∀ pre a post, as = pre ++ a :: post → (∀ b ∈ pre, ¬ tagged b) → tagged a →
            ∃ (t : Ty) (bad : Mask), wrong a t ∧ (∀ l, l < 64 → (Mask.has bad l = true ↔ Mask.has m l = true ∧ onLane l))
              ∧ Raises i s { cause := cFORMAT, check := 7, lanes := bad, opnd := a.fld, tag := t.code.toNat })
          ∧ ((∀ a ∈ as, ¬ tagged a) →
            (strict → ∃ t : Trap, Raises i s t ∧ t.check = 8
              ∧ (∀ l, l < 64 → (Mask.has t.lanes l = true ↔ s.on h l ∧ ∃ a ∈ as, inf a l))
              ∧ (t.cause = cPOISON ∨ t.cause = cBOUNDLOST)
              ∧ (t.cause = cPOISON ↔ ∃ a ∈ as, ∃ l, s.on h l ∧ (s.rd imm (d.any (fun x => d16Of x.sel x.w64)) a l).bnd.poi = true)
              ∧ ∃ pre a post, as = pre ++ a :: post ∧ t.opnd = a.fld ∧ (∃ l, s.on h l ∧ inf a l) ∧ ∀ b ∈ pre, ∀ l, s.on h l → ¬ inf b l)
            ∧ (¬ strict → ∀ f, s.queueField d as = some f → Raises i s { cause := cQUEUE, check := 9, lanes := m, opnd := f })))))

/-- The checks of an instruction in every state. -/
def Checks (i : Instr) (h : Hd) (imm : W32) (d : Option Dst) (as : List Src) : Prop := ∀ s : State, ChecksAt i h imm d as s

/-- The byte of the local map that counts the dies a context's accesses have touched (R307): byte 56 of the context's descriptor. -/
def State.touchedByte (s : State) : Nat := s.descAddr s.ctm.ctx + 56

/-- Byte `k` of a line does not show the touched-dies byte. -/
def State.apart (s : State) (l : Line) (k : Nat) : Prop :=
  match l with
  | .mem n => 128 * n + k ≠ s.touchedByte
  | .rem n => remDev (128 * n) ≠ s.devnum ∨ remOfs (128 * n) + k ≠ s.touchedByte
  | .coded _ stream rate _ _ => s.touchedByte < stream ∨ stream + 2 * rate ≤ s.touchedByte
  | _ => True

/-- What an access leaves behind besides its effect: translations and region entries held by its core, and the touched-dies byte. Every other
byte, as any sheaf sees it, and every register of the device stands as before. -/
structure Filled (s f : State) : Prop where
  rest : f = { s with cores := f.cores, mem := f.mem }
  cores : ∀ c, c ≠ s.csh.core → f.core c = s.core c
  own : f.core s.csh.core = { s.core s.csh.core with tlb := (f.core s.csh.core).tlb, regions := (f.core s.csh.core).regions }
  map : ∀ a, a ≠ s.touchedByte → Memory.get f.mem a = Memory.get s.mem a
  seen : ∀ (i : Nat) (l : Line) (k : Nat), s.apart l k → f.seen i l k = s.seen i l k

/-- The state an access is performed on: the translations, the regions and the dies of its active lanes noted. -/
abbrev State.noted (s : State) (sp sOnly : Bool) (o : Opn) (acc : Acc) (bytes : Nat) (a : Mask) : State :=
  s.noteFills sp ((Mask.list a).map (s.memAddr o sp sOnly)) ((s.locs sp acc bytes a (s.memAddr o sp sOnly)).map Prod.snd)

/-- Element `k` of a load on lane `l`, extended as its register takes it, from the lines as a view shows them. -/
def State.loaded (s : State) (view : Line → LineData) (o : Opn) (m : MMod) (sp sOnly : Bool) (a : Mask) (k l : Nat) : Nat × Bnd :=
  let c := laneLoc (s.locs sp .load (mwBytes m.width) a (s.memAddr o sp sOnly)) l
  extendElem m.width m.hi ((view c.line).elem s.strict (c.ofs + k * mwElem m.width) (mwElem m.width))

/-- What the lanes of a store write, line by line. -/
def State.stored (s : State) (o : Opn) (m : MMod) (sp : Bool) (a : Mask) : List LineWrite :=
  buildWrites ((s.locs sp .store (mwBytes m.width) a (s.memAddr o sp false)).map
    (fun p => ⟨p.2, mwElem m.width, (s.storeEls o m.width p.1).map (fun e => (e.1, e.2.1))⟩)) (mwIs64 m.width) (!s.boundsOn)

/-- The tail of a completed producer: D written, its latch entry pushed, the path moved on, all else as in `f`, which is the state before
but for what else the instruction does. -/
def Produced (s f t : State) (h : Hd) (d : Sel) (w64 : Bool) (tag : Ty) (res : Nat → Nat × Bnd) : Prop :=
  Wrote s t h d w64 tag res ∧ Latched s t h d w64 tag res ∧ Advanced s t ∧ OnlyPath f t ∧ Unstored f t
  ∧ SheafFrame f.csh (t.sheaf s.cur.sheaf)
  ∧ RegsFrame f.csh.regs (t.sheaf s.cur.sheaf).regs
      (if h.nw then [] else dstVs d (if w64 then 2 else 1)) (if h.nw then [] else dstSs d) []

/-- A load's registers: the first element through D, the others in the registers above it. -/
def LoadProduced (s f t : State) (h : Hd) (o : Opn) (m : MMod) (tag : Ty) (val : Nat → Nat → Nat × Bnd) : Prop :=
  let w64 := mwIs64 m.width
  Wrote s t h o.d w64 tag (val 0) ∧ Latched s t h o.d w64 tag (val 0)
  ∧ (∀ (n : BitVec 8) (k : Nat), o.d = .v n → 0 < k → k < mwCount m.width →
      Wrote s t h (.v (n + BitVec.ofNat 8 (k * (if w64 then 2 else 1)))) w64 tag (val k))
  ∧ Advanced s t ∧ OnlyPath f t ∧ Unstored f t ∧ SheafFrame s.csh (t.sheaf s.cur.sheaf)
  ∧ RegsFrame s.csh.regs (t.sheaf s.cur.sheaf).regs (if h.nw then [] else dstVs o.d (mwRegs m.width)) (if h.nw then [] else dstSs o.d) []

/-- The tail of an instruction that writes no register: the path moved on, all else as in `f`. -/
structure PassedOver (s f t : State) : Prop where
  moved : Advanced s t
  path : OnlyPath f t
  sheaf : SheafFrame f.csh (t.sheaf s.cur.sheaf)
  regs : RegsFrame f.csh.regs (t.sheaf s.cur.sheaf).regs [] [] []

/-- A boundary or irrevocable instruction waits, for the earlier chunks of its sheaf or for the entries of its earlier boundary instructions:
the path is kept, nothing is changed, and the cycle's other path still issues (R19, R221, R234). -/
def Waits (i : Instr) (s : State) : Prop :=
  ∃ t, exec i s = .next t ∧ t.issue = s.others ∧ (t.sheaf s.cur.sheaf).pend = .boundary s.boundaryPath
    ∧ (t.sheaf s.cur.sheaf).regs = s.csh.regs
    ∧ OnlyPath s t ∧ Unstored s t ∧ SheafFrame s.csh { t.sheaf s.cur.sheaf with pend := s.csh.pend }

/-- An instruction waits after its issue: the path is kept under `pend`, the cycle's other path issues when it is done (R19), and no register
changes but the producers' list. -/
structure Suspends (s t : State) (pend : Pend) : Prop where
  sheaves : ∀ j, j ≠ s.cur.sheaf → t.sheaf j = s.sheaf j
  issue : t.issue = []
  pend : (t.sheaf s.cur.sheaf).pend = pend
  young : (t.sheaf s.cur.sheaf).young = s.others
  regs : RegsFrame s.csh.regs (t.sheaf s.cur.sheaf).regs [] [] []
  pc : (t.sheaf s.cur.sheaf).regs.pc = s.csh.regs.pc
  sheaf : SheafFrame s.csh { t.sheaf s.cur.sheaf with pend := s.csh.pend, young := s.csh.young }

/-- A producer of `d` takes its place in its quadrant's chain and among its sheaf's producers, its value to come (R92). -/
def Queues (s t : State) (d : Sel) (nw w64 : Bool) : Prop :=
  ∃ e : Latch, s.chainIn t = e :: (s.chainIn s).take 3 ∧ e.sheaf = s.cur.sheaf ∧ e.dst = d ∧ e.nw = nw ∧ e.w64 = w64 ∧ e.awaits = true
    ∧ (t.sheaf s.cur.sheaf).regs.prods = { dst := d, nw := nw, w64 := w64 } :: s.csh.regs.prods.take 3

/-- A load or an atomic of remote or system memory, at the addresses `pas`, issues and goes on its way: its value comes with the completion of
the access (R232). A producer takes its latch (R92), and one with NW holds its quadrant (R94); one that issues again has both. -/
structure Flies (s t : State) (pas : List Nat) (dst : Option (Sel × Bool)) (nw : Bool) : Prop where
  rest : t = { s with
    sheaves := t.sheaves, cores := t.cores
    flights := s.flights ++ [{ id := s.nextId, sheaf := s.cur.sheaf, team := s.csh.team, ctx := s.ctm.ctx, pc := s.cur.pc,
                               lanes := s.cur.lanes, pa := pas.headD 0, also := otherLines pas,
                               kind := .value { s.boundaryPath with arrived := true, num := s.nextId } }]
    nextId := s.nextId + 1, issue := [] }
  cores : ∀ c, c ≠ s.csh.core → t.core c = s.core c
  waits : Suspends s t (.access s.nextId)
  latch : s.cur.issued = false → ∀ d w64, dst = some (d, w64) → (match d with | .v _ => true | .s _ => true | _ => false) = true →
    Queues s t d nw w64
  lock : s.cur.issued = false → nw = true → SMap.get? (t.core s.csh.core).lock s.csh.quad = some (s.cur.sheaf, 0)
  again : s.cur.issued = true → t.core s.csh.core = s.core s.csh.core ∧ (t.sheaf s.cur.sheaf).regs = s.csh.regs

/-- An atomic on device memory issues and waits for the round in which its home performs it, under the number of its first issue (R211, R233,
R235); a producer takes its latch (R92). -/
structure AwaitsRound (s t : State) (dst : Option (Sel × Bool)) : Prop where
  rest : t = { s with sheaves := t.sheaves, cores := t.cores, nextId := s.nextId + 1, issue := [] }
  cores : ∀ c, c ≠ s.csh.core → t.core c = s.core c
  waits : let n := if s.cur.issued then s.cur.num else s.nextId
    Suspends s t (.atomic n { s.boundaryPath with inRound := true, num := n } false)
  latch : s.cur.issued = false → ∀ d w64, dst = some (d, w64) → (match d with | .v _ => true | .s _ => true | _ => false) = true →
    Queues s t d false w64
  again : s.cur.issued = true → t.core s.csh.core = s.core s.csh.core ∧ (t.sheaf s.cur.sheaf).regs = s.csh.regs

/-- An instruction with a release waits until the release is performed (R235, R237). -/
structure Releases (s t : State) (sys : Bool) : Prop where
  rest : t = { s with sheaves := t.sheaves, nextId := s.nextId + 1, issue := [] }
  waits : Suspends s t (.release { s.boundaryPath with released := true } sys s.nextId)
  regs : (t.sheaf s.cur.sheaf).regs = s.csh.regs

/-- The state in which a boundary instruction is performed: no chunk of its sheaf stands open. -/
def State.edge (s : State) : State := s.begin.updSheaf s.cur.sheaf Sheaf.dropEmpty

/-- A boundary instruction whose operands pass: its own cause is raised first; it waits while an earlier chunk has not committed; else it
is performed, and leaves what `post` says. -/
def Performs (i : Instr) (h : Hd) (imm : W32) (d : Option Dst) (as : List Src) (own : State → Option Trap)
    (post : State → State → Prop) : Prop :=
  ∀ s, Ready h imm d as s →
    (∀ c, own s = some c → Raises i s c)
    ∧ (own s = none → (BeforeBoundary s → Waits i s) ∧ (AtBoundary s → ∃ t, exec i s = .next t ∧ post s t))

/-- What an instruction adds to the end of what its chunk holds until the commit (R222). -/
def HeldLast (t : State) (i : Nat) (hs : List Held) : Prop :=
  ∃ c r, (t.sheaf i).chunks.getLast? = some c ∧ c.held = r ++ hs

/-- An instruction that only adds to what its chunk holds, here no store. -/
def Holds (i : Instr) (s : State) (hs : List Held) : Prop :=
  ∃ t, exec i s = .next t ∧ Advanced s t ∧ Untouched s t ∧ HeldLast t s.cur.sheaf hs

/-- The open chunk has room for one more engine command (R220, R245). -/
def CmdRoom (s : State) (note : Chunk → Chunk) : Prop :=
  s.linesFull note = false ∧ ∀ k, s.csh.openChunk? = some k → k.cmds < Config.chunkCmds

/-- The formats of R39. -/
def roundFormats : List Fmt := [.f64, .f32, .f16, .bf16, .e4m3, .e5m2, .f6]

/-! What every step keeps. -/

/-- Memory keeps its one canonical form: the local map, the memory outside the package, and every scratchpad. -/
def MemCanonical (s : State) : Prop :=
  Memory.wf s.mem = true ∧ Memory.wf s.ext = true ∧ ∀ p ∈ s.teams, Memory.wf p.2.sp = true

/-- Sheaves and teams are each listed once, and the chunks and the waits of every sheaf are in order. -/
def SheavesTidy (s : State) : Prop :=
  (s.sheaves.map (·.1)).Nodup ∧ (s.teams.map (·.1)).Nodup ∧ ∀ p ∈ s.sheaves, p.2.tidy

end Sys2Proof.Machine
end

