-- ==== Sys2Proof/Certificates/Slice0/Obligations.lean ====
section
/-! DEFINITION. What is claimed of the machine, for the provers: decoding and the step, every instruction of the opcode table family by
family, every event, and what every step keeps. A statement about an instruction says what it does to every form the spec admits; one whose
conclusion is `.next` says that the instruction completes. -/

open Sys2Proof Sys2Proof.Machine

/-! Decoding and the step. -/

/-- Words the notes of the spec write out, W2 W1 W0, and the instructions they stand for: one at least of each class of R96. -/
def Obligations.WordsOfTheNotesDecode : Prop :=
  decode 0x00000000_50000040_00060F40 = .ok (.fadd ⟨15, false, false, false⟩ ⟨.v 6, .v 0, .v 4, .v 0, 0⟩ ⟨.f64, .auto, .rn⟩)
  ∧ decode 0x40000000_50019810_08060F43
      = .ok (.ffma ⟨15, false, false, false⟩ ⟨.v 6, .v 2, .immF, .v 6, 0x40000000⟩ ⟨.f64, .auto, .rn⟩)
  ∧ decode 0x3E800000_50001810_18021042
      = .ok (.fmul ⟨0, true, false, false⟩ ⟨.v 2, .v 6, .immF, .v 0, 0x3E800000⟩ ⟨.f64, .auto, .rn⟩)
  ∧ decode 0x00000010_10701807_04070F14
      = .ok (.imad ⟨15, false, false, false⟩ ⟨.v 7, .special .sheaf, .imm, .special .lane, 16⟩ ⟨.n32, 0, false⟩)
  ∧ decode 0x00000000_FC5FD725_C1700F30
      = .ok (.plop ⟨15, false, false, false⟩ ⟨.p 0, .p 0, .p 2, .p 15, 0⟩ 0xFC)
  ∧ decode 0xFFFFFFFB_00000000_00000202 = .ok (.bra ⟨2, false, false, false⟩ ⟨.v 0, .v 0, .v 0, .v 0, 0xFFFFFFFB⟩ 0)
  ∧ decode 0x00000010_00000000_00000108 = .ok (.brd ⟨1, false, false, false⟩ ⟨.v 0, .v 0, .v 0, .v 0, 16⟩ 0)
  ∧ decode 0x00000000_09001040_08000F64
      = .ok (.bchk ⟨15, false, false, false⟩ ⟨.v 0, .v 2, .s 4, .v 0, 0⟩ 0x09)
  ∧ decode 0x08000000_32004004_14000F71
      = .ok (.st ⟨15, false, false, false⟩ ⟨.v 0, .s 5, .v 0, .v 1, 0x08000000⟩ ⟨false, .pod, .rel, .b32⟩)
  ∧ decode 0x08100000_42020004_200D0F79
      = .ok (.atom ⟨15, false, false, false⟩ ⟨.v 13, .s 8, .v 0, .v 8, 0x08100000⟩ ⟨false, .sys, .rlx, .b32⟩)
  ∧ decode 0x00000004_01000006_00000F90 = .ok (.bari ⟨15, false, false, false⟩ ⟨.v 0, .imm, .v 0, .v 0, 4⟩ 1)
  ∧ decode 0x00000002_00001805_80000FAA
      = .ok (.wtc ⟨15, false, false, false⟩ ⟨.v 0, .c 0, .imm, .v 0, 2⟩ 0)
  ∧ decode 0x00000010_00000000_01030FC2 = .ok (.srd ⟨15, false, false, false⟩ ⟨.s 3, .v 0, .v 0, .v 0, 16⟩ 0)
  ∧ decode 0x00000000_00000000_00000F01 = .ok (.nop ⟨15, false, false, false⟩ ⟨.v 0, .v 0, .v 0, .v 0, 0⟩ 0)

/-- The decoder reads back every operand of every well-formed instruction word: no bit of an encoding is dropped. -/
def Obligations.DecodeOfEncodeIsTheInstruction : Prop :=
  ∀ (i : Instr) (w : BitVec 96), i.wf = true → i.canonical = true → encode i = some w → decode w = .ok i

/-- The other direction: a word that decodes is the one encoding of what it decodes to, which is well-formed. -/
def Obligations.EncodeOfDecodeIsTheWord : Prop :=
  ∀ (w : BitVec 96) (i : Instr), decode w = .ok i → encode i = some w ∧ i.wf = true ∧ i.canonical = true

/-- R85's cases that concern every opcode: an opcode that R98 leaves unassigned, bit 15, an unused field that is not 0, PG 15 with PN, NW
with CX. No such word decodes, so check 3 of R87 raises ILLOP on it. -/
def Obligations.IllFormedWordsAreRefused : Prop :=
  (∀ w : BitVec 96, w.getLsbD 15 = true → ∀ i, decode w ≠ .ok i)
  ∧ (∀ w : BitVec 96,
      (let n := (w.extractLsb' 0 8).toNat
       n = 0x00 ∨ (0x0C ≤ n ∧ n ≤ 0x0F) ∨ (0x29 ≤ n ∧ n ≤ 0x2F) ∨ (0x38 ≤ n ∧ n ≤ 0x3F) ∨ (0x5A ≤ n ∧ n ≤ 0x5F) ∨ (0x67 ≤ n ∧ n ≤ 0x6F)
        ∨ (0x81 ≤ n ∧ n ≤ 0x8F) ∨ (0x97 ≤ n ∧ n ≤ 0x9F) ∨ (0xAC ≤ n ∧ n ≤ 0xBF) ∨ 0xC7 ≤ n) → ∀ i, decode w ≠ .ok i)
  ∧ (∀ w : BitVec 96, w.extractLsb' 8 4 = 15 → w.getLsbD 12 = true → ∀ i, decode w ≠ .ok i)
  ∧ (∀ w : BitVec 96, w.getLsbD 13 = true → w.getLsbD 14 = true → ∀ i, decode w ≠ .ok i)
  ∧ (∀ (w : BitVec 96) (i : Instr) (h : Hd) (o : Opn) (u : Use), decode w = .ok i → i.use = some (h, o, u) →
      (u.d = false → w.extractLsb' 16 10 = 0) ∧ (u.sa = false → w.extractLsb' 26 10 = 0)
      ∧ (u.sb = false → w.extractLsb' 36 10 = 0) ∧ (u.sc = false → w.extractLsb' 46 10 = 0)
      ∧ (u.imm = .no → w.extractLsb' 64 32 = 0))

/-- No chunk can open for the instruction at the head of the issue: two of its sheaf wait to commit (R222). -/
abbrev Blocked (s : State) : Prop := s.csh.openChunk? = none ∧ 2 ≤ (s.csh.chunks.filter (·.closed)).length

/-- A step fetches the line of the path at the head of the issue, and runs the instruction its slot decodes to; the mark of a refetch
ends with it, and the open chunk notes the page of its PC; nothing else of the fetch shows. Where two chunks of the sheaf wait to commit the
instruction waits for them, with what it has read, and the path after it waits with it (DEDUCED, log entry 92). The model's choice (DESIGN CHOICE,
log entries 3 and 5): with no instruction issuing the next event of the agenda happens, and with none a cycle passes. -/
def Obligations.StepRunsTheInstructionAtThePc : Prop :=
  (∀ (s : State) (p : Path) (r : List Path), s.issue = p :: r → Blocked s →
    step s = .next { s.updSheaf p.sheaf (fun x => { x with pend := .boundary p, young := r.filter (fun q => q.lanes &&& p.lanes = 0) }) with
      issue := [] })
  ∧ (∀ (s : State) (p : Path) (r : List Path), s.issue = p :: r → ¬ Blocked s → pcMalformed p.pc.toNat = false →
    (∀ (e : Nat × Nat × List Byte) (i : Instr),
      (s.core s.csh.core).icache.find? (fun e => e.1 = s.ctm.ctx && e.2.1 = pcLine p.pc) = some e →
      parityOk e.2.2 = true → lineReserved e.2.2 = false → decode (slotWord e.2.2 (pcSlot p.pc)) = .ok i →
      step s = exec i (s.clearRefetch s.csh.core s.ctm.ctx (pcLine p.pc)).noteFetch
      ∧ ((s.core s.csh.core).refetched.contains (s.ctm.ctx, pcLine p.pc) = false → s.csh.openChunk? = none → step s = exec i s))
    ∧ (∀ (l : Loc) (i : Instr),
      (s.core s.csh.core).icache.find? (fun e => e.1 = s.ctm.ctx && e.2.1 = pcLine p.pc) = none →
      s.fetchLoc s.csh.core s.ctm.ctx (64 * pcLine p.pc) = .ok l →
      parityOk (s.fetchBytes l) = true → lineReserved (s.fetchBytes l) = false →
      decode (slotWord (s.fetchBytes l) (pcSlot p.pc)) = .ok i →
      step s = exec i ((s.fillLine s.csh.core s.ctm.ctx (pcLine p.pc) l).clearRefetch s.csh.core s.ctm.ctx (pcLine p.pc)).noteFetch))
  ∧ (∀ s : State, s.noteFetch = { s with sheaves := s.noteFetch.sheaves } ∧ (∀ j, j ≠ s.cur.sheaf → s.noteFetch.sheaf j = s.sheaf j)
    ∧ s.noteFetch.csh = { s.csh with chunks := s.noteFetch.csh.chunks }
    ∧ s.noteFetch.csh.chunks.map (fun c => { c with pages := [] }) = s.csh.chunks.map (fun c => { c with pages := [] })
    ∧ (∀ c, s.csh.openChunk? = some c → ∃ d, s.noteFetch.csh.openChunk? = some d ∧ s.cur.pc.toNat / 2 ^ 16 ∈ d.pages ∧ ∀ p ∈ c.pages, p ∈ d.pages))
  ∧ (∀ s : State, s.issue = [] →
    (∀ e r, s.agenda = e :: r → step s = exec e { s with agenda := r }) ∧ (s.agenda = [] → step s = .next s.tick))

/-- A malformed PC traps TARGET, and a fault of the fetch comes before check 1. Checks 1 to 3 of R87 on a line in the instruction cache: bad
parity fetches the line once more, and when that line is bad again FETCHPAR is raised; a reserved bit of the line word and a word that does
not decode raise ILLOP. The stacks that the walk of a failed fetch reads count as touched (R307). -/
def Obligations.FetchChecksInTheirOrder : Prop :=
  ∀ (s : State) (p : Path) (r : List Path), s.issue = p :: r → ¬ Blocked s →
    (pcMalformed p.pc.toNat = true →
      step s = .next (s.raise { cause := cTARGET, check := 9, lanes := p.lanes, addr := p.pc.setWidth 64, akind := 1 }))
    ∧ (∀ f, pcMalformed p.pc.toNat = false →
      (s.core s.csh.core).icache.find? (fun e => e.1 = s.ctm.ctx && e.2.1 = pcLine p.pc) = none →
      s.fetchLoc s.csh.core s.ctm.ctx (64 * pcLine p.pc) = .error f →
      ∃ t : Trap, step s = .next ((s.walkTouch s.ctm.ctx (64 * pcLine p.pc) s.port).raise t) ∧ t.walks = [] ∧ t.tables = [] ∧ t.cause = f.cause ∧ t.check = 0 ∧ t.lanes = p.lanes ∧ t.akind = f.akind ∧ t.die = f.die
        ∧ t.addr = if f.akind = 1 then BitVec.ofNat 64 p.pc.toNat else BitVec.ofNat 64 f.addr)
    ∧ (∀ e : Nat × Nat × List Byte, pcMalformed p.pc.toNat = false →
      (s.core s.csh.core).icache.find? (fun e => e.1 = s.ctm.ctx && e.2.1 = pcLine p.pc) = some e →
      let s1 := (s.clearRefetch s.csh.core s.ctm.ctx (pcLine p.pc)).noteFetch
      let again := (s.core s.csh.core).refetched.contains (s.ctm.ctx, pcLine p.pc)
      (parityOk e.2.2 = false → again = false → step s = exec (.lineRefetch s.csh.core (64 * pcLine p.pc)) s)
      ∧ (parityOk e.2.2 = false → again = true → step s = .next (s1.raise { cause := cFETCHPAR, check := 1, lanes := p.lanes }))
      ∧ (parityOk e.2.2 = true → lineReserved e.2.2 = true → step s = .next (s1.raise { cause := cILLOP, check := 2, lanes := p.lanes }))
      ∧ (∀ x, parityOk e.2.2 = true → lineReserved e.2.2 = false → decode (slotWord e.2.2 (pcSlot p.pc)) = .error x →
          step s = .next (s1.raise { cause := cILLOP, check := 3, lanes := p.lanes })))

/-- R79: after slot 0 to 3 the next slot of the line, after slot 4 slot 0 of the next line; a PC is malformed with a bit of [5:3] set or
slot 5 to 7. An instruction that only moves on does so whatever the TGT bit of the slot after it. -/
def Obligations.SequentialFlowAndMalformedPcs : Prop :=
  (∀ (line : BitVec 50) (k : BitVec 3),
    (k.toNat < 4 → nextPc (line ++ (0 : BitVec 3) ++ k) = line ++ (0 : BitVec 3) ++ (k + 1))
    ∧ nextPc (line ++ (0 : BitVec 3) ++ (4 : BitVec 3)) = (line + 1) ++ (0 : BitVec 3) ++ (0 : BitVec 3)
    ∧ (∀ z : BitVec 3, pcMalformed (line ++ z ++ k).toNat = true ↔ z ≠ 0 ∨ 5 ≤ k.toNat))
  ∧ (∀ (h : Hd) (o : Opn) (m : BitVec 8) (s : State), ∃ t, exec (.nop h o m) s = .next t ∧ Advanced s t)

/-! Control (R108 to R117). -/

/-- R109, R114 to R117 and R302: NOP has no effect: every lane of the path, whatever its guard, stands at the next slot, and with CX the chunk closes after it;
the word that fills empty slots is a NOP. CCLOSE closes the chunk after itself and has no other effect. EXIT ends the lanes whose guard is true,
for good; the others stand at the next slot; the chunk closes; registers keep their values. SAFEPT: ILLOP where the safe-point table has no entry
for its PC; no effect with no request pending, on a divergent sheaf, or inside a save or restore routine; else the sheaf parks at it and the
chunk closes; when a sheaf has left a restore routine is the model's reading (log entry 84). YIELD keeps its sheaf from issuing for n + 1 cycles
after this one, n being IMM[7:0], and its wait restarts from 0. -/
def Obligations.PlainControlCompletes : Prop :=
  (∃ h o m, decode 0x00000000_00000000_00000F01 = .ok (.nop h o m))
  ∧ (∀ (h : Hd) (o : Opn) (m : BitVec 8) (s : State),
    let listed := s.ctm.hdr.sptab.any (fun e => e.1 = s.cur.pc.toNat)
    let parks := s.ctm.preq && s.convergent && !s.csh.regs.routine
    (∃ t, exec (.nop h o m) s = .next t ∧ Advanced s t ∧ Untouched s t ∧ (h.cx = true → ChunkClosed t s.cur.sheaf))
    ∧ (∃ t, exec (.cclose h o m) s = .next t ∧ Advanced s t ∧ Untouched s t ∧ ChunkClosed t s.cur.sheaf)
    ∧ (∃ t, exec (.exit h o m) s = .next t ∧ Advanced s t ∧ ChunkClosed t s.cur.sheaf
      ∧ OnlyPath s t ∧ Unstored s t ∧ SheafFrame s.csh (t.sheaf s.cur.sheaf)
      ∧ (t.sheaf s.cur.sheaf).regs.exited = s.csh.regs.exited ||| s.active h
      ∧ RegsFrame s.csh.regs { (t.sheaf s.cur.sheaf).regs with exited := s.csh.regs.exited } [] [] [])
    ∧ (listed = false → Raises (.safept h o m) s { cause := cILLOP, check := 9, lanes := s.cur.lanes })
    ∧ (listed = true → parks = false → Passes (.safept h o m) s)
    ∧ (listed = true → parks = true →
      ∃ t u, exec (.safept h o m) s = .next t ∧ t = u.updSheaf s.cur.sheaf (fun x => { x with parked := some s.cur.pc })
        ∧ Advanced s u ∧ Untouched s u ∧ ChunkClosed t s.cur.sheaf)
    ∧ (∃ t u, exec (.yield h o m) s = .next t
      ∧ t = u.updSheaf s.cur.sheaf (fun x => { x with yieldUntil := s.cycle + 1 + o.imm.toNat % 256 + 1, pickWait := 0 })
      ∧ Advanced s u ∧ Untouched s u
      ∧ (∀ n, n < o.imm.toNat % 256 + 1 → ({ t with cycle := s.cycle + 1 + n } : State).sheafFree s.cur.sheaf = false)))

/-- BRA and BRD: the taken lanes of BRA, those whose guard is true, go to R97's target and the others to the next slot; BRD sends every
lane of the path there when any holds a doubtful guard, else none. Nothing else changes. BRA under DTRAP with a doubtful guard traps BUDGET on
the doubtful lanes; a taken branch to a malformed PC or to a slot whose TGT bit is clear traps TARGET on the taken lanes; BRD never traps BUDGET. -/
def Obligations.BranchesMoveTheTakenLanes : Prop :=
  ∀ (h : Hd) (o : Opn) (m : BitVec 8) (s : State),
    let tgt := branchTarget s.cur.pc o.imm
    let bad := fun (t : Mask) => ({ cause := cTARGET, check := 9, lanes := t, addr := BitVec.ofNat 64 tgt.toNat, akind := 1 } : Trap)
    (s.dtrap h = none → s.targetTrap (s.active h) tgt.toNat = none →
      Moves (.bra h o m) s (fun l => if Mask.has (s.active h) l then tgt else nextPc s.cur.pc))
    ∧ (s.doubtful h = 0 → Moves (.brd h o m) s (fun _ => nextPc s.cur.pc))
    ∧ (s.doubtful h ≠ 0 → s.targetTrap s.cur.lanes tgt.toNat = none → Moves (.brd h o m) s (fun _ => tgt))
    ∧ (allowDtrap s.allow = true → s.doubtful h ≠ 0 →
      Raises (.bra h o m) s { cause := cBUDGET, check := 9, lanes := s.doubtful h })
    ∧ ((allowDtrap s.allow = false ∨ s.doubtful h = 0) → s.active h ≠ 0 → s.targetBad s.csh.core s.ctm.ctx tgt.toNat = true →
      Raises (.bra h o m) s (bad (s.active h)))
    ∧ (s.doubtful h ≠ 0 → s.cur.lanes ≠ 0 → s.targetBad s.csh.core s.ctm.ctx tgt.toNat = true →
      Raises (.brd h o m) s (bad s.cur.lanes))

/-- JMP, JMPR and RET send each taken lane to the address it reads, which is below 2^56, well-formed, and has its TGT bit set; CALL
writes the PC of the slot after it to D, tagged N64 with bound 0, and then transfers as BRA does. Each traps BUDGET under DTRAP on the doubtful
lanes, and TARGET on the taken lanes whose target is none, with the lowest of their targets; nothing is written then and no lane moves. -/
def Obligations.CallsAndIndirectTransfers : Prop :=
  (∀ (h : Hd) (o : Opn) (m : BitVec 8) (s : State),
    let via := fun (i : Instr) (ok : Bool) =>
      let a := (srcTyAlso 2 o.sa .n64 [.i64]).only ok
      let rd := fun l => (s.rd o.imm false a l).bits
      let bad := Mask.of 64 (fun l => Mask.has (s.active h) l && (decide (2 ^ 56 ≤ rd l) || s.targetBad s.csh.core s.ctm.ctx (rd l)))
      Ready h o.imm none [a] s →
      (allowDtrap s.allow = true → s.doubtful h ≠ 0 → Raises i s { cause := cBUDGET, check := 9, lanes := s.doubtful h })
      ∧ (allowDtrap s.allow = false ∨ s.doubtful h = 0 →
        (bad = 0 → Moves i s (fun l => if Mask.has (s.active h) l then BitVec.ofNat 56 (rd l) else nextPc s.cur.pc))
        ∧ (bad ≠ 0 → ∃ l, l < 64 ∧ Mask.has bad l = true ∧ (∀ k, k < 64 → Mask.has bad k = true → rd l ≤ rd k)
          ∧ Raises i s { cause := cTARGET, check := 9, lanes := bad, addr := BitVec.ofNat 64 (rd l), akind := 1 }))
    via (.jmp h o m) (selIsS o.sa) ∧ via (.jmpr h o m) (selIsV o.sa) ∧ via (.ret h o m) (selIsS o.sa || selIsV o.sa))
  ∧ (∀ (h : Hd) (o : Opn) (m : BitVec 8) (s : State),
    let tgt := branchTarget s.cur.pc o.imm
    Ready h o.imm (some { dstD o true with queueOk := false, anyScalar := true }) [] s →
    (allowDtrap s.allow = true → s.doubtful h ≠ 0 → Raises (.call h o m) s { cause := cBUDGET, check := 9, lanes := s.doubtful h })
    ∧ (s.dtrap h = none → s.active h ≠ 0 → s.targetBad s.csh.core s.ctm.ctx tgt.toNat = true →
      Raises (.call h o m) s { cause := cTARGET, check := 9, lanes := s.active h, addr := BitVec.ofNat 64 tgt.toNat, akind := 1 })
    ∧ (s.dtrap h = none → s.targetTrap (s.active h) tgt.toNat = none →
    ∃ t, exec (.call h o m) s = .next t
      ∧ Wrote s t h o.d true .n64 (fun _ => ((nextPc s.cur.pc).toNat, .zero))
      ∧ Latched s t h o.d true .n64 (fun _ => ((nextPc s.cur.pc).toNat, .zero))
      ∧ Moved s t (fun l => if Mask.has (s.active h) l then tgt else nextPc s.cur.pc)
      ∧ OnlyPath s t ∧ Unstored s t ∧ SheafFrame s.csh (t.sheaf s.cur.sheaf)
      ∧ RegsFrame s.csh.regs (t.sheaf s.cur.sheaf).regs (if h.nw then [] else dstVs o.d 2) (if h.nw then [] else dstSs o.d) []))

/-! The checks of an instruction, and the bypass latches (R87 to R93). -/

/-- Checks 4 to 8 of R87 and QUEUE, in their order, of the instructions of a chunk that name operands: a selector its field does not admit raises
ILLOPND, an extended register not held XREG, a lost latch LATCH, a tag that does not match FORMAT, an infinite bound under STRICT BOUNDLOST or
POISON, a queue register's wrong binding, direction or width QUEUE. It is stated of every entry of the integer, bitwise, move and address,
predicate and lane, floating-point, special-function, conversion and bound families, of JMP, JMPR, RET and CALL, of every memory instruction but
FENCE, of the barriers, the team and counter instructions, of SRD, SWR and CLK, and of every engine instruction but MZERO; those left out name no
operand that a check concerns. One queue register in both fragments of MMA is named twice. LNCH needs its feature first. Then what each check
tests. The model's choices: which field a trap names where
several fail (log entry 27), that STRICT tests the value converted, on the active lanes (log entry 19), which lanes are recorded where none is
active (log entry 28), that POISON stands before BOUNDLOST where lanes differ (log entry 89), that STRICT tests a source read across lanes at each
active lane's own place (log entry 128), and that the binding of a queue register in D is checked with NW as well (log entry 124). -/
def Obligations.OperandChecksInTheirOrder : Prop :=
  let all := fun (h : Hd) (o : Opn) (l : List (Instr × Option Dst × List Src)) => ∀ p ∈ l, Checks p.1 h o.imm p.2.1 p.2.2
  (∀ (h : Hd) (o : Opn) (m : IMod),
    let t := m.ty
    let d := some (dstD o t.is64)
    let x := srcTy 2 o.sa t
    let y := srcTy 3 o.sb t
    let wx := srcW 2 o.sa t.is64 t
    let wy := srcW 3 o.sb t.is64 t
    let n := srcN32 3 o.sb
    let p := (srcAny 4 o.sc false .n32).only (selIsP o.sc)
    let k := srcTy 3 o.sb (if isSignedTy t then .i32 else .n32)
    all h o
      [(.iadd h o m, d, [x, y]), (.isub h o m, d, [x, y]), (.imul h o m, d, [x, y]), (.imulh h o m, d, [x, y]),
        (.imad h o m, d, [x, y, srcTy 4 o.sc t]), (.imin h o m, d, [x, y]), (.imax h o m, d, [x, y]), (.iabs h o m, d, [x]),
        (.bitAnd h o m, d, [wx, wy]), (.bitOr h o m, d, [wx, wy]), (.bitXor h o m, d, [wx, wy]), (.bitNot h o m, d, [wx])]
    ∧ all h o
      [(.shl h o m, d, [wx, n]), (.shr h o m, d, [wx, n]), (.sar h o m, d, [wx, n]), (.bfe h o m, d, [x, n]),
        (.bfi h o m, d, [x, y, srcN32 4 o.sc]), (.brev h o m, d, [wx]), (.popc h o m, some (dstD o false), [wx]),
        (.clz h o m, some (dstD o false), [wx]), (.isetp h o m, some { sel := o.d, w64 := false, predOnly := true }, [x, y]),
        (.sel h o m, d, [wx, wy, p]), (.mov h o m, d, [srcAny 2 o.sa t.is64 t]),
        (.movi h o m, some { dstD o t.is64 with queueOk := !m.sub.getLsbD 0 }, []), (.lea h o m, d, [x.only (!o.sa.isImm), k.only (!o.sb.isImm)])])
  ∧ (∀ (h : Hd) (o : Opn) (m : FMod),
    let t := m.ty
    let d := some (dstD o t.is64)
    let d32 := some (dstD o false)
    let x := srcTy 2 o.sa t
    let y := srcTy 3 o.sb t
    let u := immTy o 0
    let own := fun (a : Src) => a.only (!a.sel.isImm)
    let dot := [own (srcTy 2 o.sa u), own (srcTy 3 o.sb u), own (srcTy 4 o.sc .f32)]
    let pt : Ty := if eFmt t = .f32 then .i32 else .f32
    let two := [(srcTy 2 o.sa pt).reg, (srcTy 3 o.sb pt).reg]
    all h o
      [(.fadd h o m, d, [x, y]), (.fsub h o m, d, [x, y]), (.fmul h o m, d, [x, y]), (.ffma h o m, d, [x, y, srcTy 4 o.sc t]),
        (.fmin h o m, d, [x, y]), (.fmax h o m, d, [x, y]), (.fsetp h o m, some { sel := o.d, w64 := false, predOnly := true }, [x, y]),
        (.fclass h o m, d32, [x]), (.frnd h o m, d, [x]), (.fscl h o m, d, [x, srcTy 3 o.sb .i32]), (.fdiv h o m, d, [x, y]),
        (.dot2 h o m, d32, dot), (.dot4 h o m, d32, dot)]
    ∧ all h o
      [(.frcp h o m, d, [x]), (.frsq h o m, d, [x]), (.fsqrt h o m, d, [x]), (.fexp2 h o m, d, [x]), (.flog2 h o m, d, [x]),
        (.fsinpi h o m, d, [x]), (.fcospi h o m, d, [x]), (.cvt h o m, d, [(srcTy 2 o.sa u).reg]),
        (.cvtq h o m, d32, [(srcTy 2 o.sa u).reg, (srcTy 3 o.sb .f32).reg, (srcTy 4 o.sc t).only (selIsV o.sc)]),
        (.pack h o m, d32, if t.elems = 4 then two ++ [(srcTy 4 o.sc t).reg] else two), (.unpk h o m, d32, [x.reg]),
        (.qdeq h o m, d, [(srcTy 2 o.sa .q4nx8).reg, (srcN32 3 o.sb).reg, (srcTy 4 o.sc .f32).reg]),
        (.f6join h o m, d32, [(srcTy 2 o.sa .f6hi).reg, (srcTy 3 o.sb .f6lo).reg])])
  ∧ (∀ (h : Hd) (o : Opn) (m : BitVec 8),
    let w64 := m.getLsbD 3
    let lo := m.getLsbD 0
    let d := some (dstD o w64)
    let vec := fun (w : Bool) => some { dstD o w with scalarOk := false, queueOk := false }
    let one := fun (w : Bool) => some { dstD o w with queueOk := false, anyScalar := true }
    let prd : Option Dst := some { sel := o.d, w64 := false, predOnly := true }
    let p := srcP 2 o.sa
    let x := srcAny 2 o.sa w64 .raw
    let k := srcN32 3 o.sb
    let bx := srcAny 2 o.sa w64 (if w64 then .n64 else .n32)
    let e := srcTy 3 o.sb (if w64 then .f64 else .f32)
    let va := (srcTyAlso 3 o.sb .n64 [.i64]).only (selIsS o.sb || selIsV o.sb)
    let red := Ty.ofCode (m.extractLsb' 4 4)
    let via := fun (ok : Bool) => [(srcTyAlso 2 o.sa .n64 [.i64]).only ok]
    all h o
      [(.plop h o m, prd, [p, srcP 3 o.sb, srcP 4 o.sc]),
        (.pmov h o m, if m = 1 then vec false else prd, if m = 2 then [(srcAny 2 o.sa false .n32).only (selIsV o.sa)] else [p]),
        (.vote h o m, if m = 3 then one true else prd, [p]),
        (.shfl h o m, d, if m.getLsbD 2 then [x.only (selIsV o.sa), k, srcAny 4 o.sc w64 .raw] else [x.only (selIsV o.sa), k]),
        (.rdlane h o m, some { dstD o w64 with anyScalar := true }, [x, k.only (selUniform o.sb)]),
        (.wrlane h o m, vec w64, [x.only (selUniform o.sa), k.only (selUniform o.sb)]),
        (.sredux h o m, some { dstD o red.is64 with anyScalar := true }, [srcTy 2 o.sa red]), (.matchLanes h o m, vec true, [x])]
    ∧ all h o
      [(.bget h o m, some (dstD o (!lo && w64)), [bx]), (.bset h o m, d, [bx, if lo then k else e]), (.badd h o m, d, [bx, e]),
        (.bmax h o m, d, [bx, srcAny 3 o.sb w64 (if w64 then .n64 else .n32)]), (.bclr h o m, d, [bx]),
        (.bchk h o m, if lo then none else prd, [bx, va]),
        (.bmode h o m, if m.getLsbD 2 then some { dstD o false with vecOk := false, queueOk := false } else none,
          [(srcN32 2 o.sa).only (selUniform o.sa)]),
        (.jmp h o m, none, via (selIsS o.sa)), (.jmpr h o m, none, via (selIsV o.sa)), (.ret h o m, none, via (selIsS o.sa || selIsV o.sa)),
        (.call h o m, one true, [])])
  ∧ (∀ (h : Hd) (o : Opn) (m : MMod), all h o
      [(.ld h o m, some (loadDst o m.width false), addrSrcs o false false), (.lds h o m, some (loadDst o m.width false), addrSrcs o true false),
        (.ldk h o m, some (loadDst o m.width true), addrSrcs o false true),
        (.st h o m, none, addrSrcs o false false ++ storeSrcs o m.width), (.sts h o m, none, addrSrcs o true false ++ storeSrcs o m.width),
        (.feset h o m, none, addrSrcs o true false)])
  ∧ (∀ (h : Hd) (o : Opn) (m : MMod),
    let vec := fun (w : Bool) => some { dstD o w with scalarOk := false, queueOk := false }
    let t := immTy o 20
    let own := fun (fld : Nat) (x : Sel) => (srcTy fld x t).only (selIsS x || selIsV x)
    all h o
      [(.ldf h o m, vec (mwIs64 m.width), addrSrcs o true false), (.ste h o m, none, addrSrcs o true false ++ storeSrcs o m.width),
        (.waita h o m, vec t.is64, addrSrcs o false false ++ [own 4 o.sc]),
        (.atom h o m, vec t.is64, addrSrcs o m.hi false ++ [own 4 o.sc]),
        (.cas h o m, vec t.is64, addrSrcs o m.hi true ++ [own 3 o.sb, own 4 o.sc]), (.red h o m, none, addrSrcs o m.hi false ++ [own 4 o.sc]),
        (.pref h o m, none, addrSrcs o false false), (.hint h o m, none, addrSrcs o false true),
        (.sealRegion h o m, none, addrSrcs o false true), (.unsealRegion h o m, none, addrSrcs o false true)])
  ∧ (∀ (h : Hd) (o : Opn) (m : BitVec 8),
    let one := fun (w : Bool) => some { dstD o w with queueOk := false, anyScalar := true }
    let plain := selIsV o.sa || selIsS o.sa || o.sa.isImm || (match o.sa with | .special _ => true | _ => false)
    let counter := [fieldOk 2 (selC o.sa).isSome, (srcTy 3 o.sb .n64).only (selIsS o.sb || decide (o.sb = .imm))]
    let t := Ty.ofCode (m.extractLsb' 4 4)
    let w32 := fun (fld : Nat) (x : Sel) => (srcAny fld x false .n32).only (selIsS x)
    let w64 := fun (fld : Nat) (x : Sel) => (srcAny fld x true .n64).only (selIsS x)
    let frag := fun (fld : Nat) (x : Sel) (again : Bool) => if selIsQ x then fieldOk fld (!again) else w32 fld x
    let scales := if o.imm.getLsbD 16 then
      [(srcAny 4 o.sc true .n64).only (selIsV o.sc), { srcTy 0 (.s (BitVec.ofNat 6 (immBits o 15 10))) .f32 with fld := 0 }] else []
    let kind := (m.extractLsb' 0 2).toNat
    let sp16 := decide (t = .f16x2 ∨ t = .bf16x2)
    all h o
      [(.bari h o m, none, [(srcTy 2 o.sa .n32).only (selUniform o.sa)]), (.bara h o m, if o.d = .v 0 then none else one false, []),
        (.barq h o m, none, [(srcAny 2 o.sa false .n32).only plain]), (.wtc h o m, none, counter), (.wto h o m, none, counter),
        (.qbind h o m, none, [fieldOk 1 (selIsQ o.d)]),
        (.qstat h o m, one (decide (m ≠ 0)), [fieldOk 2 (if m ≠ 0 then (selC o.sa).isSome else selIsQ o.sa)]),
        (.srd h o m, one true, []), (.swr h o m, none, [(srcAny 2 o.sa true .n64).only (selIsS o.sa)]), (.clk h o m, one true, [])]
    ∧ (∀ s : State, s.feat 0 7 = true → ChecksAt (.lnch h o m) h o.imm none [(srcTy 2 o.sa .n64).only (selIsV o.sa || selIsS o.sa)] s)
    ∧ all h o
      [(.mma h o m, none, if o.imm.getLsbD 17 then [frag 3 o.sb false] ++ scales
          else [frag 2 o.sa false, frag 3 o.sb (decide (o.sa = o.sb))] ++ scales),
        (.mload h o m, none, [if m.getLsbD 0 then w64 2 o.sa else w32 2 o.sa]),
        (.mdrain h o m, none, [if kind = 2 then fieldOk 2 (selIsQ o.sa) else if kind = 1 then w64 2 o.sa else w32 2 o.sa]
          ++ (if o.imm.getLsbD 9 then [w32 3 o.sb] else []) ++ (if o.imm.getLsbD 8 then [(srcTy 4 o.sc .f32).only (selIsS o.sc)] else [])),
        (.gath h o m, none, [w32 2 o.sa, if selIsQ o.sb then fieldOk 3 true else (srcTy 3 o.sb .n32).only (selIsV o.sb)]),
        (.spcmp h o m, some { dstD o sp16 with scalarOk := false },
          [if sp16 then ⟨2, o.sa, true, .ty t [], t, true⟩ else srcTy 2 o.sa t]),
        (.cpy h o m, none, (if o.imm.getLsbD 6 then [fieldOk 1 (selIsQ o.d)] else []) ++ [w32 2 o.sa]
          ++ (if o.imm.getLsbD 5 then [w32 3 o.sb] else []) ++ (if o.imm.getLsbD 5 || o.imm.getLsbD 6 then [w32 4 o.sc] else [])),
        (.cpym h o m, none, [w32 2 o.sa, frag 3 o.sb false] ++ scales)])
  ∧ (∀ (s : State) (fld : Nat) (ok : Bool), s.srcBad (fieldOk fld ok) = true ↔ ok = false)
  ∧ (∀ (s : State) (k : Nat),
    (s.holding k = .held ↔ k < s.ctm.hdr.regs ∨ (192 ≤ k ∧ k < 256 ∧ s.csh.ext.getLsbD ((k - 192) / 16) = true))
    ∧ (s.holding k = .absent ↔ s.ctm.hdr.regs ≤ k ∧ (k < 192 ∨ 256 ≤ k)))
  ∧ (∀ (s : State) (a : Src),
    s.srcBad a = true ↔ a.ok = false ∨ (∃ r, a.sel = .rsv r) ∨ (∃ c, a.sel = .c c) ∨ (a.sel = .immF ∧ a.opTy ≠ .f32 ∧ a.opTy ≠ .f64)
      ∨ ∃ n, a.sel = .v n ∧ ((a.w64 = true ∧ n.toNat % 2 = 1) ∨ s.holding n.toNat = .absent ∨ (a.w64 = true ∧ s.holding (n.toNat + 1) = .absent)))
  ∧ (∀ (s : State) (o : Opn) (w64 uni : Bool),
    s.dstBad (dstD o w64) uni = true ↔ (∀ n, o.d ≠ .v n) ∧ (∀ n, o.d ≠ .s n) ∧ (∀ n, o.d ≠ .q n) ∨ (∃ n, o.d = .s n ∧ uni = false)
      ∨ ∃ n, o.d = .v n ∧ ((w64 = true ∧ n.toNat % 2 = 1) ∨ s.holding n.toNat = .absent ∨ (w64 = true ∧ s.holding (n.toNat + 1) = .absent)))
  ∧ (∀ (a : Src) (fxc : Bool) (tag t : Ty), a.exp = .ty t [] →
    (a.tagBad fxc tag = true ↔ a.sel.isImm = false ∧ tag ≠ .raw ∧ tag ≠ t
      ∧ ¬ (fxc = true ∧ ((tag ∈ [Ty.i32, .n32, .f32] ∧ t ∈ [Ty.i32, .n32, .f32]) ∨ (tag ∈ [Ty.i64, .n64, .f64] ∧ t ∈ [Ty.i64, .n64, .f64])))))
  ∧ (∀ x : Sel, selUniform x = true ↔ (∃ n, x = .s n) ∨ x = .imm ∨ x = .immF ∨ ∃ k, x = .special k ∧ k ≠ .lane)

/-- A producer enters L0 of its quadrant's chain and the oldest of four leaves: value, bound at the destination's width and tag for every lane,
the register as it stood, with its tag, where a lane was not written; one that has waited since its issue fills the entry it took then. A read of Ln
by a sheaf that pushed L0 to Ln, each while convergent, yields entry n, its
low half and its bound rounded up where a 32-bit operand reads a 64-bit entry; else it reads the register of the sheaf's producer n back, unless
NW kept the result from it or a later write touched it; else the latch is lost. The tag check meets the tags of the lanes it is made for. The
model's choices: one entry for an instruction that writes several registers, which holds the first (log entry 24); a fallback to a 32-bit
producer's register reads 64 bits of it and the next (log entry 103); the tag that names an entry whose lanes differ (log entry 104); a 32-bit
write of a scalar makes a 32-bit entry (log entry 105); a fallback to an extended register given back since reads it as it stands (log entry
123). -/
def Obligations.LatchReadsAndPushes : Prop :=
  (∀ (s : State) (d : Sel) (nw w64 : Bool) (tag : Ty) (m : Mask) (res : Nat → Nat × Bnd) (old : Regs),
    let u := s.pushLatch d nw w64 tag m res old
    let q := fun (t : State) (c k : Nat) => SMap.getD (t.core c).latches k []
    (∃ e : Latch, e.sheaf = s.cur.sheaf ∧ e.dst = d ∧ e.nw = nw ∧ e.w64 = w64 ∧ e.held = s.convergent ∧ e.tag = tag ∧ e.awaits = false
      ∧ e.oldTag = (old.raw d w64 0).tag ∧ e.lanes = m
      ∧ (∀ l, l < s.width →
          let v := if Mask.has m l then res l else ((old.raw d w64 l).bits, (old.raw d w64 l).bnd)
          lane e.val l 0 = BitVec.ofNat 64 v.1 ∧ lane e.bnd l 0 = dstBnd d w64 v.2)
      ∧ (s.cur.issued = false → q u s.csh.core s.csh.quad = e :: (q s s.csh.core s.csh.quad).take 3)
      ∧ (s.cur.issued = true → q u s.csh.core s.csh.quad = (q s s.csh.core s.csh.quad).map
          (fun f => if f.awaits && f.sheaf = s.cur.sheaf then { e with held := f.held } else f)))
    ∧ (∀ c k, c ≠ s.csh.core ∨ k ≠ s.csh.quad → q u c k = q s c k)
    ∧ (u.sheaf s.cur.sheaf).regs = (if s.cur.issued then s.csh.regs
        else { s.csh.regs with prods := { dst := d, nw := nw, w64 := w64 } :: s.csh.regs.prods.take 3 })
    ∧ (∀ j, j ≠ s.cur.sheaf → u.sheaf j = s.sheaf j))
  ∧ (∀ (s : State) (n : Nat),
    let ch := s.chain
    let own := n < ch.length ∧ ∀ e ∈ ch.take (n + 1), e.sheaf = s.cur.sheaf ∧ e.held = true
    (∀ e, own → ch[n]? = some e → s.latchRead n = .held e)
    ∧ (∀ p, ¬ own → s.rregs.prods[n]? = some p → s.latchRead n = if p.nw = true ∨ p.stale = true then .lost else .fallback p.dst)
    ∧ (¬ own → s.rregs.prods[n]? = none → s.latchRead n = .lost))
  ∧ (∀ (s : State) (a : Src) (n : BitVec 2) (l : Nat), a.sel = .l n →
    (∀ e, s.latchRead n.toNat = .held e →
      let tag := fun (k : Nat) => if Mask.has e.lanes k then e.tag else e.oldTag
      s.srcTag a = tag (lowest s.cur.lanes)
      ∧ (∀ (m : Mask) (t : Ty), t ∈ s.srcTags m a ↔ ∃ k, k < 64 ∧ Mask.has m k = true ∧ t = tag k)
      ∧ (a.w64 = true → e.w64 = true → s.rawSrc a l = ⟨(lane e.val l 0).toNat, Bnd.ofEb32 (lane e.bnd l 0), tag l⟩)
      ∧ (a.w64 = false → s.rawSrc a l = ⟨(lane e.val l 0).toNat % 2 ^ 32,
          if e.w64 then Bnd.ofEb16 (Bnd.ofEb32 (lane e.bnd l 0)).eb16 else Bnd.ofEb32 (lane e.bnd l 0), tag l⟩))
    ∧ (∀ d, s.latchRead n.toNat = .fallback d → s.rawSrc a l = s.rregs.raw d a.w64 l))
  ∧ (∀ (r : Regs) (d : Sel) (w64 : Bool) (k : Nat) (p : Prod), r.prods[k]? = some p →
    let touched := (∃ i j, p.dst = .v i ∧ d = .v j ∧ ∃ z, z ∈ dstVs (.v i) (if p.w64 then 2 else 1) ∧ z ∈ dstVs (.v j) (if w64 then 2 else 1))
      ∨ ∃ i, p.dst = .s i ∧ d = .s i
    ∃ p', (r.stale d w64).prods[k]? = some p' ∧ p'.dst = p.dst ∧ p'.nw = p.nw ∧ (p'.stale = true ↔ p.stale = true ∨ touched))
  ∧ (∀ (s : State) (i : Nat),
    (∀ k, ∀ e ∈ SMap.getD ((s.loseLatches i).core (s.sheaf i).core).latches k [], e.sheaf = i → e.held = false)
    ∧ (∀ j, (s.loseLatches i).sheaf j = s.sheaf j))

/-- What an operand yields on a lane. A vector register gives its word, with its EB16, or the EB32 of its pair rounded up to EB16 where its
last write was part of a 64-bit one; a pair gives its 64 bits, with its EB32, or the larger of the two bounds where either width flag is clear; a
scalar its 64 bits or the low 32, with its EB32, rounded up where the destination holds an EB16; a predicate 0 or 1 with the bound 1 where it is
doubtful; a special its value, tagged N32 and exact; an immediate the bits R90 gives, exact and of the type expected; a queue register the first
entry not retained. Path two of a cycle reads the registers as path one found them. A tag that is not the one expected converts within its group,
rounded to nearest; every other source is used as it stands. The model's choice (DEDUCED, log entry 88): an immediate of a source that accepts any
tag zero-extends. -/
def Obligations.OperandReadsYield : Prop :=
  (∀ b : EB16,
    let e : Nat := b.toNat / 256
    let f : Nat := b.toNat % 256
    Bnd.ofEb16 b = if e = 255 then (if f = 255 then .poison else .lost) else if e = 0 then .of (some (if f = 0 then 0 else pow2 (-126)))
      else .of (some ((1 + (f : Rat) / 256) * pow2 ((e : Int) - 127))))
  ∧ (∀ b : EB32,
    let e : Nat := b.toNat / 2 ^ 21
    let f : Nat := b.toNat % 2 ^ 21
    Bnd.ofEb32 b = if e = 2047 then (if f = 2 ^ 21 - 1 then .poison else .lost) else if e = 0 then .zero
      else .of (some ((1 + (f : Rat) / 2 ^ 21) * pow2 ((e : Int) - 1023))))
  ∧ (Bnd.zero.eb16 = 0 ∧ Bnd.lost.eb16 = 0xFF00 ∧ Bnd.poison.eb16 = 0xFFFF
    ∧ Bnd.zero.eb32 = 0 ∧ Bnd.lost.eb32 = 0xFFE0FF00 ∧ Bnd.poison.eb32 = 0xFFFFFFFF)
  ∧ (∀ q : Rat, 0 < q →
    let up := (Bnd.ofEb16 (Bnd.of (some q)).eb16).x
    let wide := (Bnd.ofEb32 (Bnd.of (some q)).eb32).x
    (∀ r, up = some r → q ≤ r) ∧ (∀ (b : EB16) (r : Rat), (Bnd.ofEb16 b).x = some r → q ≤ r → ∃ y, up = some y ∧ y ≤ r)
    ∧ (∀ r, wide = some r → q ≤ r) ∧ ∀ (b : EB32) (r : Rat), (Bnd.ofEb32 b).x = some r → q ≤ r → ∃ y, wide = some y ∧ y ≤ r)
  ∧ (∀ s : State, s.rregs = match s.cur.snap with | some r => r | none => s.csh.regs)
  ∧ (∀ (s : State) (a : Src) (n : BitVec 8) (l : Nat), a.sel = .v n →
    let v := s.rregs.vreg n.toNat
    let w := s.rregs.vreg (n.toNat + 1)
    let even := s.rregs.vreg (n.toNat / 2 * 2)
    let odd := s.rregs.vreg (n.toNat / 2 * 2 + 1)
    let pair := Bnd.ofEb32 (lane odd.sh l 0 ++ lane even.sh l 0)
    let one := fun (r : VReg) => if r.wf then Bnd.ofEb16 pair.eb16 else Bnd.ofEb16 (lane r.sh l 0)
    (a.w64 = false → s.rawSrc a l = ⟨(lane v.val l 0).toNat, one v, v.tag⟩)
    ∧ (a.w64 = true → n.toNat % 2 = 0 → s.rawSrc a l = ⟨(lane v.val l 0).toNat + 2 ^ 32 * (lane w.val l 0).toNat,
        if v.wf && w.wf then pair else (one v).max (one w), v.tag⟩))
  ∧ (∀ (s : State) (a : Src) (n : BitVec 6) (l : Nat), a.sel = .s n →
    let x := s.rregs.sreg n.toNat
    s.rawSrc a l = ⟨if a.w64 then x.val.toNat else x.val.toNat % 2 ^ 32, Bnd.ofEb32 x.bnd, x.tag⟩)
  ∧ (∀ (s : State) (a : Src) (n : BitVec 4) (l : Nat), a.sel = .p n →
    let p := s.rregs.pred n
    s.rawSrc a l = ⟨if Mask.has p.val l then 1 else 0, .of (some (if Mask.has p.doubt l then 1 else 0)), .n32⟩
    ∧ (n = 15 → l < 64 → s.rawSrc a l = ⟨1, .zero, .n32⟩))
  ∧ (∀ (s : State) (a : Src) (n : BitVec 4) (l : Nat) (e : Entry), a.sel = .q n →
    let p := s.csh.endpoint (s.rregs.boundTo n.toNat)
    p.entries[p.retained]? = some e → s.rawSrc a l = ⟨(lane e.val l 0).toNat, Bnd.ofEb32 (lane e.bnd l 0), e.tag⟩)
  ∧ (∀ (s : State) (l : Nat),
    let rd := fun (k : Special) => (s.rawSrc { fld := 2, sel := .special k, w64 := false, exp := .any, opTy := .n32 } l).bits
    let n := s.launch s.ctm.launch
    (∀ (a : Src) (k : Special), a.sel = .special k → s.rawSrc a l = ⟨rd k, .zero, .n32⟩)
    ∧ rd .lane = l ∧ rd .sheaf = s.csh.idx ∧ rd .width = s.ctm.hdr.width ∧ rd .fieldx = n.fx ∧ rd .fieldy = n.fy ∧ rd .fieldz = n.fz
    ∧ (0 < n.fx → 0 < n.fy → s.ctm.index < n.fx * n.fy * n.fz → rd .teamx < n.fx ∧ rd .teamy < n.fy ∧ rd .teamz < n.fz
      ∧ s.ctm.index = rd .teamx + n.fx * (rd .teamy + n.fy * rd .teamz))
    ∧ rd .core < 72 ∧ s.csh.core = 72 * rd .die + rd .core ∧ rd .part = s.ctm.part ∧ rd .ctx = s.ctm.ctx)
  ∧ (∀ (s : State) (imm : W32) (d16 : Bool) (a : Src) (l : Nat),
    let r := s.rd imm d16 a l
    let signed := a.w64 = true ∧ ∃ q, a.exp = .ty .i64 q
    (a.sel = .imm → (signed → r = ⟨(imm.signExtend 64).toNat, .zero, a.opTy⟩) ∧ (¬ signed → r = ⟨imm.toNat, .zero, a.opTy⟩))
    ∧ (a.sel = .immF → r.bnd = .zero ∧ r.tag = a.opTy ∧ (a.w64 = false → r.bits = imm.toNat)
      ∧ (a.w64 = true → r.bits < 2 ^ 64 ∧ Fmt.f64.decode r.bits = Fmt.f32.decode imm.toNat)))
  ∧ (∀ (s : State) (imm : W32) (d16 : Bool) (a : Src) (l : Nat), a.sel.isImm = false →
    let raw := s.rawSrc a l
    let v : Val := if d16 = true ∧ a.w64 = false ∧ s.readsScalar a = true then { raw with bnd := Bnd.ofEb16 raw.bnd.eb16 } else raw
    let c := fun (t : Ty) => convNum raw.tag t .rn v.bits v.bnd
    let group := fun (t : Ty) => (raw.tag ∈ [Ty.i32, .n32, .f32] ∧ t ∈ [Ty.i32, .n32, .f32]) ∨ (raw.tag ∈ [Ty.i64, .n64, .f64] ∧ t ∈ [Ty.i64, .n64, .f64])
    (∀ n, a.sel = .s n → s.readsScalar a = true) ∧ (∀ n, a.sel = .v n → s.readsScalar a = false)
    ∧ ((∀ t q, a.exp ≠ .ty t q) → s.rd imm d16 a l = v)
    ∧ (∀ t q, a.exp = .ty t q →
      (raw.tag = .raw ∨ raw.tag = t ∨ raw.tag ∈ q ∨ ¬ group t → s.rd imm d16 a l = v)
      ∧ (raw.tag ≠ .raw → raw.tag ≠ t → raw.tag ∉ q → group t → s.rd imm d16 a l = ⟨(c t).1, (c t).2, t⟩)))

/-! Integer instructions (R118 to R128). Each group says what D takes from the sources read, and that nothing but D, the bypass latch and
the path's place changes. -/

/-- The arithmetic entries write the exact result brought into the type, element by element, with the bound R120 names. -/
def Obligations.IntegerArithmeticCompletes : Prop :=
  ∀ (h : Hd) (o : Opn) (m : IMod),
    let w64 := m.ty.is64
    let x := srcTy 2 o.sa m.ty
    let y := srcTy 3 o.sb m.ty
    let z := srcTy 4 o.sc m.ty
    let two := fun (i : Instr) (sat : Bool) (e : Int → Int → Int) (rule : X → X → X → X → X) =>
      Computes i h o (dstD o w64) [x, y] (fun _ => m.ty) (fun _ rd l =>
        iLane m.ty sat (fun v => e (v.getD 0 0) (v.getD 1 0))
          (fun g b => rule (at0 g 0) (at0 b 0) (at0 g 1) (at0 b 1)) [rd x l, rd y l])
    two (.iadd h o m) m.sat (fun a b => a + b) (fun _ bx _ b => bAdd bx b (some 0))
    ∧ two (.isub h o m) m.sat (fun a b => a - b) (fun _ bx _ b => bAdd bx b (some 0))
    ∧ two (.imul h o m) m.sat (fun a b => a * b) (fun mx bx my b => bMul mx bx my b (some 0))
    ∧ two (.imulh h o m) false (fun a b => a * b / (2 ^ tyW m.ty : Nat)) (fun mx bx my b =>
        if bx = some 0 ∧ b = some 0 then some 0 else xadd (xmul (bMulTerms mx bx my b) (some (pow2 (-(tyW m.ty : Int))))) (some 1))
    ∧ two (.imin h o m) m.sat (fun a b => min a b) (fun _ bx _ b => xmax bx b)
    ∧ two (.imax h o m) m.sat (fun a b => max a b) (fun _ bx _ b => xmax bx b)
    ∧ Computes (.iabs h o m) h o (dstD o w64) [x] (fun _ => m.ty) (fun _ rd l =>
        iLane m.ty m.sat (fun v => ((v.getD 0 0).natAbs : Int)) (fun _ b => at0 b 0) [rd x l])
    ∧ Computes (.imad h o m) h o (dstD o w64) [x, y, z] (fun _ => m.ty) (fun _ rd l =>
        iLane m.ty m.sat (fun v => v.getD 0 0 * v.getD 1 0 + v.getD 2 0)
          (fun g b => bFma (at0 g 0) (at0 b 0) (at0 g 1) (at0 b 1) (at0 b 2) (some 0)) [rd x l, rd y l, rd z l])

/-- One lane of an integer instruction of a type that is not packed: in range the exact result stands, else SAT gives the nearer end of the range
and without SAT the result is e modulo 2^w; the bound is poison from a poisoned source, infinite where it left the range and a source bound was not
0, and otherwise the rule's value. The four bytes of I8x4 and N8x4 are computed apart: byte k of the result is that of the sources' bytes k. -/
def Obligations.IntegerLaneFitsTheType : Prop :=
  (∀ (t : Ty) (sat : Bool) (e : List Int → Int) (rule : List X → List X → X) (vs : List Val), t.isIn tInt = true →
    let xs := vs.map (fun v => intVal t v.bits)
    let v := e xs
    let r := iLane t sat e rule vs
    let out := v < intMin t ∨ intMax t < v
    (¬ out → intVal t r.1 = v)
    ∧ (out → sat = true → intVal t r.1 = if v < intMin t then intMin t else intMax t)
    ∧ (out → sat = false → (r.1 : Int) = v % (2 ^ tyW t : Nat))
    ∧ r.1 < 2 ^ tyW t
    ∧ (vs.any (·.bnd.poi) = true → r.2 = .poison)
    ∧ (vs.any (·.bnd.poi) = false → out → (∃ x ∈ vs, x.bnd.x ≠ some 0) → r.2 = .lost)
    ∧ (vs.any (·.bnd.poi) = false → (¬ out ∨ ∀ x ∈ vs, x.bnd.x = some 0) →
        r.2 = .of (rule (xs.map (fun k => some (up22 ((k.natAbs : Nat) : Rat)))) (vs.map (·.bnd.x)))))
  ∧ (∀ (t : Ty) (sat : Bool) (e : List Int → Int) (rule : List X → List X → X) (vs : List Val) (k : Nat), t.isIn [.i8x4, .n8x4] = true → k < 4 →
    (iLane t sat e rule vs).1 / 2 ^ (8 * k) % 2 ^ 8
        = (iFit t sat (e (vs.map (fun v => if t = .i8x4 then sInt 8 (v.bits / 2 ^ (8 * k) % 2 ^ 8) else ((v.bits / 2 ^ (8 * k) % 2 ^ 8 : Nat) : Int))))).1
    ∧ (iLane t sat e rule vs).1 < 2 ^ 32)

/-- The entries on bits write what R121 to R123 give, tagged RAW (the counts N32 in one register), with the bound 0 from sources whose bounds are
0 and infinite otherwise. Sources are of any tag of the width, but x of BFE and x, y of BFI expect the type (R118). The model's choice
(DEDUCED, log entry 88): a 64-bit immediate of any tag zero-extends. Then what the helpers mean bit by bit, for a width of 32 or 64: reversal, the
fields of BFE and BFI, the leading zeros; a signed shift right is a floor, and gives all sign bits at the width or beyond. -/
def Obligations.BitInstructionsComplete : Prop :=
  (∀ (h : Hd) (o : Opn) (m : IMod),
    let w := tyW m.ty
    let x := srcW 2 o.sa m.ty.is64 m.ty
    let y := srcW 3 o.sb m.ty.is64 m.ty
    let a := srcN32 3 o.sb
    let tx := srcTy 2 o.sa m.ty
    let ty := srcTy 3 o.sb m.ty
    let one := fun (i : Instr) (f : Nat → Nat) => Computes i h o (dstD o m.ty.is64) [x] (fun _ => .raw)
      (fun _ rd l => (f (rd x l).bits % 2 ^ w, bBit [(rd x l).bnd]))
    let two := fun (i : Instr) (b : Src) (f : Nat → Nat → Nat) => Computes i h o (dstD o m.ty.is64) [x, b] (fun _ => .raw)
      (fun _ rd l => (f (rd x l).bits (rd b l).bits % 2 ^ w, bBit [(rd x l).bnd, (rd b l).bnd]))
    let count := fun (i : Instr) (f : Nat → Nat) => Computes i h o (dstD o false) [x] (fun _ => .n32)
      (fun _ rd l => (f (rd x l).bits, bBit [(rd x l).bnd]))
    two (.bitAnd h o m) y (fun p q => p &&& q)
    ∧ two (.bitOr h o m) y (fun p q => p ||| q)
    ∧ two (.bitXor h o m) y (fun p q => p ^^^ q)
    ∧ one (.bitNot h o m) (fun p => 2 ^ w - 1 - p % 2 ^ w)
    ∧ two (.shl h o m) a (fun p n => if w ≤ n then 0 else p * 2 ^ n)
    ∧ two (.shr h o m) a (fun p n => if w ≤ n then 0 else p / 2 ^ n)
    ∧ two (.sar h o m) a (fun p n => wrapBits w (sInt w p / (2 ^ min n w : Nat)))
    ∧ Computes (.bfe h o m) h o (dstD o m.ty.is64) [tx, a] (fun _ => .raw)
        (fun _ rd l => (bfe m.ty (rd tx l).bits (rd a l).bits % 2 ^ w, bBit [(rd tx l).bnd, (rd a l).bnd]))
    ∧ one (.brev h o m) (bitRev w)
    ∧ Computes (.bfi h o m) h o (dstD o m.ty.is64) [tx, ty, srcN32 4 o.sc] (fun _ => .raw)
        (fun _ rd l => (bfi m.ty (rd tx l).bits (rd ty l).bits (rd (srcN32 4 o.sc) l).bits % 2 ^ w,
          bBit [(rd tx l).bnd, (rd ty l).bnd, (rd (srcN32 4 o.sc) l).bnd]))
    ∧ count (.popc h o m) (popCount w)
    ∧ count (.clz h o m) (leadZeros w))
  ∧ (∀ (t : Ty) (x y f : Nat), x < 2 ^ tyW t → y < 2 ^ tyW t →
    let w := tyW t
    let pos := f % 256
    let len := min (f / 256 % 256) w
    (∀ i, i < w → (bitRev w x).testBit (w - 1 - i) = x.testBit i)
    ∧ (∀ i, i < w → (bfi t x y f).testBit i = if pos ≤ i ∧ i < pos + len then x.testBit (i - pos) else y.testBit i)
    ∧ (∀ i, i < len → (bfe t x f).testBit i
        = if pos + i < w then x.testBit (pos + i) else (isSignedTy t && x.testBit (w - 1)))
    ∧ (isSignedTy t = false → bfe t x f < 2 ^ len)
    ∧ (leadZeros w x = w ↔ x = 0)
    ∧ (x ≠ 0 → x.testBit (w - 1 - leadZeros w x) = true ∧ ∀ i, w - 1 - leadZeros w x < i → x.testBit i = false))
  ∧ (∀ (t : Ty) (x n : Nat), x < 2 ^ tyW t →
    sInt (tyW t) (wrapBits (tyW t) (sInt (tyW t) x / (2 ^ min n (tyW t) : Nat)) % 2 ^ tyW t) = sInt (tyW t) x / (2 ^ min n (tyW t) : Nat)
    ∧ (tyW t ≤ n → sInt (tyW t) x / (2 ^ min n (tyW t) : Nat) = if sInt (tyW t) x < 0 then -1 else 0))

/-- SEL, MOV, MOVI and LEA. The model's choices: the bound of a lane of SEL whose predicate is not doubtful is the chosen source's (log entry
21), LEA's bound is b(x) + 2^k b(Y) (log entry 22), an immediate of SEL and MOV takes M's type and
zero-extends (log entries 88 and 100), and MOVI.HI reads its
D, which counts as no source under STRICT (log entries 29 and 93). -/
def Obligations.MovesAndAddressesComplete : Prop :=
  ∀ (h : Hd) (o : Opn) (m : IMod),
    let w64 := m.ty.is64
    let x := srcW 2 o.sa w64 m.ty
    let y := srcW 3 o.sb w64 m.ty
    let p := (srcAny 4 o.sc false .n32).only (selIsP o.sc)
    let mv := srcAny 2 o.sa w64 m.ty
    let lx := (srcTy 2 o.sa m.ty).only (!o.sa.isImm)
    let lt : Ty := if isSignedTy m.ty then .i32 else .n32
    let ly := (srcTy 3 o.sb lt).only (!o.sb.isImm)
    Computes (.sel h o m) h o (dstD o w64) [x, y, p] (fun s => if s.srcTag x = s.srcTag y then s.srcTag x else .raw)
      (fun _ rd l =>
        let v := if (rd p l).bits = 1 then rd x l else rd y l
        (v.bits, if (rd p l).bnd.isZero then v.bnd
          else mkBnd [(rd x l).bnd, (rd y l).bnd] false
            (xadd (xmax (rd x l).bnd.x (rd y l).bnd.x) (selDist (rd x l).tag (rd y l).tag w64 (rd x l).bits (rd y l).bits))))
    ∧ Computes (.mov h o m) h o (dstD o w64) [mv] (fun s => s.srcTag mv) (fun _ rd l => ((rd mv l).bits, (rd mv l).bnd))
    ∧ (m.sub.getLsbD 0 = false →
      Computes (.movi h o m) h o { dstD o w64 with queueOk := true } [] (fun _ => m.ty)
        (fun _ _ _ => (if m.ty = .i64 then (o.imm.signExtend 64).toNat else o.imm.toNat, .zero)))
    ∧ (m.sub.getLsbD 0 = true →
      Computes (.movi h o m) h o { dstD o w64 with queueOk := false } [] (fun _ => m.ty)
        (fun s _ l => (o.imm.toNat * 2 ^ 32 + (s.rawReg o.d true l).bits % 2 ^ 32,
          if (s.rawReg o.d true l).bnd.isZero then .zero else if (s.rawReg o.d true l).bnd.poi then .poison else .lost)))
    ∧ (m.ty.isIn tInt = true → Computes (.lea h o m) h o (dstD o w64) [lx, ly] (fun _ => m.ty) (fun _ rd l =>
        let e := intVal m.ty (rd lx l).bits + intVal lt (rd ly l).bits * (2 ^ m.sub.toNat : Nat) + o.imm.toInt
        (wrapBits (tyW m.ty) e,
          mkBnd [(rd lx l).bnd, (rd ly l).bnd]
            (decide (e < intMin m.ty ∨ intMax m.ty < e) && !((rd lx l).bnd.isZero && (rd ly l).bnd.isZero))
            (xadd (rd lx l).bnd.x (xmul (rd ly l).bnd.x (some (pow2 m.sub.toNat)))))))

/-! Predicates and lanes (R124, R129 to R137). -/

/-- The entries that write a predicate: ISETP and FSETP compare, PLOP takes bit 4a + 2b + c of M, PMOV copies or tests for non-zero,
VOTE says of every active lane ANY, ALL or UNI; their doubt is R66's, or that of the predicates read. The model's choice (log entry 94): PMOV.P
of a NaN is true, and doubtful with an infinite bound alone. -/
def Obligations.PredicateWritesComplete : Prop :=
  ∀ (h : Hd) (o : Opn) (mi : IMod) (mf : FMod) (m : BitVec 8),
    let ix := srcTy 2 o.sa mi.ty
    let iy := srcTy 3 o.sb mi.ty
    let fx := srcTy 2 o.sa mf.ty
    let fy := srcTy 3 o.sb mf.ty
    let pa := srcP 2 o.sa
    let pb := srcP 3 o.sb
    let pc := srcP 4 o.sc
    let pv := (srcAny 2 o.sa false .n32).only (selIsV o.sa)
    Tests (.isetp h o mi) h o [ix, iy] (fun _ rd l =>
      let a := intVal mi.ty (rd ix l).bits
      let b := intVal mi.ty (rd iy l).bits
      (cmpFin mi.sub.toNat (decide (a < b)) (decide (a = b)),
        doubtOf (FVal.ofRat ((a : Int) : Rat)) (FVal.ofRat ((b : Int) : Rat)) (rd ix l).bnd (rd iy l).bnd))
    ∧ Tests (.fsetp h o mf) h o [fx, fy] (fun _ rd l =>
      let a := (tyFmt mf.ty).decode (rd fx l).bits
      let b := (tyFmt mf.ty).decode (rd fy l).bits
      (fCmp (mf.uc.code ++ mf.rm.code).toNat a b, doubtOf a b (rd fx l).bnd (rd fy l).bnd))
    ∧ Tests (.plop h o m) h o [pa, pb, pc] (fun _ rd l =>
      (m.getLsbD (4 * (rd pa l).bits + 2 * (rd pb l).bits + (rd pc l).bits),
        !((rd pa l).bnd.isZero && (rd pb l).bnd.isZero && (rd pc l).bnd.isZero)))
    ∧ (m = 0 → Tests (.pmov h o m) h o [pa] (fun _ rd l => (decide ((rd pa l).bits = 1), !(rd pa l).bnd.isZero)))
    ∧ (m = 2 → Tests (.pmov h o m) h o [pv] (fun _ rd l => nonZero (rd pv l)))
    ∧ (m.toNat < 3 → Tests (.vote h o m) h o [pa] (fun s rd _ =>
      let a := s.active h
      let yes := fun l => Mask.has a l && decide ((rd pa l).bits = 1)
      let any := (List.range 64).any yes
      let all := (List.range 64).all (fun l => !Mask.has a l || yes l)
      (if m = 0 then any else if m = 1 then all else (!any || all),
        (List.range 64).any (fun l => Mask.has a l && !(rd pa l).bnd.isZero))))

/-- The entries across lanes read every lane as it stood before the issue: PMOV to a register, VOTE.BALLOT, SHFL, RDLANE, SREDUX, MATCH. A
poisoned lane index poisons what it picks (R74). WRLANE writes lane j = k mod the sheaf's width where that lane is active, and no other lane; every
other register stands, and a poisoned k poisons what is written. RDLANE takes the tag of lane j as well. The model's choices: an immediate beyond SHFL's edge takes x's tag, and RDLANE
and WRLANE of an immediate write RAW (log entry 20); MIN and MAX of SREDUX skip lanes that hold NaN (log entry 23). -/
def Obligations.CrossLaneReadsComplete : Prop :=
  ∀ (h : Hd) (o : Opn) (m : BitVec 8),
    let w64 := m.getLsbD 3
    let pa := srcP 2 o.sa
    let sx := (srcAny 2 o.sa w64 .raw).only (selIsV o.sa)
    let sk := srcN32 3 o.sb
    let se := srcAny 4 o.sc w64 .raw
    let et := fun (s : State) => if se.sel.isImm then s.srcTag sx else s.srcTag se
    let rx := srcAny 2 o.sa w64 .raw
    let rk := (srcN32 3 o.sb).only (selUniform o.sb)
    let t := Ty.ofCode (m.extractLsb' 4 4)
    let red := srcTy 2 o.sa t
    (m = 1 → Computes (.pmov h o m) h o { dstD o false with scalarOk := false, queueOk := false } [pa] (fun _ => .n32)
      (fun _ rd l => ((rd pa l).bits, (rd pa l).bnd)))
    ∧ (m = 3 → Computes (.vote h o m) h o { dstD o true with queueOk := false, anyScalar := true } [pa] (fun _ => .n64)
      (fun s rd _ =>
        let on := fun (f : Nat → Bool) => (Mask.of 64 (fun l => Mask.has (s.active h) l && f l)).toNat
        (on (fun l => decide ((rd pa l).bits = 1)), Bnd.of (some (up22 ((on (fun l => !(rd pa l).bnd.isZero) : Nat) : Rat))))))
    ∧ Computes (.shfl h o m) h o (dstD o w64) (if m.getLsbD 2 then [sx, sk, se] else [sx, sk])
      (fun s => if m.getLsbD 2 && et s ≠ s.srcTag sx then .raw else s.srcTag sx)
      (fun s rd l =>
        let v := match shflLane (m.toNat % 4) s.width l (rd sk l).bits with
          | some j => rd sx j
          | none => if m.getLsbD 2 then rd se l else rd sx l
        (v.bits, v.bnd.poisonedBy (rd sk l).bnd))
    ∧ Computes (.rdlane h o m) h o { dstD o w64 with anyScalar := true } [rx, rk]
      (fun s => if rx.sel.isImm then rx.opTy else (s.rawSrc rx ((s.rd o.imm false rk (lowest (s.active h))).bits % s.width)).tag)
      (fun s rd l => ((rd rx ((rd rk l).bits % s.width)).bits, (rd rx ((rd rk l).bits % s.width)).bnd.poisonedBy (rd rk l).bnd))
    ∧ Computes (.sredux h o m) h o { dstD o t.is64 with anyScalar := true } [red] (fun _ => t)
      (fun s rd _ => sreduxAll t (m.toNat / 4 % 4) (Rm.ofCode (m.extractLsb' 0 2)) ((Mask.list (s.active h)).map (rd red)))
    ∧ Computes (.matchLanes h o m) h o { dstD o true with scalarOk := false, queueOk := false } [rx] (fun _ => .n64)
      (fun s rd l => ((Mask.of 64 (fun j => Mask.has (s.active h) j && decide ((rd rx j).bits = (rd rx l).bits))).toNat,
        bBit ((Mask.list (s.active h)).map (fun j => (rd rx j).bnd))))
    ∧ (∀ (s : State) (n : BitVec 8), o.d = .v n →
      let x := (srcAny 2 o.sa w64 .raw).only (selUniform o.sa)
      let k := (srcN32 3 o.sb).only (selUniform o.sb)
      let v := s.rd o.imm (!w64) x
      let b := fun (l : Nat) => s.bnd ((v l).bnd.poisonedBy (s.rd o.imm (!w64) k l).bnd)
      let j := (s.rd o.imm (!w64) k 0).bits % s.width
      Ready h o.imm (some { dstD o w64 with scalarOk := false, queueOk := false }) [x, k] s →
      ∃ t, exec (.wrlane h o m) s = .next t ∧ Advanced s t ∧ OnlyPath s t ∧ Unstored s t ∧ SheafFrame s.csh (t.sheaf s.cur.sheaf)
        ∧ RegsFrame s.csh.regs (t.sheaf s.cur.sheaf).regs (if h.nw then [] else dstVs o.d (if w64 then 2 else 1)) [] []
        ∧ (h.nw = false →
          (j < 64 → j < s.width → Mask.has (s.active h) j = true →
            VecHolds (t.sheaf s.cur.sheaf).regs n.toNat j w64 (s.srcTag x) (v j).bits (b j))
          ∧ (∀ l, l < s.width → (l ≠ j ∨ Mask.has (s.active h) l = false) →
            (t.sheaf s.cur.sheaf).regs.vVal32 n.toNat l = s.csh.regs.vVal32 n.toNat l
            ∧ (w64 = true → (t.sheaf s.cur.sheaf).regs.vVal32 (n.toNat + 1) l = s.csh.regs.vVal32 (n.toNat + 1) l)))
        ∧ (∃ e : Latch, e.sheaf = s.cur.sheaf ∧ e.dst = o.d ∧ e.nw = h.nw ∧ e.w64 = w64 ∧ e.tag = s.srcTag x
          ∧ (s.cur.issued = false → s.chainIn t = e :: (s.chainIn s).take 3)
          ∧ (j < 64 → j < s.width → Mask.has (s.active h) j = true → Mask.has e.lanes j = true ∧ lane e.val j 0 = BitVec.ofNat 64 (v j).bits
            ∧ lane e.bnd j 0 = dstBnd o.d w64 (b j))
          ∧ ∀ l, l < s.width → (l ≠ j ∨ Mask.has (s.active h) l = false) → Mask.has e.lanes l = false
            ∧ lane e.val l 0 = BitVec.ofNat 64 (s.csh.regs.raw o.d w64 l).bits))

/-! Floating point and conversion (R138 to R158). -/

/-- FADD, FSUB, FMUL and FFMA on the unit that the class in effect chooses over the active lanes, element by element; DOT2 and DOT4 the
exact sum of the products and the addend, rounded once. The model's choices: the sign of a sum of zeros on the cheap unit (log entry 14), the
exponent that products are aligned by (15), the rounding of AUTO's test (17), and a cheap sum of truncated products beyond the largest finite value
(95). -/
def Obligations.FloatArithmeticCompletes : Prop :=
  ∀ (h : Hd) (o : Opn) (m : FMod),
    let x := srcTy 2 o.sa m.ty
    let y := srcTy 3 o.sb m.ty
    let z := srcTy 4 o.sc m.ty
    let t := immTy o 0
    let own := fun (a : Src) => a.only (!a.sel.isImm)
    let dx := own (srcTy 2 o.sa t)
    let dy := own (srcTy 3 o.sb t)
    let dz := own (srcTy 4 o.sc .f32)
    let arith := fun (i : Instr) (op : FOp) (as : List Src) => Computes i h o (dstD o m.ty.is64) as (fun _ => m.ty)
      (fun s rd => chooseUnit (s.effOf m.uc (isFloatTy m.ty)) (allowTau s.allow) (s.active h)
        (fun cheap k => fLane op m.ty m.rm cheap (as.map (fun a => rd a k))))
    let dot := fun (i : Instr) => Computes i h o (dstD o false) [dx, dy, dz] (fun _ => .f32)
      (fun s rd => chooseUnit (s.effOf m.uc true) (allowTau s.allow) (s.active h)
        (fun cheap k => dotLane t m.rm cheap (rd dx k) (rd dy k) (rd dz k)))
    arith (.fadd h o m) .add [x, y] ∧ arith (.fsub h o m) .sub [x, y] ∧ arith (.fmul h o m) .mul [x, y]
    ∧ arith (.ffma h o m) .fma [x, y, z] ∧ dot (.dot2 h o m) ∧ dot (.dot4 h o m)

/-- FMIN, FMAX, FCLASS, FRND, FSCL and FDIV: the value, element by element, and the bound its rule gives. The model's choice (DEDUCED, log
entry 16): B-DIV rounds the divisor less its bound down. -/
def Obligations.FloatSelectionAndScalingComplete : Prop :=
  ∀ (h : Hd) (o : Opn) (m : FMod),
    let x := srcTy 2 o.sa m.ty
    let y := srcTy 3 o.sb m.ty
    let n := srcTy 3 o.sb .i32
    let f := eFmt m.ty
    let pack := fun (l : List FVal) => packElems m.ty (l.map f.encode)
    let nan := fun (l : List FVal) => l.any FVal.isNan
    let top := fun (l : List X) => l.foldl xmax (some 0)
    let pick := fun (i : Instr) (g : FVal → FVal → FVal) => Computes i h o (dstD o m.ty.is64) [x, y] (fun _ => m.ty) (fun _ rd l =>
      let r := List.zipWith g (fElems m.ty (rd x l).bits) (fElems m.ty (rd y l).bits)
      (pack r, mkBnd [(rd x l).bnd, (rd y l).bnd] (nan r) (xmax (rd x l).bnd.x (rd y l).bnd.x)))
    pick (.fmin h o m) (fPick false) ∧ pick (.fmax h o m) (fPick true)
    ∧ Computes (.fclass h o m) h o (dstD o false) [x] (fun _ => .n32)
        (fun _ rd l => (2 ^ classBit (tyFmt m.ty) (rd x l).bits, bBit [(rd x l).bnd]))
    ∧ Computes (.frnd h o m) h o (dstD o m.ty.is64) [x] (fun _ => m.ty) (fun _ rd l =>
        let r := (fElems m.ty (rd x l).bits).map (frnd m.rm)
        (pack (r.map Prod.fst), mkBnd [(rd x l).bnd] (nan (r.map Prod.fst)) (xadd (rd x l).bnd.x (top (r.map Prod.snd)))))
    ∧ Computes (.fscl h o m) h o (dstD o m.ty.is64) [x, n] (fun _ => m.ty) (fun _ rd l =>
        let k : Int := max (-4096) (min 4096 (sInt 32 (rd n l).bits))
        let r := (fElems m.ty (rd x l).bits).map (fun v => arFull f m.rm (v.scale k))
        (pack (r.map Ar.val), mkBnd [(rd x l).bnd, (rd n l).bnd] (r.any Ar.lost || !(rd n l).bnd.isZero)
          (xadd (xmul (rd x l).bnd.x (some (pow2 k))) (top (r.map Ar.rho)))))
    ∧ Computes (.fdiv h o m) h o (dstD o m.ty.is64) [x, y] (fun _ => m.ty) (fun _ rd l =>
        let b := (tyFmt m.ty).decode (rd y l).bits
        let r := arFull (tyFmt m.ty) m.rm (((tyFmt m.ty).decode (rd x l).bits).div b)
        ((tyFmt m.ty).encode r.val, mkBnd [(rd x l).bnd, (rd y l).bnd] r.lost (bDiv (rd x l).bnd.x r.val.mag b.abs (rd y l).bnd.x r.rho)))

/-- The special functions round the function's value once and add R149's term; their corners are R148's. The reciprocal, 2^x of an integer,
log2 of a power of two, and sine and cosine at multiples of a half are exact; the sine is odd and the cosine even. Elsewhere the function values
are the model's (UNVERIFIED, log entry 13), and 2^b is rounded before 1 is taken from it (DESIGN CHOICE, log entry 96). -/
def Obligations.SpecialFunctionsComplete : Prop :=
  (∀ (h : Hd) (o : Opn) (m : FMod),
    let x := srcTy 2 o.sa m.ty
    let fn := fun (i : Instr) (g : SFn) => Computes i h o (dstD o m.ty.is64) [x] (fun _ => m.ty) (fun _ rd l =>
      let r := arFull (tyFmt m.ty) m.rm (g.exact ((tyFmt m.ty).decode (rd x l).bits))
      ((tyFmt m.ty).encode r.val, mkBnd [(rd x l).bnd] r.lost
        (xadd (g.term ((tyFmt m.ty).decode (rd x l).bits) r.val (rd x l).bnd.x r.rho) r.rho)))
    fn (.frcp h o m) .rcp ∧ fn (.frsq h o m) .rsq ∧ fn (.fsqrt h o m) .sqrt ∧ fn (.fexp2 h o m) .exp2 ∧ fn (.flog2 h o m) .log2
    ∧ fn (.fsinpi h o m) .sinpi ∧ fn (.fcospi h o m) .cospi)
  ∧ (∀ n : Bool,
    SFn.exact .rcp (.fin n 0) = .inf n ∧ SFn.exact .rcp (.inf n) = .fin n 0
    ∧ SFn.exact .rsq (.fin n 0) = .inf n ∧ SFn.exact .rsq (.inf false) = .fin false 0
    ∧ SFn.exact .sqrt (.fin n 0) = .fin n 0 ∧ SFn.exact .exp2 (.inf true) = .fin false 0 ∧ SFn.exact .exp2 (.inf false) = .inf false
    ∧ SFn.exact .log2 (.fin n 0) = .inf true ∧ SFn.exact .log2 (.inf false) = .inf false
    ∧ SFn.exact .sinpi (.inf n) = .nan ∧ SFn.exact .cospi (.inf n) = .nan)
  ∧ (∀ q : Rat, 0 < q → SFn.exact .rsq (.fin true q) = .nan ∧ SFn.exact .sqrt (.fin true q) = .nan ∧ SFn.exact .log2 (.fin true q) = .nan)
  ∧ (∀ (n : Bool) (q : Rat), 0 < q → SFn.exact .rcp (.fin n q) = .fin n (1 / q)
    ∧ SFn.exact .sinpi (.fin (!n) q) = (match SFn.exact .sinpi (.fin n q) with | .fin a r => .fin (!a) r | v => v)
    ∧ SFn.exact .cospi (.fin (!n) q) = SFn.exact .cospi (.fin n q))
  ∧ (∀ k : Int, -4096 ≤ k → k ≤ 4096 → SFn.exact .exp2 (FVal.ofRat k) = .fin false (pow2 k))
  ∧ (∀ k : Int, SFn.exact .log2 (.fin false (pow2 k)) = FVal.ofRat k)
  ∧ (∀ (n : Bool) (k : Nat), SFn.exact .sinpi (.fin n k) = .fin n 0 ∧ SFn.exact .cospi (.fin n k) = .fin (decide (k % 2 = 1)) 1
    ∧ SFn.exact .sinpi (.fin n (k + 1 / 2)) = .fin (n != decide (k % 2 = 1)) 1 ∧ SFn.exact .cospi (.fin n (k + 1 / 2)) = .fin false 0)

/-- CVT, CVTQ, PACK, UNPK, QDEQ and F6JOIN. What comes of a NaN has an infinite bound (B-NAN), a copy between equal types too. Then what a
conversion gives: equal types copy; an integer or a float rounds into a format; a float becomes the integer that the mode rounds it to, or the nearer
end of the range, or 0 of a NaN; an integer beyond the other type's range becomes the nearer end. The bound grows by the rounding contribution, and is
infinite where the result saturated, overflowed or came from a NaN; poison stays. The model's choice (DESIGN CHOICE, log entry 129): a NaN that
PACK passes through in the addend keeps the addend's bound. -/
def Obligations.ConversionsComplete : Prop :=
  (∀ (h : Hd) (o : Opn) (m : FMod),
    let src := immTy o 0
    let x := (srcTy 2 o.sa src).reg
    let sc := (srcTy 3 o.sb .f32).reg
    let z := (srcTy 4 o.sc m.ty).only (selIsV o.sc)
    let pt : Ty := if eFmt m.ty = .f32 then .i32 else .f32
    let px := (srcTy 2 o.sa pt).reg
    let py := (srcTy 3 o.sb pt).reg
    let pz := (srcTy 4 o.sc m.ty).reg
    let ux := (srcTy 2 o.sa m.ty).reg
    let qx := (srcTy 2 o.sa .q4nx8).reg
    let qc := (srcN32 3 o.sb).reg
    let qs := (srcTy 4 o.sc .f32).reg
    let jx := (srcTy 2 o.sa .f6hi).reg
    let jy := (srcTy 3 o.sb .f6lo).reg
    let one := fun (v : Val) =>
      if eFmt m.ty = .f32 then ((iFit m.ty true (sInt 32 v.bits)).1, mkBnd [v.bnd] (iFit m.ty true (sInt 32 v.bits)).2 v.bnd.x)
      else let r := arFull (eFmt m.ty) m.rm (Fmt.f32.decode v.bits)
        ((eFmt m.ty).encode r.val, mkBnd [v.bnd] r.lost (xadd v.bnd.x r.rho))
    let e := 2 * immBits o 0 0
    Computes (.cvt h o m) h o (dstD o m.ty.is64) [x] (fun _ => m.ty) (fun _ rd l =>
        let r := convNum src m.ty m.rm (rd x l).bits (rd x l).bnd
        (r.1, if isFloatTy src = true ∧ ((tyFmt src).decode (rd x l).bits).isNan = true then mkBnd [(rd x l).bnd] true r.2.x else r.2))
    ∧ Computes (.cvtq h o m) h o (dstD o false) [x, sc, z] (fun _ => m.ty) (fun _ rd l =>
        let sv := Fmt.f32.decode (rd sc l).bits
        let q := ((tyFmt src).decode (rd x l).bits).div sv
        let n := narrowElem m.ty m.rm q
        (setElem m.ty (rd z l).bits (immBits o 6 4) n.bits, (rd z l).bnd.max (narrowBnd (rd x l).bnd q sv (rd sc l).bnd n)))
    ∧ (m.ty.elems = 4 → Computes (.pack h o m) h o (dstD o false) [px, py, pz] (fun _ => m.ty) (fun _ rd l =>
        (setElem m.ty (setElem m.ty (rd pz l).bits e (one (rd px l)).1) (e + 1) (one (rd py l)).1,
          ((one (rd px l)).2.max (one (rd py l)).2).max (rd pz l).bnd)))
    ∧ (m.ty.elems ≠ 4 → Computes (.pack h o m) h o (dstD o false) [px, py] (fun _ => m.ty) (fun _ rd l =>
        (setElem m.ty (setElem m.ty 0 e (one (rd px l)).1) (e + 1) (one (rd py l)).1,
          ((one (rd px l)).2.max (one (rd py l)).2).max .zero)))
    ∧ (m.ty = .i8x4 → Computes (.unpk h o m) h o (dstD o false) [ux] (fun _ => .i32) (fun _ rd l =>
        (wrapBits 32 (sInt 8 (elemBits .i8x4 (rd ux l).bits (immBits o 2 0))), (rd ux l).bnd)))
    ∧ (m.ty = .n8x4 → Computes (.unpk h o m) h o (dstD o false) [ux] (fun _ => .n32) (fun _ rd l =>
        (elemBits .n8x4 (rd ux l).bits (immBits o 2 0), (rd ux l).bnd)))
    ∧ (m.ty.isIn [.f16x2, .bf16x2, .e4m3x4, .e5m2x4] = true → Computes (.unpk h o m) h o (dstD o false) [ux] (fun _ => .f32) (fun _ rd l =>
        let f := (eFmt m.ty).decode (elemBits m.ty (rd ux l).bits (immBits o 2 0))
        (Fmt.f32.encode f, mkBnd [(rd ux l).bnd] f.isNan (rd ux l).bnd.x)))
    ∧ Computes (.qdeq h o m) h o (dstD o m.ty.is64) [qx, qc, qs] (fun _ => m.ty) (fun _ rd l =>
        let q := q4nVal (elemBits .q4nx8 (rd qx l).bits (immBits o 2 0))
        let c := (rd qc l).bits / 256 ^ immBits o 4 3 % 256
        let sv := Fmt.f32.decode (rd qs l).bits
        let r := arFull (tyFmt m.ty) m.rm (q.mul (blockScale sv c))
        ((tyFmt m.ty).encode r.val, mkBnd [(rd qx l).bnd, (rd qc l).bnd, (rd qs l).bnd] r.lost
          (xadd (xadd (xadd (xmul q.mag (blockScaleBnd sv (rd qs l).bnd.x c (rd qc l).bnd.x)) (xmul (blockScale sv c).mag (rd qx l).bnd.x))
            (xmul (rd qx l).bnd.x (blockScaleBnd sv (rd qs l).bnd.x c (rd qc l).bnd.x))) r.rho)))
    ∧ Computes (.f6join h o m) h o (dstD o false) [jx, jy] (fun _ => .e4m3x4) (fun _ rd l =>
        (packElems .e4m3x4 ((List.range 4).map (fun k =>
            f6ToE4m3 ((rd jx l).bits / 16 ^ (4 * (immBits o 1 0 % 2) + k)) ((rd jy l).bits / 4 ^ (4 * immBits o 1 0 + k)))),
          bMax (rd jx l).bnd (rd jy l).bnd)))
  ∧ (∀ (src dst : Ty) (rm : Rm) (bits : Nat) (b : Bnd),
    src ∈ [Ty.i32, .n32, .i64, .n64, .f32, .f64] → dst ∈ [Ty.i32, .n32, .i64, .n64, .f32, .f64] →
    let r := convNum src dst rm bits b
    let x := intVal src bits
    let lost : Bnd := { b with x := none }
    let grown := fun (rho : Rat) => ({ b with x := xadd b.x (some rho) } : Bnd)
    let near := fun (v : Int) => if v < intMin dst then intMin dst else if intMax dst < v then intMax dst else v
    (x = if isSignedTy src then (BitVec.ofNat (tyW src) bits).toInt else ((bits % 2 ^ tyW src : Nat) : Int))
    ∧ (src = dst → r = (bits, b))
    ∧ (src ≠ dst → r.1 < 2 ^ tyW dst)
    ∧ (isFloatTy src = false → isFloatTy dst = false → src ≠ dst → intVal dst r.1 = near x ∧ r.2 = if near x = x then b else lost)
    ∧ (isFloatTy src = false → isFloatTy dst = true →
      let y := rndFin (tyFmt dst) rm (decide (x < 0)) (x.natAbs : Nat)
      (tyFmt dst).decode r.1 = y.val ∧ r.2 = grown (rhoFull (tyFmt dst) rm y))
    ∧ (isFloatTy src = true → src ≠ dst → (tyFmt src).decode bits = .nan →
      r.2 = lost ∧ r.1 = if isFloatTy dst then (tyFmt dst).nanBits else 0)
    ∧ (∀ n, isFloatTy src = true → src ≠ dst → (tyFmt src).decode bits = .inf n →
      (isFloatTy dst = true → (tyFmt dst).decode r.1 = .inf n ∧ r.2 = grown 0)
      ∧ (isFloatTy dst = false → intVal dst r.1 = (if n then intMin dst else intMax dst) ∧ r.2 = lost))
    ∧ (∀ n q, isFloatTy src = true → isFloatTy dst = true → src ≠ dst → (tyFmt src).decode bits = .fin n q →
      let y := rndFin (tyFmt dst) rm n q
      (tyFmt dst).decode r.1 = y.val ∧ r.2 = if (tyFmt dst).maxFin < q then lost else grown (rhoFull (tyFmt dst) rm y))
    ∧ (∀ n q, isFloatTy src = true → isFloatTy dst = false → (tyFmt src).decode bits = .fin n q →
      let k := rndInt rm n q
      let v : Int := if n then -(k : Int) else k
      intVal dst r.1 = near v
      ∧ r.2 = (if near v = v then grown (if (k : Rat) = q then 0 else if rm = .rn then 1 / 2 else 1) else lost)))
  ∧ (∀ (rm : Rm) (n : Bool) (q : Rat), 0 ≤ q →
    let k : Rat := (rndInt rm n q : Nat)
    k < q + 1 ∧ q < k + 1 ∧ (rm = .rz → k ≤ q) ∧ (rm = .ru → if n then k ≤ q else q ≤ k) ∧ (rm = .rd → if n then q ≤ k else k ≤ q)
    ∧ (rm = .rn → k ≤ q + 1 / 2 ∧ q ≤ k + 1 / 2 ∧ (k = q + 1 / 2 ∨ q = k + 1 / 2 → rndInt rm n q % 2 = 0)))

/-- R46 with R57: a finite value within the format's range rounds to a value that the format holds, on the side the mode gives and nowhere
farther from the exact value than ρ; the encoding of the result decodes to it. -/
def Obligations.RoundingErrorIsBounded : Prop :=
  ∀ (f : Fmt) (rm : Rm) (neg : Bool) (q : Rat), f ∈ roundFormats → 0 ≤ q → q ≤ f.maxFin →
    ∃ v : Rat, (rndFin f rm neg q).val = .fin neg v ∧ (rndFin f rm neg q).ovf = false
      ∧ f.decode (f.encode (.fin neg v)) = .fin neg v
      ∧ v - q ≤ rhoFull f rm (rndFin f rm neg q) ∧ q - v ≤ rhoFull f rm (rndFin f rm neg q)
      ∧ (rm = .rz → v ≤ q)
      ∧ (rm = .ru → if neg then v ≤ q else q ≤ v)
      ∧ (rm = .rd → if neg then q ≤ v else v ≤ q)
      ∧ (∀ b, f.decode b = .fin neg q → v = q)

/-- What bounds are for: where the exact operands lie within their bounds of the values read, the exact result of FADD, FSUB, FMUL or FFMA
lies within the bound written of the value written, on the full unit in every rounding mode and on the cheap unit alike. -/
def Obligations.BoundsContainTheExactResult : Prop :=
  ∀ (op : FOp) (t : Ty) (rm : Rm) (cheap : Bool) (vs : List Val) (xs bs es : List Rat) (b : Rat),
    (t = .f32 ∨ t = .f64) → vs.length = 3 → xs.length = 3 → bs.length = 3 → es.length = 3 →
    (∀ k, k < 3 → ((tyFmt t).decode (vs.getD k ⟨0, .zero, t⟩).bits).isFin = true
      ∧ xs.getD k 0 = ((tyFmt t).decode (vs.getD k ⟨0, .zero, t⟩).bits).rat
      ∧ (vs.getD k ⟨0, .zero, t⟩).bnd = { x := some (bs.getD k 0) } ∧ 0 ≤ bs.getD k 0
      ∧ es.getD k 0 - xs.getD k 0 ≤ bs.getD k 0 ∧ xs.getD k 0 - es.getD k 0 ≤ bs.getD k 0) →
    (fLane op t rm cheap vs).2.1.x = some b →
    let e : Rat := match op with
      | .add => es.getD 0 0 + es.getD 1 0
      | .sub => es.getD 0 0 - es.getD 1 0
      | .mul => es.getD 0 0 * es.getD 1 0
      | .fma => es.getD 0 0 * es.getD 1 0 + es.getD 2 0
    ∃ n q, (tyFmt t).decode (fLane op t rm cheap vs).1 = .fin n q
      ∧ e - (FVal.fin n q).rat ≤ b ∧ (FVal.fin n q).rat - e ≤ b

/-- A comparison without doubt is that of the exact values: no values within the bounds of the two compared would give another answer, of
R66's six conditions on numbers. -/
def Obligations.SettledComparisonsHold : Prop :=
  ∀ (x y : Rat) (bx b : Rat) (ex ey : Rat) (cc : Nat), 0 ≤ bx → 0 ≤ b →
    ex - x ≤ bx → x - ex ≤ bx → ey - y ≤ b → y - ey ≤ b →
    doubtOf (FVal.ofRat x) (FVal.ofRat y) { x := some bx } { x := some b } = false →
    cmpFin cc (decide (ex < ey)) (decide (ex = ey)) = cmpFin cc (decide (x < y)) (decide (x = y))

/-! Bounds (R159 to R166). -/

/-- BGET reads a bound as a number or as its encoding, BSET, BADD and BMAX give the value of x another bound and keep its tag, and BCLR clears a
bound in a trusted context; poison stays. BCLR elsewhere raises ILLOP on the active lanes; with none it traps on the path's (DESIGN CHOICE, log
entry 130). BMODE writes ALLOW, whole, by setting
bits or by clearing them; OLD puts the ALLOW before it into a scalar. A value with a reserved bit or policy 3 raises ILLOPND and changes nothing.
BGET's ENC form gives the encoding held: a register's own shadow where no pair is read, through a latch that falls back too. The width flags of
D follow the width of the write (log entry 97, DEDUCED). The model's choice (DESIGN CHOICE, log entry 106): an immediate x has the tag N32, or N64
with W64. -/
def Obligations.BoundInstructionsComplete : Prop :=
  (∀ (h : Hd) (o : Opn) (m : BitVec 8),
    let w64 := m.getLsbD 3
    let enc := m.getLsbD 0
    let any := fun (fld : Nat) (x : Sel) => srcAny fld x w64 (if w64 then .n64 else .n32)
    let x := any 2 o.sa
    let y := any 3 o.sb
    let ft : Ty := if w64 then .f64 else .f32
    let ef := srcTy 3 o.sb ft
    let en := srcN32 3 o.sb
    let mag := fun (bits : Nat) => let v := (tyFmt ft).decode bits; if v.isNan then none else v.mag
    (∀ (s : State) (n : BitVec 2), s.regOf (.l n) = match s.latchRead n.toNat with | .fallback d => d | _ => .l n)
    ∧ (enc = true → Computes (.bget h o m) h o (dstD o false) [x] (fun _ => .n32) (fun s _ l =>
        let b := (s.rd o.imm false x l).bnd
        let held := match s.regOf o.sa with
          | .v n =>
            if w64 then
              (if (s.rregs.vreg n.toNat).wf && (s.rregs.vreg (n.toNat + 1)).wf then (s.rregs.pairEb n.toNat l).toNat else b.eb32.toNat)
            else if (s.rregs.vreg n.toNat).wf then b.eb16.toNat else (lane (s.rregs.vreg n.toNat).sh l 0).toNat
          | .s n => if w64 then (s.rregs.sreg n.toNat).bnd.toNat else b.eb16.toNat
          | _ => if w64 then b.eb32.toNat else b.eb16.toNat
        (held, if b.poi then .poison else .zero)))
    ∧ (enc = false → Computes (.bget h o m) h o (dstD o w64) [x] (fun _ => ft) (fun s _ l =>
        let b := (s.rd o.imm false x l).bnd
        (if b.poi then (tyFmt ft).nanBits
          else (tyFmt ft).encode (match (if w64 then b.x else (Bnd.ofEb16 b.eb16).x) with | none => .inf false | some r => .fin false r),
          if b.poi then .poison else .zero)))
    ∧ (enc = false → Computes (.bset h o m) h o (dstD o w64) [x, ef] (fun s => s.srcTag x) (fun _ rd l =>
        ((rd x l).bits, mkBnd [(rd x l).bnd, (rd ef l).bnd] false (xmax (rd x l).bnd.x (xadd (mag (rd ef l).bits) (rd ef l).bnd.x)))))
    ∧ (enc = true → Computes (.bset h o m) h o (dstD o w64) [x, en] (fun s => s.srcTag x) (fun _ rd l =>
        let c := if w64 then Bnd.ofEb32 (BitVec.ofNat 32 (rd en l).bits) else Bnd.ofEb16 (BitVec.ofNat 16 (rd en l).bits)
        ((rd x l).bits, if (rd x l).bnd.poi || (rd en l).bnd.poi || c.poi then .poison
          else if (rd en l).bnd.isZero then .of (xmax (rd x l).bnd.x c.x) else .lost)))
    ∧ Computes (.badd h o m) h o (dstD o w64) [x, ef] (fun s => s.srcTag x) (fun _ rd l =>
        ((rd x l).bits, mkBnd [(rd x l).bnd, (rd ef l).bnd] false (xadd (xadd (rd x l).bnd.x (mag (rd ef l).bits)) (rd ef l).bnd.x)))
    ∧ Computes (.bmax h o m) h o (dstD o w64) [x, y] (fun s => s.srcTag x) (fun _ rd l =>
        ((rd x l).bits, mkBnd [(rd x l).bnd, (rd y l).bnd] false (xmax (rd x l).bnd.x (rd y l).bnd.x)))
    ∧ (∀ s, Ready h o.imm (some (dstD o w64)) [x] s → s.trusted s.ctm.ctx = true →
        Produces (.bclr h o m) s h o w64 (s.srcTag x)
          (fun l => ((s.rd o.imm (d16Of o.d w64) x l).bits, if (s.rd o.imm (d16Of o.d w64) x l).bnd.poi then .poison else .zero)))
    ∧ (∀ s, Ready h o.imm (some (dstD o w64)) [x] s → s.trusted s.ctm.ctx = false →
        Raises (.bclr h o m) s { cause := cILLOP, check := 9, lanes := s.checkLanes h }))
  ∧ (∀ (h : Hd) (o : Opn) (m : BitVec 8) (s : State),
    let old := m.getLsbD 2
    let x := (srcN32 2 o.sa).only (selUniform o.sa)
    let d : Option Dst := if old then some { dstD o false with vecOk := false, queueOk := false } else none
    let v := BitVec.ofNat 32 (s.rd o.imm false x 0).bits
    let new := if m.toNat % 4 = 0 then v else if m.toNat % 4 = 1 then s.allow ||| v else s.allow &&& ~~~v
    Ready h o.imm d [x] s →
    (new.toNat / 2 ^ 21 ≠ 0 ∨ new.extractLsb' 16 2 = 3 → Raises (.bmode h o m) s { cause := cILLOPND, check := 9, lanes := s.cur.lanes })
    ∧ (new.toNat / 2 ^ 21 = 0 → new.extractLsb' 16 2 ≠ 3 →
      ∃ t, exec (.bmode h o m) s = .next t ∧ (t.sheaf s.cur.sheaf).regs.allow = new
        ∧ (old = true → Wrote s t h o.d false .n32 (fun _ => (s.allow.toNat, .zero)) ∧ Latched s t h o.d false .n32 (fun _ => (s.allow.toNat, .zero)))
        ∧ Advanced s t ∧ OnlyPath s t ∧ Unstored s t ∧ SheafFrame s.csh (t.sheaf s.cur.sheaf)
        ∧ RegsFrame s.csh.regs { (t.sheaf s.cur.sheaf).regs with allow := s.csh.regs.allow } [] (if old && !h.nw then dstSs o.d else []) []))

/-- BCHK writes to a predicate, without doubt, whether the bound of x is within the budget of the region at an address: true where no region covers it,
false where the entry is malformed or several cover it; its trapping form raises BUDGET on the lanes that fail, with the first one's address. The
model's choices: a relative budget rounds as R50 does (log entry 17), TINFO.OPND is 2 (log entry 27), and a value under a float tag of the other width
counts as 0 (log entry 107). -/
def Obligations.BchkTestsTheBudget : Prop :=
  ∀ (h : Hd) (o : Opn) (m : BitVec 8) (s : State),
    let w64 := m.getLsbD 3
    let trap := m.getLsbD 0
    let x := srcAny 2 o.sa w64 (if w64 then .n64 else .n32)
    let a := (srcTyAlso 3 o.sb .n64 [.i64]).only (selIsS o.sb || selIsV o.sb)
    let va := fun l => (s.rd o.imm false a l).bits
    let v := fun l => s.rd o.imm false x l
    let pass := fun l => match s.regCover s.port s.ctm.ctx (va l) with
      | [] => true
      | [e] => !s.regMalformed e && (!s.boundsOn
          || budgetPasses e (v l).bnd (if (v l).tag.is64 = w64 then budgetMag (v l).tag (v l).bits else some 0))
      | _ => false
    let bad := Mask.of 64 (fun l => Mask.has (s.active h) l && !pass l)
    let f := (Mask.list (s.active h)).foldl (fun acc l => acc.fillReg s.port s.ctm.ctx (va l)) s
    Filled s f
    ∧ (trap = false → Ready h o.imm (some { sel := o.d, w64 := false, predOnly := true }) [x, a] s →
      ∃ t, exec (.bchk h o m) s = .next t ∧ Advanced s t ∧ OnlyPath f t ∧ Unstored f t ∧ SheafFrame s.csh (t.sheaf s.cur.sheaf)
        ∧ RegsFrame s.csh.regs (t.sheaf s.cur.sheaf).regs [] [] (dstPs o.d)
        ∧ (∀ n, o.d = .p n → ∀ l, l < 64 →
          let y := (t.sheaf s.cur.sheaf).regs.pred n
          if Mask.has (s.active h) l then Mask.has y.val l = pass l ∧ Mask.has y.doubt l = false
          else Mask.has y.val l = Mask.has (s.csh.regs.pred n).val l ∧ Mask.has y.doubt l = Mask.has (s.csh.regs.pred n).doubt l))
    ∧ (trap = true → bad = 0 → Ready h o.imm none [x, a] s →
      ∃ t, exec (.bchk h o m) s = .next t ∧ PassedOver s f t ∧ Unstored f t)
    ∧ (trap = true → bad ≠ 0 → Ready h o.imm none [x, a] s →
      ∃ r, Raises (.bchk h o m) s { cause := cBUDGET, check := 9, lanes := bad, addr := BitVec.ofNat 64 (va (lowest bad)), akind := 1, opnd := 2, ridx := r })

/-! Memory (R196 to R218). -/

/-- LD, LDS and LDK within a chunk: each active lane reads its element as the sheaf sees memory, its own held stores included, with the
bound of the bytes read; the groups of registers of a vector load follow one another. Noting an access's translations, regions and dies changes
nothing else. A load of several registers makes one latch entry, which holds the first (log 24, DEDUCED). That LDK tests the region before the
translation (log 36), and what an access notes of the dies it touches (log 51), are the model's choices. -/
def Obligations.LoadsComplete : Prop :=
  (∀ (s : State) (sp sOnly : Bool) (o : Opn) (acc : Acc) (bytes : Nat) (a : Mask), Filled s (s.noted sp sOnly o acc bytes a))
  ∧ ∀ (h : Hd) (o : Opn) (m : MMod) (s : State),
    let a := s.active h
    let n := mwBytes m.width
    let goes := fun (i : Instr) (sp sOnly scalar : Bool) (own : Option Trap) =>
      let ls := s.locs sp .load n a (s.memAddr o sp sOnly)
      let f := s.noted sp sOnly o .load n a
      Ready h o.imm (some (loadDst o m.width scalar)) (addrSrcs o sp sOnly) s → own = none →
      (m.order = .acq → m.scope = .dev) → ls.any (fun p => p.2.irrevocable) = false →
      s.codedWait (ls.map (fun p => p.2.line)) = false →
      s.linesFull (fun c => ls.foldl (fun c p => c.noteRead (s.memAddr o sp sOnly p.1) p.2) c) = false →
      ∃ t, exec i s = .next t ∧ LoadProduced s f t h o m (loadTag m.width m.hi ls) (s.loaded f.viewLine o m sp sOnly a)
    goes (.ld h o m) false false false (s.accTrap false .load n (loadRule m.width) a (s.memAddr o false false))
    ∧ goes (.lds h o m) true false false (s.accTrap true .load n (loadRule m.width) a (s.memAddr o true false))
    ∧ goes (.ldk h o m) false true true
        (pickFault ((Mask.list a).filterMap (fun l => (s.ldkFault n (s.memAddr o false true l)).map (fun f => (l, f)))) 0)

/-- A load with an acquire, or of remote or system memory, is performed outside the chunks: it waits for its sheaf's earlier ones, and until the
entries of its sheaf's earlier boundary instructions are published; a remote or system load then goes on its way, to every such line of its lanes,
and takes its latch, and when its access has completed it takes its value; the acquire follows it. Where a lane's remote line cannot be
reached, REMOTE is raised instead. A load of several registers makes one latch entry,
which holds the first (log 24, DEDUCED). That an instruction with nothing to await is performed as it issues is the model's choice (log 42). -/
def Obligations.BoundaryLoadsComplete : Prop :=
  ∀ (h : Hd) (o : Opn) (m : MMod) (s : State),
    let a := s.active h
    let n := mwBytes m.width
    let acq := m.order = .acq ∧ m.scope ≠ .dev
    let goes := fun (i : Instr) (sp sOnly scalar : Bool) (own : Option Trap) =>
      let ls := s.locs sp .load n a (s.memAddr o sp sOnly)
      let f0 := s.noted sp sOnly o .load n a
      Ready h o.imm (some (loadDst o m.width scalar)) (addrSrcs o sp sOnly) s → own = none →
      (BeforeBoundary s ∨ (AtBoundary s ∧ s.settled s.cur.sheaf = false) → acq ∨ ls.any (fun p => p.2.irrevocable) = true → Waits i s)
      ∧ (AtBoundary s → s.settled s.cur.sheaf = true → acq ∨ ls.any (fun p => p.2.irrevocable) = true →
        ∀ r, s.remoteTrap ls ((Mask.list a).map (s.memAddr o sp sOnly)) = some r → exec i s = .next (s.edge.raise r))
      ∧ (AtBoundary s → s.settled s.cur.sheaf = true → s.remoteTrap ls ((Mask.list a).map (s.memAddr o sp sOnly)) = none →
        (∀ p, ls.find? (fun p => p.2.irrevocable) = some p →
          (s.cur.arrived = false → ∃ t, exec i s = .next t
            ∧ Flies s t ((ls.filter (fun p => p.2.irrevocable)).map (fun p => p.2.pa)) (some (o.d, mwIs64 m.width)) h.nw)
          ∧ (s.cur.arrived = true →
            let f1 := (ls.map (fun p => p.2.line)).foldl State.holdLine f0
            (acq → ∃ t, exec i s = .next t ∧
              LoadProduced s (f1.acquireAt m.scope) t h o m (loadTag m.width m.hi ls) (s.loaded f1.line o m sp sOnly a))
            ∧ (¬ acq → ∃ t, exec i s = .next t ∧ LoadProduced s f1 t h o m (loadTag m.width m.hi ls) (s.loaded f1.line o m sp sOnly a))))
        ∧ (acq → ls.any (fun p => p.2.irrevocable) = false → ∃ t, exec i s = .next t ∧
            LoadProduced s (f0.acquireAt m.scope) t h o m (loadTag m.width m.hi ls) (s.loaded f0.line o m sp sOnly a)))
    goes (.ld h o m) false false false (s.accTrap false .load n (loadRule m.width) a (s.memAddr o false false))
    ∧ goes (.lds h o m) true false false (s.accTrap true .load n (loadRule m.width) a (s.memAddr o true false))
    ∧ goes (.ldk h o m) false true true
        (pickFault ((Mask.list a).filterMap (fun l => (s.ldkFault n (s.memAddr o false true l)).map (fun f => (l, f)))) 0)

/-- ST and STS within a chunk: the sheaf sees each active lane's bytes at the lane's address, the highest lane's where lanes overlap; every
other byte of it, and every byte of the other sheaves, stands as before until the chunk commits. A line is known by its name: a coded line by its
LB64 slot alone (R173). -/
def Obligations.StoresComplete : Prop :=
  ∀ (h : Hd) (o : Opn) (m : MMod) (s : State) (sp : Bool),
    let i : Instr := if sp then .sts h o m else .st h o m
    let a := s.active h
    let n := mwBytes m.width
    let at' := fun (l : Nat) => s.locOk sp .store n (s.memAddr o sp false l)
    let ls := s.locs sp .store n a (s.memAddr o sp false)
    let f := s.noted sp false o .store n a
    Ready h o.imm none (addrSrcs o sp false ++ storeSrcs o m.width) s →
    s.accTrap sp .store n (storeRule m.width) a (s.memAddr o sp false) = none → s.storeBudget o m.width sp a = none →
    (m.order = .rel → m.scope = .dev) → ls.any (fun p => p.2.irrevocable) = false →
    s.linesFull (fun c => ls.foldl (fun c p => c.noteWrite (s.memAddr o sp false p.1) p.2) c) = false →
    ∃ t, exec i s = .next t ∧ PassedOver s f t
      ∧ (∀ (j : Nat) (x : Line) (k : Nat), k < 128 →
          (j = s.cur.sheaf → ∀ l, Mask.has a l = true → l < 64 → (at' l).line.name = x.name → k < (at' l).ofs ∨ (at' l).ofs + n ≤ k) →
          t.seen j x k = f.seen j x k)
      ∧ (∀ (l e c : Nat), Mask.has a l = true → l < 64 → e < mwCount m.width → c < mwElem m.width →
          let k := (at' l).ofs + e * mwElem m.width + c
          (∀ l', l < l' → l' < 64 → Mask.has a l' = true → (at' l').line.name = (at' l).line.name → k < (at' l').ofs ∨ (at' l').ofs + n ≤ k) →
          t.seen s.cur.sheaf (at' l).line k = BitVec.ofNat 8 (((s.storeEls o m.width l).getD e (0, .zero, .raw)).1 / 256 ^ c))

/-- A store with a release, or to remote or system memory, leaves the sheaf outside the chunks, after its earlier ones and after the release: local
lines are published in order, each remote or system line goes out by itself; a remote line that cannot be reached raises REMOTE, and nothing is
stored. That an instruction with nothing to await is performed as it
issues is the model's choice (log 42). -/
def Obligations.BoundaryStoresComplete : Prop :=
  (∀ (h : Hd) (o : Opn) (m : MMod) (s : State) (sp : Bool),
    let i : Instr := if sp then .sts h o m else .st h o m
    let a := s.active h
    let n := mwBytes m.width
    let ls := s.locs sp .store n a (s.memAddr o sp false)
    let rel := m.order = .rel ∧ m.scope ≠ .dev
    let f := (s.noted sp false o .store n a).sendStores (s.stored o m sp a) (if m.hi then some (immBits o 26 24) else none)
    Ready h o.imm none (addrSrcs o sp false ++ storeSrcs o m.width) s →
    s.accTrap sp .store n (storeRule m.width) a (s.memAddr o sp false) = none → s.storeBudget o m.width sp a = none →
    rel ∨ ls.any (fun p => p.2.irrevocable) = true →
    (BeforeBoundary s → Waits i s)
    ∧ (AtBoundary s → ∀ r, s.remoteTrap ls ((Mask.list a).map (s.memAddr o sp false)) = some r → exec i s = .next (s.edge.raise r))
    ∧ (AtBoundary s → s.remoteTrap ls ((Mask.list a).map (s.memAddr o sp false)) = none →
      (rel → s.cur.released = false → ∃ t, exec i s = .next t ∧ Releases s t (m.scope = .sys))
      ∧ (¬ rel ∨ s.cur.released = true → ∃ t, exec i s = .next t ∧ PassedOver s f t ∧ Unstored f t)))
  ∧ (∀ (s : State) (ws : List LineWrite) (chan : Option Nat),
      let far := fun (w : LineWrite) => match w.line with | .rem _ => true | .sys _ => true | _ => false
      (s.sendStores ws chan).pubs = s.pubs ++ (ws.filter (fun w => !far w)).map (fun w =>
        { w := w, own := some s.cur.sheaf, team := some s.csh.team, maker := some (s.cur.sheaf, s.csh.nextChunk) })
      ∧ (s.sendStores ws chan).flights.map (fun f => (f.sheaf, f.lanes, f.chan, f.kind))
          = s.flights.map (fun f => (f.sheaf, f.lanes, f.chan, f.kind))
            ++ (ws.filter far).map (fun w => (s.cur.sheaf, s.cur.lanes, chan, FlightKind.store w))
      ∧ (∀ f ∈ (s.sendStores ws chan).flights.drop s.flights.length, f.win = s.winTarget f.pa)
      ∧ (s.sendStores ws chan).mem = s.mem ∧ (s.sendStores ws chan).teams = s.teams ∧ (s.sendStores ws chan).sheaves = s.sheaves)

/-- Check 9: what fails an access of a lane, and which lanes and which cause are raised. ALIGN comes before all else; a byte outside the
scratchpad window faults REGION; the walk, the leaf's permissions, the lost dies, the system window, the region table and the region's state
follow; the cause raised is the first in order of any active lane, with all lanes that have it and the lowest of their addresses; the
budget of a store comes last. The trap holds the addresses whose walks were tried, which is none where a lane is misaligned. A held region entry that
covers an address answers for it, and the table is not read, but for an overlap with another valid entry, which the entry has brought with it. LD,
LDS, ST, STS, LDK, FESET and WAITA raise what is picked; LDK tests the region first (log 36, DEDUCED). REMOTE names the lanes whose remote line
cannot be reached. The malformed entries of a walk beyond R177's words (log 50), the descriptor and the
region table on a lost die (log 87), the place of DIELOST in R201's order (log 101, DEDUCED) and the field a budget trap names (log 27) are the
model's choices. -/
def Obligations.AccessFaultsAreRaised : Prop :=
  (∀ (s : State) (sp : Bool) (acc : Acc) (bytes : Nat) (rule : Loc → Option Nat) (a : Mask) (addr : Nat → Nat),
    let fails := fun (l : Nat) (f : AccFault) => l < 64 ∧ Mask.has a l = true ∧ s.laneFault sp acc bytes rule (addr l) = some f
    (s.accTrap sp acc bytes rule a addr = none ↔ ∀ l f, ¬ fails l f)
    ∧ (∀ c, s.accTrap sp acc bytes rule a addr = some c → c.check = 9
        ∧ (sp = true ∨ (∃ l, l < 64 ∧ Mask.has a l = true ∧ addr l % bytes ≠ 0) → c.walks = [])
        ∧ (sp = false → (∀ l, l < 64 → Mask.has a l = true → addr l % bytes = 0) → c.walks = (Mask.list a).map addr)
        ∧ (∀ l, l < 64 → (Mask.has c.lanes l = true ↔ ∃ f, fails l f ∧ f.cause = c.cause))
        ∧ (∀ l f, fails l f → causeRank c.cause ≤ causeRank f.cause ∧ (f.cause = c.cause → ∃ l0 f0, fails l0 f0 ∧ f0.cause = c.cause
            ∧ c.addr = BitVec.ofNat 64 f0.addr ∧ c.akind = f0.akind ∧ c.ridx = f0.ridx ∧ c.die = f0.die ∧ f0.addr ≤ f.addr))))
  ∧ (List.range 7).map (fun k => [cALIGN, cPAGE, cPERM, cDIELOST, cREGION, cATYPE, cBUDGET].getD k 0 |> causeRank) = List.range 7
  ∧ (∀ (s : State) (sp : Bool) (acc : Acc) (bytes : Nat) (rule : Loc → Option Nat) (va : Nat),
      let k := if sp then 2 else 1
      (va % bytes ≠ 0 → s.laneFault sp acc bytes rule va = some { cause := cALIGN, addr := va, akind := k })
      ∧ (va % bytes = 0 → 0 < bytes → sp = true →
          let outside := fun b => 2 ^ 20 ≤ b ∨ (2 ^ 19 ≤ b ∧ s.ctm.hdr.pair = false) ∨ s.ctm.hdr.scratch ≤ b % 2 ^ 19
          ((∃ b, va ≤ b ∧ b < va + bytes ∧ outside b) →
            s.laneFault sp acc bytes rule va = some { cause := cREGION, addr := va, akind := 2 })
          ∧ ((∀ b, va ≤ b → b < va + bytes → ¬ outside b) →
            s.laneFault sp acc bytes rule va = (rule (s.spLoc va)).map (fun c => { cause := c, addr := va, akind := 2 })))
      ∧ (va % bytes = 0 → sp = false → (∀ f, s.globalLoc s.port s.ctm.ctx va acc = .error f → s.laneFault sp acc bytes rule va = some f)
          ∧ (∀ l, s.globalLoc s.port s.ctm.ctx va acc = .ok l →
              s.laneFault sp acc bytes rule va = (rule l).map (fun c => { cause := c, addr := va, ridx := l.reg.map (·.idx) }))))
  ∧ (∀ (s : State) (p : Port0) (ctx va : Nat) (acc : Acc),
      let at' := s.globalLoc p ctx va acc
      (s.xlate p ctx va = .page → at' = .error { cause := cPAGE, addr := va })
      ∧ (∀ pa, s.xlate p ctx va = .malformed pa → at' = .error { cause := cPERM, addr := pa, akind := 3 })
      ∧ (∀ d, s.xlate p ctx va = .dieLost d → at' = .error { cause := cDIELOST, addr := va, die := d })
      ∧ (∀ e bits, s.xlate p ctx va = .leaf e bits →
          let allowed := match acc with
            | .load => e.testBit 3 | .casFail => e.testBit 3 | .store => e.testBit 4 | .atomic => e.testBit 3 && e.testBit 4 | .fetch => e.testBit 5
          let pa := (locOf ctx e bits va none).pa
          let held := ∃ g ∈ s.regCacheOf p, g.ctx = ctx ∧ g.covers va = true
          let region := fun (r : Option Nat) => at' = .error { cause := cREGION, addr := va, ridx := r }
          let ok := fun (r : Option RegEntry) => (∀ x ∈ (locOf ctx e bits va r).pas, s.lostAt x = none) → at' = .ok (locOf ctx e bits va r)
          (allowed = false → at' = .error { cause := cPERM, addr := va })
          ∧ (allowed = true →
              (∀ d, s.lostAt pa = some d → at' = .error { cause := cDIELOST, addr := va, die := d })
              ∧ (s.lostAt pa = none →
                (paSystem pa = true → (s.windows pa).length ≠ 1 → at' = .error { cause := cPERM, addr := pa, akind := 3 })
                ∧ (paSystem pa = false ∨ (s.windows pa).length = 1 → ¬ held →
                  (∀ d, s.lostAt (s.descAddr ctx) = some d → at' = .error { cause := cDIELOST, addr := va, die := d })
                  ∧ (∀ d, s.lostAt (s.descAddr ctx) = none → s.lostAt (s.regionBase ctx) = some d →
                    at' = .error { cause := cDIELOST, addr := va, die := d }))
                ∧ (paSystem pa = false ∨ (s.windows pa).length = 1 →
                  held ∨ (s.lostAt (s.descAddr ctx) = none ∧ s.lostAt (s.regionBase ctx) = none) →
                  (s.regCover p ctx va = [] → if e.testBit 8 then region none else ok none)
                  ∧ (∀ g, s.regCover p ctx va = [g] →
                      if s.regMalformed g = true ∨ (g.state = stCODED ↔ e.testBit 8 = false) ∨ (e.testBit 8 = true ∧ g.rate ≠ bitsAt e 11 9)
                      then region (some g.idx) else ok (some g))
                  ∧ (∀ g g' r, s.regCover p ctx va = g :: g' :: r → region (some g.idx)))))))
  ∧ (∀ (s : State) (p : Port0) (ctx va : Nat),
      let held := (s.regCacheOf p).filter (fun g => g.ctx = ctx && g.covers va)
      (held ≠ [] → s.regCover p ctx va = held.flatMap (fun g => if g.amb.any (fun r => r.1 ≤ va && va < r.2) then [g, g] else [g]))
      ∧ (held = [] → ∀ g, g ∈ s.regCover p ctx va ↔ ∃ k, g = s.regAt ctx k ∧ k ∈ s.regValidIdx ctx ∧ g.covers va = true
          ∧ ∀ e ∈ s.regCacheOf p, e.ctx = ctx → e.idx ≠ k))
  ∧ (∀ (s : State) (e : RegEntry) (va : Nat),
      (s.regEntryFor e).amb.any (fun r => r.1 ≤ va && va < r.2) = true
        ↔ e.covers va = true ∧ ∃ k ∈ s.regValidIdx e.ctx, k ≠ e.idx ∧ (s.regAt e.ctx k).covers va = true)
  ∧ (∀ (s : State) (c ctx va : Nat), s.regHeld (.core c) ctx = [] →
      let t := s.touchPa ctx (s.regionBase ctx)
      ((s.fillReg (.core c) ctx va).core c).regions
        = ((((t.regValidIdx ctx).map (t.regAt ctx)).filter (fun g => g.covers va)).map t.regEntryFor ++ (t.core c).regions).take 64)
  ∧ (∀ (s : State) (va lo n table : Nat) (leafHere : Bool) (rest : List (Nat × Nat × Bool)),
      let ea := table + 8 * (va / 2 ^ lo % 2 ^ n)
      let e := s.rd64 ea
      let w := s.walkFrom va ((lo, n, leafHere) :: rest) table
      let reserved := bitsAt e 63 52 ≠ 0 ∨ bitsAt e 7 6 ≠ 0 ∨ e.testBit 2 = true
      (∀ d, s.lostAt ea = some d → w = .dieLost d)
      ∧ (granaryBase ≤ ea → w = .malformed ea)
      ∧ (ea < granaryBase → s.lostAt ea = none →
          (e.testBit 0 = false → w = .page)
          ∧ (e.testBit 0 = true → reserved → w = .malformed ea)
          ∧ (e.testBit 0 = true → ¬ reserved → e.testBit 1 = true →
              w = if leafHere = true ∧ s.leafOk e lo = true then .leaf e lo else .malformed ea)
          ∧ (e.testBit 0 = true → ¬ reserved → e.testBit 1 = false →
              w = if rest = [] ∨ bitsAt e 11 2 ≠ 0 then .malformed ea else s.walkFrom va rest (bitsAt e 51 12 * 4096))))
  ∧ levels.map (fun l => (l.1 + l.2.1 - 1, l.1, l.2.2)) = [(55, 48, false), (47, 39, false), (38, 30, true), (29, 21, true), (20, 16, true)]
  ∧ (∀ (s : State) (e : RegEntry),
      let w := fun (b : W64) (ks : List Nat) => ∃ k ∈ ks, b.getLsbD k = true
      (w e.w0 ((List.range 8).map (· + 56) ++ [12, 13, 14, 15] ++ [6, 7] ++ [1, 2, 3]) ∨ w e.w1 ((List.range 24).map (· + 40))
        ∨ w e.w2 (List.range 16) ∨ w e.w3 ((List.range 12).map (· + 52) ++ [0, 1, 2]) ∨ w e.w5 ((List.range 32).map (· + 32))
        ∨ w e.w6 (List.range 64) ∨ w e.w7 (List.range 64)
        ∨ e.size = 0 ∨ (e.state ≠ stCODED ∧ e.rate ≠ 0) ∨ (e.state = stCODED ∧ (4 < e.rate ∨ e.bside = 0)) ∨ (e.sealed = true ∧ e.state ≠ stRO))
      → s.regMalformed e = true)
  ∧ (∀ (s : State) (w : MWidth) (l : Loc) (red : Option (Nat × Ty × Scope)),
      loadRule w l = (if l.state = stCODED ∧ w ≠ .b64 then some cREGION else none)
      ∧ storeRule w l = (if l.state = stRO ∨ (l.state = stCODED ∧ w ≠ .b64) then some cREGION else none)
      ∧ waitRule l = (if l.state = stCODED then some cREGION else none)
      ∧ (l.state = stCODED → s.atomicRule red l = some cATYPE) ∧ (l.state = stRO → s.atomicRule red l = some cREGION)
      ∧ (l.state ≠ stCODED → l.state ≠ stRO → l.irrevocable = false → s.atomicRule red l = none))
  ∧ (∀ (h : Hd) (o : Opn) (m : MMod) (sp : Bool) (s : State) (c : Trap),
      let ld := s.accTrap sp .load (mwBytes m.width) (loadRule m.width) (s.active h) (s.memAddr o sp false)
      let st := s.accTrap sp .store (mwBytes m.width) (storeRule m.width) (s.active h) (s.memAddr o sp false)
      (Ready h o.imm (some (loadDst o m.width false)) (addrSrcs o sp false) s → ld = some c →
        Raises (if sp then .lds h o m else .ld h o m) s c)
      ∧ (Ready h o.imm none (addrSrcs o sp false ++ storeSrcs o m.width) s →
          (st = some c → Raises (if sp then .sts h o m else .st h o m) s c)
          ∧ (st = none → s.storeBudget o m.width sp (s.active h) = some c → Raises (if sp then .sts h o m else .st h o m) s
              { c with walks := if sp then [] else (Mask.list (s.active h)).map (s.memAddr o sp false) })))
  ∧ (∀ (h : Hd) (o : Opn) (m : MMod) (s : State) (c : Trap),
      let a := s.active h
      let n := mwBytes m.width
      let va := s.memAddr o false true
      let ty := immTy o 20
      let x := (srcTy 4 o.sc ty).only (selIsS o.sc || selIsV o.sc)
      let vec := some { dstD o ty.is64 with scalarOk := false, queueOk := false }
      let fails := fun (l : Nat) (f : AccFault) => l < 64 ∧ Mask.has a l = true ∧ s.ldkFault n (va l) = some f
      (Ready h o.imm (some (loadDst o m.width true)) (addrSrcs o false true) s → (∃ l f, fails l f) →
        ∃ r, Raises (.ldk h o m) s r ∧ r.check = 9
          ∧ ((∃ l, l < 64 ∧ Mask.has a l = true ∧ va l % n ≠ 0) → r.walks = [] ∧ r.tables = [])
          ∧ ((∀ l, l < 64 → Mask.has a l = true → va l % n = 0) → r.walks = (Mask.list a).map va ∧ r.tables = (Mask.list a).map va)
          ∧ (∀ l, l < 64 → (Mask.has r.lanes l = true ↔ ∃ f, fails l f ∧ f.cause = r.cause))
          ∧ (∀ l f, fails l f → causeRank r.cause ≤ causeRank f.cause ∧ (f.cause = r.cause → ∃ l0 f0, fails l0 f0 ∧ f0.cause = r.cause
              ∧ r.addr = BitVec.ofNat 64 f0.addr ∧ r.akind = f0.akind ∧ r.ridx = f0.ridx ∧ r.die = f0.die ∧ f0.addr ≤ f.addr)))
      ∧ (∀ v, (v % n ≠ 0 → s.ldkFault n v = some { cause := cALIGN, addr := v })
        ∧ (v % n = 0 → ∀ d, s.regLost s.port s.ctm.ctx v = some d → s.ldkFault n v = some { cause := cDIELOST, addr := v, die := d })
        ∧ (v % n = 0 → s.regLost s.port s.ctm.ctx v = none →
          (∀ g, s.regCover s.port s.ctm.ctx v = [g] → s.regMalformed g = false → g.state = stRO →
            s.ldkFault n v = s.laneFault false .load n (fun _ => none) v)
          ∧ ((∀ g, s.regCover s.port s.ctm.ctx v = [g] → s.regMalformed g = true ∨ g.state ≠ stRO) →
            ∃ r, s.ldkFault n v = some { cause := cREGION, addr := v, ridx := r })))
      ∧ (Ready h o.imm none (addrSrcs o true false) s →
        s.accTrap true .store n (fun _ => none) a (s.memAddr o true false) = some c → Raises (.feset h o m) s c)
      ∧ (Ready h o.imm vec (addrSrcs o false false ++ [x]) s →
        s.accTrap false .load n waitRule a (s.memAddr o false false) = some c → Raises (.waita h o m) s c))
  ∧ (∀ (s : State) (ls : List (Nat × Loc)) (vas : List Nat),
      let away := fun (l : Nat) (p : Loc) => (l, p) ∈ ls ∧ (∃ n, p.line = .rem n) ∧ s.reachable p.pa = false
      (s.remoteTrap ls vas = none ↔ ∀ l p, ¬ away l p)
      ∧ (∀ r, s.remoteTrap ls vas = some r → r.cause = cREMOTE ∧ r.check = 9 ∧ r.walks = vas ∧ r.akind = 3
        ∧ (∀ l, l < 64 → (Mask.has r.lanes l = true ↔ ∃ p, away l p))
        ∧ ∃ l0 p0, away l0 p0 ∧ r.addr = BitVec.ofNat 64 p0.pa ∧ ∀ l p, away l p → p0.pa ≤ p.pa))

/-- ATOM, CAS and RED: the access's checks, which raise what fails, the wait for the sheaf's earlier chunks, REMOTE, the release; of ATOM and CAS
the travel of their remote or system locations, of RED that of its own where one of them is tested against a budget; the round in which the homes
on this device perform it, once they have published every entry of its lines; then the lanes act at the home of their locations in ascending order,
each on what the lanes before it have left, D takes what stood there before each, and the acquire follows. What is stored at a home of this device
is a published entry that has been decided. A RED on remote or system memory that has not travelled goes out as one flight for each 128-byte line,
with its operation, which is evaluated where it arrives; one that arrives on device memory becomes an entry that carries it. Additions of several
lanes at one location add up, modulo 2^32: each lane is given the sum of what stood there and of the lanes before it. The format the data is read in
(log 26), the value the budget of a RED in a reduction window is tested with (log 39), the contributions sent lane by lane (log 40), the performance
of all lanes at one place in the order (log 41) and how an operation is decided that a token holder defers (log 116) are the model's choices. -/
def Obligations.AtomicsComplete : Prop :=
  (∀ (h : Hd) (o : Opn) (m : MMod) (s : State),
    let t := immTy o 20
    let op := immBits o 26 24
    let sp := m.hi
    let a := s.active h
    let n := mwBytes m.width
    let x := (srcTy 4 o.sc t).only (selIsS o.sc || selIsV o.sc)
    let c := (srcTy 3 o.sb t).only (selIsS o.sb || selIsV o.sb)
    let d := some { dstD o t.is64 with scalarOk := false, queueOk := false }
    let rd := fun (y : Src) (l : Nat) => s.rd o.imm false y l
    let acq := fun (f : State) => if m.order = .acq || m.order = .ar then f.acquireAt m.scope else f
    let walked := fun (sOnly : Bool) => if sp then [] else (Mask.list a).map (s.memAddr o sp sOnly)
    let gate := fun (i : Instr) (ls fly near : List (Nat × Loc)) (vas : List Nat) (dst : Option (Sel × Bool)) (done : Prop) =>
      (BeforeBoundary s → Waits i s)
      ∧ (AtBoundary s → ∀ r, s.remoteTrap ls vas = some r → exec i s = .next (s.edge.raise r))
      ∧ (AtBoundary s → s.remoteTrap ls vas = none →
        let held := (m.order = .rel ∨ m.order = .ar) ∧ m.scope ≠ .dev ∧ s.cur.released = false
        let travels := fly ≠ [] ∧ s.cur.arrived = false
        let round := (∃ p ∈ near, s.onDevice p.2 = true) ∧ (s.cur.inRound = false ∨ s.edge.homeReady near = false)
        (held → ∃ u, exec i s = .next u ∧ Releases s u (m.scope = .sys))
        ∧ (¬ held → travels → ∃ u, exec i s = .next u ∧ Flies s u (fly.map (fun p => p.2.pa)) dst false)
        ∧ (¬ held → ¬ travels → round → ∃ u, exec i s = .next u ∧ AwaitsRound s u dst)
        ∧ (¬ held → ¬ travels → ¬ round → done))
    let far := fun (ls : List (Nat × Loc)) => ls.filter (fun p => p.2.irrevocable)
    let vas := fun (sOnly : Bool) => (Mask.list a).map (s.memAddr o sp sOnly)
    let wrote := fun (i : Instr) (f g : State) (p : AtomPlan) => ∃ u, exec i s = .next u
      ∧ Wrote s u h o.d t.is64 t p.old ∧ Latched f u h o.d t.is64 t p.old ∧ Advanced s u ∧ OnlyPath g u ∧ Unstored g u
      ∧ SheafFrame s.csh (u.sheaf s.cur.sheaf)
      ∧ RegsFrame s.csh.regs (u.sheaf s.cur.sheaf).regs (if h.nw then [] else dstVs o.d (if t.is64 then 2 else 1)) [] []
    (let ls := s.locs sp .atomic n a (s.memAddr o sp false)
     let p := s.atomPlan ls n t s.strict s.boundsOn (fun l v => some (atomVal op t v ⟨(rd x l).bits % 2 ^ 64, (rd x l).bnd, t⟩))
     let f := (s.edge.noted sp false o .atomic n a).homeWrites (some s.cur.sheaf) p.ws
     let fault := s.accTrap sp .atomic n (s.atomicRule none) a (s.memAddr o sp false)
     op ≠ casOp → Ready h o.imm d (addrSrcs o sp false ++ [x]) s →
     (∀ r, fault = some r → Raises (.atom h o m) s r)
     ∧ (fault = none → gate (.atom h o m) ls (far ls) ls (vas false) (some (o.d, t.is64))
       ((∀ r, s.atomBudget ls (s.memAddr o sp false) t p = some r →
          exec (.atom h o m) s = .next (s.edge.raise { r with walks := walked false }))
        ∧ (s.atomBudget ls (s.memAddr o sp false) t p = none → wrote (.atom h o m) f (acq f) p))))
    ∧ (let ls := s.locs sp .casFail n a (s.memAddr o sp true)
       let p := s.atomPlan ls n t s.strict s.boundsOn
         (fun l v => if v.bits = (rd c l).bits % 2 ^ 64 then some ((rd x l).bits % 2 ^ 64, (rd x l).bnd) else none)
       let f := (s.edge.noted sp true o .casFail n a).homeWrites (some s.cur.sheaf) p.ws
       let fault := s.accTrap sp .casFail n (s.atomicRule none) a (s.memAddr o sp true)
       let won := (m.order = .acq || m.order = .ar) && !p.stores.isEmpty
       let lost := decide (immBits o 26 25 = 1) && decide (p.stores.length < ls.length)
       let unwritable := fun (r : Trap) => sp = false ∧ pickFault (p.stores.filterMap (fun q =>
         match s.xlateFor s.port s.ctm.ctx (s.memAddr o sp true q.1) .atomic with | .error e => some (q.1, e) | .ok _ => none)) 0 = some r
       Ready h o.imm d (addrSrcs o sp true ++ [c, x]) s →
       (∀ r, fault = some r → Raises (.cas h o m) s r)
       ∧ (fault = none → gate (.cas h o m) ls (far ls) ls (vas true) (some (o.d, t.is64))
         ((∀ r, unwritable r → exec (.cas h o m) s = .next (s.edge.raise { r with walks := walked true }))
          ∧ (∀ r, (∀ q, ¬ unwritable q) → s.atomBudget ls (s.memAddr o sp true) t p = some r →
            exec (.cas h o m) s = .next (s.edge.raise { r with walks := walked true }))
          ∧ ((∀ q, ¬ unwritable q) → s.atomBudget ls (s.memAddr o sp true) t p = none →
            wrote (.cas h o m) f (if won || lost then f.acquireAt m.scope else f) p))))
    ∧ (let ls := s.locs sp .atomic n a (s.memAddr o sp false)
       let sent := ls.filter (fun q => s.redSent q.2)
       let p := s.atomPlan ls n t s.strict s.boundsOn (fun l v => some (atomVal op t v ⟨(rd x l).bits % 2 ^ 64, (rd x l).bnd, t⟩))
       let f := ((s.edge.noted sp false o .atomic n a).homeWrites (some s.cur.sheaf)
           (p.writes (fun l => !sent.any (fun q => q.1 = l)))).sendReds op t
         (sent.map (fun q => (q.2.pa, BitVec.ofNat 64 (rd x q.1).bits, (rd x q.1).bnd.eb32)))
       let fault := s.accTrap sp .atomic n (s.atomicRule (some (op, t, m.scope))) a (s.memAddr o sp false)
       op ≠ casOp → Ready h o.imm none (addrSrcs o sp false ++ [x]) s →
       (∀ r, fault = some r → Raises (.red h o m) s r)
       ∧ (fault = none → gate (.red h o m) ls (s.redFly ls) (ls.filter (fun q => !s.redSent q.2)) (vas false) none
         ((∀ r, s.atomBudget ls (s.memAddr o sp false) t p = some r →
            exec (.red h o m) s = .next (s.edge.raise { r with walks := walked false }))
          ∧ (s.atomBudget ls (s.memAddr o sp false) t p = none →
            ∃ u, exec (.red h o m) s = .next u ∧ PassedOver s f u ∧ Unstored f u)))))
  ∧ (∀ (s : State) (c : Loc) (ls : List (Nat × Loc)),
    let window := (∃ n, c.line = .rem n) ∧ s.redWins c.pa ≠ []
    let tested := fun (p : Loc) => s.boundsOn = true ∧ ∃ e, p.reg = some e ∧ (Bnd.ofEb32 e.absB).x ≠ none
    let far := fun (p : Loc) => p.irrevocable = true ∧ ¬ ((∃ n, p.line = .rem n) ∧ s.redWins p.pa ≠ [])
    (s.redSent c = true ↔ c.irrevocable = true ∧ (window ∨ s.cur.arrived = false))
    ∧ (∀ q, q ∈ s.redFly ls ↔ q ∈ ls ∧ far q.2 ∧ ∃ r ∈ ls, far r.2 ∧ tested r.2)
    ∧ (s.homeReady ls = true → ∀ q ∈ ls, s.onDevice q.2 = true → ∀ p ∈ s.pubs, p.w.line.name ≠ (s.localLine q.2.line).name))
  ∧ (∀ (s : State) (op : Nat) (t : Ty) (c x : Val),
    s.laneOp op t c x = { op := op, ty := t, cmp := BitVec.ofNat 64 c.bits, ofs := 0, x := BitVec.ofNat 64 x.bits, bnd := x.bnd.x, poi := x.bnd.poi,
                          bnds := s.boundsOn, strict := s.strict })
  ∧ (∀ (s : State) (i : Nat) (w : LineWrite) (o : PubOp) (l : Line),
    let device := fun (k : Line) => (∀ n, s.localLine k ≠ .rem n) ∧ ∀ n, s.localLine k ≠ .sys n
    (device w.line → w.line = s.localLine w.line →
      s.homeWrite (some i) w = s.publishOne { w := w, own := some i, team := some (s.sheaf i).team, maker := some (i, (s.sheaf i).nextChunk),
                                              green := s.homeGreen w.line, decided := true })
    ∧ ((s.opPlan l o).ws = [] → s.atomApply o l = s)
    ∧ (∀ x r, (s.opPlan l o).ws = x :: r → device l → l = s.localLine l →
      s.atomApply o l = { s with pubs := s.pubs ++ [{ w := { x with line := l }, green := s.homeGreen l, op := some o }] }))
  ∧ (∀ (s : State) (c : Loc) (lanes : List Nat) (x : Nat → Nat), c.ofs + 4 ≤ 128 → (∀ l, x l < 2 ^ 32) →
    let p := s.atomPlan (lanes.map (fun l => (l, c))) 4 .n32 false false (fun l v => some (atomVal 0 .n32 v ⟨x l, .zero, .n32⟩))
    let was := leNat (((s.atomHome c.line).bytes.drop c.ofs).take 4)
    p.olds.map (fun q => (q.1, q.2.1))
      = (List.range lanes.length).map (fun k => (lanes.getD k 0, (was + ((lanes.take k).map x).sum) % 2 ^ 32))
    ∧ (lanes ≠ [] → leNat (((overlay (s.atomHome c.line) c.line p.ws).bytes.drop c.ofs).take 4) = (was + (lanes.map x).sum) % 2 ^ 32))
  ∧ (∀ (s : State) (op : Nat) (t : Ty) (vs : List (Nat × W64 × EB32)),
    let u := s.sendReds op t vs
    u.flights = s.flights ++ u.flights.drop s.flights.length
    ∧ (u.flights.drop s.flights.length).map (fun f => f.pa) = (vs.map (fun v => v.1 / 128)).dedup.map (fun n => 128 * n)
    ∧ ∀ f ∈ u.flights.drop s.flights.length, f.kind = .red op t ∧ f.sheaf = s.cur.sheaf ∧ f.lanes = s.cur.lanes ∧ f.win = s.winTarget f.pa
        ∧ f.vals = vs.filter (fun v => v.1 / 128 = f.pa / 128))

/-- LDF, STE, FESET and WAITA: their lanes are tried in ascending order, and one whose condition does not hold waits; a lane that LDF or STE
serves finds its words all full or all empty, leaves them empty (unless it keeps them) or full, and stands at the next slot; LDF waits as well while
an entry that writes its words is not published. Their access's checks raise what fails. A sheaf whose context
ends while its lanes are tried is gone, and no more of them is tried. A later completion of STE belongs to no chunk of its sheaf. That an instruction
with nothing to await is performed as it issues is the model's choice (log 42), and so are the format WAITA's data is read in (log 26, DEDUCED), the
poll of WAITA (log 38), what a re-test that faults does (log 108) and the completion that no squash takes back (log 59). -/
def Obligations.ConditionalAccessesComplete : Prop :=
  (∀ (h : Hd) (o : Opn) (m : MMod),
    let w64 := mwIs64 m.width
    let n := mwBytes m.width
    let d := some { dstD o w64 with scalarOk := false, queueOk := false }
    let ty := immTy o 20
    let x := (srcTy 4 o.sc ty).only (selIsS o.sc || selIsV o.sc)
    let dw := some { dstD o ty.is64 with scalarOk := false, queueOk := false }
    let tried := fun (s e t : State) (cond : Nat → Wait) (try' : State → Nat → Wait → Option State) =>
      let i := s.cur.sheaf
      let u := (Mask.list (s.active h)).foldl
        (fun acc l => if (SMap.get? acc.sheaves i).isNone then acc
          else (try' acc l (cond l)).getD (acc.updSheaf i (fun y => { y with waits := SMap.set y.waits l (cond l) })))
        (e.movePc (s.cur.lanes &&& ~~~s.active h) (nextPc s.cur.pc))
      t = if (SMap.get? u.sheaves i).isNone then u else u.leave
    Performs (.ldf h o m) h o.imm d (addrSrcs o true false)
      (fun s => s.accTrap true .load n (fun _ => none) (s.active h) (s.memAddr o true false))
      (fun s t => tried s s.edge t (fun l => .ldf o.d w64 m.hi (s.memAddr o true false l)) (fun y l c => y.feTry false s.cur.sheaf l s.cur.pc c))
    ∧ Performs (.ste h o m) h o.imm none (addrSrcs o true false ++ storeSrcs o m.width)
      (fun s => s.accTrap true .store n (fun _ => none) (s.active h) (s.memAddr o true false))
      (fun s t =>
        let e := fun l => (s.storeEls o m.width l).headD (0, .zero, .raw)
        tried s s.edge t (fun l => .ste w64 (s.memAddr o true false l) (BitVec.ofNat 64 (e l).1) (e l).2.1.eb32)
          (fun y l c => y.feTry false s.cur.sheaf l s.cur.pc c))
    ∧ (∀ s, let ls := s.locs true .store n (s.active h) (s.memAddr o true false)
        Ready h o.imm none (addrSrcs o true false) s →
        s.accTrap true .store n (fun _ => none) (s.active h) (s.memAddr o true false) = none →
        s.linesFull (fun c => ls.foldl (fun c p => c.noteWrite 0 p.2) c) = false →
        Holds (.feset h o m) s ((Mask.list (s.active h)).flatMap (fun l =>
          (feWords (s.spAbs s.cur.sheaf (s.memAddr o true false l)) w64).map (fun k => Held.fe s.csh.team k m.hi))))
    ∧ (∀ s, let ls := s.locs false .load n (s.active h) (s.memAddr o false false)
        let cond := fun l => Wait.waita o.d ty (immBits o 26 24) (m.order = .acq) m.scope (s.memAddr o false false l)
          (BitVec.ofNat 64 (s.rd o.imm false x l).bits)
        Ready h o.imm dw (addrSrcs o false false ++ [x]) s →
        s.accTrap false .load n waitRule (s.active h) (s.memAddr o false false) = none →
        let vas := (Mask.list (s.active h)).map (s.memAddr o false false)
        (BeforeBoundary s → Waits (.waita h o m) s)
        ∧ (AtBoundary s → ∀ r, s.remoteTrap ls vas = some r → exec (.waita h o m) s = .next (s.edge.raise r))
        ∧ (AtBoundary s → s.remoteTrap ls vas = none →
          (ls.any (fun p => p.2.irrevocable) = true → s.cur.arrived = false → ∃ t, exec (.waita h o m) s = .next t
            ∧ Flies s t ((ls.filter (fun p => p.2.irrevocable)).map (fun p => p.2.pa)) none false)
          ∧ (s.cur.arrived = true ∨ ls.any (fun p => p.2.irrevocable) = false → ∃ t, exec (.waita h o m) s = .next t ∧
              tried s (s.edge.noted false false o .load n (s.active h)) t cond (fun y l c => y.waitaTry s.cur.sheaf l s.cur.pc c)))))
  ∧ (∀ (s : State) (later : Bool) (i l : Nat) (pc : Pc) (n : BitVec 8) (w64 keep : Bool) (ofs : Nat) (v : W64) (b : EB32),
      let x := s.sheaf i
      let tm := s.team x.team
      let ws := feWords (s.spAbs i ofs) w64
      let busy := ∃ p ∈ s.pubs, p.w.line.name = (Line.sp x.team (s.spAbs i ofs / 128)).name
        ∧ ∃ b ∈ p.w.bytes, s.spAbs i ofs % 128 ≤ b.1 ∧ b.1 < s.spAbs i ofs % 128 + (if w64 then 8 else 4)
      let stepped := fun (u : State) => (u.sheaf i).regs.pcOf l = nextPc pc ∧ SMap.get? (u.sheaf i).waits l = none
        ∧ (∀ k, k < tm.hdr.width → k ≠ l → (u.sheaf i).regs.pcOf k = x.regs.pcOf k) ∧ (∀ j, j ≠ i → u.sheaf j = s.sheaf j)
      l < tm.hdr.width → l < 64 →
      ((ws.any (fun k => !SMap.getD tm.spfe k false) = true ∨ busy → s.feTry later i l pc (.ldf (.v n) w64 keep ofs) = none)
       ∧ (ws.all (fun k => SMap.getD tm.spfe k false) = true → ¬ busy → ∃ u e, s.feTry later i l pc (.ldf (.v n) w64 keep ofs) = some u ∧ stepped u
          ∧ VecHolds (u.sheaf i).regs n.toNat l w64 .raw
              (leNat (((s.line (.sp x.team (s.spAbs i ofs / 128))).bytes.drop (s.spAbs i ofs % 128)).take (if w64 then 8 else 4))) e
          ∧ (∀ k, SMap.getD (u.team x.team).spfe k false = (SMap.getD tm.spfe k false && (keep || !ws.contains k)))))
      ∧ ((ws.any (fun k => SMap.getD tm.spfe k false) = true → s.feTry later i l pc (.ste w64 ofs v b) = none)
       ∧ (ws.all (fun k => !SMap.getD tm.spfe k false) = true → ∃ u w, s.feTry later i l pc (.ste w64 ofs v b) = some u ∧ stepped u
          ∧ u.pubs = s.pubs ++ [{ w := w, own := if later then none else some i, team := some x.team, maker := some (i, x.nextChunk) }] ∧ w.line = .sp x.team (s.spAbs i ofs / 128)
          ∧ w.bytes = (List.range (if w64 then 8 else 4)).map (fun k => (s.spAbs i ofs % 128 + k, BitVec.ofNat 8 (v.toNat / 256 ^ k)))
          ∧ (∀ k, SMap.getD (u.team x.team).spfe k false = (SMap.getD tm.spfe k false || ws.contains k)))))

/-- PREF has no effect, whatever its address; HINT walks for the lowest active lane's address and tells the host of its page where that is a system
one, and its EVICT first lets the held halves of the page go; a walk that meets a lost die raises DIELOST; FENCE closes the chunk and at POD or SYS waits; SEAL and UNSEAL change the region's word. A region table on a
lost die traps DIELOST where no held entry answers, or where the word would change. The record of a hint in its ring (log 37) and the
descriptor on a lost die (log 87) are the model's choices. -/
def Obligations.FencesSealsAndHintsComplete : Prop :=
  ∀ (h : Hd) (o : Opn) (m : MMod) (s : State),
    let va := s.memAddr o false true (lowest (s.active h))
    let kind := immBits o 26 24
    let sa := s.memAddr o false true (lowest s.cur.lanes)
    let cover := s.regCover s.port s.ctm.ctx sa
    let sealed := fun (i : Instr) (un : Bool) =>
      let lost := fun (d : Nat) => Raises i s { cause := cDIELOST, check := 9, lanes := s.cur.lanes, addr := BitVec.ofNat 64 sa, akind := 1, die := d }
      Ready h o.imm none (addrSrcs o false true) s →
      (∀ d, s.regLost s.port s.ctm.ctx sa = some d → lost d)
      ∧ (s.regLost s.port s.ctm.ctx sa = none →
      (((∀ e, cover ≠ [e]) ∨ (∃ e, cover = [e] ∧ (s.regMalformed e = true ∨ (e.state ≠ stSHARED ∧ ¬ (e.state = stRO ∧ e.sealed = true))))) →
        ∃ r, Raises i s { cause := cREGION, check := 9, lanes := s.cur.lanes, addr := BitVec.ofNat 64 sa, akind := 1, ridx := r, tables := [sa] })
      ∧ (∀ e, cover = [e] → s.regMalformed e = false →
        let was := if un then e.state = stRO ∧ e.sealed = true else e.state = stSHARED
        let isAlready := if un then e.state = stSHARED else e.state = stRO ∧ e.sealed = true
        let w := if un then (e.w0 &&& ~~~0x800) ||| 0x20 else (e.w0 &&& ~~~0x30) ||| 0x800
        (∀ d, was → s.tableLost s.ctm.ctx = some d → lost d)
        ∧ ((was ∧ s.tableLost s.ctm.ctx = none) ∨ isAlready → BeforeBoundary s → Waits i s)
        ∧ (isAlready → AtBoundary s → let f := s.fillReg s.port e.ctx sa
            ∃ t, exec i s = .next t ∧ PassedOver s f t ∧ Unstored f t)
        ∧ (was → s.tableLost s.ctm.ctx = none → AtBoundary s →
            let f := (s.edge.touchPa e.ctx (s.regionBase e.ctx)).wr64 (s.regionBase e.ctx + 64 * e.idx) w.toNat
            exec i s = .next ((((f.dropRegion e.ctx e.idx).squashCtx e.ctx (fun c => c.regions.contains (e.idx, !un)))).finishBoundary))))
    let regLostIs := (s.regLost s.port s.ctm.ctx sa = if (s.regHeld s.port s.ctm.ctx).any (fun g => g.covers sa) then none
      else (s.lostAt (s.descAddr s.ctm.ctx)).or (s.lostAt (s.regionBase s.ctm.ctx)))
    regLostIs ∧ (Ready h o.imm none (addrSrcs o false false) s → Passes (.pref h o m) s)
    ∧ (Ready h o.imm none (addrSrcs o false true) s →
        let w := (s.walkTouch s.ctm.ctx va s.port).fillTlb s.port s.ctm.ctx va
        let leaves := fun (f : State) => ∃ t, exec (.hint h o m) s = .next t ∧ PassedOver s f t ∧ Unstored f t
        (s.active h = 0 → Passes (.hint h o m) s)
        ∧ (∀ d, s.active h ≠ 0 → s.xlate s.port s.ctm.ctx va = .dieLost d → Raises (.hint h o m) s
            { cause := cDIELOST, check := 9, lanes := s.active h, addr := BitVec.ofNat 64 va, akind := 1, die := d, walks := [va] })
        ∧ (s.active h ≠ 0 → (∀ d, s.xlate s.port s.ctm.ctx va ≠ .dieLost d) →
          (∀ e bits, w.xlate s.port s.ctm.ctx va = .leaf e bits →
            (e.testBit 8 = true ∨ paSystem (leafPa e bits va) = false → leaves w)
            ∧ (e.testBit 8 = false → paSystem (leafPa e bits va) = true → leaves
              ((if kind = 3 then w.evictPage (leafPa e bits va) bits else w).hintRecord s.ctm.ctx (va / 2 ^ bits * 2 ^ bits) bits kind)))
          ∧ ((∀ e bits, w.xlate s.port s.ctm.ctx va ≠ .leaf e bits) → leaves w)))
    ∧ (m.scope = .dev → ∃ t, exec (.fence h o m) s = .next t ∧ Advanced s t ∧ Untouched s t ∧ ChunkClosed t s.cur.sheaf)
    ∧ (m.scope ≠ .dev → ∃ t u, exec (.fence h o m) s = .next t ∧ Advanced s u ∧ Untouched s u ∧ ChunkClosed t s.cur.sheaf
        ∧ t = { u.updSheaf s.cur.sheaf (fun x => { x with pend := .fence (m.order ≠ .acq) (m.order ≠ .rel) (m.scope = .sys) s.nextId }) with
                nextId := s.nextId + 1 })
    ∧ sealed (.sealRegion h o m) false ∧ sealed (.unsealRegion h o m) true

/-! Coded memory and line bounds (R51 to R56, R186 to R195). -/

/-- Every group code of an LB64 is the smallest expressible value not below its bound, E the smallest at which the largest finite one is
expressible; a store never leaves a group below what it holds, and lowers a group only by writing all of its bytes; a load gives an element the larger
bound of the groups it spans, infinite under STRICT and exact otherwise on an untracked line, poisoned on a marked one. An element of a coded
line that the chunk has written reads as stored, with its stored bound. -/
def Obligations.LineBoundsCoverTheirElements : Prop :=
  (∀ (e : Nat) (x : X), (∀ q, x = some q → 0 ≤ q ∧ q ≤ 7 / 4 * pow2 ((e : Int) - 2047)) →
    lbCodeFor e x < 64 ∧ xle x (lbValue e (lbCodeFor e x)) = true
    ∧ ∀ c, c < 64 → xle x (lbValue e c) = true → xle (lbValue e (lbCodeFor e x)) (lbValue e c) = true)
  ∧ (∀ (q : Rat) (e : Nat), 0 < q → (lbExpFor q ≤ e ↔ q ≤ 7 / 4 * pow2 ((e : Int) - 2047)))
  ∧ (∀ (kind : Nat) (gs : List EB32), kind < 4 → gs.length = 8 →
    let w := lbWhole kind (gs.map (fun b => (Bnd.ofEb32 b).x))
    lbKind w = kind ∧ w.toNat / 2 ^ 62 = 0
    ∧ ∀ g, g < 8 → let x := (Bnd.ofEb32 (gs.getD g 0)).x
        xle x (lbGroup w g) = true ∧ (lbGroup w g = none ↔ x = none) ∧ (lbGroup w g = some 0 ↔ x = some 0))
  ∧ (∀ (coded : Bool) (old : W64) (w : LineWrite), w.untracked = false → covers w.bytes 0 128 = true ∨ lbKind old ≠ 0 →
    let r := lbAfter coded old w
    let touches := fun (e : Elem) (g : Nat) => e.ofs / 16 ≤ g ∧ g ≤ (e.ofs + e.len - 1) / 16
    lbKind r = (if coded then 3 else if w.wide then 2 else 1)
    ∧ ∀ g, g < 8 →
        (∀ e ∈ w.elems, touches e g → xle (Bnd.ofEb32 e.bnd).x (lbGroup r g) = true)
        ∧ (covers w.bytes (16 * g) 16 = false → xle (lbGroup old g) (lbGroup r g) = true)
        ∧ (covers w.bytes (16 * g) 16 = true → (∃ e ∈ w.elems, touches e g) → (∀ e ∈ w.elems, touches e g → e.bnd = 0) → lbGroup r g = some 0))
  ∧ (∀ (coded : Bool) (old : W64) (w : LineWrite),
    (w.untracked = true → lbAfter coded old w = 0)
    ∧ (w.untracked = false → covers w.bytes 0 128 = false → lbKind old = 0 → lbAfter coded old w = old))
  ∧ (∀ (strict : Bool) (d : LineData) (ofs len : Nat), d.halfPoi = (false, false) →
    (d.poison = true → lineBound strict d ofs len = .poison)
    ∧ (d.poison = false → d.fresh = [] → d.lostEls = [] →
      (lbKind d.lb = 0 → lineBound strict d ofs len = if strict then .lost else .zero)
      ∧ (lbKind d.lb ≠ 0 → 0 < len → len ≤ 16 → ofs + len ≤ 128 →
        lineBound strict d ofs len = .of (xmax (lbGroup d.lb (ofs / 16)) (lbGroup d.lb ((ofs + len - 1) / 16))))))
  ∧ (∀ (strict : Bool) (d : LineData) (w : LineWrite), w.line.isSys = false → d.poison = false → anyPoison w.elems = false →
    w.elems.Pairwise (fun a b => a.ofs / 8 ≠ b.ofs / 8) →
    (∀ e ∈ w.elems, lineBound strict (d.write true w) (8 * (e.ofs / 8)) 8 = Bnd.ofEb32 e.bnd)
    ∧ (∀ i ∈ d.lostEls, (∀ e ∈ w.elems, e.ofs / 8 ≠ i) → d.fresh = [] → lineBound strict (d.write true w) (8 * i) 8 = .lost)
    ∧ (∀ k, k < 128 → (∀ b ∈ w.bytes, b.1 ≠ k) → (d.write true w).bytes.getD k 0 = d.bytes.getD k 0))

/-- The block codec: the transform and the bit planes lose nothing when every plane is kept; a block of zeros comes back as zeros; the
encoder writes 16r bits whose kind is the block's; the decoder poisons what R190 lists and nothing else. The encode of a coded line writes its
stream, its LB64, and the two counters of its region entry, and no other byte, what is loaded then is what decodes from it, and with no poisoned
element no mark is left on the block. That the other blocks of a marked line of HBM4 keep its mark is the model's choice (log entry 86). -/
def Obligations.CodedMemoryRoundTrips : Prop :=
  (∀ a b c d : Int, let r := s4 a b c d; s4inv r.1 r.2.1 r.2.2.1 r.2.2.2 = (a, b, c, d))
  ∧ (∀ q : List Int, q.length = 16 → uncoeffs (coeffs q) = q)
  ∧ (∀ (c : List Int) (top bot : Nat) (rest : List Bool), bot ≤ top → (∀ x ∈ c, x.natAbs < 2 ^ (top + 1) ∧ x.natAbs % 2 ^ bot = 0) →
    (decPlanes (top + 1 - bot) top (c.map (fun _ => {})) (encPlanes c (top + 1 - bot) top (c.map (fun _ => false)) ++ rest)).map (Coef.value bot) = c)
  ∧ (∀ (r : Nat) (v : List FVal), 1 ≤ r →
    let bs := fbcEncode r v
    let kind := bitsNat (bs.take 2)
    bs.length = 16 * r
    ∧ (v.all FVal.isZero = true → kind = 1 ∧ (fbcDecode bs).poison = false ∧ (fbcDecode bs).vals = List.replicate 16 (.fin false 0))
    ∧ (v.all FVal.isZero = false → kind = if v.any (fun x => !x.isFin) then 2 else 0))
  ∧ (∀ bs : List Bool, 128 ≤ bs.length →
    let kind := bitsNat (bs.take 2)
    let emax := bitsNat ((bs.drop 2).take 11)
    let mask := (bs.drop 13).take 16
    let at' := if kind = 2 then 29 + 2 * (mask.filter id).length else 13
    let top := bitsNat ((bs.drop at').take 6)
    let bot := bitsNat ((bs.drop (at' + 6)).take 6)
    let d := fbcDecode bs
    (d.poison = true ↔ kind = 3 ∨ (kind = 0 ∧ (emax = 0 ∨ emax = 2047)) ∨ (kind = 2 ∧ (emax = 2047 ∨ ∀ b ∈ mask, b = false))
      ∨ ((kind = 0 ∨ (kind = 2 ∧ emax ≠ 0)) ∧ (59 < top ∨ top < bot)))
    ∧ (d.poison = true → d.vals = List.replicate 16 .nan) ∧ d.vals.length = 16
    ∧ (kind = 2 → d.poison = false → ∀ i, i < 16 → mask.getD i false = true → (d.vals.getD i .nan).isFin = false))
  ∧ (∀ (dec : Decoded) (v d : FVal),
    (v.isFin = false → codecBound dec v d = some 0) ∧ (v.isFin = true → d.isFin = false → codecBound dec v d = none)
    ∧ (v.isFin = true → d.isFin = true → v.rat = d.rat → codecBound dec v d = some 0))
  ∧ (∀ (s : State) (slot stream rate ctx ridx : Nat) (d : LineData) (bnd : Nat → Bnd) (off : Bool), 0 < rate → Memory.wf s.mem = true →
    (∀ i, ∃ b, bnd i = Bnd.ofEb32 b) →
    let u := s.encodeLine slot stream rate ctx ridx d bnd off
    let entry := s.regionBase ctx + 64 * ridx
    let parts : List (Nat × Nat) := [(stream, 2 * rate), (slot, 8), (entry + 0x20, 16)]
    ((s.descAddr ctx, 64) :: parts).Pairwise (fun a b => a.1 + a.2 ≤ b.1 ∨ b.1 + b.2 ≤ a.1) →
    (∀ a, (∀ p ∈ parts, a < p.1 ∨ p.1 + p.2 ≤ a) → Memory.get u.mem a = Memory.get s.mem a)
    ∧ Memory.read u.mem stream (2 * rate) = streamBytes (fbcEncode rate (lineVals d))
    ∧ u.rd64 (entry + 0x20) = (s.rd64 (entry + 0x20) + 1) % 2 ^ 64
    ∧ (off = true → u.rd64 slot = 0)
    ∧ ((∀ i, i < 16 → (bnd i).poi = false) → u.blockMarks slot stream rate = [])
    ∧ (off = false → lbKind (BitVec.ofNat 64 (u.rd64 slot)) = 3)
    ∧ (u.codedLine slot stream rate).bytes = (fbcDecode (fbcEncode rate (lineVals d))).vals.flatMap valBytes
    ∧ (∀ k g, SMap.get? s.green k = some g → ∃ g', SMap.get? u.green k = some g'
        ∧ ∀ j, j < 128 → g'.bytes.getD j 0 = if ∃ p ∈ parts, p.1 ≤ 128 * k + j ∧ 128 * k + j < p.1 + p.2 then Memory.get u.mem (128 * k + j) else g.bytes.getD j 0))

/-! Teams and queues (R241 to R247, R282 to R287). -/

/-- What completing a barrier and arriving at it do (R283): the phase flips, the arrivals start again at 0, each lane of the team that waits for the
other phase goes on, and no other lane; an arrival adds the lanes to DN, and counts, once DN covers the sheaf's live lanes. Which lanes count as
live while an exit is not committed is the model's choice (log 45). -/
def Obligations.BarriersCountAndRelease : Prop :=
  (∀ (s : State) (t b : Nat), SheavesTidy s →
    let x := (s.team t).bar b
    let u := s.completeBar t b
    (u.team t).bar b = { x with arr := 0, ph := !x.ph, phases := x.phases + 1 }
    ∧ (∀ i l, SMap.get? (u.sheaf i).waits l =
        (match SMap.get? (s.sheaf i).waits l with
         | some (.bar c p) => if i ∈ s.sheavesOf t ∧ c = b ∧ p = x.ph then none else some (.bar c p)
         | w => w))
    ∧ (∀ i l, (u.sheaf i).regs.pcOf l = (s.sheaf i).regs.pcOf l) ∧ u.mem = s.mem)
  ∧ (∀ (s : State) (i b : Nat) (p : Mask),
    let t := (s.sheaf i).team
    let x := (s.team t).bar b
    let dn := SMap.getD (s.team t).dn (dnKey (s.sheaf i) b) 0 ||| p
    let covered := dn ≠ 0 ∧ s.committedLive i &&& ~~~dn = 0
    let u := s.arrive i b p
    (¬ covered → (u.team t).bar b = x ∧ SMap.getD (u.team t).dn (dnKey (s.sheaf i) b) 0 = dn ∧ u.sheaves = s.sheaves)
    ∧ (covered → SMap.getD (u.team t).dn (dnKey (s.sheaf i) b) 0 = 0
        ∧ (0 < x.exp ∧ x.exp ≤ x.arr + 1 → (u.team t).bar b = { x with arr := 0, ph := !x.ph, phases := x.phases + 1 })
        ∧ (x.exp = 0 ∨ x.arr + 1 < x.exp → (u.team t).bar b = { x with arr := x.arr + 1 } ∧ u.sheaves = s.sheaves)))

/-- BARI, BARA, BARW and BARQ at a chunk boundary: BARI sets the arrivals expected, of 1 to 32, and completes a barrier that has them; BARA arrives, and
D takes the phase; BARW arrives and waits for the phase to flip; BARQ waits until the phase differs from bit 0 of each lane's p. The lane a uniform
operand is read on where none is active is the model's choice (log 44). -/
def Obligations.BarrierInstructionsComplete : Prop :=
  ∀ (h : Hd) (o : Opn) (m : BitVec 8),
    let b := m.toNat
    let n := (srcTy 2 o.sa .n32).only (selUniform o.sa)
    let val := fun (s : State) => (s.rd o.imm false n (s.readLane (s.active h))).bits
    let p := (srcAny 2 o.sa false .n32).only (selIsV o.sa || selIsS o.sa || o.sa.isImm || (match o.sa with | .special _ => true | _ => false))
    let await := fun (e : State) (s : State) (w : Nat → Wait) =>
      e.finishBoundary.updSheaf s.cur.sheaf (fun x => { x with waits := (Mask.list s.cur.lanes).foldl (fun a l => SMap.set a l (w l)) x.waits })
    Performs (.bari h o m) h o.imm none [n]
      (fun s => if val s = 0 ∨ 32 < val s then some { cause := cILLOPND, check := 9, lanes := s.cur.lanes, opnd := 2 } else none)
      (fun s t =>
        let x := s.ctm.bar b
        let f0 := s.edge.updTeam s.csh.team (fun y => y.setBar b { x with exp := val s })
        PassedOver s (if val s ≤ x.arr then f0.completeBar s.csh.team b else f0) t)
    ∧ (o.d = .v 0 → Performs (.bara h o m) h o.imm none [] (fun _ => none)
      (fun s t => PassedOver s (s.edge.arrive s.cur.sheaf b s.cur.lanes) t))
    ∧ (o.d ≠ .v 0 → Performs (.bara h o m) h o.imm (some { dstD o false with queueOk := false, anyScalar := true }) [] (fun _ => none)
      (fun s t => Produced s (s.edge.arrive s.cur.sheaf b s.cur.lanes) t h o.d false .n32 (fun _ => (if (s.ctm.bar b).ph then 1 else 0, .zero))))
    ∧ Performs (.barw h o m) h o.imm none [] (fun _ => none)
      (fun s t => t = (await s.edge s (fun _ => .bar b (s.ctm.bar b).ph)).arrive s.cur.sheaf b s.cur.lanes ∧ Advanced s t)
    ∧ Performs (.barq h o m) h o.imm none [p] (fun _ => none)
      (fun s t => Advanced s t
        ∧ (∀ l, l < 64 → Mask.has s.cur.lanes l = true →
            let q := decide ((s.rd o.imm false p l).bits % 2 = 1)
            SMap.get? (t.sheaf s.cur.sheaf).waits l = if q = (s.ctm.bar b).ph then some (.bar b q) else none)
        ∧ (∀ j, j ≠ s.cur.sheaf → t.sheaf j = s.sheaf j) ∧ t.teams = s.teams ∧ t.mem = s.mem ∧ t.pubs = s.pubs
        ∧ RegsFrame s.csh.regs (t.sheaf s.cur.sheaf).regs [] [] [])

/-- XACQ, XREL, WTC, WTO, QBIND, QSTAT and LNCH. An XACQ waits behind an earlier request of its quadrant, though its blocks are free, and its lanes wait
for that request alone. The lane a uniform operand is read on where none is active (log 44), the check that ILLOP of LNCH records (log 43) and a
request for a block that its sheaf has come to hold (log 109) are the model's choices. -/
def Obligations.TeamInstructionsComplete : Prop :=
  ∀ (h : Hd) (o : Opn) (m : BitVec 8),
    let k : BitVec 4 := m.extractLsb' 0 4
    let n := (srcTy 3 o.sb .n64).only (selIsS o.sb || o.sb = .imm)
    let c := match o.sa with | .c j => j.toNat | _ => 0
    let isC := match o.sa with | .c _ => true | _ => false
    let q := match o.d with | .q j => j.toNat | _ => 0
    let sq := match o.sa with | .q j => j.toNat | _ => 0
    let a := (srcTy 2 o.sa .n64).only (selIsV o.sa || selIsS o.sa)
    let counter := fun (i : Instr) (met : Counter → Nat → Bool) (w : Nat → Wait) =>
      Performs i h o.imm none [fieldOk 2 isC, n] (fun _ => none) (fun s t =>
        let v := (s.rd o.imm false n (s.readLane (s.active h))).bits
        Advanced s t ∧ OnlyPath s t ∧ Unstored s t
        ∧ (∀ l, l < 64 → Mask.has s.cur.lanes l = true →
            SMap.get? (t.sheaf s.cur.sheaf).waits l = if met (s.ctm.ctr c) v then none else some (w v))
        ∧ SheafFrame s.csh { t.sheaf s.cur.sheaf with waits := s.csh.waits, gate := s.csh.gate }
        ∧ RegsFrame s.csh.regs (t.sheaf s.cur.sheaf).regs [] [] [])
    Performs (.xacq h o m) h o.imm none []
      (fun s => if s.csh.ext &&& k ≠ 0 ∨ s.ctm.hdr.xpool < Mask.count (k.setWidth 64) then some { cause := cXREG, check := 9, lanes := s.cur.lanes } else none)
      (fun s t =>
        let first := s.ctm.xq.find? (fun e => s.ctm.quadOf (s.sheaf e.1) = s.ctm.quadOf s.csh) = none
        let free := decide (Mask.count (k.setWidth 64) ≤ s.freeBlocks s.csh.team (s.ctm.quadOf s.csh))
        Advanced s t ∧ t.nextId = s.nextId + 1
        ∧ (first → free = true → (t.sheaf s.cur.sheaf).ext = s.csh.ext ||| k ∧ (∀ n, t.team n = s.team n)
            ∧ (∀ l, l < 64 → Mask.has s.cur.lanes l = true → SMap.get? (t.sheaf s.cur.sheaf).waits l = none)
            ∧ (∀ r, r ∈ blockRegs k → (t.sheaf s.cur.sheaf).regs.vreg r = {})
            ∧ (∀ r, r ∉ blockRegs k → (t.sheaf s.cur.sheaf).regs.vreg r = s.csh.regs.vreg r))
        ∧ (first → free = false → (t.sheaf s.cur.sheaf).ext = s.csh.ext ∧ (t.team s.csh.team).xq = s.ctm.xq ++ [(s.cur.sheaf, k, s.nextId)]
            ∧ (∀ l, l < 64 → Mask.has s.cur.lanes l = true → SMap.get? (t.sheaf s.cur.sheaf).waits l = some (.xacq k s.nextId))
            ∧ RegsFrame s.csh.regs (t.sheaf s.cur.sheaf).regs [] [] [])
        ∧ (∀ e, s.ctm.xq.find? (fun e => s.ctm.quadOf (s.sheaf e.1) = s.ctm.quadOf s.csh) = some e →
            (e.1 ≠ s.cur.sheaf ∨ (s.sheaf e.1).ext &&& e.2.1 ≠ 0 ∨ s.freeBlocks s.csh.team (s.ctm.quadOf s.csh) < Mask.count (e.2.1.setWidth 64)) →
            (t.sheaf s.cur.sheaf).ext = s.csh.ext ∧ (s.cur.sheaf, k, s.nextId) ∈ (t.team s.csh.team).xq
            ∧ (∀ l, l < 64 → Mask.has s.cur.lanes l = true → SMap.get? (t.sheaf s.cur.sheaf).waits l = some (.xacq k s.nextId))))
    ∧ Performs (.xrel h o m) h o.imm none []
      (fun s => if k &&& ~~~s.csh.ext ≠ 0 then some { cause := cXREG, check := 9, lanes := s.cur.lanes } else none)
      (fun s t => PassedOver s (s.edge.updSheaf s.cur.sheaf (fun x => { x.zeroBlocks k with ext := x.ext &&& ~~~k })) t ∧ Unstored s t
        ∧ (∀ r, r ∈ blockRegs k → (t.sheaf s.cur.sheaf).regs.vreg r = {}) ∧ (t.sheaf s.cur.sheaf).ext = s.csh.ext &&& ~~~k)
    ∧ counter (.wtc h o m) (fun x v => decide (v ≤ x.done)) (fun v => .wtc c v)
    ∧ counter (.wto h o m) (fun x v => decide (x.issued - x.done ≤ v)) (fun v => .wto c v)
    ∧ (∀ s, Ready h o.imm none [fieldOk 1 (selIsQ o.d)] s →
        (s.qbindTrap q m.toNat = true → Raises (.qbind h o m) s { cause := cQUEUE, check := 9, lanes := s.cur.lanes, opnd := 1 })
        ∧ (s.qbindTrap q m.toNat = false → ∃ t, exec (.qbind h o m) s = .next t
            ∧ PassedOver s (s.updSheaf s.cur.sheaf (fun x => { x with regs := { x.regs with qbind := SMap.setC x.regs.qbind q 0 m.toNat } })) t
            ∧ Unstored s t ∧ (t.sheaf s.cur.sheaf).regs.boundTo q = m.toNat))
    ∧ (∀ s, Ready h o.imm (some { dstD o (m ≠ 0) with queueOk := false, anyScalar := true }) [fieldOk 2 (if m ≠ 0 then isC else selIsQ o.sa)] s →
        let ep := s.rregs.boundTo sq
        let e := s.csh.endpoint ep
        let note := fun (k : Chunk) => if m ≠ 0 then k.addRead (.ctr s.csh.team c) true else k
        let v := if m = 0 then (if epReads ep then e.avail else e.entries.length) + 32 * ep
          else if m = 1 then (s.ctm.ctr c).done else (s.ctm.ctr c).issued
        s.linesFull note = false → Produces (.qstat h o m) s h o (m ≠ 0) (if m ≠ 0 then .n64 else .n32) (fun _ => (v % 2 ^ 64, .zero)))
    ∧ (∀ s, s.feat 0 7 = false → Raises (.lnch h o m) s { cause := cILLOP, check := 3, lanes := s.cur.lanes })
    ∧ (∀ s, s.feat 0 7 = true → Ready h o.imm none [a] s →
        let va := fun l => (s.rd o.imm false a l).bits
        let bad := Mask.of 64 (fun l => Mask.has (s.active h) l && decide (va l % 64 ≠ 0))
        (bad ≠ 0 → Raises (.lnch h o m) s { cause := cALIGN, check := 9, lanes := bad, addr := BitVec.ofNat 64 (lowestAddr bad va), akind := 1 })
        ∧ (bad = 0 → (∀ c, s.csh.openChunk? = some c → c.lnch < Config.chunkLnch) →
            Holds (.lnch h o m) s ((Mask.list (s.active h)).map (fun l => Held.lnch (va l) m.toNat))))

/-! Engines (R248 to R267). -/

/-- Each engine instruction whose operands pass raises the first of its own causes that holds (R248): a tile at or beyond the header's count, or an odd
one of a pair, ILLOPND; a queue register not bound to the endpoint the field requires QUEUE, and so a gather that is missing, or one too many; an
address or offset not aligned ALIGN, a scratchpad range outside its window REGION; a drain's pitch ILLOPND; a shape record's causes (R264, R267).
With none it adds its command to the open chunk, with the operands as they stand now; nothing else changes until the chunk commits; a poisoned index
of GATH and a poisoned word of CPY stay poisoned, a poisoned address or offset does not. The model's choices: the order of the causes and where in
the shared window a shape may run (log 60), when a gather still waits for its MMA (log 34), and that poison of an address scalar is dropped (log 121). -/
def Obligations.EngineCommandsAreHeld : Prop :=
  ∀ (h : Hd) (o : Opn) (m : BitVec 8) (s : State),
    let t := Ty.ofCode (m.extractLsb' 4 4)
    let tile := immBits o 7 0
    let link := if o.imm.getLsbD 18 then some (immBits o 22 19) else none
    let ctr := if o.imm.getLsbD 23 then some (immBits o 27 24) else none
    let flink := if o.imm.getLsbD 13 then some (immBits o 17 14) else none
    let fctr := if o.imm.getLsbD 8 then some (immBits o 12 9) else none
    let cmd := fun (k : CmdKind) (n : Nat) (l c : Option Nat) (rel : Bool) =>
      [Held.cmd { sheaf := s.cur.sheaf, pc := s.cur.pc, allow := s.allow, kind := k, tile := n, link := l, rel := rel, ctr := c }]
    let ga := o.imm.getLsbD 17
    let gl := m.getLsbD 0
    let la := if gl then scalar64 2 o.sa else scalar32 2 o.sa
    let laddr := if gl then (s.rd 0 false la (s.readLane 0)).bits % 2 ^ 56 else s.capOfs la
    let kind := m.toNat % 4
    let pitch := immBits o 25 16
    let dd : Src := if kind = 2 then fieldOk 2 (selIsQ o.sa) else if kind = 1 then scalar64 2 o.sa else scalar32 2 o.sa
    let da := if kind = 2 then 0 else if kind = 1 then (s.rd 0 false dd (s.readLane 0)).bits % 2 ^ 56 else s.capOfs dd
    let rb := o.imm.getLsbD 9
    let scaled := o.imm.getLsbD 8
    let sc := (srcTy 4 o.sc .f32).only (selIsS o.sc)
    let dl := if o.imm.getLsbD 26 then some (immBits o 30 27) else none
    let dc := if o.imm.getLsbD 11 then some (immBits o 15 12) else none
    let ix : Src := if selIsQ o.sb then fieldOk 3 true else (srcTy 3 o.sb .n32).only (selIsV o.sb)
    let r := s.capOfs (scalar32 2 o.sa)
    let sh := (s.shapeAt r).shape
    let note := fun (c : Chunk) => c.noteRead 0 (s.spLoc r)
    let fw := o.imm.getLsbD 5
    let crp := o.imm.getLsbD 6
    let v : W32 := BitVec.ofNat 32 (s.cap32 (scalar32 4 o.sc))
    let trap := fun (c opnd : Nat) => ({ cause := c, check := 9, lanes := s.cur.lanes, opnd := opnd } : Trap)
    let at' := fun (c kind a : Nat) => ({ cause := c, check := 9, lanes := s.cur.lanes, addr := BitVec.ofNat 64 a, akind := kind } : Trap)
    let when := fun (b : Bool) (x : Trap) => if b then some x else none
    let out := fun (ofs n : Nat) => s.ctm.spBad ofs n
    let range := fun (ofs al n : Nat) => [when (ofs % al ≠ 0) (at' cALIGN 2 ofs), when (out ofs n) (at' cREGION 2 ofs)]
    let tiles := [when (s.ctm.hdr.acc ≤ tile + (if t = .f64 then 1 else 0) ∨ (t = .f64 ∧ tile % 2 = 1)) (trap cILLOPND 0)]
    let bound := fun (x : Sel) (ep fld : Nat) => match x with | .q n => [when (s.rregs.boundTo n.toNat ≠ ep) (trap cQUEUE fld)] | _ => []
    let frag := fun (x : Sel) (ep fld : Nat) => if selIsQ x then bound x ep fld else range (s.capOfs (scalar32 fld x)) 64 (fragBytes t)
    let rec64 := s.shapeAt r
    let field := fun (hi lo : Nat) => bitsAt rec64.bits hi lo
    let z := 2 ^ field 214 212
    let side := fun (sp a : Nat) (st : List Int) =>
      [when (a % z ≠ 0) (at' cALIGN (if sp = 1 then 2 else 1) a), if sp = 1 then (s.shapeOutside a z sh.ext st).map (at' cREGION 2) else none]
    let shape := fun (cpym : Bool) => range r 64 64 ++
      [when (field 223 220 ≠ 0 ∨ field 127 122 ≠ 0 ∨ field 63 58 ≠ 0 ∨ 2 ≤ field 219 218 ∨ 2 ≤ field 57 56 ∨ 2 ≤ field 121 120 ∨ field 217 215 = 7
          ∨ 4 < field 214 212
          ∨ (∃ d, d < 7 ∧ field 217 215 < d ∧ (field (139 + 12 * d) (128 + 12 * d) ≠ 0 ∨ field (247 + 24 * (d - 1)) (224 + 24 * (d - 1)) ≠ 0
              ∨ field (391 + 24 * (d - 1)) (368 + 24 * (d - 1)) ≠ 0))
          ∨ (field 57 56 = 1 ∧ 2 ^ 20 ≤ field 55 0) ∨ (field 121 120 = 1 ∧ 2 ^ 20 ≤ field 119 64)
          ∨ (cpym = true ∧ (field 121 120 ≠ 1 ∨ field 119 64 % 64 ≠ 0))) (trap cILLOPND 0)]
      ++ side (field 57 56) (field 55 0) sh.sstr ++ side (field 121 120) (field 119 64) sh.dstr
      ++ [when (field 219 218 = 1 ∧ s.trusted s.ctm.ctx = false) (trap cILLOP 0)]
    let entry := fun (i : Instr) (as : List Src) (note : Chunk → Chunk) (causes : List (Option Trap)) (held : List Held) =>
      Ready h o.imm none as s →
        (∀ x, causes.findSome? id = some x → Raises i s x) ∧ (causes.findSome? id = none → CmdRoom s note → Holds i s held)
    entry (.mma h o m) ((if ga then [] else fragSrcs 2 o.sa) ++ fragSrcs 3 o.sb (if ga then none else some o.sa) ++ scaleSrcs o) id
      (tiles ++ (if ga then [when (!s.gathWaiting s.cur.sheaf) (trap cQUEUE 0)] else frag o.sa 1 2) ++ frag o.sb 2 3)
      (cmd (.mma (s.capMma o m (if ga then .latch else s.capFrag o.sa 2))) tile link ctr false)
    ∧ entry (.mzero h o m) [] id tiles (cmd (.mzero t) tile flink fctr false)
    ∧ entry (.mload h o m) [la] id
      (tiles ++ (if gl then [when (laddr % 128 ≠ 0) (at' cALIGN 1 laddr)] else range laddr 128 (if t = .f64 then 2048 else 1024)))
      (cmd (.mload t gl laddr) tile flink fctr false)
    ∧ entry (.mdrain h o m) ([dd] ++ (if rb then [scalar32 3 o.sb] else []) ++ (if scaled then [sc] else [])) id
      (tiles ++ (if kind = 2 then bound o.sa 3 2 else []) ++ [when (pitch ≠ 0 ∧ (kind = 2 ∨ pitch < drainElem t)) (trap cILLOPND 0)]
        ++ (if kind = 1 then [when (da % 16 ≠ 0) (at' cALIGN 1 da)]
          else if kind = 0 then range da 16 (15 * drainPitch t pitch + 16 * drainElem t) else [])
        ++ (if rb then range (s.capOfs (scalar32 3 o.sb)) 64 (if t = .f64 then 64 else 32) else []))
      (cmd (.mdrain { ty := t, rm := Rm.ofCode (m.extractLsb' 2 2), kind := kind, dst := da, pitch := drainPitch t pitch
                      record := if rb then some (s.capOfs (scalar32 3 o.sb)) else none
                      scale := if scaled then some (BitVec.ofNat 32 (s.rd o.imm false sc (s.readLane 0)).bits,
                          (s.rd o.imm false sc (s.readLane 0)).bnd.eb32) else none }) tile dl dc (o.imm.getLsbD 10))
    ∧ entry (.gath h o m) [scalar32 2 o.sa, ix] id
      (bound o.sb 4 3 ++ range r 64 64 ++ [when (s.gathWaiting s.cur.sheaf) (trap cQUEUE 0)])
      (cmd (.gath r (immBits o 15 0)
        (if selIsQ o.sb then none else some ((List.range 16).map (fun l => ((s.rd o.imm false ix l).bits, (s.rd o.imm false ix l).bnd.poi))))) 0 none none false)
    ∧ entry (.cpy h o m) ((if crp then [fieldOk 1 (selIsQ o.d)] else []) ++ [scalar32 2 o.sa] ++ (if fw then [scalar32 3 o.sb] else [])
        ++ (if fw || crp then [scalar32 4 o.sc] else [])) note
      ((if crp then bound o.d 5 1 else []) ++ shape false ++ (if fw then range (s.capOfs (scalar32 3 o.sb)) 4 4 else []))
      (cmd (.cpy sh (if fw then some (s.capOfs (scalar32 3 o.sb), v) else none) (if crp then some v else none)
          ((fw || crp) && (s.rd 0 false (scalar32 4 o.sc) (s.readLane 0)).bnd.poi)) 0 none
        (if o.imm.getLsbD 4 then some (immBits o 3 0) else none) false)
    ∧ entry (.cpym h o m) ([scalar32 2 o.sa] ++ fragSrcs 3 o.sb ++ scaleSrcs o) note
      (tiles ++ shape true ++ range rec64.daddr 64 (fragBytes t) ++ frag o.sb 2 3)
      (cmd (.cpym sh (s.capMma o m (.sp sh.daddr))) tile link ctr false)

/-- SPCMP keeps two of four elements, or one, and says which, in the order of their magnitudes: a NaN above every number, the I8 value −128 as
128, a tie to the lower index. The kept ones are in ascending order of index; 1OF4 names its one twice. The bound of the result is the source's and
the largest dropped magnitude, and with a NaN among the four it is infinite. In a pair the compressed register and the metadata are written apart,
and a poisoned source poisons both; the tag checked is that of a pair's low register. The model's choices: a scalar is no destination (log 61), and
the latch takes one entry of a pair (log 127). -/
def Obligations.SpcmpCompletes : Prop :=
  (∀ (h : Hd) (o : Opn) (m : BitVec 8),
    let t := Ty.ofCode (m.extractLsb' 4 4)
    let one := m.getLsbD 0
    let pair : Bool := t = .f16x2 || t = .bf16x2
    let x : Src := if pair then ⟨2, o.sa, true, .ty t [], t, true⟩ else srcTy 2 o.sa t
    let as := [x]
    let w := if pair then 16 else 8
    let keep := fun (v : Val) => spKeep t one ((List.range 4).map (fun k => v.bits / 2 ^ (w * k) % 2 ^ w)) v.bnd
    let low := fun (k : Nat × Nat × Nat × Bnd) => k.1 + k.2.1 * 2 ^ w
    (pair = false → Computes (.spcmp h o m) h o { dstD o false with scalarOk := false } as (fun _ => .raw)
      (fun s _ l => let k := keep (s.rd o.imm (d16Of o.d pair) x l); (low k + k.2.2.1 * 2 ^ 16, k.2.2.2)))
    ∧ (pair = true → ∀ s, Ready h o.imm (some { dstD o true with scalarOk := false }) as s →
        let k := fun l => keep (s.rd o.imm (d16Of o.d pair) x l)
        let both := fun l => (low (k l) + 2 ^ 32 * (k l).2.2.1, (k l).2.2.2)
        (∀ n, o.d = .q n → Produces (.spcmp h o m) s h o true t both)
        ∧ (∀ n, o.d = .v n → ∃ u, exec (.spcmp h o m) s = .next u
            ∧ Wrote s u h (.v n) false t (fun l => (low (k l), (k l).2.2.2)) ∧ Wrote s u h (.v (n + 1)) false .n32 (fun l => ((k l).2.2.1, if (k l).2.2.2.poi then .poison else .zero))
            ∧ Latched s u h o.d true t both ∧ Advanced s u ∧ OnlyPath s u ∧ Unstored s u ∧ SheafFrame s.csh (u.sheaf s.cur.sheaf)
            ∧ RegsFrame s.csh.regs (u.sheaf s.cur.sheaf).regs (if h.nw then [] else dstVs o.d 2) [] [])))
  ∧ (∀ (t : Ty) (a b c d : Nat) (bx : Bnd),
      let els := [a, b, c, d]
      let k := spKeep t false els bx
      let i := k.2.2.1 % 4
      let j := k.2.2.1 / 4
      let k1 := spKeep t true els bx
      let i1 := k1.2.2.1 % 4
      let above := fun (y x : Nat) => spAbove (spRank t (els.getD y 0)) (spRank t (els.getD x 0)) = true
        ∨ (spAbove (spRank t (els.getD x 0)) (spRank t (els.getD y 0)) = false ∧ y < x)
      let nan := els.any (fun b => (spRank t b).isNone)
      i < j ∧ j < 4 ∧ k.1 = els.getD i 0 ∧ k.2.1 = els.getD j 0
      ∧ (∀ x y, x < 4 → y < 4 → (x = i ∨ x = j) → y ≠ i → y ≠ j → above x y)
      ∧ i1 < 4 ∧ k1.1 = els.getD i1 0 ∧ k1.2.1 = 0 ∧ k1.2.2.1 = i1 + 4 * i1 ∧ (∀ y, y < 4 → y ≠ i1 → above i1 y)
      ∧ (∀ (u v : Nat) , u < 4 → v < 4 → u ≠ i → u ≠ j → v ≠ i → v ≠ j → u ≠ v →
          k.2.2.2 = mkBnd [bx] nan (xadd bx.x (xmax (spMag t (els.getD u 0)) (spMag t (els.getD v 0)))))
      ∧ (∀ (u v w : Nat), u < v → v < w → w < 4 → u ≠ i1 → v ≠ i1 → w ≠ i1 →
          k1.2.2.2 = mkBnd [bx] nan (xadd bx.x (xmax (xmax (spMag t (els.getD u 0)) (spMag t (els.getD v 0))) (spMag t (els.getD w 0)))))
      ∧ (∀ (p : Bnd) (l : Bool) (x : X), mkBnd [p] l x = if p.poi then .poison else if l then .lost else .of x))
  ∧ (∀ (a b : Option Rat), spAbove a b = true ↔ (a = none ∧ b ≠ none) ∨ ∃ p q, a = some p ∧ b = some q ∧ q < p)
  ∧ (∀ b, spRank .i8x4 b = some ((sInt 8 b).natAbs : Rat) ∧ spMag .i8x4 b = some ((sInt 8 b).natAbs : Rat))
  ∧ spRank .i8x4 0x80 = some 128
  ∧ (∀ (t : Ty) (b : Nat), t ≠ .i8x4 →
      (spRank t b = none ↔ (eFmt t).decode b = .nan)
      ∧ (∀ n q, (eFmt t).decode b = .fin n q → spRank t b = some q ∧ spMag t b = some q)
      ∧ (∀ n, (eFmt t).decode b = .inf n → spRank t b = some ((eFmt t).maxFin + 1) ∧ spMag t b = none))

/-! The system (R289 to R300). -/

/-- SRD, SWR, CLK and SLEEP. SRD of a number that names no register, and SWR of one that is not TCAUSE or TEPC of a handler, raise ILLOPND. The model's
choices: SWR drops the reserved bits (log 47), what a core's cycle counter is ahead of the device's (log 9, DESIGN CHOICE), the lanes that a trap
records where none is active (log 28, DEDUCED), from which cycle a SLEEP counts (log 46, DEDUCED), when a sheaf is in a routine (log 84, DEDUCED),
where the touched-dies mask stands (log 51, DEDUCED) and that a descriptor on a lost die reads 0 (log 87, DEDUCED). -/
def Obligations.SystemInstructionsComplete : Prop :=
  (∀ (h : Hd) (o : Opn) (m : BitVec 8),
    let n := bitsAt o.imm.toNat 11 0
    let d : Dst := { dstD o true with queueOk := false, anyScalar := true }
    let x := (srcAny 2 o.sa true .n64).only (selIsS o.sa)
    Performs (.srd h o m) h o.imm (some d) []
      (fun s => if s.sysReg n = none then some { cause := cILLOPND, check := 9, lanes := s.checkLanes h } else none)
      (fun s t => ∀ v, s.sysReg n = some v → Produced s s t h o.d true .n64 (fun _ => (v.toNat, .zero)))
    ∧ Performs (.swr h o m) h o.imm none [x]
      (fun s => if n ≤ 1 ∧ s.csh.hm = true then none else some { cause := cILLOPND, check := 9, lanes := s.cur.lanes })
      (fun s t =>
        let v := BitVec.ofNat 64 (s.rd o.imm false x (s.readLane (s.active h))).bits
        PassedOver s (s.updSheaf s.cur.sheaf (fun y => { y with frame :=
          if n = 0 then { y.frame with cause := v &&& 0x3F0FF } else { y.frame with epc := v &&& 0x00FFFFFFFFFFFFFF } })) t ∧ Unstored s t)
    ∧ (∀ s, Ready h o.imm (some d) [] s →
        Produces (.clk h o m) s h o true .n64 (fun _ => ((BitVec.ofNat 64 s.cycle + Config.clkAhead s.csh.core).toNat, .zero)))
    ∧ (∀ s, Ready h o.imm none [] s → ∃ t u, exec (.sleep h o m) s = .next t ∧ Advanced s u ∧ Untouched s u ∧
        let doze := fun (a : SMap Wait) (l : Nat) => SMap.set a l (.sleep (s.cycle + o.imm.toNat % 2 ^ 16))
        t = u.updSheaf s.cur.sheaf (fun y => { y with waits := (Mask.list (s.active h)).foldl doze y.waits })))
  ∧ (∀ s : State,
      s.sysReg 0 = some s.csh.frame.cause ∧ s.sysReg 1 = some s.csh.frame.epc ∧ s.sysReg 2 = some s.csh.frame.addr
      ∧ s.sysReg 3 = some s.csh.frame.lanes ∧ s.sysReg 4 = some s.csh.frame.info
      ∧ s.sysReg 0x10 = some (BitVec.ofNat 64 (s.launch s.ctm.launch).argp) ∧ s.sysReg 0x11 = some (BitVec.ofNat 64 (s.launch s.ctm.launch).imgb)
      ∧ s.sysReg 0x12 = some (BitVec.ofNat 64 (s.launch s.ctm.launch).kobj)
      ∧ s.sysReg 0x20 = some (s.live s.cur.sheaf) ∧ s.sysReg 0x21 = some (s.allow.setWidth 64)
      ∧ (let d := s.descAddr s.ctm.ctx
         s.sysReg 0x30 = some (if s.lostAt d = none ∧ (leNat (Memory.read s.mem d 64)).testBit 62 = true ∧ s.feat 0 8 = true then 1 else 0)
         ∧ s.sysReg 0x31 = some (if s.lostAt d = none then (Memory.get s.mem (d + 56)).setWidth 64 else 0))
      ∧ s.sysReg 0x41 = some (if s.csh.regs.routine then BitVec.ofNat 64 s.ctm.savea else 0)
      ∧ s.sysReg 0x40 = some (if s.ctm.preq then 1 else 0)
      ∧ (∀ n, n ∉ [0, 1, 2, 3, 4, 0x10, 0x11, 0x12, 0x20, 0x21, 0x30, 0x31, 0x40, 0x41] → s.sysReg n = none))

/-- R297: TRAP and BKPT with an active lane raise SWTRAP and BKPT on the active lanes with IMM as ICODE, TRAP at the chunk boundary; without one they have
no effect. BKPT truncates its chunk, and neither writes a register. -/
def Obligations.SoftwareTrapsRaise : Prop :=
  ∀ (h : Hd) (o : Opn) (m : BitVec 8) (s : State), Ready h o.imm none [] s →
    let c := fun (x : Nat) => ({ cause := x, check := 9, lanes := s.active h, icode := o.imm } : Trap)
    (BeforeBoundary s → Waits (.trap h o m) s)
    ∧ (AtBoundary s → s.active h ≠ 0 → exec (.trap h o m) s = .next (s.edge.raise (c 0x0E)))
    ∧ (AtBoundary s → s.active h = 0 → Passes (.trap h o m) s)
    ∧ (s.active h ≠ 0 → Raises (.bkpt h o m) s (c 0x0F))
    ∧ (s.active h = 0 → Passes (.bkpt h o m) s)
    ∧ (∀ i t, i = .bkpt h o m ∨ (i = .trap h o m ∧ AtBoundary s) → s.active h ≠ 0 → s.csh.tidy → s.csh.nwLast = false →
        SMap.get? s.sheaves s.cur.sheaf ≠ none → exec i s = .next t → SMap.get? t.sheaves s.cur.sheaf ≠ none →
        RegsFrame s.csh.regs (t.sheaf s.cur.sheaf).regs [] [] [] ∧ ∀ c ∈ (t.sheaf s.cur.sheaf).chunks, c.closed = true)

/-- Taking an exception. What the access has touched counts, the L0 result of an NW producer just before is written to its register, and the lock
of the quadrant is given back. Then, with no earlier chunk waiting, and a handler the header names, the lanes that have not ended stand at TRAPPC,
the frame holds the cause, HM is 1, TG holds the lanes of the path, and every lane's PC before is kept; no other register, and no byte, is
changed. Without a handler, inside it, inside a routine, or on a cause above PAGE, the context ends with a record in memory, NEST set inside the
handler, unless the record's place lies on a lost die; PAGE leaves the team faulted. With an earlier chunk, the trap waits for it. Where a frame
keeps what it records of a cause (R291). The model's choices: the descriptor on a lost die (log 87), a field that the cause does not fill is 0
(log 49, DEDUCED), when a sheaf is in a routine (log 84, DEDUCED), an NW producer whose entry has left the chain (log 125). -/
def Obligations.TrapsEnterTheHandler : Prop :=
  (∀ (s : State) (t : Trap), s.csh.tidy → SMap.get? s.sheaves s.cur.sheaf ≠ none →
    let i := s.cur.sheaf
    let u := s.raise t
    let p : Path := { s.cur with snap := none, lat := none, vis := none }
    let c : Trap := { t with walks := [], tables := [] }
    let tried := t.tables.foldl (fun a va => a.tableTouch (.core s.csh.core) s.ctm.ctx va)
      (t.walks.foldl (fun a va => a.tryTouch (.core s.csh.core) s.ctm.ctx va) s)
    let b := tried.settleNw i
    let f := mkFrame t s.cur.pc false
    let handled := t.cause < 0x20 ∧ s.ctm.hdr.trappc ≠ 0 ∧ s.csh.regs.routine = false ∧ s.csh.hm = false
    (tried = { s with mem := tried.mem } ∧ (∀ a, a ≠ s.touchedByte → Memory.get tried.mem a = Memory.get s.mem a) ∧ (t.walks = [] → t.tables = [] → tried = s))
    ∧ (∀ n, SMap.get? (u.core s.csh.core).lock s.csh.quad ≠ some (i, n))
    ∧ (s.csh.close.uncommitted = true → (u.sheaf i).pend = .trap c p ∧ (u.sheaf i).regs = (b.sheaf i).regs ∧ u.issue = [] ∧ u.mem = b.mem
      ∧ (∀ j, j ≠ i → u.sheaf j = s.sheaf j) ∧ Unstored b u)
    ∧ (s.csh.close.uncommitted = false →
      (handled → b.targetBad s.csh.core s.ctm.ctx s.ctm.hdr.trappc = false →
        (u.sheaf i).frame = f false ∧ (u.sheaf i).hm = true ∧ (u.sheaf i).tg = s.cur.lanes ∧ (u.sheaf i).savedPc = s.csh.regs.pc
        ∧ (∀ l, l < s.width → (u.sheaf i).regs.pcOf l =
            if Mask.has (s.live i) l then BitVec.ofNat 56 s.ctm.hdr.trappc else s.csh.regs.pcOf l)
        ∧ (u.sheaf i).pend = .idle ∧ (u.sheaf i).waits = [] ∧ u.issue = []
        ∧ RegsFrame (b.sheaf i).regs (u.sheaf i).regs [] [] []
        ∧ (∀ q e, e ∈ SMap.getD (u.core s.csh.core).latches q [] → e.sheaf = i → e.held = false)
        ∧ u = { b with sheaves := u.sheaves, cores := u.cores, issue := [] } ∧ (∀ j, j ≠ i → u.sheaf j = s.sheaf j) ∧ Unstored b u)
      ∧ (t.cause = 0x20 → (u.sheaf i).pend = .trap c p ∧ (u.team s.csh.team).status = .faulted
        ∧ (u.team s.csh.team).fault = some (c, p, false) ∧ (u.sheaf i).regs = (b.sheaf i).regs ∧ u.mem = b.mem ∧ u.issue = [])
      ∧ (¬ handled → t.cause ≠ 0x20 → s.ended.contains s.ctm.ctx = false →
        s.ctm.ctx ∈ u.ended ∧ (∃ o, u.out = s.out ++ [o])
        ∧ u.mem = (if (b.lostAt (b.descAddr s.ctm.ctx)).isSome ∨ (b.lostAt (b.recordAddr s.ctm.ctx)).isSome then b.mem
          else Memory.write b.mem (b.recordAddr s.ctm.ctx) (recordBytes (f s.csh.hm) s.ctm.index (s.csh.core / Config.coresPerDie)
            (s.csh.core % Config.coresPerDie) s.csh.idx s.ctm.part (b.diesMask s.ctm.ctx) (s.launch s.ctm.launch).pkt))
        ∧ (∀ k, (u.team k).ctx = s.ctm.ctx → (SMap.get? u.teams k).isSome → (u.team k).status = .ended))))
  ∧ (∀ (s : State) (i : Nat), SMap.get? s.sheaves i ≠ none →
    let x := s.sheaf i
    let b := s.settleNw i
    let y := (b.sheaf i).regs
    (x.nwLast = false → b = s)
    ∧ b = { s with sheaves := b.sheaves } ∧ (∀ j, j ≠ i → b.sheaf j = s.sheaf j)
    ∧ (b.sheaf i) = { x with regs := y, nwLast := (b.sheaf i).nwLast }
    ∧ (∀ (p : Prod) (ps : List Prod) (e : Latch), x.nwLast = true → x.regs.prods = p :: ps →
      (SMap.getD (s.core x.core).latches x.quad []).find? (fun e => e.sheaf = i) = some e → p.nw = true → e.nw = true → e.awaits = false →
      let w := (s.team x.team).hdr.width
      let val := fun l => (lane e.val l 0).toNat
      let bnd := fun l => Bnd.ofEb32 (lane e.bnd l 0)
      RegsFrame x.regs y (dstVs e.dst (if e.w64 then 2 else 1)) (dstSs e.dst) []
      ∧ (∀ n, e.dst = .v n → ∀ l, l < w →
          (Mask.has e.lanes l = true → VecHolds y n.toNat l e.w64 e.tag (val l) (bnd l))
          ∧ (Mask.has e.lanes l = false → y.vVal32 n.toNat l = x.regs.vVal32 n.toNat l
            ∧ (e.w64 = true → y.vVal32 (n.toNat + 1) l = x.regs.vVal32 (n.toNat + 1) l)))
      ∧ (∀ n, e.dst = .s n → e.lanes ≠ 0 → (y.sreg n.toNat).tag = e.tag ∧ (y.sreg n.toNat).bnd = (bnd 0).eb32
          ∧ (y.sreg n.toNat).val = if e.w64 then BitVec.ofNat 64 (val 0)
            else if e.tag = .i32 then (BitVec.ofNat 32 (val 0)).signExtend 64 else (BitVec.ofNat 32 (val 0)).setWidth 64)
      ∧ y.prods = { p with nw := false } :: (if e.lanes = 0 then ps else (x.regs.stale e.dst e.w64).prods.tail)))
  ∧ ∀ (t : Trap) (pc : Pc) (eng nest : Bool), t.cause < 256 → t.check < 16 → t.die < 8 → t.akind < 4 → t.tag < 16 → t.opnd < 8 →
    (∀ r, t.ridx = some r → r < 256) →
    let f := mkFrame t pc eng nest
    f.cause.extractLsb' 0 8 = BitVec.ofNat 8 t.cause ∧ f.cause.extractLsb' 12 4 = BitVec.ofNat 4 t.check
    ∧ f.cause.getLsbD 16 = nest ∧ f.cause.getLsbD 17 = eng ∧ f.cause.extractLsb' 18 46 = 0 ∧ f.cause.extractLsb' 8 4 = 0
    ∧ f.epc = pc.setWidth 64 ∧ f.addr = t.addr ∧ f.lanes = t.lanes
    ∧ f.info.extractLsb' 0 3 = BitVec.ofNat 3 t.die ∧ f.info.extractLsb' 3 3 = 0 ∧ f.info.extractLsb' 6 2 = BitVec.ofNat 2 t.akind
    ∧ f.info.extractLsb' 8 4 = BitVec.ofNat 4 t.tag ∧ f.info.extractLsb' 12 3 = BitVec.ofNat 3 t.opnd
    ∧ f.info.getLsbD 15 = t.ridx.isSome ∧ f.info.extractLsb' 16 8 = BitVec.ofNat 8 (t.ridx.getD 0) ∧ f.info.extractLsb' 24 8 = 0
    ∧ f.info.extractLsb' 32 32 = t.icode

/-- ERET outside a handler raises ILLOP. In one, at the chunk boundary, the lanes of TG go to TEPC, or with NEXT to the slot after it, the other live lanes
to where they stood, HM is 0, and the waits of the lanes that did not trap stand again. Every lane moves, so nothing issues beside it. -/
def Obligations.EretReturnsFromTheHandler : Prop :=
  ∀ (h : Hd) (o : Opn) (m : BitVec 8) (s : State), Ready h o.imm none [] s → SMap.get? s.sheaves s.cur.sheaf ≠ none →
    let i := s.cur.sheaf
    let tepc := s.csh.frame.epc
    let back : Pc := if m.getLsbD 0 then nextPc (tepc.setWidth 56) else tepc.setWidth 56
    (s.csh.hm = false → Raises (.eret h o m) s { cause := cILLOP, check := 9, lanes := s.cur.lanes })
    ∧ (s.csh.hm = true → BeforeBoundary s → Waits (.eret h o m) s)
    ∧ (s.csh.hm = true → AtBoundary s → tepc.toNat < 2 ^ 56 → pcMalformed tepc.toNat = false →
      ∃ t, exec (.eret h o m) s = .next t ∧ (t.sheaf i).hm = false ∧ (t.sheaf i).pend = .idle ∧ t.issue = []
        ∧ (∀ l, l < s.width → (t.sheaf i).regs.pcOf l =
            if Mask.has (s.live i) l then (if Mask.has s.csh.tg l then back else lane s.csh.savedPc l 0) else s.csh.regs.pcOf l)
        ∧ (∀ l, l < 64 → SMap.get? (t.sheaf i).waits l =
            if Mask.has (s.live i) l && !Mask.has s.csh.tg l then
              (match SMap.get? s.csh.savedWaits l with
               | some (.bar b p) => if p = (s.ctm.bar b).ph then some (.bar b p) else none
               | w => w) else none)
        ∧ (t.sheaf i).frame = s.csh.frame ∧ RegsFrame s.csh.regs (t.sheaf i).regs [] [] []
        ∧ t = { s with sheaves := t.sheaves, cores := t.cores, issue := [] } ∧ (∀ j, j ≠ i → t.sheaf j = s.sheaf j) ∧ Unstored s t)

/-! Events (R3 to R5 and the opcode table's events): issue and fetch. -/

/-- QUADRANT_ISSUE: which sheaf is picked and which of its paths issue. A sheaf is ready when a voted group's operands and pipe are there, and an
NW producer is not while another ready sheaf is late; a lock holds the pick to its sheaf; a ready sheaf that has waited 256 cycles is picked in
slot order, else the longest wait; a wait grows while its sheaf is ready and starts again at 0. Path one is the lowest PC group; path two the
group of most passes once one has 64, else of most lanes, the lower PC where equal. A sheaf whose voted push finds its endpoint full closes its
chunk first. A group that could have issued and did not, one that R20 withholds too, gains a pass. Path two sees the registers, the latches and its chunk's stores as they stand before path one. No register, and no byte, is changed by
it. The model's choices: several waits of 256 cycles or more tie, and go in slot order (log 31, DEDUCED); which second instruction is never
paired (log 30, DEDUCED); that MOVI.HI reads its D (log 29, DEDUCED); the pass of a group whose
pipe another path took (log 92, DESIGN CHOICE); of two late sheaves with an NW producer next, each bars the other (log 112, DESIGN CHOICE); when a
restored sheaf has left its restore routine (log 84, DEDUCED). -/
def Obligations.QuadrantPicksAndVotes : Prop :=
  (∀ (s0 : State) (core q : Nat), SheavesTidy s0 →
    let s := (s0.quadSheaves core q).foldl State.closeFull s0
    let all := s.quadSheaves core q
    let wait := fun (i : Nat) => (s.sheaf i).pickWait
    let can := fun (i : Nat) => all.contains i && s.sheafFree i && !(s.canIssue core q i).isEmpty
    let late := fun (i : Nat) => all.any (fun j => can j && decide (j ≠ i) && decide (224 ≤ wait j))
    let ready := fun (i : Nat) => can i && !(s.canIssue core q i (late i)).isEmpty
    let lock := SMap.get? (s.core core).lock q
    let older := fun (i j : Nat) => all.idxOf i < all.idxOf j
    let picked := fun (i : Nat) => ready i = true ∧ ((∃ n, lock = some (i, n)) ∨ (lock = none ∧
      ((256 ≤ wait i ∧ ∀ j, ready j = true → 256 ≤ wait j → j = i ∨ older i j)
        ∨ ((∀ j, ready j = true → wait j < 256) ∧ ∀ j, ready j = true → j = i ∨ wait j < wait i ∨ (wait j = wait i ∧ older i j)))))
    let quiet := fun (t : State) => t = { s0 with sheaves := t.sheaves, cores := t.cores, issue := t.issue } ∧ Unstored s0 t
      ∧ (∀ j, { (t.sheaf j).regs with routine := (s0.sheaf j).regs.routine } = (s0.sheaf j).regs)
    let waits := fun (t : State) (i : Option Nat) => ∀ j ∈ all, (t.sheaf j).pickWait = if i = some j then 0 else if ready j then wait j + 1 else 0
    quiet s
    ∧ (lock = none → (∀ i, ready i = false) → ∃ t, exec (.quadrantIssue core q) s0 = .next t ∧ quiet t ∧ t.issue = s0.issue ∧ waits t none)
    ∧ (∀ i n, lock = some (i, n) → ready i = false → ∃ t, exec (.quadrantIssue core q) s0 = .next t ∧ quiet t ∧ t.issue = s0.issue
        ∧ waits t none ∧ SMap.get? (t.core core).lock q = some (i, n + 1))
    ∧ (∀ i, picked i →
        let ch := s.choosePaths core q i (late i)
        ∃ t, exec (.quadrantIssue core q) s0 = .next t ∧ quiet t ∧ waits t (some i) ∧ ch ≠ []
          ∧ t.issue.map (fun p => (p.sheaf, p.lanes, p.pc)) = ch.map (fun c => (i, c.1.lanes, c.1.pc)) ∧ ch.length ≤ 2
          ∧ (∀ p, t.issue.head? = some p → p.snap = none) ∧ (∀ p ∈ t.issue.tail, p.snap = some (t.sheaf i).regs
            ∧ p.lat = some (SMap.getD (t.core (t.sheaf i).core).latches (t.sheaf i).quad [])
            ∧ p.vis = some (((t.sheaf i).openChunk?.getD (t.sheaf i).newChunk).id, ((t.sheaf i).openChunk?.getD (t.sheaf i).newChunk).held.length))
          ∧ (t.sheaf i).passes = s.newPasses core q i ch (late i)
          ∧ (∀ n, lock = some (i, n) → SMap.get? (t.core core).lock q = some (i, 0))))
  ∧ (∀ (s : State) (i : Nat),
    (s.groups i).Pairwise (fun a b => a.1.toNat < b.1.toNat)
    ∧ (∀ g ∈ s.groups i, g.2 ≠ 0 ∧ ∀ l, l < 64 → (Mask.has g.2 l = true ↔ Mask.has (s.eligible i) l = true ∧ (s.sheaf i).regs.pcOf l = g.1))
    ∧ (∀ l, l < 64 → Mask.has (s.eligible i) l = true → ∃ g ∈ s.groups i, g.1 = (s.sheaf i).regs.pcOf l))
  ∧ (∀ (s : State) (core q i : Nat) (late : Bool) (g : Pc × Mask) (rest : List (Pc × Mask)), s.groups i = g :: rest →
    let pass := fun (h : Pc × Mask) => (s.sheaf i).passOf h.1
    let weight := fun (h : Pc × Mask) => if rest.any (fun x => decide (64 ≤ pass x)) then pass h else Mask.count h.2
    let able := fun (h : Pc × Mask) => s.able core q i late h
    let slots := fun (pc : Pc) => (s.pipeAt i pc).1.slots.filter (fun k => decide ((s.core core).busyAt q k ≤ s.cycle))
    let spare := fun (h : Pc) => (slots h).filter (fun k => decide (some k ≠ (slots g.1).head?))
    let ch := (s.choosePaths core q i late).map (fun c => (c.1.pc, c.1.lanes))
    let n := nextPc g.1
    let bs := (s.codeLine (s.sheaf i).core (s.team (s.sheaf i).team).ctx g.1.toNat).getD []
    (rest = [] → s.voted i = [g]
      ∧ (able g = false → ch = [])
      ∧ (able g = true →
          if linePair bs (pcSlot g.1) && !withheld (s.peek i g.1) (s.peek i n) && !pairHazard (s.peek i g.1) (s.peek i n)
            && able (n, g.2) && !(spare n).isEmpty
          then ch = [g, (n, g.2)] else ch = [g]))
    ∧ (rest ≠ [] → ∃ g2 ∈ rest, s.voted i = [g, g2]
      ∧ (∀ h ∈ rest, weight h < weight g2 ∨ (weight h = weight g2 ∧ g2.1.toNat ≤ h.1.toNat))
      ∧ ch = if able g then
          (if withheld (s.peek i g.1) (s.peek i g2.1) || !able g2 || (spare g2.1).isEmpty then [g] else [g, g2])
        else if able g2 then [g2] else [])
    ∧ (∀ c : List (Path × Nat × Nat), ∀ h ∈ s.groups i,
        let chosen := fun (x : Pc × Mask) => c.any (fun p => decide (p.1.pc = x.1))
        SMap.getD (s.newPasses core q i c late) h.1.toNat 0 =
          if chosen h then 0
          else if able h then pass h + 1 else pass h))

/-- NW_LOCK_EXPIRE ends a lock 32 cycles old. LINE_REFETCH fetches a cached line once more and marks it (log 82 is the model's choice of when a
held line stands). PAGE_WALK leaves the translation in the TLBs of the cores that run the context, or ends the context where it meets a lost
die; where it meets no leaf or a malformed entry it leaves nothing but the mark of the stacks it read. Where that mark stands is the model's choice
(log 51, DEDUCED). -/
def Obligations.IssueEventsComplete : Prop :=
  (∀ (s : State) (core q i n : Nat), SMap.get? (s.core core).lock q = some (i, n) →
    (n < 32 → exec (.nwLockExpire core q) s = .next s)
    ∧ (32 ≤ n → ∃ t, exec (.nwLockExpire core q) s = .next t ∧ SMap.get? (t.core core).lock q = none
      ∧ (∀ k, k ≠ q → SMap.get? (t.core core).lock k = SMap.get? (s.core core).lock k)
      ∧ t.core core = { s.core core with lock := (t.core core).lock } ∧ (∀ c, c ≠ core → t.core c = s.core c) ∧ t = { s with cores := t.cores }))
  ∧ (∀ (s : State) (core line ctx : Nat) (bs : List Byte) (l : Loc),
    (s.core core).icache.filter (fun e => e.2.1 = line / 64) = [(ctx, line / 64, bs)] → s.fetchLoc core ctx (64 * (line / 64)) = .ok l →
    ∃ t, exec (.lineRefetch core line) s = .next t
      ∧ (t.core core).icache.find? (fun e => e.1 = ctx && e.2.1 = line / 64) = some (ctx, line / 64, t.fetchBytes l)
      ∧ (ctx, line / 64) ∈ (t.core core).refetched
      ∧ (∀ e, e.2.1 ≠ line / 64 → (e ∈ (t.core core).icache ↔ e ∈ (s.core core).icache))
      ∧ t.sheaves = s.sheaves ∧ t.teams = s.teams ∧ t.issue = s.issue ∧ (∀ c, c ≠ core → t.core c = s.core c))
  ∧ (∀ (s : State) (ctx va : Nat),
    (∀ e bits, s.walk ctx va = .leaf e bits → ∃ t, exec (.pageWalk ctx va) s = .next t
      ∧ t.sheaves = s.sheaves ∧ t.teams = s.teams ∧ t.issue = s.issue
      ∧ (∀ e bits c, t.walk ctx va = .leaf e bits → c ∈ s.coresOf ctx → ∃ x, tlbFind (t.core c).tlb ctx va = some x
          ∧ (tlbFind (s.core c).tlb ctx va = none → x.leaf = BitVec.ofNat 64 e ∧ x.bits = bits)))
    ∧ (∀ d p, SheavesTidy s → s.walk ctx va = .dieLost d → s.teams.find? (fun p => p.2.ctx = ctx && p.2.status ≠ .ended) = some p →
      ∃ t, exec (.pageWalk ctx va) s = .next t ∧ ctx ∈ t.ended)
    ∧ (s.walk ctx va = .page ∨ (∃ pa, s.walk ctx va = .malformed pa)
        ∨ (∃ d, s.walk ctx va = .dieLost d ∧ s.teams.find? (fun p => p.2.ctx = ctx && p.2.status ≠ .ended) = none) →
      ∃ t, exec (.pageWalk ctx va) s = .next t ∧ t = { s with mem := t.mem }
        ∧ (∀ a, a ≠ s.descAddr ctx + 56 → Memory.get t.mem a = Memory.get s.mem a)
        ∧ (∀ d, (Memory.get s.mem (s.descAddr ctx + 56)).getLsbD d = true → (Memory.get t.mem (s.descAddr ctx + 56)).getLsbD d = true)
        ∧ (∀ d, paDie (s.ptRoot ctx + 8 * (va / 2 ^ 48 % 2 ^ 8)) = some d → s.dieAbsent d = false → s.lostAt (s.descAddr ctx) = none →
          (Memory.get t.mem (s.descAddr ctx + 56)).getLsbD d = true)))

/-! The reeve, and what waits (R200, R222, R226 to R237, R347). -/

/-- A round commits the oldest chunk of a sheaf, where no other chunk, entry, token or finished command is there: its stores take effect together, its
pushes enter and its pops leave their endpoints, and every chunk that read a line it wrote goes back to its opening, to re-execute with those that
followed it; no other register changes. Sheaves have their turn by die, core, quadrant and slot: of two awaiting chunks the one that goes second
commits its stores over the first's, though the first had read them, and goes back to its opening in the same round where it has read what the first
wrote. A published entry takes effect in the round and is then acknowledged; an atomic operation is carried out on the line as it then stands, and
answers a peer with what stood there. An entry stays behind one that is kept and that it must follow, and behind a token holder; a value owed to a
peer is answered then, where the write may be decided, and no chunk that stores to the line of a decided write commits before it. A token holder's
unfinished reader, of a line or of a counter, keeps a chunk back. A chunk squashed four times re-executes only with its
die's token, and PRIORITY_TOKEN_TAKE takes it where no chunk holds it; a holder squashed keeps it. The room the engines must have (log 12), lines kept
themselves for signatures (log 55), the sheaf's own entries (log 56), what a holder defers (log 57), when an operation is carried out (log 116)
a squashed chunk that opens again as itself (log 117) and the entry of an NW load lost at a squash (log 126) are the model's choices. -/
def Obligations.RoundsCommitChunks : Prop :=
  (∀ (s : State) (i : Nat) (c : Chunk), SheavesTidy s → MemCanonical s → s.tokens = [] → s.pubs = [] → s.awaiting i = some c →
    (∀ j, j ≠ i → s.awaiting j = none) → s.accepts i c = true → c.heldCmds = [] → (∀ w ∈ c.held.filterMap Held.write?, w.line.isCoded = false) →
    (∀ p ∈ s.teams, ∀ k ∈ p.2.cmds, k.stage ≠ .done) →
    let ws := c.held.filterMap Held.write?
    let team := (s.sheaf i).team
    let met := fun (j : Nat) (k : Chunk) => k.reads.any (fun l => c.writes.contains l)
      || (k.coreReads.any (fun l => c.coreWrites.contains l) && decide ((s.sheaf j).team = team))
    ∃ t, exec .commitRound s = .next t ∧ t.round = s.round + 1 ∧ t.issue = s.issue ∧ t.pubs = [] ∧ t.flights = s.flights
      ∧ (∀ (l : Line) (k : Nat), (match l with | .mem _ => True | .sp _ _ => True | _ => False) → k < 128 →
          (t.line l).bytes.getD k 0 = (overlay (s.line l) l ws).bytes.getD k 0)
      ∧ (t.sheaf i).regs = (s.sheaf i).regs ∧ (t.sheaf i).chunks.length + 1 = (s.sheaf i).chunks.length
      ∧ (∀ ep, ((t.sheaf i).endpoint ep).entries = ((s.sheaf i).endpoint ep).entries.drop (SMap.getD c.pops ep 0)
          ++ c.held.filterMap (fun h => match h with | .push e x => if e = ep then some x else none | _ => none))
      ∧ (∀ j, j ≠ i → match (s.sheaf j).chunks.findIdx? (met j) with
          | none => (t.sheaf j).regs = (s.sheaf j).regs ∧ (t.sheaf j).chunks.length = (s.sheaf j).chunks.length
          | some n => ∃ k, (s.sheaf j).chunks[n]? = some k ∧ (t.sheaf j).regs = k.ckpt ∧ (t.sheaf j).chunks.length = n + 1
              ∧ (∃ k', (t.sheaf j).chunks.getLast? = some k' ∧ k'.id = k.id ∧ k'.closed = false ∧ k'.held = [] ∧ k'.squashes = k.squashes + 1)
              ∧ (t.sheaf j).redo = (((s.sheaf j).chunks.drop (n + 1)).filter Chunk.stands).map (fun g => (g.id, g.squashes + 1)) ++ (s.sheaf j).redo))
  ∧ (∀ s : State,
    let x := fun (i : Nat) => s.sheaf i
    let first := fun (i j : Nat) => (x i).core < (x j).core ∨ ((x i).core = (x j).core ∧ ((x i).quad < (x j).quad
      ∨ ((x i).quad = (x j).quad ∧ (x i).slot < (x j).slot)))
    (∀ i ∈ s.sheafIds, (x i).quad < 4 ∧ (x i).slot < 16) →
    (∀ i, i ∈ s.deviceOrder ↔ i ∈ s.sheafIds) ∧ s.deviceOrder.Pairwise (fun i j => ¬ first j i)
    ∧ ∀ (i j : Nat) (c k : Chunk), SheavesTidy s → MemCanonical s → s.tokens = [] → s.pubs = [] → first i j →
      s.awaiting i = some c → s.awaiting j = some k → (∀ l, l ≠ i → l ≠ j → s.awaiting l = none) →
      (∀ d ∈ [c, k], d.heldCmds = [] ∧ d.heldLnch = [] ∧ ∀ w ∈ d.held.filterMap Held.write?, w.line.isCoded = false) →
      (∀ p ∈ s.teams, ∀ q ∈ p.2.cmds, q.stage ≠ .done) →
      let ws := fun (d : Chunk) => d.held.filterMap Held.write?
      let met := (∃ l ∈ k.reads, l ∈ c.writes) ∨ ((x i).team = (x j).team ∧ ∃ l ∈ k.coreReads, l ∈ c.coreWrites)
      let shows := fun (t : State) (l : List LineWrite) => ∀ (y : Line) (b : Nat), (match y with | .mem _ => True | .sp _ _ => True | _ => False) →
        b < 128 → (t.line y).bytes.getD b 0 = (overlay (s.line y) y l).bytes.getD b 0
      ∃ t, exec .commitRound s = .next t
        ∧ (¬ met → shows t (ws c ++ ws k))
        ∧ (met → shows t (ws c) ∧ (t.sheaf j).regs = k.ckpt
          ∧ ∃ d, (t.sheaf j).chunks = [d] ∧ d.id = k.id ∧ d.closed = false ∧ d.held = [] ∧ d.squashes = k.squashes + 1))
  ∧ (∀ (s : State) (n : Nat) (p : Pub), SheavesTidy s → MemCanonical s → s.tokens = [] → s.pubs = [p] → p.w.line = .mem n → p.full = none →
    (∀ j, s.awaiting j = none) → (∀ p ∈ s.teams, ∀ k ∈ p.2.cmds, k.stage ≠ .done) →
    let plan := fun (o : PubOp) => ({ s with pubs := [] } : State).opPlan p.w.line o
    let ws := match p.op with | none => [p.w] | some o => (plan o).ws
    ∃ t, exec .commitRound s = .next t ∧ t.pubs = [] ∧ ws.length ≤ 1
      ∧ (∀ o, p.op = some o → o.reply = true → Out.peerData (leBytes (if o.ty.is64 then 8 else 4) ((plan o).old 0).1)
          (((plan o).old 0).2.eb32.setWidth 64) ((plan o).old 0).2.poi ∈ t.out)
      ∧ (∀ a, p.ack = some a → Out.peerAck a ∈ t.out)
      ∧ (∀ m k, k < 128 → (t.line (.mem m)).bytes.getD k 0 = (overlay (s.line (.mem m)) (.mem m) ws).bytes.getD k 0)
      ∧ (∀ w, ws = [w] → p.green = true → t.greenLine n = (s.greenLine n).write false w)
      ∧ (∀ j, (∀ k ∈ (s.sheaf j).chunks, Line.mem n ∉ k.reads ∧ Line.mem n ∉ k.coreReads) → (t.sheaf j).regs = (s.sheaf j).regs))
  ∧ (∀ (s : State) (i h : Nat) (c : Chunk) (d id n j j' : Nat) (k : Chunk), s.awaiting i = some c → (d, h, id, n) ∈ s.tokens → h ≠ i →
    s.tokenOf i c.id = none → (s.sheaf h).chunks.findIdx? (fun x => x.id = id) = some j → (s.sheaf h).chunks[j']? = some k → j' ≤ j →
    ((∃ l ∈ k.reads, l ∈ c.writes) ∨ ((s.sheaf h).team = (s.sheaf i).team
      ∧ ∃ l ∈ k.coreReads, l ∈ c.coreWrites ∨ ∃ q ∈ c.heldCmds, ∃ r, q.ctr = some r ∧ l = .ctr (s.sheaf i).team r)) → (s.live h = 0 ∨ ∃ l, l < 64 ∧ Mask.has (s.live h) l = true ∧ SMap.get? (s.sheaf h).waits l = none) →
    s.commitTurn i = s)
  ∧ (∀ (s : State) (p : Pub),
    let behind := ∃ q ∈ s.pubs, q.w.line.name = p.w.line.name ∨ (p.full.isSome = true ∧ q.cmd = p.cmd)
      ∨ ∃ i m n, p.maker = some (i, m) ∧ q.maker = some (i, n)
    let kept := { s with pubs := s.pubs ++ [p] }
    let owes := (∃ o, p.op = some o ∧ o.reply = true) ∧ s.homeSafe p.team p.w.line = true
    (behind → s.publishOne p = kept)
    ∧ (∀ w, ¬ behind → s.entryWrite p = some w → s.entryDeferrers p ≠ [] →
      (owes → s.publishOne p = { s.answer p with pubs := s.pubs ++ [{ p with w := w, op := none, decided := true }] })
      ∧ (¬ owes → s.publishOne p = kept))
    ∧ (∀ h, h ∈ s.entryDeferrers p → h ∈ s.deferring none [p.w.line.name] [p.w.line.name] p.team
        ∧ ∀ m, p.maker = some (h.1, m) → h.2 < m)
    ∧ (∀ (i : Nat) (c : Chunk), s.awaiting i = some c → p ∈ s.pubs → p.decided = true →
        p.w.line.name ∈ c.writes ∨ p.w.line.name ∈ c.coreWrites → s.commitTurn i = s))
  ∧ (∀ (s : State) (i : Nat),
    let d := (s.sheaf i).core / Config.coresPerDie
    let held := ∃ p ∈ s.tokens, p.1 = d ∧ ((∃ k ∈ (s.sheaf p.2.1).chunks, k.id = p.2.2.1) ∨ ∃ r ∈ (s.sheaf p.2.1).redo, r.1 = p.2.2.1)
    let needs := fun (e : Nat × Nat) => ((∃ c ∈ (s.sheaf i).chunks, e = (c.id, c.squashes))
      ∨ ((s.sheaf i).openChunk? = none ∧ (s.sheaf i).redo.head? = some e)) ∧ 4 ≤ e.2 ∧ s.tokenOf i e.1 = none
    (∀ e, needs e → s.sheafFree i = false)
    ∧ ((∃ e, needs e) → ¬ held → ∃ e, needs e ∧ exec (.priorityTokenTake i) s =
        .next { s with tokens := SMap.set s.tokens d (i, e.1, s.nextId), nextId := s.nextId + 1 })
    ∧ ((∀ e, ¬ needs e) ∨ held → exec (.priorityTokenTake i) s = .next s))

/-- What waits goes on when its time has come, and not before. BOUNDARY_PERFORM and POD_RELEASE let the kept path issue, and after it the other path of
its cycle where that is still to issue; a chunk in which the other path has issued closes first; an atomic goes on once its round has come. ACCESS_COMPLETION brings a value, or
lets a store or a reduction act at its home; the tests of LDF, STE and WAITA, the grant of XACQ, and the ends of counter waits, queue waits,
sleeps and yields concern the lanes whose condition holds and no other. A release waits also for every atomic that has travelled and whose home on
this device has not performed it. A boundary instruction, and a WAITA, goes on only when the entries its sheaf has made are published; a WAITA on a
device that has departed, or whose access is no longer allowed, ends its context. What a
completion leaves to a later squash (log 59), the poll of WAITA (log 38), the performance of a boundary instruction (log 42), a re-test that finds its
page gone (log 108), a request for a block that its sheaf has come to hold (log 109) and the round of an atomic (log 116) are the model's choices. -/
def Obligations.WaitsEndWhenTheirConditionHolds : Prop :=
  (∀ (s : State) (i : Nat) (p : Path), (s.sheaf i).pend = .boundary p →
    let b := if (s.sheaf i).openChunk? = none then s else s.updSheaf i Sheaf.close
    ((b.sheaf i).uncommitted = false → s.settled i = true → s.sheafRuns i = true →
      exec (.boundaryPerform i) s = .next { b.updSheaf i (fun x => { x with pend := .idle, young := [] }) with issue := p :: (s.sheaf i).young })
    ∧ ((b.sheaf i).uncommitted = true ∨ s.settled i = false ∨ s.sheafRuns i = false → exec (.boundaryPerform i) s = .next b))
  ∧ (∀ (s : State) (i n : Nat) (p : Path) (due : Bool), (s.sheaf i).pend = .atomic n p due →
    exec (.boundaryPerform i) s = .next (if due then
      { s.updSheaf i (fun x => { x with pend := .idle, young := [] }) with issue := p :: (s.sheaf i).young } else s)
    ∧ ∀ t, exec .commitRound s = .next t → (t.sheaf i).pend ≠ .atomic n p false)
  ∧ (∀ (s : State) (i : Nat) (sys : Bool) (upto : Nat),
    let done := (s.sheaf i).uncommitted = false ∧ s.pubs = []
      ∧ (∀ f ∈ s.flights, f.id < upto → (∀ a ∈ f.pa :: f.also, paRemote a = false) ∧ sys = false)
      ∧ (∀ q ∈ s.sheaves, ∀ k p due, q.2.pend = .atomic k p due → k < upto → p.arrived = false)
    (∀ p, (s.sheaf i).pend = .release p sys upto →
      (done → s.sheafRuns i = true → exec (.podRelease i) s =
        .next { s.updSheaf i (fun x => { x with pend := .idle, young := [] }) with
          issue := { p with released := true } :: (s.sheaf i).young, green := [] })
      ∧ (¬ done → exec (.podRelease i) s = .next s))
    ∧ (∀ rel acq, (s.sheaf i).pend = .fence rel acq sys upto →
      (done → s.sheafRuns i = true → ∃ t, exec (.podRelease i) s = .next t
        ∧ t = { s.updSheaf i (fun x => { x with pend := .idle }) with
                green := if rel then [] else s.green
                remHeld := if acq then [] else s.remHeld
                sysHeld := if acq && sys then s.sysHeld.filter (fun q => q.2.owned) else s.sysHeld })
      ∧ ((s.sheaf i).uncommitted = true → exec (.podRelease i) s = .next s)))
  ∧ (∀ (s : State) (f : Flight), MemCanonical s → s.flights.find? (fun g => g.id = f.id) = some f →
    let s1 := { s with flights := s.flights.filter (fun g => g.id ≠ f.id) }
    (s.inOrder f = false → exec (.accessCompletion f.id) s = .next s)
    ∧ (s.inOrder f = true →
      (∀ p, f.kind = .value p → exec (.accessCompletion f.id) s =
        .next { s1.updSheaf f.sheaf (fun x => { x with pend := .idle, young := [] }) with issue := p :: (s.sheaf f.sheaf).young })
      ∧ (∀ w n, f.kind = .store w → w.line = .rem n → f.cmd = none → ∃ t, exec (.accessCompletion f.id) s = .next t
          ∧ t.flights = s1.flights ∧ t.sheaves = s.sheaves ∧ t.mem = s.mem
          ∧ (remDev (128 * n) = s.devnum → t.pubs = s.pubs ++ [{ w := { w with line := .mem (remOfs (128 * n) / 128) }, green := true }] ∧ t.ext = s.ext)
          ∧ (remDev (128 * n) ≠ s.devnum → t.pubs = s.pubs ∧ ∀ k, k < 128 → Memory.get t.ext (remKey (128 * n) + k)
              = ((s.remHome n).write false w).bytes.getD k 0))
      ∧ (∀ op ty, f.kind = .red op ty → exec (.accessCompletion f.id) s =
          let arrive := fun (a : State) => a.applyReds op ty (s1.teamBounds f.team) f.vals
          .next (if paRemote f.pa then arrive s1 else s1.underWin (f.pa / 128) f.win arrive))
      ∧ (∀ w n, f.kind = .store w → w.line = .sys n → f.cmd = none →
          exec (.accessCompletion f.id) s = .next (s1.underWin n f.win (fun a => a.sysStore n w)))))
  ∧ (∀ (s : State) (n : Nat) (win : Option (Nat × Nat)) (f : State → State),
    (win = none ∨ s.winTarget (128 * n) = win → s.underWin n win f = f s)
    ∧ (∀ m key k, win = some (m, key) → s.winTarget (128 * n) ≠ win → k / 2 = n → SMap.get? (s.underWin n win f).sysHeld k
        = ((s.sysHeld.filter (fun p => p.1 = k && !p.2.fits key k)).getLast?.map (·.2))))
  ∧ (∀ (s : State) (i l : Nat) (w : Wait), SMap.get? (s.sheaf i).waits l = some w → s.sheafRuns i = true →
    let pc := (s.sheaf i).regs.pcOf l
    (∀ d w64 keep ofs, w = .ldf d w64 keep ofs → exec (.ldfComplete i l) s = .next ((s.feTry true i l pc w).getD s))
    ∧ (∀ w64 ofs x b, w = .ste w64 ofs x b → exec (.steComplete i l) s = .next ((s.feTry true i l pc w).getD s))
    ∧ (∀ d ty cc acq sc va x, w = .waita d ty cc acq sc va x → exec (.waitaComplete i l) s = .next ((s.waitaTry i l pc w).getD s)
      ∧ ((s.sheaf i).waits = [(l, w)] → exec (.waitaPoll i) s = .next ((s.waitaTry i l pc w).getD s)))
    ∧ (∀ n, w = .sleep n → (s.cycle < n → exec (.sleepExpire i l) s = .next s)
      ∧ (n ≤ s.cycle → exec (.sleepExpire i l) s = .next (s.updSheaf i (fun x => { x with waits := SMap.erase x.waits l })))))
  ∧ (∀ (s : State) (i l : Nat) (d : Sel) (ty : Ty) (cc : Nat) (acq : Bool) (sc : Scope) (va : Nat) (v : W64) (n o : Nat),
    s.globalLoc (.core (s.sheaf i).core) (s.team (s.sheaf i).team).ctx va .load = .ok ⟨.mem n, o, 128 * n + o, none⟩ → l < 64 →
    l < (s.team (s.sheaf i).team).hdr.width → s.settled i = true →
    let p := intVal ty ((s.line (.mem n)).elem (allowStrict (s.sheaf i).regs.allow) o (if ty.is64 then 8 else 4)).1
    let q := intVal ty v.toNat
    let u := s.waitaTry i l ((s.sheaf i).regs.pcOf l) (.waita d ty cc acq sc va v)
    (cmpFin cc (decide (p < q)) (decide (p = q)) = false → u = none)
    ∧ (cmpFin cc (decide (p < q)) (decide (p = q)) = true → ∃ t, u = some t ∧ (t.sheaf i).regs.pcOf l = nextPc ((s.sheaf i).regs.pcOf l)
        ∧ SMap.get? (t.sheaf i).waits l = none ∧ (∀ k, k ≠ l → SMap.get? (t.sheaf i).waits k = SMap.get? (s.sheaf i).waits k)
        ∧ (∀ j, j ≠ i → t.sheaf j = s.sheaf j) ∧ t.mem = s.mem))
  ∧ (∀ (s : State) (i l : Nat) (pc : Pc) (d : Sel) (ty : Ty) (cc : Nat) (acq : Bool) (sc : Scope) (va : Nat) (v : W64),
    let ctx := (s.team (s.sheaf i).team).ctx
    let at' := s.globalLoc (.core (s.sheaf i).core) ctx va .load
    let u := s.waitaTry i l pc (.waita d ty cc acq sc va v)
    let ends := ∃ t, u = some t ∧ ctx ∈ t.ended
    (∀ f, at' = .error f → f.cause ≠ cPAGE → 0x20 ≤ f.cause → ends)
    ∧ (∀ f, at' = .error f → f.cause = cPAGE ∨ f.cause < 0x20 → u = none)
    ∧ (∀ loc n, at' = .ok loc → loc.line = .rem n → s.reachable loc.pa = false → ends)
    ∧ (∀ loc, at' = .ok loc → loc.irrevocable = false → s.settled i = false → u = none))
  ∧ (∀ (s : State) (t q i : Nat) (m : BitVec 4) (n : Nat), SheavesTidy s →
    let tm := s.team t
    tm.xq.find? (fun e => tm.quadOf (s.sheaf e.1) = q) = some (i, m, n) →
    (s.freeBlocks t q < Mask.count (m.setWidth 64) ∨ (s.sheaf i).ext &&& m ≠ 0 → exec (.xacqGrant t q) s = .next s)
    ∧ (Mask.count (m.setWidth 64) ≤ s.freeBlocks t q → (s.sheaf i).ext &&& m = 0 → ∃ u, exec (.xacqGrant t q) s = .next u ∧ (u.sheaf i).ext = (s.sheaf i).ext ||| m
        ∧ (∀ l, SMap.get? (u.sheaf i).waits l = if SMap.get? (s.sheaf i).waits l = some (.xacq m n) then none else SMap.get? (s.sheaf i).waits l)
        ∧ (∀ l, SMap.get? (u.sheaf i).savedWaits l =
            if SMap.get? (s.sheaf i).savedWaits l = some (.xacq m n) then none else SMap.get? (s.sheaf i).savedWaits l)
        ∧ (∀ r, (u.sheaf i).regs.vreg r = if r ∈ blockRegs m then {} else (s.sheaf i).regs.vreg r)
        ∧ (u.team t).xq = tm.xq.erase (i, m, n) ∧ (∀ j, j ≠ i → u.sheaf j = s.sheaf j) ∧ u.mem = s.mem))
  ∧ (∀ (s : State) (i : Nat), SheavesTidy s →
    let x := s.sheaf i
    let tm := s.team x.team
    (∃ t, exec (.counterWaitWake i) s = .next t ∧ (t.sheaf i).regs = x.regs ∧ (∀ j, j ≠ i → t.sheaf j = s.sheaf j) ∧ t.mem = s.mem
      ∧ (∀ l, SMap.get? (t.sheaf i).waits l = match SMap.get? x.waits l with
          | some (.wtc c n) => if n ≤ (tm.ctr c).done then none else some (.wtc c n)
          | some (.wto c k) => if (tm.ctr c).issued - (tm.ctr c).done ≤ k then none else some (.wto c k)
          | w => w))
    ∧ (∃ t, exec (.queuePopWake i) s = .next t ∧ (t.sheaf i).regs = x.regs ∧ (∀ j, j ≠ i → t.sheaf j = s.sheaf j) ∧ t.mem = s.mem
      ∧ (∀ l, SMap.get? (t.sheaf i).waits l = match SMap.get? x.waits l with
          | some (.pop q) => if 0 < (x.endpoint (x.regs.boundTo q)).avail then none else some (.pop q)
          | w => w))
    ∧ (x.yieldUntil ≤ s.cycle → exec (.yieldExpire i) s = .next (s.updSheaf i (fun y => { y with yieldUntil := 0 })))
    ∧ (s.cycle < x.yieldUntil → exec (.yieldExpire i) s = .next s))

/-! Engines (R249 to R267). -/

/-- A command whose turn has come takes its effect. MMA_PERFORM writes its tile from the fragments, or waits for them; TILE_FILL_PERFORM zeroes a tile or
loads it; MDRAIN_PERFORM drains its rows, or stands ready to push them; GATHER_PERFORM fills the quadrant's latch with sixteen rows; COPY_PERFORM
copies; CPYM_MMA_ISSUE issues the MMA of a landed copy; ENGINE_QUEUE_PUSH pushes one entry where there is a place. A load that a fault stops keeps
what it has read and resumes at the faulting element. The order of commands on an endpoint or a latch (log 62), the one bound of a row
(log 63), the streams of two drains (log 64), the values an element of a copy may take (log 81), the KIND of its 16-byte elements (log 110), what of the
latch a fragment reads (log 33), a record of a poisoned row (log 122) and a command's going on while a switch waits for it (log 74) are the model's
choices. Each row of a product then, in every type of R252, scaled or not, saturating, wrapping or on either unit: its elements (R253, R254, R256)
and its bound (R61), and the unit AUTO chooses (R64). -/
def Obligations.EngineCommandsTakeEffect : Prop :=
  (∀ (s : State) (t id : Nat) (c : Cmd), (s.team t).cmd? id = some c → s.engTurn t c = true →
    let tm := s.team t
    let staged := fun (u : State) (st : CmdStage) => ∃ k, (u.team t).cmd? id = some k ∧ k.stage = st
    let others := fun (u : State) => ∀ k, k ∉ tm.tilesOf c → (u.team t).tile k = tm.tile k
    let tileIs := fun (u : State) (ty : Ty) (el : List Nat) (b : List Bnd) =>
      let e := c.tile / 2 * 2
      let x := (u.team t).tile c.tile
      let lo := (u.team t).tile e
      let hi := (u.team t).tile (e + 1)
      if ty = .f64 then
        lo.fmt = some .f64 ∧ hi.fmt = some .f64 ∧ lo.defined = true ∧ hi.defined = true
        ∧ (∀ k, k < 256 → lo.words.getD k 0 = BitVec.ofNat 32 (el.getD k 0) ∧ hi.words.getD k 0 = BitVec.ofNat 32 (el.getD k 0 / 2 ^ 32))
        ∧ (∀ m, m < 16 → hi.bnds.getD m 0 ++ lo.bnds.getD m 0 = (b.getD m .zero).eb32)
      else
        x.fmt = some ty ∧ x.defined = true ∧ (∀ k, k < 256 → x.words.getD k 0 = BitVec.ofNat 32 (el.getD k 0))
        ∧ (∀ m, m < 16 → x.bnds.getD m 0 = (b.getD m .zero).eb16)
    (∀ args, c.kind = .mma args → c.stage = .released →
      let n := fragBytes args.ty
      let acc := accTy args.ty
      (s.fragOf t c args.a 1 n = none → exec (.mmaPerform t id) s = .next s)
      ∧ (∀ a s1, s.fragOf t c args.a 1 n = some (a, s1) → s1.fragOf t c args.b 2 n = none → exec (.mmaPerform t id) s = .next s)
      ∧ (∀ a s1 b s2, s.fragOf t c args.a 1 n = some (a, s1) → s1.fragOf t c args.b 2 n = some (b, s2) →
        let wrong := !args.z && (tm.tilesOf c).any (fun k => !((tm.tile k).defined && (tm.tile k).fmt = some acc))
        let was := if args.z then (⟨[], []⟩ : Matrix) else (s2.readTile t c.tile acc).1
        let old := if wrong then { was with bnd := was.bnd.map (fun x => if x.poi then x else .lost) } else was
        let rows := mmaRows args (effClass (allowPolicy c.allow) args.uc (s.teamBounds t) true) (allowTau c.allow) a b old
        ∃ u, exec (.mmaPerform t id) s = .next u ∧ staged u .done ∧ others u ∧ u.sheaves = s2.sheaves ∧ u.mem = s.mem
          ∧ tileIs u acc (rows.flatMap (·.el)) (rows.map (fun r => s.bndOf t (if wrong && !r.bnd.poi then .lost else r.bnd)))))
    ∧ (∀ ty, c.kind = .mzero ty → c.stage = .released →
        ∃ u, exec (.tileFillPerform t id) s = .next u ∧ staged u .done ∧ others u ∧ u.sheaves = s.sheaves ∧ u.mem = s.mem ∧ tileIs u ty [] [])
    ∧ (∀ ty gl a, c.kind = .mload ty gl a → c.stage = .released →
        let len := if ty = .f64 then 8 else 4
        let rd := s.engReads t c (!gl) (ty = .f64) (a + len * c.row) len (256 - c.row)
        let k : Cmd := { c with row := c.row + rd.1.length, got := c.got ++ rd.1.map (fun e => (e.1, e.2.1.x, e.2.1.poi)) }
        (∀ f, rd.2 = some f → ∃ u : State, exec (.tileFillPerform t id) s = .next ((u.setCmd t k).engFault t k f) ∧ u.teams = s.teams ∧ u.sheaves = s.sheaves)
        ∧ (rd.2 = none → ∃ u, exec (.tileFillPerform t id) s = .next u ∧ staged u .done ∧ others u ∧ u.sheaves = s.sheaves
            ∧ tileIs u ty (k.got.map (·.1)) ((List.range 16).map (fun m =>
                s.bndOf t (((k.got.drop (16 * m)).take 16).foldl (fun a e => a.max ⟨e.2.1, e.2.2⟩) .zero)))))
    ∧ (∀ d els rec' s1, c.kind = .mdrain d → c.stage = .released ∨ c.stage = .copied → s.drainAll t c d = (els, rec', s1) →
        let rb := fun (u : State) (k : Cmd) => match d.record with | some o => u.drainRecord t k o rec' | none => u
        (d.kind = 2 →
          let k : Cmd := { c with stage := .pushing, stream := drainEntries d.ty tm.hdr.width els }
          exec (.mdrainPerform t id) s = .next ((rb s1 k).setCmd t k))
        ∧ (∀ st k f u, State.drainRows t d els (16 - c.row) { c with stage := .copied } s1 [] = (st, k, f, u) →
          st.length = 16 * (k.row - c.row)
          ∧ (∀ j, j < st.length → ∃ x, st[j]? = some x ∧ x.len = drainElem d.ty ∧ x.els = [els.getD (16 * c.row + j) (0, .zero)])
          ∧ s1.drainStore t c d els = (k, f, u.engSend t k (buildWrites st (decide (drainElem d.ty = 8)) (!s1.teamBounds t))))
        ∧ (∀ k s2, d.kind ≠ 2 → s1.drainStore t c d els = (k, none, s2) →
          let z : Cmd := { k with stage := .sent }
          k.row = max 16 c.row ∧ exec (.mdrainPerform t id) s = .next (((rb s2 k).setCmd t z).afterPayload t z))
        ∧ (∀ k f s2, d.kind ≠ 2 → s1.drainStore t c d els = (k, some f, s2) →
          k.row < 16 ∧ exec (.mdrainPerform t id) s = .next ((s2.setCmd t k).engFault t k f)))
    ∧ (∀ base stride idx, c.kind = .gath base stride idx → c.stage = .released →
        let x := s.sheaf c.sheaf
        let e := x.endpoint 4
        let h := e.entries.headD { w64 := false, val := [], bnd := [], tag := .raw }
        let ix : List (Nat × Bool) := match idx with
          | some l => l
          | none => (List.range 16).map (fun l => ((lane h.val l 0).toNat % 2 ^ 32, (Bnd.ofEb32 (lane h.bnd l 0)).poi))
        let ofs := fun (m : Nat) => base + (ix.getD m (0, false)).1 * stride
        let held := SMap.get? (s.core x.core).gather x.quad
        (held ≠ none ∨ (idx = none ∧ e.entries = [] ∧ x.ended = false) → exec (.gatherPerform t id) s = .next s)
        ∧ (held = none → idx ≠ none ∨ e.entries ≠ [] → x.ended = false →
          (∀ m, m < 16 → ofs m < 2 ^ 20 ∧ tm.spBad (ofs m) 64 = false) →
          ∃ u g, exec (.gatherPerform t id) s = .next u ∧ staged u .done ∧ SMap.get? (u.core x.core).gather x.quad = some g ∧ g.sheaf = c.sheaf
            ∧ (∀ k, k < 1024 →
              let abs := s.spAbs c.sheaf (ofs (k / 64) + k % 64)
              g.bytes.getD k 0 = (s.line (.sp t (abs / 128))).bytes.getD (abs % 128) 0
              ∧ ((ix.getD (k / 64) (0, false)).2 = true → g.poison.getD k false = true))
            ∧ (idx = none → ((u.sheaf c.sheaf).endpoint 4).entries = e.entries.tail)
            ∧ (∀ j, j ≠ c.sheaf → u.sheaf j = s.sheaf j) ∧ u.mem = s.mem)
        ∧ (∀ m, held = none → idx ≠ none → m < 16 → (2 ^ 20 ≤ ofs m ∨ tm.spBad (ofs m) 64 = true) →
          (∀ k, k < m → ofs k < 2 ^ 20 ∧ tm.spBad (ofs k) 64 = false) →
          exec (.gatherPerform t id) s = .next (s.engFault t c { cause := cREGION, addr := ofs m, akind := 2 })))
    ∧ (∀ r st n s1, (∃ fw crp poi, c.kind = .cpy r fw crp poi) ∨ (∃ a, c.kind = .cpym r a) → c.stage = .released →
        let k : Cmd := { c with row := n }
        let z : Cmd := { k with stage := .sent }
        let s2 := (s1.engSend t k (buildWrites st (decide (3 ≤ r.esz)) (r.drop || !s.teamBounds t))).setCmd t k
        (s.copyEls t c r ((shapeIdx r.ext).drop c.row) c.row [] s = (st, n, none, s1) → exec (.copyPerform t id) s = .next ((s2.setCmd t z).afterPayload t z))
        ∧ (∀ f, s.copyEls t c r ((shapeIdx r.ext).drop c.row) c.row [] s = (st, n, some f, s1) → exec (.copyPerform t id) s = .next (s2.engFault t k f)))
    ∧ (∀ r a, c.kind = .cpym r a → c.stage = .copied → (∀ p ∈ s.pubs, p.cmd ≠ some id) →
        exec (.cpymMmaIssue t id) s = .next (s.setCmd t { c with kind := .mma a, stage := .released }))
    ∧ (c.stage = .pushing → s.pushBefore t c = false → (∀ p ∈ s.pubs, p.cmd ≠ some id) →
        let x := s.sheaf c.sheaf
        let e := x.endpoint c.pushTo
        (x.ended = true → exec (.engineQueuePush t id) s = .next (s.setCmd t { c with stage := .done, stream := [] }))
        ∧ (x.ended = false → c.stream = [] → exec (.engineQueuePush t id) s = .next (s.setCmd t { c with stage := .done }))
        ∧ (∀ p r, x.ended = false → c.stream = p :: r →
          (Config.endpointEntries ≤ e.entries.length → exec (.engineQueuePush t id) s = .next s)
          ∧ (e.entries.length < Config.endpointEntries → ∃ u, exec (.engineQueuePush t id) s = .next u
            ∧ ((u.sheaf c.sheaf).endpoint c.pushTo).entries = e.entries ++ [p]
            ∧ (∃ k, (u.team t).cmd? id = some k ∧ k.stream = r ∧ k.stage = if r = [] then .done else .pushing)
            ∧ (∀ j, j ≠ c.sheaf → u.sheaf j = s.sheaf j) ∧ u.mem = s.mem))))
  ∧ (∀ (args : MmaArgs) (uc : UClass) (tau : EB16) (a b : Frag) (old : Matrix), args.z = true ∨ old.el.length = 256 →
    let t := args.ty
    let depth := match t with | .f64 => 8 | .bf16x2 => 32 | .q4nx8 => 128 | _ => 64
    let ks := List.range depth
    let fl : Fmt := if t = .f64 then .f64 else .f32
    let num := fun (f : Frag) (o n : Nat) => (leNat ((f.bytes.drop o).take n), ((f.bnds.drop o).take n).foldl Bnd.max .zero)
    let raw := fun (f : Frag) (r k : Nat) => match t with
      | .f64 => (Fmt.f64.decode (num f (64 * r + 8 * k) 8).1, (num f (64 * r + 8 * k) 8).2)
      | .bf16x2 => (Fmt.bf16.decode (num f (64 * r + 2 * k) 2).1, (num f (64 * r + 2 * k) 2).2)
      | .e4m3x4 => (Fmt.e4m3.decode (num f (64 * r + k) 1).1, (num f (64 * r + k) 1).2)
      | .e5m2x4 => (Fmt.e5m2.decode (num f (64 * r + k) 1).1, (num f (64 * r + k) 1).2)
      | .q4nx8 => (q4nVal ((num f (64 * r + k / 2) 1).1 / 16 ^ (k % 2) % 16), (num f (64 * r + k / 2) 1).2)
      | .i8x4 => (FVal.ofRat (sInt 8 (num f (64 * r + k) 1).1 : Rat), (num f (64 * r + k) 1).2)
      | .n8x4 => (FVal.ofRat ((num f (64 * r + k) 1).1 : Rat), (num f (64 * r + k) 1).2)
      | _ => (Fmt.f6.decode ((num f (32 * r + k / 2) 1).1 / 16 ^ (k % 2) % 16 * 4 + (num f (512 + 16 * r + k / 4) 1).1 / 4 ^ (k % 4) % 4),
          ((num f (32 * r + k / 2) 1).2).max (num f (512 + 16 * r + k / 4) 1).2)
    let scaled := fun (sup : FVal) (supB : Bnd) (cs : List W32) (cbs : List EB16) (bsel r k : Nat) (e : FVal × Bnd) =>
      let code := (cs.getD r 0).toNat / 256 ^ (bsel + k / 64) % 256
      let cb := Bnd.ofEb16 (cbs.getD r 0)
      let w := blockScale sup code
      let v := e.1.mul w
      (v, mkBnd [e.2, supB, cb] v.isNan (bMul e.1.mag e.2.x w.mag (blockScaleBnd sup supB.x code cb.x) (some 0)))
    let ael := fun (r k : Nat) => match args.scales with
      | none => raw a r k
      | some q => scaled (.fin false 1) .zero q.ca q.caBnd q.bsel r k (raw a r k)
    let bel := fun (r k : Nat) => match args.scales with
      | none => raw b r k
      | some q => scaled (Fmt.f32.decode q.sup.toNat) (Bnd.ofEb32 q.supBnd) q.cb q.cbBnd q.bsel r k (raw b r k)
    let top := fun (l : List X) => l.foldl xmax (some 0)
    let bs := (List.range 16).flatMap (fun n => ks.map (bel n))
    let aMax := fun (m : Nat) => top (ks.map (fun k => (ael m k).1.mag))
    let eA := fun (m : Nat) => top (ks.map (fun k => (ael m k).2.x))
    let bMax := top (bs.map (·.1.mag))
    let eB := top (bs.map (·.2.x))
    let grow := fun (m : Nat) => xmul (some (depth : Rat)) (xadd (xadd (xmul (aMax m) eB) (xmul bMax (eA m))) (xmul (eA m) eB))
    let ob : Nat → Bnd := fun m => if args.z then .zero else old.bnd.getD m .zero
    let poi := fun (m : Nat) => (ob m).poi || ks.any (fun k => (ael m k).2.poi) || bs.any (·.2.poi)
    let bound := fun (m : Nat) (lost : Bool) (x : X) => if poi m then Bnd.poison else if lost then .lost else .of x
    let was := fun (m n : Nat) => old.el.getD (16 * m + n) 0
    (t ∈ [Ty.f64, .bf16x2, .e4m3x4, .e5m2x4, .q4nx8, .f6hi] →
      let res : Bool → Nat → Nat → Ar := fun cheap m n =>
        let ts := ks.map (fun k => (ael m k).1.mul (bel n k).1) ++ [if args.z then .fin false 0 else fl.decode (was m n)]
        if cheap then arCheap fl [] ts else arFull fl .rn (sumExact false ts)
      let lost := fun (cheap : Bool) (m : Nat) => (List.range 16).any (fun n => (res cheap m n).lost || !(res cheap m n).val.isFin)
      let rho := fun (cheap : Bool) (r : FVal) =>
        pow2 (fl.expOf r - (if t = .f64 then (if cheap then 31 else 53) else if cheap then 15 else 24))
      let isMax := fun (cheap : Bool) (m : Nat) (r : FVal) => (r = .fin false 0 ∨ ∃ n, n < 16 ∧ r = (res cheap m n).val)
        ∧ ∀ n, n < 16 → xle (res cheap m n).val.abs r.abs = true
      let bnd := fun (cheap : Bool) (m : Nat) (r : FVal) => bound m (lost cheap m) (xadd (xadd (ob m).x (grow m)) (some (rho cheap r)))
      let passes := fun (m : Nat) => ∀ r, isMax true m r →
        if r.isZero then (ob m).x = some 0 ∧ grow m = some 0 ∧ (bnd true m r).x ≠ none
        else (bnd true m r).x ≠ none ∧ xle (bnd true m r).x (xmul (Bnd.ofEb16 tau).x r.mag) = true
      ∀ cheap : Bool, (cheap = true ↔ uc = .cheap ∨ (uc = .auto ∧ ∀ m, m < 16 → passes m)) → ∀ m, m < 16 →
        ∃ x r, (mmaRows args uc tau a b old)[m]? = some x ∧ isMax cheap m r ∧ x.bnd = bnd cheap m r
          ∧ ∀ n, n < 16 → x.el.getD n 0 = fl.encode (res cheap m n).val)
    ∧ (t = .i8x4 ∨ t = .n8x4 → args.scales = none →
      let int := fun (f : Frag) (r k : Nat) => let y := (f.bytes.getD (64 * r + k) 0); if t = .i8x4 then y.toInt else (y.toNat : Int)
      let ps := fun (m n : Nat) => ks.map (fun k => int a m k * int b n k)
      let o : Nat → Nat → Int := fun m n => if args.z then 0 else sInt 32 (was m n)
      let add := fun (x : Int × Bool) (v : Int) =>
        if x.1 + v < -2 ^ 31 then (-2 ^ 31, true) else if 2 ^ 31 ≤ x.1 + v then (2 ^ 31 - 1, true) else (x.1 + v, x.2)
      let sum := fun (m n : Nat) => o m n + (ps m n).sum
      let res := fun (m n : Nat) => if args.sat then (ps m n).foldl add (o m n, false)
        else (sum m n, decide (sum m n < -2 ^ 31 ∨ 2 ^ 31 ≤ sum m n))
      ∀ m, m < 16 → ∃ x, (mmaRows args uc tau a b old)[m]? = some x
        ∧ (∀ n, n < 16 → x.el.getD n 0 = ((res m n).1 % 2 ^ 32).toNat)
        ∧ x.bnd = bound m ((List.range 16).any (fun n => (res m n).2) && !decide ((ob m).x = some 0 ∧ eA m = some 0 ∧ eB = some 0))
            (xadd (ob m).x (grow m))))
  ∧ (∀ (s : State) (t : Nat) (c : Cmd) (r : Shape) (ixs : List (List Nat)) (n : Nat) (acc : List LaneStore) (a : State),
    let z := 2 ^ r.esz
    let from' := fun (ix : List Nat) => s.engLoc c t r.ssp false (r.esz = 3) (shapeAddr r.ssp r.saddr z (shapeOfs r.sstr ix)) z
    let dest := fun (ix : List Nat) => s.engLoc c t r.dsp true (r.esz = 3) (shapeAddr r.dsp r.daddr z (shapeOfs r.dstr ix)) z
    (∀ ix ∈ ixs, (∃ l, from' ix = .ok l) ∧ (∃ l, dest ix = .ok l)) →
    ∃ st a', s.copyEls t c r ixs n acc a = (acc ++ st, n + ixs.length, none, a') ∧ st.length = ixs.length
      ∧ (∀ (k : Nat) (ix : List Nat), ixs[k]? = some ix → ∃ (sl dl : Loc) (x : LaneStore), from' ix = .ok sl ∧ dest ix = .ok dl ∧ st[k]? = some x ∧ x.loc = dl ∧ x.len = z
          ∧ x.els = [(((s.holdLine sl.line).engRead c sl z).1, s.bndOf t ((s.holdLine sl.line).engRead c sl z).2)]))
  ∧ (∀ (w : Nat) (els : List (Nat × Bnd)), w = 16 ∨ w = 32 ∨ w = 64 → els.length = 256 → (∀ e ∈ els, e.1 < 2 ^ 32) →
    (drainEntries .raw w els).length = 256 / w
    ∧ ∀ k l e, (drainEntries .raw w els)[k]? = some e → l < w → e.val.getD l 0 = BitVec.ofNat 64 (els.getD (w * k + l) (0, .zero)).1
      ∧ e.bnd.getD l 0 = (Bnd.ofEb16 (Bnd.max .zero (els.getD (w * k + l) (0, .zero)).2).eb16).eb32)
  ∧ (∀ (s : State) (t : Nat) (r : Shape) (c : Cmd) (fw : Option (Nat × W32)) (crp : Option W32) (poi : Bool), c.kind = .cpy r fw crp poi →
    (s.team t).cmd? c.id = some c → (∀ f ∈ s.flights, f.cmd ≠ some c.id) →
    let b : Bnd := if poi then .poison else .zero
    let u := s.afterPayload t c
    (u.team t).cmd? c.id = some { c with stage := if crp = none then .done else .pushing, stream := match crp with
      | none => []
      | some v => [{ w64 := false, val := List.replicate (s.team t).hdr.width (v.setWidth 64), bnd := List.replicate (s.team t).hdr.width b.eb32, tag := .n32 }] }
    ∧ (fw = none → u.pubs = s.pubs)
    ∧ (∀ ofs v, fw = some (ofs, v) →
        let abs := s.spAbs c.sheaf ofs
        ∃ p, u.pubs = s.pubs ++ [p] ∧ p.cmd = some c.id ∧ p.full = some (t, abs / 4) ∧ p.w.line = .sp t (abs / 128)
          ∧ p.w.bytes = (List.range 4).map (fun k => (abs % 128 + k, BitVec.ofNat 8 (v.toNat / 256 ^ k))) ∧ ∀ e ∈ p.w.elems, e.bnd = b.eb32))

/-! Traps, swap-out, safe points, errors (R230, R290 to R307). -/

/-- What follows a trap, a page fault, a pre-emption request, a soft error or the loss of a die: HANDLER_ENTRY once the prefix has committed,
TEAM_SWAP_OUT and TRESUME_WRITE, PREEMPT_REQUEST, SAVE_ROUTINE_START, TEAM_SUSPEND and PREEMPTION_LIMIT_EXPIRE, SOFT_ERROR by the place it strikes (a
register that no chunk from one on has written is poisoned where a squash to that chunk finds it, R223), DIE_LOSS. What a swap-out waits for (log 74), which team TRESUME names (log 71), what a suspended sheaf keeps (log 73), where parked sheaves run
on when the limit has passed (log 72), a poisoned value's bits (log 111), a swap-out's record beside a lost die (log 87), the records that name no team (log 75) and the ports of a lost die, which stay up (log 98), are
the model's choices. -/
def Obligations.TrapAndSwapEventsComplete : Prop :=
  (∀ (s : State) (i : Nat) (t : Trap) (p : Path), SheavesTidy s → (s.sheaf i).pend = .trap t p →
    let x := s.sheaf i
    let tm := s.team x.team
    (x.uncommitted = true → exec (.handlerEntry i) s = .next s)
    ∧ (x.uncommitted = false → s.sheafRuns i = true → t.cause = cPAGE → ∃ u, exec (.handlerEntry i) s = .next u
        ∧ (u.team x.team).status = .faulted ∧ (u.team x.team).fault = some (t, p, false) ∧ (u.sheaf i).regs = x.regs ∧ u.mem = s.mem ∧ u.issue = s.issue)
    ∧ (x.uncommitted = false → s.sheafRuns i = true → t.cause < 0x20 → tm.hdr.trappc ≠ 0 → x.hm = false → x.regs.routine = false →
        s.targetBad x.core tm.ctx tm.hdr.trappc = false → ∃ u, exec (.handlerEntry i) s = .next u
        ∧ (u.sheaf i).frame = mkFrame t p.pc false false ∧ (u.sheaf i).hm = true ∧ (u.sheaf i).tg = p.lanes ∧ (u.sheaf i).savedPc = x.regs.pc
        ∧ (∀ l, l < tm.hdr.width → (u.sheaf i).regs.pcOf l =
            if Mask.has (s.live i) l then BitVec.ofNat 56 tm.hdr.trappc else x.regs.pcOf l)
        ∧ (u.sheaf i).pend = .idle ∧ (u.sheaf i).waits = [] ∧ RegsFrame x.regs (u.sheaf i).regs [] [] []
        ∧ (∀ l, SMap.get? (u.sheaf i).savedWaits l = match SMap.get? x.waits l with | some (.sleep _) => none | w => w)
        ∧ (∀ j, j ≠ i → u.sheaf j = s.sheaf j) ∧ u = { s with sheaves := u.sheaves, cores := u.cores }))
  ∧ (∀ (s : State) (t : Nat) (tr : Trap) (p : Path) (eng : Bool), SheavesTidy s → (s.team t).status = .faulted → (s.team t).fault = some (tr, p, eng) →
    let tm := s.team t
    let x := s.sheaf p.sheaf
    (s.atRest t = false → exec (.teamSwapOut t) s = .next s)
    ∧ (s.atRest t = true → s.freeSlot tm.ctx = none → exec (.teamSwapOut t) s = .next (s.endContext (mkFrame tr p.pc eng (!eng && x.hm)) t x.core x.idx))
    ∧ (∀ k, s.atRest t = true → s.freeSlot tm.ctx = some k → s.slotOk (s.swapAddr tm.ctx k) = false → exec (.teamSwapOut t) s =
        .next (s.endContext (mkFrame { cause := cPERM, addr := BitVec.ofNat 64 (s.swapAddr tm.ctx k), akind := 3 } p.pc eng (!eng && x.hm)) t
          x.core x.idx))
    ∧ (∀ k, s.atRest t = true → s.freeSlot tm.ctx = some k → s.slotOk (s.swapAddr tm.ctx k) = true → ∃ u, exec (.teamSwapOut t) s = .next u
        ∧ (u.team t).status = .swapped ∧ (u.team t).slot = some k ∧ (u.team t).fault = tm.fault ∧ u.out = s.out ++ [.msix (256 + tm.part)]
        ∧ (∀ i ∈ s.sheavesOf t,
            (∀ c r, (s.sheaf i).chunks = c :: r → (u.sheaf i).regs = c.ckpt ∧ (u.sheaf i).pend = .idle)
            ∧ ((s.sheaf i).chunks = [] → (u.sheaf i).regs = ((s.settleNw i).sheaf i).regs
              ∧ (u.sheaf i).pend = match (s.sheaf i).pend with | .fence r a y n => .fence r a y n | _ => .idle))))
  ∧ (∀ (s : State) (val : W64) (t : Nat) (tm : Team), s.open' = true → SheavesTidy s →
    s.teams.find? (fun p => p.2.ctx = val.toNat % 2 ^ 16 && p.2.index = val.toNat / 2 ^ 32 && p.2.status = .swapped) = some (t, tm) →
    (val.getLsbD 16 = false → exec (.tresumeWrite val) s =
      .next ({ s with tresume := val &&& 0xFFFFFFFF0001FFFF }.updTeam t (fun m => { m with status := .resumed })))
    ∧ (∀ tr p eng, val.getLsbD 16 = true → tm.fault = some (tr, p, eng) → ∃ u, exec (.tresumeWrite val) s = .next u ∧ tm.ctx ∈ u.ended))
  ∧ (∀ (s : State) (t : Nat), SheavesTidy s →
    let tm := s.team t
    let ids := s.running t
    (tm.status ≠ .resident → exec (.preemptRequest t) s = .next s)
    ∧ (tm.status = .resident → ∃ u, exec (.preemptRequest t) s = .next u ∧ (u.team t).preq = true ∧ u.mem = s.mem
        ∧ (∀ i, (u.sheaf i).regs = (s.sheaf i).regs ∧ (u.sheaf i).chunks = (s.sheaf i).chunks)
        ∧ (∀ i ∈ s.sheavesOf t, (u.sheaf i).closeNext = (s.sheaf i).openChunk?.isSome
          ∧ ∀ l, SMap.get? (u.sheaf i).waits l = match SMap.get? (s.sheaf i).waits l with | some (.sleep _) => none | w => w)
        ∧ (∀ i, i ∉ s.sheavesOf t → u.sheaf i = s.sheaf i))
    ∧ (tm.preq = true → tm.status = .resident → ∃ u, exec (.preemptionLimitExpire t) s = .next u ∧ (u.team t).preq = false
        ∧ u.out = s.out ++ [.limitReport t] ∧ (∀ i ∈ s.sheavesOf t, (u.sheaf i).parked = none ∧ (u.sheaf i).regs = (s.sheaf i).regs) ∧ u.mem = s.mem)
    ∧ (tm.preq = false → exec (.preemptionLimitExpire t) s = .next s)
    ∧ (∀ k, tm.preq = true → tm.status = .resident → ids ≠ [] → tm.cmds = [] → s.teamRuns t = true → s.freeArea t = some k →
        (∀ i ∈ ids, (s.sheaf i).parked ≠ none ∧ (s.sheaf i).uncommitted = false) →
        (∀ i ∈ ids, ∃ e ∈ tm.hdr.sptab, tm.hdr.sptab.find? (fun e => some (BitVec.ofNat 56 e.1) = (s.sheaf i).parked && decide (e.1 < 2 ^ 56)) = some e
          ∧ s.targetBad (s.sheaf i).core tm.ctx e.2.1 = false) →
        ∃ u, exec (.saveRoutineStart t) s = .next u ∧ (u.team t).status = .saving ∧ (u.team t).area = some k
          ∧ (u.team t).savea = (s.desc tm.ctx 511 456 + k * 2 ^ (s.desc tm.ctx 388 384)) % 2 ^ 56 ∧ u.mem = s.mem
          ∧ (∀ i ∈ ids, (u.sheaf i).parked = none ∧ (u.sheaf i).hm = false ∧ (u.sheaf i).regs.routine = true
            ∧ (∀ e, tm.hdr.sptab.find? (fun e => some (BitVec.ofNat 56 e.1) = (s.sheaf i).parked && decide (e.1 < 2 ^ 56)) = some e →
                ∀ l, l < tm.hdr.width → Mask.has (s.live i) l = true → (u.sheaf i).regs.pcOf l = BitVec.ofNat 56 e.2.1)
            ∧ RegsFrame { (s.sheaf i).regs with routine := true } (u.sheaf i).regs [] [] [])
          ∧ (∀ i, i ∉ ids → u.sheaf i = s.sheaf i))
    ∧ (tm.status = .saving → tm.cmds = [] → (∀ i ∈ ids, s.live i = 0 ∧ (s.sheaf i).uncommitted = false ∧ (s.sheaf i).pend = .idle) →
        ∃ u, exec (.teamSuspend t) s = .next u ∧ (u.team t).status = .suspended ∧ (u.team t).preq = false ∧ (u.team t).sp = [] ∧ (u.team t).tiles = []
          ∧ (u.team t).bars = tm.bars ∧ (u.team t).ctrs = tm.ctrs
          ∧ (∀ i ∈ ids, (u.sheaf i).ext = (s.sheaf i).ext ∧ (u.sheaf i).regs.allow = (s.sheaf i).regs.allow ∧ (u.sheaf i).chunks = [])))
  ∧ (∀ (s : State) (a b c : Nat),
    let x := s.sheaf a
    let w := (s.team x.team).hdr.width
    let counts := fun (u : State) (k : Nat) => u.tele.getD k 0 = (if s.tele.getD k 0 = 0xFFFFFFFFFFFFFFFF then 0xFFFFFFFFFFFFFFFF else s.tele.getD k 0 + 1)
      ∧ ∀ j, j < 6 → j ≠ k → u.tele.getD j 0 = s.tele.getD j 0
    (∃ u, exec (.softError 0 a b c) s = .next u ∧ counts u 0 ∧ u = { s with tele := u.tele })
    ∧ (∃ u, exec (.softError 1 a b c) s = .next u ∧ counts u 1 ∧ u = { s with tele := u.tele })
    ∧ (SMap.get? s.sheaves a ≠ none → c < w → c < 64 → ∃ u, exec (.softError 2 a b c) s = .next u
        ∧ lane ((u.sheaf a).regs.vreg b).sh c 0 = 0xFFFF ∧ (∀ l, l < w → l ≠ c → lane ((u.sheaf a).regs.vreg b).sh l 0 = lane (x.regs.vreg b).sh l 0)
        ∧ ((x.regs.vreg b).wf = true → lane ((u.sheaf a).regs.vreg (b / 2 * 2)).sh c 0 = 0xFFFF ∧ lane ((u.sheaf a).regs.vreg (b / 2 * 2 + 1)).sh c 0 = 0xFFFF)
        ∧ (∀ n, ((u.sheaf a).regs.vreg n).val = (x.regs.vreg n).val ∧ ((u.sheaf a).regs.vreg n).tag = (x.regs.vreg n).tag))
    ∧ (SMap.get? s.sheaves a ≠ none → ∃ u, exec (.softError 3 a b c) s = .next u ∧ ((u.sheaf a).regs.vreg b).tag = .raw
        ∧ (∀ l, l < w → l < 64 → lane ((u.sheaf a).regs.vreg b).sh l 0 = 0xFFFF))
    ∧ (∀ (site n : Nat) (k : Chunk), site = 2 ∨ site = 3 → SMap.get? s.sheaves a ≠ none → (x.regs.vreg b).wf = false → x.chunks[n]? = some k →
        c < w → c < 64 → ∃ u d, exec (.softError site a b c) s = .next u ∧ (u.sheaf a).chunks[n]? = some d ∧ d = { k with ckpt := d.ckpt }
          ∧ ((∀ e ∈ x.chunks.drop n, b ∉ e.vregs) → lane (d.ckpt.vreg b).sh c 0 = 0xFFFF ∧ (d.ckpt.vreg b).val = (k.ckpt.vreg b).val)
          ∧ ((∃ e ∈ x.chunks.drop n, b ∈ e.vregs) → d.ckpt = k.ckpt))
    ∧ (SMap.get? s.sheaves a ≠ none → ∃ u, exec (.softError 4 a b c) s = .next u ∧ ((u.sheaf a).regs.sreg b).bnd = 0xFFFFFFFF
        ∧ ((u.sheaf a).regs.sreg b).val = (x.regs.sreg b).val ∧ ((u.sheaf a).regs.sreg b).tag = (x.regs.sreg b).tag)
    ∧ (∀ n k, SMap.get? s.sheaves a ≠ none → x.chunks.findIdx? (fun k => k.id = b) = some n → x.chunks[n]? = some k →
        ∃ u, exec (.softError 5 a b c) s = .next u ∧ (u.sheaf a).regs = k.ckpt ∧ (u.sheaf a).chunks.length = n + 1)
    ∧ (∃ u, exec (.softError 6 a b c) s = .next u ∧ (u.line (.mem a)).poison = true ∧ counts u 2 ∧ (∀ k, k ≠ a → u.line (.mem k) = s.line (.mem k)))
    ∧ (∃ u, exec (.softError 7 a b c) s = .next u ∧ (u.line (.sp a b)).poison = true ∧ counts u 2 ∧ u.mem = s.mem)
    ∧ (∃ u, exec (.softError 8 a b c) s = .next u ∧ u.sheaves = s.sheaves ∧ u.mem = s.mem
        ∧ (∀ ctx bs, (ctx, b / 64, bs) ∈ (s.core a).icache → ∃ bs', (ctx, b / 64, bs') ∈ (u.core a).icache ∧ bs'.getD 0 0 = bs.getD 0 0 ^^^ 1))
    ∧ (SMap.get? s.sheaves a ≠ none → ∃ u, exec (.softError 9 a b c) s = .next u ∧ (s.team x.team).ctx ∈ u.ended)
    ∧ (SheavesTidy s → ∃ u, exec (.softError 10 a b c) s = .next u ∧ a ∈ u.ended)
    ∧ (∀ d, SMap.get? s.remHeld a = some d → ∃ u, exec (.softError 11 a b c) s = .next u ∧ counts u 2 ∧ (u.line (.rem a)).poison = true
        ∧ u.sheaves = s.sheaves ∧ u.mem = s.mem)
    ∧ (∀ d, SMap.get? s.sysHeld a = some d → ∃ u, exec (.softError 12 a b c) s = .next u ∧ counts u 2 ∧ (u.sysHalf a).poison = true
        ∧ u.sheaves = s.sheaves ∧ u.mem = s.mem))
  ∧ (∀ (s : State) (d : Nat),
    (s.dieAbsent d = true → exec (.dieLoss d) s = .next s)
    ∧ (s.open' = true → d < Config.dies → s.dieAbsent d = false → SheavesTidy s → ∃ u, exec (.dieLoss d) s = .next u
        ∧ u.absent = s.absent ||| BitVec.ofNat 8 (2 ^ d) ∧ .msix 267 ∈ u.out ∧ ∀ ctx ∈ s.touching d, ctx ∈ u.ended))

/-! The launch unit (R269 to R280, R286, R287). -/

/-- TEAM_PLACE starts the distributor's choice on a core that can take it, or brings a returning team back; SHEAF_END, TEAM_END and the completion of a
launch with its word; DOORBELL and the descriptor writes; the packets KERNEL, WAIT and SIGNAL at the head of a queue, well-formed or not, a packet
that cannot be read, and the packet of a child, well-formed or not, with the child's becoming ready. A malformed packet is recorded with the lowest of
the codes it has; a read that meets a lost die ends the context instead (R307). When a packet's header is read (log 65), the codes of failures
R273 does not list and the TYPE beside code 0x09 (log 66), the unit's scopes (log 67), what a child's SEQ waits for (log 68), the choice of a core
(log 69), the instruction caches' start with a launch (log 99) and what makes a context descriptor malformed (log 120) are the model's choices. -/
def Obligations.LaunchEventsComplete : Prop :=
  (∀ (s : State) (t core : Nat), s.placeChoice = some t → s.fits t core = true → t < s.nextId →
    let m := s.team t
    let l := s.launch m.launch
    let q := s.queue l.queue
    (m.status = .waiting → ∃ v w : State, exec (.teamPlace t core) s = .next (if w.targetBad core m.ctx m.hdr.entry
          then w.endContext (startFrame m.hdr.entry m.hdr.width) t core 0 else w)
        ∧ (v.team t).status = .resident ∧ (v.team t).core = core ∧ (v.launch m.launch).started = l.started + 1
        ∧ (∀ k, k < m.sheaves → let x : Sheaf := v.sheaf (s.nextId + 1 + k)
            x.team = t ∧ x.idx = k ∧ x.core = core + (placeOf m.hdr.pair k).1 ∧ x.quad = (placeOf m.hdr.pair k).2
            ∧ x.regs = { allow := m.hdr.allow, pc := List.replicate m.hdr.width (BitVec.ofNat 56 m.hdr.entry) }
            ∧ x.chunks = [] ∧ x.frame = {} ∧ x.ext = 0 ∧ x.hm = false ∧ x.ended = false)
        ∧ (l.started + 1 < l.total → (v.team (s.nextId + 1 + m.sheaves)).status = .waiting ∧ (v.team (s.nextId + 1 + m.sheaves)).index = l.started + 1
            ∧ (v.team (s.nextId + 1 + m.sheaves)).launch = m.launch)
        ∧ (l.started = 0 → l.child = false → w = v.consume l.queue 0x01 ∧ (w.queue l.queue).ridx = q.ridx + 1)
        ∧ (l.started ≠ 0 ∨ l.child = true → w = v ∧ (w.queue l.queue).ridx = q.ridx)
        ∧ ((∀ p ∈ s.teams, p.1 ≠ t → p.2.launch = m.launch → p.2.status = .waiting) → (v.core core).icache = []))
    ∧ (m.status = .resumed ∨ m.status = .suspended → ∃ v : State, v = { s with queues := v.queues, nextId := s.nextId + 1, mem := v.mem, hints := v.hints, cores := v.cores }
        ∧ exec (.teamPlace t core) s = .next (if m.status = .resumed then v.resumeTeam t core else v.restoreTeam t core)))
  ∧ (∀ (s : State) (t core : Nat), SheavesTidy s →
    let m := s.team t
    let a := s.swapAddr m.ctx (m.slot.getD 0)
    let placed := fun (u : State) (st : TeamStatus) => (u.team t).status = st ∧ (u.team t).core = core
      ∧ ∀ i ∈ s.running t, (u.sheaf i).core = core + (placeOf m.hdr.pair (s.sheaf i).idx).1 ∧ (u.sheaf i).quad = (placeOf m.hdr.pair (s.sheaf i).idx).2
    let startAt := fun (i : Nat) => ((m.hdr.sptab.find? (fun e => e.1 = ((m.restore.find? (fun e => e.1 = i)).map (·.2)).getD 0)).map (fun e => e.2.2)).getD 0
    let seated := (s.seatSheaves t core).updTeam t (fun y => { y with core := core, status := .resident })
    (s.slotOk a = true → placed (s.resumeTeam t core) (if m.inSave then .saving else .resident) ∧ ((s.resumeTeam t core).team t).slot = none ∧ ((s.resumeTeam t core).team t).fault = none
      ∧ (∀ c ∈ ((s.resumeTeam t core).team t).cmds, c.stopped = false) ∧ ∀ i, ((s.resumeTeam t core).sheaf i).regs = (s.sheaf i).regs)
    ∧ ((∀ i ∈ s.running t, seated.targetBad (seated.sheaf i).core m.ctx (startAt i) = false) → placed (s.restoreTeam t core) .resident
      ∧ ∀ i ∈ s.running t, ((s.restoreTeam t core).sheaf i).regs.pc = List.replicate m.hdr.width (BitVec.ofNat 56 (startAt i))
        ∧ ((s.restoreTeam t core).sheaf i).regs.routine = true))
  ∧ (∀ (s : State) (t core : Nat), s.placeChoice ≠ some t → exec (.teamPlace t core) s = .next s)
  ∧ (∀ (s : State) (i : Nat),
    let x := s.sheaf i
    (s.live i ≠ 0 → exec (.sheafEnd i) s = .next s)
    ∧ ((s.team x.team).inSave = true → exec (.sheafEnd i) s = .next s)
    ∧ (SMap.get? s.sheaves i ≠ none → x.ended = false → (s.team x.team).inSave = false → s.live i = 0 → x.uncommitted = false → x.pend = .idle →
      ∃ u, exec (.sheafEnd i) s = .next u ∧ (u.sheaf i).ended = true ∧ (u.sheaf i).eps = [] ∧ (u.sheaf i).ext = 0 ∧ (u.sheaf i).regs = x.regs
        ∧ u.mem = s.mem ∧ (∀ q g, SMap.get? (u.core x.core).gather q = some g → g.sheaf ≠ i) ∧ ∀ e ∈ (u.team x.team).xq, e.1 ≠ i))
  ∧ (∀ (s : State) (t : Nat),
    let m := s.team t
    let l := s.launch m.launch
    let allDone := m.status = .resident ∧ s.sheavesOf t ≠ [] ∧ (∀ i ∈ s.sheavesOf t, (s.sheaf i).ended = true) ∧ m.cmds = []
    (¬ allDone → exec (.teamEnd t) s = .next s)
    ∧ (allDone → l.ended + 1 < l.total → ∃ u, exec (.teamEnd t) s = .next u ∧ (u.team t).status = .ended ∧ u.sheavesOf t = []
        ∧ (u.launch m.launch).ended = l.ended + 1 ∧ (u.launch m.launch).completed = l.completed ∧ u.mem = s.mem ∧ u.queues = s.queues)
    ∧ (allDone → l.total ≤ l.ended + 1 → s.sysReleased = true → l.done = 0 → ∃ u, exec (.teamEnd t) s = .next u ∧ (u.team t).status = .ended
        ∧ (u.launch m.launch).ended = l.ended + 1 ∧ (u.launch m.launch).completed = true ∧ u.green = [] ∧ u.mem = s.mem
        ∧ (l.child = false → ∀ r ∈ (u.queue l.queue).running, r.2 ≠ m.launch))
    ∧ (∀ pa, allDone → l.total ≤ l.ended + 1 → s.sysReleased = true → l.done ≠ 0 → s.luFree l.ctx l.done = true → MemCanonical s →
        s.luLoc l.ctx l.done .atomic = some ⟨.mem (pa / 128), pa % 128, pa, none⟩ → pa % 8 = 0 →
        ∃ u, exec (.teamEnd t) s = .next u ∧ (u.launch m.launch).completed = true ∧ u.rd64 pa = (s.rd64 pa + (2 ^ 64 - 1)) % 2 ^ 64))
  ∧ (∀ (s : State) (off size q : Nat) (val : W64), off = 64 * q → q < 256 → s.phase = 5 → size = 8 →
    let x := s.queue q
    (x.en = false → exec (.doorbell off size val) s = .next (s.setQueue q { x with recorded := some val.toNat }))
    ∧ (x.en = true → s.descOk x.ctx = true → x.widx ≤ val.toNat → val.toNat ≤ x.ridx + x.slots →
      exec (.doorbell off size val) s = .next (s.setQueue q { x with widx := val.toNat }))
    ∧ (x.en = true → s.descOk x.ctx = true → val.toNat < x.widx ∨ x.ridx + x.slots < val.toNat → ∃ u, exec (.doorbell off size val) s = .next u
      ∧ u = (if x.ridx < x.widx then s.tookPacket q else s).haltQueue q x.ridx 0x09 (s.headType q) val.toNat
      ∧ (u.queue q).halt = true ∧ .msix q ∈ u.out ∧ (u.queue q).widx = x.widx))
  ∧ (∀ (s : State) (off size : Nat) (val : W64), s.phase ≠ 5 ∨ size ≠ 8 ∨ off % 64 ≠ 0 ∨ 256 ≤ off / 64 → exec (.doorbell off size val) s = .next s ∧ s.readDoorbell off = 0)
  ∧ (∀ (s : State) (q : Nat) (val : W64), q < 256 → s.open' = true →
    let x := s.queue q
    (∃ u, exec (.qd0Write q val) s = .next u ∧ (u.queue q).en = val.getLsbD 63
      ∧ (x.halt = false → x.en = true ∨ val.getLsbD 63 = false ∨ x.recorded = none ∨ s.phase = 6 → (u.queue q).halt = false)
      ∧ (∀ w, x.halt = false → x.en = false → val.getLsbD 63 = true → x.recorded = some w → s.phase = 5 → s.descOk (val.toNat / 2 ^ 32 % 2 ^ 16) = true →
          x.widx ≤ w → w ≤ x.ridx + x.slots → (u.queue q).widx = w ∧ (u.queue q).recorded = none ∧ (u.queue q).halt = false)
      ∧ (x.halt = true → val.getLsbD 62 = true → (u.queue q).halt = true)
      ∧ (u.queue q).ctx = val.toNat / 2 ^ 32 % 2 ^ 16 ∧ (u.queue q).prio = val.toNat / 2 ^ 60 % 4 ∧ (u.queue q).pmask = val.toNat / 2 ^ 52 % 2 ^ 8)
    ∧ (val.toNat % 64 < 6 ∨ 30 < val.toNat % 64 → exec (.qd1Write q val) s = .next s)
    ∧ (6 ≤ val.toNat % 64 → val.toNat % 64 ≤ 30 → ∃ u, exec (.qd1Write q val) s = .next u ∧ (u.queue q).slots = 2 ^ (val.toNat % 64 - 6)
      ∧ (u.queue q).base = val.toNat / 64 % 2 ^ 50 * 64 ∧ (∀ k, k ≠ q → u.queue k = s.queue k)))
  ∧ (∀ (s : State) (q : Nat),
    let x := s.queue q
    let s1 := s.tookPacket q
    (s.headPacket q = none → exec (.kernelPkt q) s = .next s ∧ exec (.waitPkt q) s = .next s ∧ exec (.waitPoll q) s = .next s
      ∧ exec (.signalPkt q) s = .next s)
    ∧ (∀ p, s.headPacket q = some (some p) → p % 256 = 0 ∨ 4 ≤ p % 256 → exec (.kernelPkt q) s = .next (s1.haltQueue q x.ridx 0x01 (p % 256) 0))
    ∧ (s.headPacket q = some none → exec (.kernelPkt q) s = .next (s1.haltAccess q x.ridx 0 (x.slotVa x.ridx) .load))
    ∧ (∀ p hd, s.headPacket q = some (some p) → p % 256 = 1 →
      let s1 := (s1.tookDep x.ctx (bitsAt p 375 320)).tookHeader x.ctx (bitsAt p 183 128)
      kernelCodes p = [] → x.pmask.testBit (bitsAt p 14 12) = true →
      s.partOk (bitsAt p 14 12) = true → (p.testBit 8 = false ∨ x.running = []) → s1.depMet x.ctx (bitsAt p 375 320) = true →
      s1.readHeader x.ctx (bitsAt p 183 128) (bitsAt p 100 96 + 1) = ([], hd) →
      ∃ u, exec (.kernelPkt q) s = .next u ∧ u.launch s.nextId = launchOf p hd q x.ridx x.prio x.ctx false []
        ∧ (u.queue q).taken = x.ridx + 1 ∧ (u.queue q).running = x.running ++ [(x.ridx, s.nextId)] ∧ (u.queue q).ridx = x.ridx
        ∧ (u.team (s.nextId + 1)).status = .waiting ∧ (u.team (s.nextId + 1)).launch = s.nextId ∧ (u.team (s.nextId + 1)).index = 0
        ∧ (u.team (s.nextId + 1)).sheaves = bitsAt p 100 96 + 1 ∧ x.ctx ∉ u.ended)
    ∧ (∀ p, s.headPacket q = some (some p) → p % 256 = 1 →
        let reserved := bitsAt p 511 440 ≠ 0 ∨ bitsAt p 383 376 ≠ 0 ∨ bitsAt p 319 312 ≠ 0 ∨ bitsAt p 255 248 ≠ 0 ∨ bitsAt p 191 184 ≠ 0
          ∨ bitsAt p 127 101 ≠ 0 ∨ p.testBit 15 = true ∨ bitsAt p 11 9 ≠ 0
        let extent := bitsAt p 95 80 = 0 ∨ bitsAt p 79 64 = 0 ∨ bitsAt p 63 32 = 0
        let kobj := bitsAt p 183 128
        let done := bitsAt p 311 256
        let dep := bitsAt p 375 320
        let aligned := kobj % 64 = 0 ∧ done % 8 = 0 ∧ dep % 8 = 0
        let placeable := x.pmask.testBit (bitsAt p 14 12) = true ∧ s.partOk (bitsAt p 14 12) = true
        let s1 := (s1.tookDep x.ctx dep).tookHeader x.ctx kobj
        let unread := dep ≠ 0 ∧ dep % 8 = 0 ∧ s1.luTest x.ctx dep = none
        let head := (s1.readHeader x.ctx kobj (bitsAt p 100 96 + 1)).1
        let reads := (if unread then [(5, dep)] else []) ++ head
        let ready := (p.testBit 8 = false ∨ x.running = []) ∧ s1.depMet x.ctx dep = true
        let sound := ¬ reserved ∧ ¬ extent ∧ aligned ∧ placeable ∧ ¬ unread
        let halts := fun (c a : Nat) => exec (.kernelPkt q) s = .next (s1.haltQueue q x.ridx c 0x01 a)
        (∀ va, s1.lostRead x.ctx reads = some va → exec (.kernelPkt q) s = .next (s1.haltAccess q x.ridx 0x01 va .load))
        ∧ (s1.lostRead x.ctx reads = none →
          (reserved → halts 0x02 0)
          ∧ (¬ reserved → extent → halts 0x03 0)
          ∧ (¬ reserved → ¬ extent → ¬ aligned → halts 0x04 (if kobj % 64 ≠ 0 then kobj else if done % 8 ≠ 0 then done else dep))
          ∧ (∀ c, ¬ reserved → ¬ extent → aligned → ¬ sound ∨ ready →
              lowestCode ((if unread then [(5, dep)] else []) ++ head ++ (if placeable then [] else [(8, 0)])) = some c → halts c.1 c.2)
          ∧ (sound → ¬ ready → exec (.kernelPkt q) s = .next ((s.tookDep x.ctx dep).tookHeader x.ctx kobj))))
    ∧ (∀ p r, s.headPacket q = some (some p) → p % 256 = 2 → p / 2 ^ 192 = 0 → bitsAt p 127 120 = 0 → bitsAt p 63 12 = 0 → p.testBit 8 = false →
      bitsAt p 11 9 ≤ 3 → bitsAt p 119 64 % 8 = 0 →
      let cc := bitsAt p 11 9
      let v := sInt 64 (bitsAt p 191 128)
      let holds := fun (w : Nat) => match cc with | 0 => sInt 64 w = v | 1 => sInt 64 w ≠ v | 2 => sInt 64 w < v | _ => v ≤ sInt 64 w
      (x.waiting = false → s1.luTest x.ctx (bitsAt p 119 64) = some r → ∃ u, exec (.waitPkt q) s = .next u
        ∧ (holds r → (u.queue q).ridx = x.ridx + 1 ∧ (u.queue q).waiting = false)
        ∧ (¬ holds r → (u.queue q).ridx = x.ridx ∧ (u.queue q).waiting = true ∧ u.teams = s.teams))
      ∧ (x.waiting = true → s.luTest x.ctx (bitsAt p 119 64) = some r → ∃ u, exec (.waitPoll q) s = .next u
        ∧ (holds r → (u.queue q).ridx = x.ridx + 1 ∧ (u.queue q).waiting = false) ∧ (¬ holds r → (u.queue q).ridx = x.ridx ∧ (u.queue q).waiting = true)))
    ∧ (∀ p ev b, s.headPacket q = some (some p) → p % 256 = 2 →
      (ev = Instr.waitPkt q ∧ x.waiting = false ∧ b = s1) ∨ (ev = Instr.waitPoll q ∧ x.waiting = true ∧ b = s) →
      let addr := bitsAt p 119 64
      let reserved := p / 2 ^ 192 ≠ 0 ∨ bitsAt p 127 120 ≠ 0 ∨ bitsAt p 63 12 ≠ 0 ∨ p.testBit 8 = true ∨ 3 < bitsAt p 11 9
      let unread := addr % 8 = 0 ∧ b.luTest x.ctx addr = none
      let s2 := if addr % 8 = 0 then b.luSeen x.ctx addr else b
      let lost := unread ∧ s2.luLost x.ctx addr .load ≠ none
      let halts := fun (c a : Nat) => exec ev s = .next (s2.haltQueue q x.ridx c 0x02 a)
      (lost → exec ev s = .next (s2.haltAccess q x.ridx 0x02 addr .load))
      ∧ (¬ lost → reserved → halts 0x02 0) ∧ (¬ reserved → addr % 8 ≠ 0 → halts 0x04 addr) ∧ (¬ lost → ¬ reserved → unread → halts 0x05 addr))
    ∧ (∀ p, s.headPacket q = some (some p) → p % 256 = 3 →
      let addr := bitsAt p 119 64
      let reserved := p / 2 ^ 192 ≠ 0 ∨ bitsAt p 127 120 ≠ 0 ∨ bitsAt p 63 10 ≠ 0 ∨ p.testBit 8 = true
      let b : State := { s1 with green := [] }
      let goes := x.running = [] ∧ s.sysReleased = true ∧ s.luFree x.ctx addr = true
      (reserved → exec (.signalPkt q) s = .next (s1.haltQueue q x.ridx 0x02 0x03 0))
      ∧ (¬ reserved → addr % 8 ≠ 0 → exec (.signalPkt q) s = .next (s1.haltQueue q x.ridx 0x04 0x03 addr))
      ∧ (¬ reserved → addr % 8 = 0 → ¬ goes → exec (.signalPkt q) s = .next s)
      ∧ (∀ c, ¬ reserved → addr % 8 = 0 → goes → b.luWord x.ctx addr = some c →
        let old := leNat (((b.atomHome c.line).bytes.drop c.ofs).take 8)
        let new := if p.testBit 9 then old + bitsAt p 191 128 else bitsAt p 191 128
        ∃ u, exec (.signalPkt q) s = .next u ∧ u = ((b.luNote x.ctx addr c).luPut c (leBytes 8 (new % 2 ^ 64))).consume q 0x03
          ∧ (u.queue q).ridx = x.ridx + 1)
      ∧ (¬ reserved → addr % 8 = 0 → goes → b.luWord x.ctx addr = none →
        exec (.signalPkt q) s = .next ((b.luTried x.ctx addr).luFails x.ctx addr .atomic (fun a => a.haltQueue q x.ridx 0x05 0x03 addr)))))
  ∧ (∀ (s : State) (q ty : Nat),
    let x := s.queue q
    let b := s.setQueue q { x with ridx := x.ridx + 1, taken := x.ridx + 1, waiting := false }
    let u := s.consume q ty
    (u.queue q).ridx = x.ridx + 1
    ∧ (∀ l, b.luLoc x.ctx x.ridxVa .store = some l → u = (b.luNote x.ctx x.ridxVa l).luPut l (leBytes 8 (x.ridx + 1)))
    ∧ (b.luLoc x.ctx x.ridxVa .store = none →
        u = (b.luTried x.ctx x.ridxVa).luFails x.ctx x.ridxVa .store (fun a => a.haltQueue q x.ridx 0x05 ty x.ridxVa)))
  ∧ (∀ (s : State) (q idx code ty addr : Nat),
    let x := s.queue q
    let u := s.haltQueue q idx code ty addr
    (u.queue q).halt = true ∧ (u.queue q).ridx = x.ridx ∧ .msix q ∈ u.out
    ∧ u = (s.setQueue q { x with d0 := x.d0 ||| 0x4000000000000000, waiting := false }).queueError q idx code ty addr)
  ∧ (∀ (s : State) (q idx code ty addr : Nat),
    let x := s.queue q
    let b := s.emit (.msix q)
    let u := s.queueError q idx code ty addr
    .msix q ∈ u.out
    ∧ (∀ l, b.luLoc x.ctx x.errVa .store = some l → u.queues = s.queues ∧ u = (b.luNote x.ctx x.errVa l).luPut l
        (leBytes 8 idx ++ leBytes 1 code ++ leBytes 1 ty ++ List.replicate 6 0 ++ leBytes 8 addr ++ List.replicate 8 0))
    ∧ (b.luLoc x.ctx x.errVa .store = none → u = (b.luTried x.ctx x.errVa).luFails x.ctx x.errVa .store id))
  ∧ (∀ (s : State) (ctx va : Nat) (a : Acc) (f : State → State),
    (s.luLost ctx va a = none → s.luFails ctx va a f = f s)
    ∧ (∀ d, s.luLost ctx va a = some d → ctx ∈ (s.luFails ctx va a f).ended ∧ s.luFails ctx va a f
        = s.endCtx (mkFrame { cause := cDIELOST, addr := BitVec.ofNat 64 va, akind := 1, die := d } 0 false false) ctx))
  ∧ (∀ (s : State) (l : Launch) (ty : Nat) (codes : List (Nat × Nat)),
    (∀ c, s.lostRead l.ctx codes = none → lowestCode codes = some c → s.childError l ty codes = s.queueError l.queue l.pkt c.1 ty c.2)
    ∧ (∀ va, s.lostRead l.ctx codes = some va → s.childError l ty codes = s.luFails l.ctx va .load id ∧ (5, va) ∈ codes
        ∧ s.luLost l.ctx va .load ≠ none))
  ∧ (∀ (s : State) (part : Nat) (c : Child) (rest : List Child), SMap.getD s.children part [] = c :: rest → s.open' = true →
    s.lostDep part = none → s.nowReady part = [] →
    let pl := s.launch c.parent
    let s1 := { s with children := SMap.set s.children part rest }
    let s2 := s1.luSeen pl.ctx c.va
    (s1.luRead pl.ctx c.va 64 = none → exec (.childPacketRead part) s = .next (s2.childError pl 0 [(5, c.va)]))
    ∧ (∀ p, s1.luRead pl.ctx c.va 64 = some p → p % 256 ≠ 1 →
        exec (.childPacketRead part) s = .next (s2.queueError pl.queue pl.pkt 0x01 (p % 256) 0))
    ∧ (∀ p, s1.luRead pl.ctx c.va 64 = some p → p % 256 = 1 →
      let dep := bitsAt p 375 320
      let placeable := bitsAt p 14 12 = part ∧ s.partOk part = true ∧ (s.queue pl.queue).pmask.testBit part = true
      let head := s2.readHeader pl.ctx (bitsAt p 183 128) (bitsAt p 100 96 + 1)
      let s3 := (s2.tookDep pl.ctx dep).tookHeader pl.ctx (bitsAt p 183 128)
      let codes := kernelCodes p ++ (if placeable then [] else [(8, 0)])
        ++ (if dep ≠ 0 ∧ dep % 8 = 0 ∧ s2.luTest pl.ctx dep = none then [(5, dep)] else []) ++ head.1
      (codes ≠ [] → exec (.childPacketRead part) s = .next (s3.childError pl 0x01 codes))
      ∧ (codes = [] →
        let l := launchOf p head.2 pl.queue pl.pkt c.prio pl.ctx true (if p.testBit 8 then (s.team c.team).lastChild else [])
        ∃ u, exec (.childPacketRead part) s = .next u ∧ SMap.getD u.children part [] = rest
          ∧ u.launch c.launch = { l with ready := s2.childMet l }
          ∧ (c.team < s.nextId → (u.team c.team).lastChild = (s.team c.team).lastChild ++ [c.launch])
          ∧ (u.team s.nextId).status = .waiting ∧ (u.team s.nextId).launch = c.launch ∧ u.sheaves = s.sheaves)))
  ∧ (∀ (s : State) (part : Nat),
    (SMap.getD s.children part [] = [] → s.lostDep part = none → s.nowReady part = [] → exec (.childPacketRead part) s = .next s)
    ∧ (∀ l, l ∈ s.nowReady part ↔ ∃ x, (l, x) ∈ s.launches ∧ x.child = true ∧ x.part = part ∧ x.ready = false
        ∧ (∀ k ∈ x.after, (s.launch k).completed = true ∨ SMap.get? s.launches k = none)
        ∧ (x.dep = 0 ∨ ∃ v, s.luTest x.ctx x.dep = some v ∧ sInt 64 v ≤ 0))
    ∧ (s.open' = true → s.lostDep part = none → s.nowReady part ≠ [] → ∃ u, exec (.childPacketRead part) s = .next u
        ∧ (∀ l ∈ s.nowReady part, u.launch l = { s.launch l with ready := true }) ∧ (∀ l, l ∉ s.nowReady part → u.launch l = s.launch l)
        ∧ u.children = s.children ∧ u.teams = s.teams)
    ∧ (∀ p ∈ s.launches, p.2.child = true → p.2.part = part → p.2.started = 0 → p.2.ready = false → p.2.dep ≠ 0 → s.luTest p.2.ctx p.2.dep = none →
        s.lostDep part ≠ none)
    ∧ (∀ l, s.lostDep part = some l → ∃ x, (l, x) ∈ s.launches ∧ x.ready = false ∧ x.started = 0)
    ∧ (∀ l, s.open' = true → s.lostDep part = some l → ∃ u, exec (.childPacketRead part) s = .next u ∧ SMap.get? u.launches l = none
        ∧ (∀ p ∈ u.teams, p.2.launch = l → p.2.status ≠ .waiting)
        ∧ (u.children = s.children ∨ (s.launch l).ctx ∈ u.ended ∨ (s.queue (s.launch l).queue).ctx ∈ u.ended)))
  ∧ (∀ (s : State) (t : Nat), (s.team t).status = .waiting → (s.launch (s.team t).launch).child = true →
    (s.launchOpen t = true ↔ 0 < (s.launch (s.team t).launch).started ∨ (s.launch (s.team t).launch).ready = true))
  ∧ (∀ l : List (Nat × Nat), (l = [] → lowestCode l = none) ∧ ∀ c, lowestCode l = some c → c ∈ l ∧ ∀ e ∈ l, c.1 ≤ e.1)

/-! Partitions, invalidations, the host and the pools (R179, R305, R310 to R317, R340, R341). -/

/-- PARTCFG, PARTSW and the switch it starts; TLBICMD and what a completed invalidation leaves; reads and writes of the host at the green, a snoop or a
back-invalidation of a held half, evictions; a remote or system access that times out is over, without effect, and ends its context. A write of the
host is published at the green. An address that stands for nothing (log 7), which line an eviction takes (log 53), which fetches a chunk has used
(log 54), the numbering of the partitions (log 70), what a switch waits for (log 74) and the range of an unaligned VA (log 114) are the model's
choices. -/
def Obligations.HostAndPartitionEventsComplete : Prop :=
  (∀ (s : State) (val : W64),
    let takes := s.open' = true ∧ (∀ p ∈ s.parts, p.2.ctx = none) ∧ val.toNat / 8 % 16 ≤ 8
    (takes → exec (.partcfg val) s = .next { s with partcfg := val &&& 0x7B }) ∧ (¬ takes → exec (.partcfg val) s = .next s))
  ∧ (∀ (s : State) (p : Nat) (val : W64), SheavesTidy s →
    let x := s.part p
    (x.busy = true ∨ s.nparts ≤ p ∨ s.open' = false → exec (.partsw p val) s = .next s)
    ∧ (x.busy = false → p < s.nparts → s.open' = true → ∃ u, exec (.partsw p val) s = .next u
        ∧ u.part p = { x with busy := val.getLsbD 63, idle := val.getLsbD 62, next := val.toNat / 2 ^ 32 % 2 ^ 16 } ∧ (∀ q, q ≠ p → u.part q = s.part q)
        ∧ (∀ i ∈ s.partSheaves p, val.getLsbD 63 = true → ∀ c, (s.sheaf i).openChunk? = some c → (u.sheaf i).regs = c.ckpt
            ∧ (u.sheaf i).chunks.length = (s.sheaf i).chunks.length)
        ∧ (val.getLsbD 63 = false → u.sheaves = s.sheaves) ∧ u.mem = s.mem ∧ u.teams = s.teams))
  ∧ (∀ (s : State) (p : Nat),
    let x := s.part p
    (x.busy = false ∨ s.partHalted p = false → exec (.partitionSwitchDone p) s = .next s)
    ∧ (x.busy = true → s.partHalted p = true → ∃ u, exec (.partitionSwitchDone p) s = .next u
        ∧ u.part p = { x with busy := false, staged := s.stages p, ctx := if x.idle then none else some x.next }
        ∧ u.out = s.out ++ [.msix 266] ∧ u.teams = s.teams ∧ u.mem = s.mem
        ∧ ∀ i, (u.sheaf i).regs = if i ∈ s.partSheaves p then ((s.settleNw i).sheaf i).regs else (s.sheaf i).regs))
  ∧ (∀ (s : State) (val : W64),
    (s.tlbicmd.getLsbD 63 = true ∨ s.open' = false → exec (.tlbicmd val) s = .next s)
    ∧ (s.tlbicmd.getLsbD 63 = false → s.open' = true → ∃ u, exec (.tlbicmd val) s = .next u ∧ u = { s with tlbicmd := u.tlbicmd }
      ∧ u.tlbicmd.extractLsb' 0 10 = val.extractLsb' 0 10 &&& 0x33F ∧ u.tlbicmd.extractLsb' 16 16 = val.extractLsb' 16 16
      ∧ u.tlbicmd.getLsbD 63 = (val.getLsbD 63 && decide (val.extractLsb' 8 2 ≠ 3))))
  ∧ (∀ s : State, s.tlbicmd.getLsbD 63 = true → (∀ p ∈ s.pubs, p.cmd = none) → (∀ f ∈ s.flights, f.cmd = none) →
    ∃ u, exec .tlbInvalidateDone s = .next u ∧ u.tlbicmd = s.tlbicmd &&& 0x7FFFFFFFFFFFFFFF ∧ u.mem = s.mem ∧ u.teams = s.teams
      ∧ (∀ c e, e ∈ (u.core c).tlb ↔ e ∈ (s.core c).tlb ∧ s.tlbiCovers e.ctx (e.page * 2 ^ e.bits) ((e.page + 1) * 2 ^ e.bits) = false)
      ∧ (∀ c e, e ∈ (u.core c).regions ↔ e ∈ (s.core c).regions ∧ s.tlbiCovers e.ctx e.base (e.base + e.size) = false)
      ∧ (∀ c e, e ∈ (u.core c).icache ↔ e ∈ (s.core c).icache ∧ s.tlbiCovers e.1 (64 * e.2.1) (64 * e.2.1 + 64) = false)
      ∧ (∀ e, e ∈ u.gtlb ↔ e ∈ s.gtlb ∧ s.tlbiCovers e.ctx (e.page * 2 ^ e.bits) ((e.page + 1) * 2 ^ e.bits) = false)
      ∧ (∀ i, match (s.sheaf i).chunks.findIdx? (s.chunkDropped i) with
          | none => (u.sheaf i).regs = (s.sheaf i).regs
          | some n => SheavesTidy s → ∃ k, (s.sheaf i).chunks[n]? = some k ∧ (u.sheaf i).regs = k.ckpt))
  ∧ (∀ s : State, s.tlbicmd.getLsbD 63 = false → exec .tlbInvalidateDone s = .next s)
  ∧ (∀ (s : State) (pa size : Nat), 4 ≤ s.phase → s.phase ≤ 6 →
    let ok := s.localOk pa = true ∧ s.localOk (pa + size - 1) = true
    let lost := match paDie pa with | some d => s.dieAbsent d | none => false
    (¬ ok → exec (.hostRead pa size) s = .fault (.noSuchAddress pa))
    ∧ (ok → lost = true → exec (.hostRead pa size) s = .next { s with out := s.out ++ [.data [] true] })
    ∧ (ok → lost = false → ∃ bs poison, exec (.hostRead pa size) s = .next { s with out := s.out ++ [.data bs poison] } ∧ bs.length = size
        ∧ (s.green = [] → (∀ k, k < size → bs.getD k 0 = Memory.get s.mem (pa + k))
          ∧ (poison = true ↔ ∃ k, k < size ∧ SMap.getD s.poison ((pa + k) / 128) false = true))))
  ∧ (∀ (s : State) (pa size : Nat) (bs : List Byte) (poison : Bool), s.phase < 4 ∨ 6 < s.phase →
    exec (.hostRead pa size) s = .next s ∧ exec (.hostWrite pa bs poison) s = .next s)
  ∧ (∀ (s : State) (pa : Nat) (bs : List Byte) (poison : Bool), 4 ≤ s.phase → s.phase ≤ 6 → bs ≠ [] →
    let ok := s.localOk pa = true ∧ s.localOk (pa + bs.length - 1) = true
    let lost := match paDie pa with | some d => s.dieAbsent d | none => false
    (paSystem pa = true → exec (.hostWrite pa bs poison) s = .next (s.ownerWrite pa bs poison))
    ∧ (paSystem pa = false → ¬ ok → exec (.hostWrite pa bs poison) s = .fault (.noSuchAddress pa))
    ∧ (paSystem pa = false → ok → lost = true → exec (.hostWrite pa bs poison) s = .next s)
    ∧ (paSystem pa = false → ok → lost = false → ∃ ws : List LineWrite, exec (.hostWrite pa bs poison) s =
          .next { s with pubs := s.pubs ++ ws.map (fun w => { w := w, green := true }) }
        ∧ (∀ w ∈ ws, w.untracked = true ∧ ∃ n, w.line = .mem n)
        ∧ (∀ n k, k < 128 → (overlay (s.line (.mem n)) (.mem n) ws).bytes.getD k 0 =
            if pa ≤ 128 * n + k ∧ 128 * n + k < pa + bs.length then bs.getD (128 * n + k - pa) 0 else (s.line (.mem n)).bytes.getD k 0)))
  ∧ (∀ (s : State) (pa key : Nat),
    (s.winTarget pa = some (0, key) → exec (.hostSnoop pa) s = .next (s.dropHalf (pa / 64)))
    ∧ (s.winTarget pa = some (1, key) → exec (.backInvalidate pa) s = .next (s.dropHalf (pa / 64)))
    ∧ ((∀ k, s.winTarget pa ≠ some (0, k)) → exec (.hostSnoop pa) s = .next s)
    ∧ ((∀ k, s.winTarget pa ≠ some (1, k)) → exec (.backInvalidate pa) s = .next s))
  ∧ (∀ (s : State) (k key : Nat) (x : SysHalf), MemCanonical s → SMap.get? s.sysHeld k = some x → x.bytes.length = 64 → x.key = some key →
    let u := s.dropHalf k
    SMap.get? u.sysHeld k = none ∧ (∀ j, j ≠ k → SMap.get? u.sysHeld j = SMap.get? s.sysHeld j)
    ∧ (x.dirty = true → Memory.read u.ext key 64 = x.bytes ∧ SMap.getD u.extPoison (key / 64) false = x.poison)
    ∧ (x.dirty = false → u.ext = s.ext) ∧ u.mem = s.mem ∧ u.sheaves = s.sheaves)
  ∧ (∀ (s : State) (n : Nat),
    exec (.lineEviction (3 * n)) s = .next { s with green := SMap.erase s.green n }
    ∧ exec (.lineEviction (3 * n + 1)) s = .next { s with remHeld := SMap.erase s.remHeld n }
    ∧ exec (.lineEviction (3 * n + 2)) s = .next (s.dropHalf n))
  ∧ (∀ (s : State) (id : Nat),
    let isOver := fun (u : State) (f : Flight) => (s.team f.team).ctx ∈ u.ended ∧ (∀ g ∈ u.flights, g.id ≠ id) ∧ u.ext = s.ext
    (∀ f, s.flights.find? (fun f => f.id = id && f.places.any paRemote) = some f → ∃ u, exec (.remoteTimeout id) s = .next u ∧ isOver u f)
    ∧ (s.flights.find? (fun f => f.id = id && f.places.any paRemote) = none → exec (.remoteTimeout id) s = .next s)
    ∧ (∀ f, s.flights.find? (fun f => f.id = id && f.places.any paSystem) = some f →
        ∃ u, exec (.systemAccessTimeout id) s = .next u ∧ isOver u f)
    ∧ (s.flights.find? (fun f => f.id = id && f.places.any paSystem) = none → exec (.systemAccessTimeout id) s = .next s))

/-! The fabric (R320 to R333). -/

/-- The ports: their counts, lanes, flits and keys; devices that come and go; a peer's load, store and atomic at this device's memory, and a reduction
group. A port that goes down hands its unacknowledged flits to another toward its neighbour, and the devices that no other port leads to depart; after a
refused flit no later one is accepted until it has come again, and the old key goes once every flit under it has been accepted; a peer's store and a
reduction are published at the green and acknowledged when they take effect, an ordered store in its turn; an atomic and a reduction are carried out
when their entry is published. An address that stands for nothing (log 7), the words of a key slot (log 11), a port's neighbour and the ports that lead
to a device (log 76), the ring of events (log 77), the condition of LINK_UP on both ends (log 102), when an operation is carried out (log 116) and that
flits are numbered (log 118) are the model's choices. -/
def Obligations.FabricEventsComplete : Prop :=
  (∀ (s : State) (p : Nat) (val : W64), s.open' = true → p < 128 →
    let x := s.port' p
    exec (.portstat p val) s = .next (s.setPort p { x with crcerr := 0, replay := 0 })
    ∧ (val.toNat % 4 = 1 → exec (.keycmd p val) s = .next (s.setPort p { x with txki := 1 - x.txki }))
    ∧ (val.toNat % 4 ≠ 1 → exec (.keycmd p val) s = .next s)
    ∧ (∀ nbr : Nat,
      (x.up = false → s.feat 0 4 = true → (p ∈ s.peerEnc ↔ s.feat 0 5 = true) → ∃ u, exec (.linkUp ⟨p, nbr⟩) s = .next u
          ∧ (u.port' p).up = true ∧ (u.port' p).fail = 0 ∧ (u.port' p).nbr = nbr ∧ (u.port' p).rxNum = 0 ∧ (u.port' p).newFrom = none ∧ .msix 264 ∈ u.out)
      ∧ (x.up = true ∨ s.feat 0 4 = false ∨ ¬(p ∈ s.peerEnc ↔ s.feat 0 5 = true) → exec (.linkUp ⟨p, nbr⟩) s = .next s)))
  ∧ (∀ (s : State) (p idx word : Nat) (rx : Bool) (val : W64), s.open' = true → p < 128 → idx ≤ 1 → word < 5 →
    let x := s.port' p
    (x.slotBusy rx idx = true → ∃ u, exec (.keySlotWrite p rx idx word val) s = .next u ∧ u.ports = s.ports ∧ .msix 264 ∈ u.out)
    ∧ (x.slotBusy rx idx = false → ∃ u, exec (.keySlotWrite p rx idx word val) s = .next u ∧ u = { s with ports := u.ports }
      ∧ (∀ q, q ≠ p → u.port' q = s.port' q)
      ∧ (let k := SMap.getD (if rx then (u.port' p).rx else (u.port' p).tx) idx {}
         let o := SMap.getD (if rx then x.rx else x.tx) idx {}
         SMap.get? k.words word = some val ∧ k.count = 0
          ∧ ∀ w, w ≠ word → SMap.get? k.words w = if o.whole then none else SMap.get? o.words w)
      ∧ (u.port' p).up = x.up ∧ (u.port' p).txki = x.txki ∧ (u.port' p).rxki = x.rxki))
  ∧ (∀ (s : State) (p : Nat),
    let x := s.port' p
    (x.up = true → exec (.flitReplay p) s = .next (s.setPort p { x with replay := min (x.replay + x.unacked.length) 0xFFFF }))
    ∧ (x.up = false → exec (.flitReplay p) s = .next s)
    ∧ (x.unacked = [] → exec (.flitAck p) s = .next s)
    ∧ (∀ f r, x.unacked = f :: r → ∃ u, exec (.flitAck p) s = .next u ∧ u = { s with ports := u.ports } ∧ (u.port' p).unacked = r
      ∧ ((f.key = x.txki ∨ ∃ g ∈ r, g.key = f.key) → (u.port' p).tx = x.tx)
      ∧ (f.key ≠ x.txki → (∀ g ∈ r, g.key ≠ f.key) → SMap.get? (u.port' p).tx f.key = none)))
  ∧ (∀ (s : State) (p num key : Nat) (crcOk tagOk : Bool),
    let x := s.port' p
    let ev := exec (.flitReceive ⟨p, num⟩ key crcOk tagOk) s
    let refused := s.feat 0 5 = true ∧ (tagOk = false ∨ (key ≠ x.rxki ∧ (SMap.getD x.rx key {}).whole = false))
    let seen := if key = x.rxki then x.newFrom else some (min num (x.newFrom.getD num))
    let y : Port := { x with newFrom := seen, tagfails := 0, rxNum := num + 1 }
    (x.up = false → ev = .next s)
    ∧ (x.up = true → crcOk = false → ev = .next (s.setPort p { x with crcerr := min (x.crcerr + 1) 0xFFFF }))
    ∧ (x.up = true → crcOk = true →
      (num < x.rxNum → ev = .next s)
      ∧ (x.rxNum < num → refused → ev = .next s)
      ∧ (x.rxNum < num → ¬ refused → ev = .next (s.setPort p { x with newFrom := seen }))
      ∧ (num = x.rxNum → refused → x.tagfails < 3 → ev = .next (s.setPort p { x with tagfails := x.tagfails + 1 }))
      ∧ (num = x.rxNum → refused → 3 ≤ x.tagfails → ∃ u, ev = .next u ∧ (u.port' p).up = false ∧ .msix 264 ∈ u.out)
      ∧ (∀ n, num = x.rxNum → ¬ refused → seen = some n → n ≤ num + 1 →
          ev = .next (s.setPort p { y with newFrom := none, rx := SMap.erase x.rx x.rxki, rxki := 1 - x.rxki }))
      ∧ (num = x.rxNum → ¬ refused → (∀ n, seen = some n → num + 1 < n) → ev = .next (s.setPort p y))))
  ∧ (∀ (s : State) (p n f : Nat),
    let x := s.port' p
    let k := SMap.getD x.tx x.txki {}
    let u := State.sendFlits (f + 1) p n s
    (s.feat 0 5 = false → u = s.setPort p { x with unacked := x.unacked ++ List.replicate n ⟨x.txki, 0⟩ })
    ∧ (s.feat 0 5 = true → k.count + n < 2 ^ 64 →
        (u.port' p).unacked = x.unacked ++ (List.range n).map (fun j => ⟨x.txki, k.count + j⟩)
        ∧ (SMap.getD (u.port' p).tx x.txki {}).count = k.count + n ∧ (u.port' p).up = x.up
        ∧ (k.count < 2 ^ 63 → 2 ^ 63 ≤ k.count + n → .msix 264 ∈ u.out))
    ∧ (s.feat 0 5 = true → k.count < 2 ^ 64 → 2 ^ 64 ≤ k.count + n → (u.port' p).up = false ∧ .msix 264 ∈ u.out))
  ∧ (∀ (s : State) (p lane : Nat),
    let x := s.port' p
    let f : BitVec 3 := x.fail ||| BitVec.ofNat 3 (2 ^ lane)
    (x.up = false ∨ 2 < lane ∨ x.fail.getLsbD lane = true → exec (.laneFail p lane) s = .next s)
    ∧ (x.up = true → lane ≤ 2 → x.fail.getLsbD lane = false → ∃ u, exec (.laneFail p lane) s = .next u
      ∧ (u.port' p).fail = f
      ∧ (x.fail = 0 → (u.port' p).width = 1 ∧ ((u.port' p).spared = true ↔ x.spared = true ∨ lane ≠ 2) ∧ (lane ≠ 2 → .msix 264 ∈ u.out))
      ∧ (x.fail ≠ 0 → f ≠ 7 → (u.port' p).width = 2 ∧ .msix 264 ∈ u.out)
      ∧ (f = 7 → (u.port' p).width = 0 ∧ .msix 264 ∈ u.out
        ∧ (let ways := fun (d : Nat) => SMap.getD s.routes d []
           let stranded := fun (d : Nat) => p ∈ ways d ∧ ∀ q ∈ ways d, q ≠ p → (s.port' q).up = false
           (∀ d ∈ s.peers, stranded d → d ∉ u.peers)
           ∧ (s.feat 0 5 = false → (∀ d ∈ s.peers, ¬ stranded d → d ∈ u.peers)
             ∧ ∀ o z, s.ports.find? (fun q => q.2.up && q.1 ≠ p && decide (q.2.nbr = x.nbr)) = some (o, z) →
                 (u.port' o).unacked = (s.port' o).unacked ++ List.replicate x.unacked.length ⟨(s.port' o).txki, 0⟩)))))
  ∧ (∀ (s : State) (dev : Nat),
    (∀ via : List Nat, s.open' = true → s.feat 0 4 = true → dev ≤ 1151 → dev ∉ s.peers →
      ((∃ p ∈ via, (s.port' p).up = true) → ∃ u, exec (.peerArrive ⟨dev, via⟩) s = .next u ∧ u.peers = s.peers ++ [dev]
        ∧ SMap.getD u.routes dev [] = via ∧ .msix 264 ∈ u.out)
      ∧ ((∀ p ∈ via, (s.port' p).up = false) → exec (.peerArrive ⟨dev, via⟩) s = .next s))
    ∧ (∀ p, s.outPort dev = some p → p ∈ SMap.getD s.routes dev [] ∧ ∃ x, (p, x) ∈ s.ports ∧ x.up = true)
    ∧ (dev ∈ s.peers → ∀ via, exec (.peerArrive ⟨dev, via⟩) s = .next s)
    ∧ (dev ∉ s.peers → exec (.peerDepart dev) s = .next s)
    ∧ (dev ∈ s.peers → ∃ u, exec (.peerDepart dev) s = .next u ∧ dev ∉ u.peers ∧ SMap.getD u.routes dev [] = [] ∧ .msix 264 ∈ u.out
      ∧ (∀ f ∈ s.flights, f.toDevice dev = true → (s.team f.team).ctx ∈ u.ended) ∧ (∀ f ∈ u.flights, f.toDevice dev = false)
      ∧ (∀ n, remDev (128 * n) = dev → SMap.get? u.remHeld n = none)
      ∧ (∀ c ∈ u.chanNext, c.1 ≠ dev) ∧ (∀ c ∈ u.chanHeld, c.1 ≠ dev)))
  ∧ (∀ (s : State) (pa : Nat), s.open' = true →
    let lost := match paDie pa with | some d => s.dieAbsent d | none => false
    let n := pa / 128
    (s.localOk pa = false → (∀ req, exec (.peerRequest pa req) s = .fault (.noSuchAddress pa))
      ∧ ∀ op ty x b, exec (.redGroupApply pa op ty x b) s = .fault (.noSuchAddress pa))
    ∧ (s.localOk pa = true → lost = true → (∀ req, exec (.peerRequest pa req) s = .next { s with out := s.out ++ [.peerError] })
      ∧ ∀ op ty x b, exec (.redGroupApply pa op ty x b) s = .next { s with out := s.out ++ [.peerError] })
    ∧ (s.localOk pa = true → lost = false →
      (s.green = [] → exec (.peerRequest pa .load) s = .next { s with out := s.out ++
          [.peerData (Memory.read s.mem (128 * n) 128) (SMap.getD s.lb n 0) (SMap.getD s.poison n false)] })
      ∧ (∀ (v : W64) (b : EB32), pa % 4 = 0 → ∃ w, exec (.peerRequest pa (.store 4 [(v, b)] none)) s =
            .next { s with pubs := s.pubs ++ [{ w := w, green := true, ack := some pa }] }
          ∧ w.line = .mem n ∧ w.bytes = (List.range 4).map (fun k => (pa % 128 + k, BitVec.ofNat 8 (v.toNat / 256 ^ k))))
      ∧ (∀ (v : W64) (b : EB32) (dev key seq : Nat), pa % 4 = 0 →
          let turn := ((s.chanNext.find? (fun c => c.1 = dev && c.2.1 = key)).map (fun c => c.2.2)).getD 0
          let ev := exec (.peerRequest pa (.store 4 [(v, b)] (some (dev, key, seq)))) s
          (seq < turn → ev = .next { s with out := s.out ++ [.peerAck pa] })
          ∧ (turn < seq → ∃ w, ev = .next { s with chanHeld := s.chanHeld ++ [(dev, key, seq, w)] } ∧ w.line = .mem n)
          ∧ (seq = turn → (∀ c ∈ s.chanHeld, c.1 ≠ dev) → ∃ u w, ev = .next u ∧ u.pubs = s.pubs ++ [{ w := w, green := true, ack := some pa }]
              ∧ w.line = .mem n ∧ u.chanNext.find? (fun c => c.1 = dev && c.2.1 = key) = some (dev, key, seq + 1)))
      ∧ (∀ (k : BitVec 3) (ty : Ty) (c x : W64) (b : EB32),
          let o : PubOp := { op := k.toNat, ty := ty, ofs := pa % 128, x := x, bnd := (Bnd.ofEb32 b).x, poi := (Bnd.ofEb32 b).poi, bnds := true }
          (∃ w, w.line = .mem n ∧ exec (.peerRequest pa (.atomic k ty x b)) s =
            .next { s with pubs := s.pubs ++ [{ w := w, green := decide (granaryBase ≤ pa), op := some { o with reply := true } }] })
          ∧ (∃ w, w.line = .mem n ∧ exec (.peerRequest pa (.cas ty c x b)) s =
            .next { s with pubs := s.pubs ++ [{ w := w, green := decide (granaryBase ≤ pa), op := some { o with op := casOp, cmp := c, reply := true } }] })
          ∧ (∃ w, w.line = .mem n ∧ exec (.redGroupApply pa k ty x b) s =
            .next { s with pubs := s.pubs ++ [{ w := w, green := true, ack := some pa, op := some o }] }))))

/-! Bring-up, the power block and the telemetry counters (R336 to R338, R342 to R348). -/

/-- Bring-up runs PHASES 0 to 4 in order and ends in 15 on a failure; GO acts in PHASE 4 alone and fixes the accepted features, QUIESCE in
PHASE 5 alone; RESET and COLD_RESET leave the device as after reset; the aperture takes in every phase what R348 lists, and every other
write from PHASE 5 on, reserved bits dropped (TLBIVA not while a command runs, REDWIN only with REMRED); the power control moves TARGET by RAMP,
averages over WINDOW, and moves the clock by 25 MHz between 350 and 700 at a round boundary. The model's choices: the reset values (log 1), what of
the outside and of the free values stands through a reset (logs 8, 102), the fuse map (log 10), which word of a key slot a write reaches
(log 11), how reserved bits of a window stand (log 115), what a tick samples and when (log 78). -/
def Obligations.BringupAndPowerEventsComplete : Prop :=
  (∀ s : State,
    (s.phase = 4 → ∃ u, exec .go s = .next u ∧ u = { s with phase := 5, featack := u.featack }
      ∧ u.featack = [0x1FF &&& s.featack.getD 0 0, 0x1F &&& s.featack.getD 1 0, 0, 0])
    ∧ (s.phase ≠ 4 → exec .go s = .next s)
    ∧ (∀ i, i = .reset ∨ i = .coldReset → exec i s = .next { State.reset with
        ext := s.ext, extPoison := s.extPoison, extLb := s.extLb, peerEnc := s.peerEnc, out := s.out, freeCtr := s.freeCtr })
    ∧ (s.phase ≠ 5 → exec .quiesce s = .next s)
    ∧ (s.phase = 5 → ∃ u, exec .quiesce s = .next u ∧ u.phase = 6 ∧ u.mem = s.mem ∧ u.teams = s.teams ∧ u.sheaves = s.sheaves
      ∧ u.queues = s.queues
      ∧ ((s.sysHeld.map (·.1)).Nodup → ∀ k x, SMap.get? s.sysHeld k = some x → x.dirty = true → ∀ w, x.key = some w →
          SMap.get? u.sysHeld k = some { x with dirty := false })))
  ∧ (∀ (s : State) (absent fail : Byte),
    let ev := exec (.bringupPhaseDone absent fail) s
    (4 < s.phase → ev = .next s)
    ∧ (s.phase = 4 → ev = if fail = 3 then .next { s with phase := 15, failCode := 3 } else .next s)
    ∧ (s.phase < 4 → 1 ≤ fail.toNat → fail.toNat ≤ 3 → ev = .next { s with phase := 15, failCode := fail })
    ∧ (s.phase = 0 → fail = 0 → ev = .next { s with phase := 1 })
    ∧ (s.phase = 1 → fail = 0 → ∃ u, ev = .next u ∧ u = { s with phase := 2, fuse := u.fuse })
    ∧ (s.phase = 2 → fail = 0 → ev = .next { s with phase := 3, mem := [], lb := [], poison := [], blockClean := [] })
    ∧ (s.phase = 3 → fail = 0 → ev = .next { s with phase := 4, absent := absent }))
  ∧ (∀ (s : State) (off : Nat) (val : W64),
    let ev := exec (.registerWrite off val) s
    (off % 8 ≠ 0 → ev = .next s)
    ∧ (off = 0x08 → ev = (match val.extractLsb' 0 2 with
        | 1 => exec .go s
        | 2 => exec .reset s
        | 3 => exec .quiesce s
        | _ => .next s))
    ∧ (∀ n, n < 4 → off = 0x60 + 8 * n → (s.phase ≠ 4 → ev = .next s)
        ∧ (s.phase = 4 → ∃ u, ev = .next u ∧ u = { s with featack := u.featack }
          ∧ ∀ k, k < 4 → u.featack.getD k 0 = if k = n then val else s.featack.getD k 0))
    ∧ (off = 0x2000 → ev = exec (.pwrlim val) s)
    ∧ (off = 0x2008 → ev = .next { s with
        pwrcfg := val &&& 0xFFFFFFFF
        target := if val.toNat % 2 ^ 16 = 0 then max 700 (min 2000 (s.pwrlim.toNat % 2 ^ 16)) else s.target })
    ∧ (∀ k, k < 6 → off = 0x2100 + 8 * k → ev = exec (.telemetryClear k) s)
    ∧ (s.phase ≠ 5 → s.phase ≠ 6 → off ≠ 0x08 → (∀ n, n < 4 → off ≠ 0x60 + 8 * n) → off ≠ 0x2000 → off ≠ 0x2008 →
        (∀ k, k < 6 → off ≠ 0x2100 + 8 * k) → ev = .next s)
    ∧ (s.phase = 5 ∨ s.phase = 6 →
        (off = 0x10 → ev = .next { s with ctxtb := val &&& 0x000FFFFFFFFFFFC0 })
        ∧ (off = 0x1000 → ev = exec (.partcfg val) s)
        ∧ (off = 0x1008 → ev = exec (.tresumeWrite val) s)
        ∧ (∀ p, p < 8 → off = 0x1040 + 8 * p → ev = exec (.partsw p val) s)
        ∧ (off = 0x3008 → ev = exec (.tlbicmd val) s)
        ∧ (∀ q, q < 256 → (off = 0x10000 + 32 * q → ev = exec (.qd0Write q val) s)
          ∧ (off = 0x10008 + 32 * q → ev = exec (.qd1Write q val) s))
        ∧ (∀ p, p < 128 → (off = 0x20000 + 256 * p → ev = exec (.portstat p val) s)
          ∧ (off = 0x20008 + 256 * p → ev = exec (.keycmd p val) s)
          ∧ (∀ i w, i < 2 → w < 4 →
            (off = 0x20040 + 256 * p + 32 * i + 8 * w → ev = exec (.keySlotWrite p false i (s.keyWordAt p false i w) val) s)
            ∧ (off = 0x20080 + 256 * p + 32 * i + 8 * w → ev = exec (.keySlotWrite p true i (s.keyWordAt p true i w) val) s)))
        ∧ (off = 0x3000 → ev = if s.tlbicmd.getLsbD 63 then .next s else .next { s with tlbiva := val &&& 0x00FFFFFFFFFF0000 })
        ∧ (∀ w, w < 16 →
          (off = 0x4000 + 16 * w → ∃ u, ev = .next u ∧ u = { s with sysA := u.sysA }
            ∧ (∀ j, SMap.getD u.sysA j 0 = if j = w then val else SMap.getD s.sysA j 0) ∧ u.readReg off = val &&& 0xFC03FFFFC00FFFFF)
          ∧ (off = 0x4008 + 16 * w → ∃ u, ev = .next u ∧ u = { s with sysB := u.sysB }
            ∧ (∀ j, SMap.getD u.sysB j 0 = if j = w then val else SMap.getD s.sysB j 0) ∧ u.readReg off = val &&& 0x000FFFFFC0000000))
        ∧ (off = 0x4200 → ev = .next { s with ringBase := val &&& 0x0003FFFFFFFFF01F })
        ∧ (off = 0x4210 → ev = .next { s with ringRi := val })
        ∧ (∀ q, q < 256 → ∀ x, x = SMap.getD s.queues q {} →
          (off = 0x10010 + 32 * q → ∃ u, ev = .next u ∧ u = { s with queues := u.queues }
            ∧ ∀ j, SMap.getD u.queues j {} = if j = q then { x with d2 := val &&& 0x00FFFFFFFFFFFFF8 } else SMap.getD s.queues j {})
          ∧ (off = 0x10018 + 32 * q → ∃ u, ev = .next u ∧ u = { s with queues := u.queues }
            ∧ ∀ j, SMap.getD u.queues j {} = if j = q then { x with d3 := val &&& 0x00FFFFFFFFFFFFE0 } else SMap.getD s.queues j {}))
        ∧ (off = 0x30000 → ev = .next { s with devnum := val.toNat % 2 ^ 11 })
        ∧ (∀ k, k < 16 → off = 0x30100 + 8 * k →
          (s.feat 0 6 = false → ev = .next s)
          ∧ (s.feat 0 6 = true → ∃ u, ev = .next u ∧ u = { s with redwin := u.redwin }
            ∧ ∀ j, SMap.getD u.redwin j 0 = if j = k then val &&& 0xFFFFE0FFFFFFFFFF else SMap.getD s.redwin j 0))))
  ∧ (∀ (s : State) (k : Nat) (val : W64),
    (∃ u, exec (.telemetryClear k) s = .next u ∧ u = { s with tele := u.tele }
      ∧ ∀ j, j < 6 → u.tele.getD j 0 = if j = k ∧ k < 5 then 0 else s.tele.getD j 0)
    ∧ (let lim := max 700 (min 2000 (val.toNat % 2 ^ 16))
       let ramp := s.pwrcfg.toNat % 2 ^ 16
       exec (.pwrlim val) s = .next { s with pwrlim := val &&& 0xFFFF, target := if ramp = 0 then lim else s.target }))
  ∧ (∀ (s : State) (inst milli temp : Nat),
    let lim := max 700 (min 2000 (s.pwrlim.toNat % 2 ^ 16))
    let ramp := s.pwrcfg.toNat % 2 ^ 16
    let l := ((1000 * inst + milli) :: s.samples).take 1000
    let n := max 1 (min 1000 (s.pwrcfg.toNat / 2 ^ 16 % 2 ^ 16))
    let avg := (l.take n).sum / (l.take n).length
    ∃ u, exec (.powerControlTick inst milli temp) s = .next u
      ∧ u.samples = l ∧ u.inst = min (inst + milli / 1000) 0xFFFF ∧ u.avg = min (avg / 1000) 0xFFFF
      ∧ u.energy = s.energy + 1000 * inst + milli ∧ u.clkMhz = s.clkMhz
      ∧ u.target = (if ramp = 0 then lim else if s.target < lim then min lim (s.target + ramp) else max lim (s.target - ramp))
      ∧ (350 ≤ s.clkNext → s.clkNext ≤ 700 →
          u.clkNext = (if 1000 * u.target < avg then max 350 (s.clkNext - 25) else if avg < 1000 * u.target then min 700 (s.clkNext + 25) else s.clkNext)
          ∧ (u.pwrFloor = true ↔ 1000 * u.target < avg ∧ s.clkNext = 350))
      ∧ u.tele.getD 3 0 = (if u.clkMhz < 700 ∧ s.tele.getD 3 0 ≠ 0xFFFFFFFFFFFFFFFF then s.tele.getD 3 0 + 1 else s.tele.getD 3 0)
      ∧ u.tele.getD 4 0 = (if u.pwrFloor = true ∧ s.tele.getD 4 0 ≠ 0xFFFFFFFFFFFFFFFF then s.tele.getD 4 0 + 1 else s.tele.getD 4 0)
      ∧ u.tele.getD 5 0 = BitVec.ofNat 64 (temp % 2 ^ 16)
      ∧ u.out = s.out ++ (if u.pwrFloor = s.pwrFloor then [] else [.msix 265])
      ∧ u.teams = s.teams ∧ u.sheaves = s.sheaves ∧ u.mem = s.mem ∧ u.queues = s.queues)
  ∧ (∀ s : State,
    (s.cycle % Config.roundCycles ≠ 0 → s.takeClock = s)
    ∧ (s.cycle % Config.roundCycles = 0 → s.takeClock = { s with
        clkMhz := s.clkNext, out := s.out ++ if (s.clkNext < 700 ↔ s.clkMhz < 700) then [] else [.msix 265] }))

/-! What every step keeps, and what reset leaves. -/

/-- Every step keeps the canonical form of memory. -/
def Obligations.EveryStepKeepsMemoryCanonical : Prop :=
  ∀ s t : State, MemCanonical s → step s = .next t → MemCanonical t

/-- Every step keeps sheaves and teams listed once each, only the youngest chunk of a sheaf open, and one wait at most per lane. -/
def Obligations.EveryStepKeepsTheSheavesTidy : Prop :=
  ∀ s t : State, SheavesTidy s → step s = .next t → SheavesTidy t

/-- After reset the device stands in PHASE 0 with its context table treated as not valid, one partition, no queue enabled, every power
register at its reset value, and nothing placed; no instruction issues. The two invariants hold there. That CTXTB, FEATACK
and a queue's indexes read 0 before anything has written them is the model's choice (DESIGN CHOICE, log entry 1). -/
def Obligations.ResetHoldsTheSpecsValues : Prop :=
  let s := State.reset
  s.phase = 0 ∧ s.readReg 0 = 0 ∧ s.readReg 0x10 = 0 ∧ s.nparts = 1 ∧ s.readReg 0x1000 = 0 ∧ s.readReg 0x1008 = 0
  ∧ (∀ n, n < 4 → s.readReg (0x60 + 8 * n) = 0)
  ∧ s.readReg 0x2000 = 0x07D0 ∧ s.readReg 0x2008 = 0x000A0000 ∧ s.readReg 0x2010 = 0x07D002BC00000000 ∧ s.readReg 0x2018 = 0
  ∧ (∀ k, k < 6 → s.readReg (0x2100 + 8 * k) = 0)
  ∧ s.readReg 0x3008 = 0x10
  ∧ (∀ q, q < 256 → s.readReg (0x10000 + 32 * q) = 0 ∧ s.readReg (0x10008 + 32 * q) = 6)
  ∧ s.sheaves = [] ∧ s.teams = [] ∧ s.launches = [] ∧ s.issue = [] ∧ (∀ a, Memory.get s.mem a = 0)
  ∧ MemCanonical s ∧ SheavesTidy s
end

