-- ==== Sys2Proof/Laws/Map.lean ====
section
/-! SUPPORT. What the sparse maps and the lane masks do. -/

namespace Sys2Proof

namespace SMap

theorem get?_erase_self {α : Type} (m : SMap α) (k : Nat) : SMap.get? (SMap.erase m k) k = none := by
  induction m with
  | nil => rfl
  | cons p r ih =>
    obtain ⟨j, a⟩ := p
    by_cases h : j = k
    · simpa [erase, h] using ih
    · simpa [erase, h, get?] using ih

theorem get?_erase_ne {α : Type} (m : SMap α) {k j : Nat} (h : j ≠ k) : SMap.get? (SMap.erase m k) j = SMap.get? m j := by
  induction m with
  | nil => rfl
  | cons p r ih =>
    obtain ⟨i, a⟩ := p
    by_cases hi : i = k
    · have : ¬ i = j := fun e => h (e.symm.trans hi)
      simp only [erase] at ih
      simp [erase, hi, get?, ih]
      intro e; exact absurd (e.symm) h
    · simp only [erase] at ih
      simp [erase, hi, get?, ih]

theorem get?_insertSorted_self {α : Type} (m : SMap α) (k : Nat) (a : α) (h : SMap.get? m k = none) :
    SMap.get? (insertSorted m k a) k = some a := by
  induction m with
  | nil => simp [insertSorted, get?]
  | cons p r ih =>
    obtain ⟨j, b⟩ := p
    have hj : ¬ j = k := by
      intro e; simp [get?, e] at h
    simp only [get?, hj, if_false] at h
    by_cases hk : k < j
    · simp [insertSorted, hk, get?]
    · simp [insertSorted, hk, get?, hj, ih h]

theorem get?_insertSorted_ne {α : Type} (m : SMap α) {k j : Nat} (a : α) (h : j ≠ k) :
    SMap.get? (insertSorted m k a) j = SMap.get? m j := by
  induction m with
  | nil =>
    have : ¬ k = j := fun e => h e.symm
    simp [insertSorted, get?, this]
  | cons p r ih =>
    obtain ⟨i, b⟩ := p
    have hkj : ¬ k = j := fun e => h e.symm
    by_cases hk : k < i
    · simp [insertSorted, hk, get?, hkj]
    · simp [insertSorted, hk, get?, ih]

/-- A read after a write of the same key. -/
@[simp] theorem get?_set_self {α : Type} (m : SMap α) (k : Nat) (a : α) : SMap.get? (SMap.set m k a) k = some a :=
  get?_insertSorted_self _ _ _ (get?_erase_self m k)

/-- A write leaves every other key alone. -/
theorem get?_set_ne {α : Type} (m : SMap α) {k j : Nat} (a : α) (h : j ≠ k) : SMap.get? (SMap.set m k a) j = SMap.get? m j := by
  rw [SMap.set, get?_insertSorted_ne _ _ h, get?_erase_ne _ h]

@[simp] theorem getD_set_self {α : Type} (m : SMap α) (k : Nat) (a d : α) : SMap.getD (SMap.set m k a) k d = a := by
  simp [getD]

theorem getD_set_ne {α : Type} (m : SMap α) {k j : Nat} (a d : α) (h : j ≠ k) :
    SMap.getD (SMap.set m k a) j d = SMap.getD m j d := by
  simp [getD, get?_set_ne m a h]

theorem getD_set {α : Type} (m : SMap α) (k j : Nat) (a d : α) :
    SMap.getD (SMap.set m k a) j d = if j = k then a else SMap.getD m j d := by
  by_cases h : j = k
  · subst h; simp
  · simp [h, getD_set_ne m a d h]

@[simp] theorem getD_setC_self {α : Type} [DecidableEq α] (m : SMap α) (k : Nat) (d a : α) :
    SMap.getD (SMap.setC m k d a) k d = a := by
  unfold setC
  by_cases h : a = d
  · simp [h, getD, get?_erase_self]
  · simp [h]

theorem getD_setC_ne {α : Type} [DecidableEq α] (m : SMap α) {k j : Nat} (d a e : α) (h : j ≠ k) :
    SMap.getD (SMap.setC m k d a) j e = SMap.getD m j e := by
  unfold setC
  by_cases hd : a = d
  · simp [hd, getD, get?_erase_ne m h]
  · simp [hd, getD_set_ne m a e h]

@[simp] theorem getD_update_self {α : Type} (m : SMap α) (k : Nat) (d : α) (f : α → α) :
    SMap.getD (SMap.update m k d f) k d = f (SMap.getD m k d) := by
  simp [update]

theorem getD_update_ne {α : Type} (m : SMap α) {k j : Nat} (d e : α) (f : α → α) (h : j ≠ k) :
    SMap.getD (SMap.update m k d f) j e = SMap.getD m j e := by
  simp [update, getD_set_ne m _ e h]

end SMap

/-! Lanes and masks. -/

@[simp] theorem lane_lanesOf {α : Type} (n l : Nat) (f : Nat → α) (d : α) (h : l < n) : lane (lanesOf n f) l d = f l := by
  simp [lane, lanesOf, List.getD, List.getElem?_map, List.getElem?_range h]

theorem lane_lanesOf_ge {α : Type} (n l : Nat) (f : Nat → α) (d : α) (h : n ≤ l) : lane (lanesOf n f) l d = d := by
  have : (List.range n)[l]? = none := by simp [h]
  simp [lane, lanesOf, List.getD, List.getElem?_map, this]

/-- What a mask built from a test holds. -/
theorem Mask.has_of (n : Nat) (p : Nat → Bool) (l : Nat) (h : l < 64) :
    Mask.has (Mask.of n p) l = (decide (l < n) && p l) := by
  have key : ∀ n, (Mask.of n p).getLsbD l = (decide (l < n) && p l) := by
    intro n
    induction n with
    | zero => simp [Mask.of]
    | succ k ih =>
      have step : Mask.of (k + 1) p = (if p k then Mask.of k p ||| BitVec.ofNat 64 (2 ^ k) else Mask.of k p) := by
        simp [Mask.of, List.range_succ, List.foldl_append]
      rw [step]
      have bit : (BitVec.ofNat 64 (2 ^ k)).getLsbD l = decide (k = l) := by
        rw [BitVec.getLsbD_ofNat, Nat.testBit_two_pow]
        simp [h]
      by_cases hp : p k = true
      · simp only [hp, if_true, BitVec.getLsbD_or, ih, bit]
        by_cases hk : k = l
        · subst hk; simp [hp]
        · have : (decide (l < k + 1)) = decide (l < k) := by
            have : l < k + 1 ↔ l < k := by omega
            simp only [this]
          rw [this]; simp [hk]
      · simp only [hp]
        rw [if_neg (by simp), ih]
        by_cases hk : k = l
        · subst hk; simp [hp]
        · have : (decide (l < k + 1)) = decide (l < k) := by
            have : l < k + 1 ↔ l < k := by omega
            simp only [this]
          rw [this]
  exact key n

theorem Mask.mem_list (m : Mask) (l : Nat) : l ∈ Mask.list m ↔ l < 64 ∧ Mask.has m l = true := by
  simp [Mask.list, Mask.has]

end Sys2Proof
end

