-- ==== Sys2Proof/Laws/State.lean ====
section
/-! SUPPORT. Which field each update of the state writes, and which it leaves. -/

namespace Sys2Proof.Machine

/-! `State.setSheaf` writes `sheaves`. -/

@[simp] theorem State.setSheaf_cycle (s : State) (i : Nat) (x : Sheaf) : (s.setSheaf i x).cycle = s.cycle := rfl
@[simp] theorem State.setSheaf_round (s : State) (i : Nat) (x : Sheaf) : (s.setSheaf i x).round = s.round := rfl
@[simp] theorem State.setSheaf_phase (s : State) (i : Nat) (x : Sheaf) : (s.setSheaf i x).phase = s.phase := rfl
@[simp] theorem State.setSheaf_failCode (s : State) (i : Nat) (x : Sheaf) : (s.setSheaf i x).failCode = s.failCode := rfl
@[simp] theorem State.setSheaf_absent (s : State) (i : Nat) (x : Sheaf) : (s.setSheaf i x).absent = s.absent := rfl
@[simp] theorem State.setSheaf_featack (s : State) (i : Nat) (x : Sheaf) : (s.setSheaf i x).featack = s.featack := rfl
@[simp] theorem State.setSheaf_ctxtb (s : State) (i : Nat) (x : Sheaf) : (s.setSheaf i x).ctxtb = s.ctxtb := rfl
@[simp] theorem State.setSheaf_fuse (s : State) (i : Nat) (x : Sheaf) : (s.setSheaf i x).fuse = s.fuse := rfl
@[simp] theorem State.setSheaf_partcfg (s : State) (i : Nat) (x : Sheaf) : (s.setSheaf i x).partcfg = s.partcfg := rfl
@[simp] theorem State.setSheaf_parts (s : State) (i : Nat) (x : Sheaf) : (s.setSheaf i x).parts = s.parts := rfl
@[simp] theorem State.setSheaf_pwrlim (s : State) (i : Nat) (x : Sheaf) : (s.setSheaf i x).pwrlim = s.pwrlim := rfl
@[simp] theorem State.setSheaf_pwrcfg (s : State) (i : Nat) (x : Sheaf) : (s.setSheaf i x).pwrcfg = s.pwrcfg := rfl
@[simp] theorem State.setSheaf_target (s : State) (i : Nat) (x : Sheaf) : (s.setSheaf i x).target = s.target := rfl
@[simp] theorem State.setSheaf_clkMhz (s : State) (i : Nat) (x : Sheaf) : (s.setSheaf i x).clkMhz = s.clkMhz := rfl
@[simp] theorem State.setSheaf_clkNext (s : State) (i : Nat) (x : Sheaf) : (s.setSheaf i x).clkNext = s.clkNext := rfl
@[simp] theorem State.setSheaf_samples (s : State) (i : Nat) (x : Sheaf) : (s.setSheaf i x).samples = s.samples := rfl
@[simp] theorem State.setSheaf_pwrFloor (s : State) (i : Nat) (x : Sheaf) : (s.setSheaf i x).pwrFloor = s.pwrFloor := rfl
@[simp] theorem State.setSheaf_energy (s : State) (i : Nat) (x : Sheaf) : (s.setSheaf i x).energy = s.energy := rfl
@[simp] theorem State.setSheaf_avg (s : State) (i : Nat) (x : Sheaf) : (s.setSheaf i x).avg = s.avg := rfl
@[simp] theorem State.setSheaf_inst (s : State) (i : Nat) (x : Sheaf) : (s.setSheaf i x).inst = s.inst := rfl
@[simp] theorem State.setSheaf_tele (s : State) (i : Nat) (x : Sheaf) : (s.setSheaf i x).tele = s.tele := rfl
@[simp] theorem State.setSheaf_tlbiva (s : State) (i : Nat) (x : Sheaf) : (s.setSheaf i x).tlbiva = s.tlbiva := rfl
@[simp] theorem State.setSheaf_tlbicmd (s : State) (i : Nat) (x : Sheaf) : (s.setSheaf i x).tlbicmd = s.tlbicmd := rfl
@[simp] theorem State.setSheaf_tresume (s : State) (i : Nat) (x : Sheaf) : (s.setSheaf i x).tresume = s.tresume := rfl
@[simp] theorem State.setSheaf_sysA (s : State) (i : Nat) (x : Sheaf) : (s.setSheaf i x).sysA = s.sysA := rfl
@[simp] theorem State.setSheaf_sysB (s : State) (i : Nat) (x : Sheaf) : (s.setSheaf i x).sysB = s.sysB := rfl
@[simp] theorem State.setSheaf_ringBase (s : State) (i : Nat) (x : Sheaf) : (s.setSheaf i x).ringBase = s.ringBase := rfl
@[simp] theorem State.setSheaf_ringWi (s : State) (i : Nat) (x : Sheaf) : (s.setSheaf i x).ringWi = s.ringWi := rfl
@[simp] theorem State.setSheaf_ringRi (s : State) (i : Nat) (x : Sheaf) : (s.setSheaf i x).ringRi = s.ringRi := rfl
@[simp] theorem State.setSheaf_ringDropped (s : State) (i : Nat) (x : Sheaf) : (s.setSheaf i x).ringDropped = s.ringDropped := rfl
@[simp] theorem State.setSheaf_devnum (s : State) (i : Nat) (x : Sheaf) : (s.setSheaf i x).devnum = s.devnum := rfl
@[simp] theorem State.setSheaf_peers (s : State) (i : Nat) (x : Sheaf) : (s.setSheaf i x).peers = s.peers := rfl
@[simp] theorem State.setSheaf_routes (s : State) (i : Nat) (x : Sheaf) : (s.setSheaf i x).routes = s.routes := rfl
@[simp] theorem State.setSheaf_redwin (s : State) (i : Nat) (x : Sheaf) : (s.setSheaf i x).redwin = s.redwin := rfl
@[simp] theorem State.setSheaf_ports (s : State) (i : Nat) (x : Sheaf) : (s.setSheaf i x).ports = s.ports := rfl
@[simp] theorem State.setSheaf_queues (s : State) (i : Nat) (x : Sheaf) : (s.setSheaf i x).queues = s.queues := rfl
@[simp] theorem State.setSheaf_launches (s : State) (i : Nat) (x : Sheaf) : (s.setSheaf i x).launches = s.launches := rfl
@[simp] theorem State.setSheaf_children (s : State) (i : Nat) (x : Sheaf) : (s.setSheaf i x).children = s.children := rfl
@[simp] theorem State.setSheaf_teams (s : State) (i : Nat) (x : Sheaf) : (s.setSheaf i x).teams = s.teams := rfl
@[simp] theorem State.setSheaf_cores (s : State) (i : Nat) (x : Sheaf) : (s.setSheaf i x).cores = s.cores := rfl
@[simp] theorem State.setSheaf_gtlb (s : State) (i : Nat) (x : Sheaf) : (s.setSheaf i x).gtlb = s.gtlb := rfl
@[simp] theorem State.setSheaf_gregions (s : State) (i : Nat) (x : Sheaf) : (s.setSheaf i x).gregions = s.gregions := rfl
@[simp] theorem State.setSheaf_ended (s : State) (i : Nat) (x : Sheaf) : (s.setSheaf i x).ended = s.ended := rfl
@[simp] theorem State.setSheaf_hints (s : State) (i : Nat) (x : Sheaf) : (s.setSheaf i x).hints = s.hints := rfl
@[simp] theorem State.setSheaf_mem (s : State) (i : Nat) (x : Sheaf) : (s.setSheaf i x).mem = s.mem := rfl
@[simp] theorem State.setSheaf_lb (s : State) (i : Nat) (x : Sheaf) : (s.setSheaf i x).lb = s.lb := rfl
@[simp] theorem State.setSheaf_poison (s : State) (i : Nat) (x : Sheaf) : (s.setSheaf i x).poison = s.poison := rfl
@[simp] theorem State.setSheaf_blockClean (s : State) (i : Nat) (x : Sheaf) : (s.setSheaf i x).blockClean = s.blockClean := rfl
@[simp] theorem State.setSheaf_green (s : State) (i : Nat) (x : Sheaf) : (s.setSheaf i x).green = s.green := rfl
@[simp] theorem State.setSheaf_ext (s : State) (i : Nat) (x : Sheaf) : (s.setSheaf i x).ext = s.ext := rfl
@[simp] theorem State.setSheaf_extPoison (s : State) (i : Nat) (x : Sheaf) : (s.setSheaf i x).extPoison = s.extPoison := rfl
@[simp] theorem State.setSheaf_extLb (s : State) (i : Nat) (x : Sheaf) : (s.setSheaf i x).extLb = s.extLb := rfl
@[simp] theorem State.setSheaf_peerEnc (s : State) (i : Nat) (x : Sheaf) : (s.setSheaf i x).peerEnc = s.peerEnc := rfl
@[simp] theorem State.setSheaf_pubs (s : State) (i : Nat) (x : Sheaf) : (s.setSheaf i x).pubs = s.pubs := rfl
@[simp] theorem State.setSheaf_remHeld (s : State) (i : Nat) (x : Sheaf) : (s.setSheaf i x).remHeld = s.remHeld := rfl
@[simp] theorem State.setSheaf_sysHeld (s : State) (i : Nat) (x : Sheaf) : (s.setSheaf i x).sysHeld = s.sysHeld := rfl
@[simp] theorem State.setSheaf_flights (s : State) (i : Nat) (x : Sheaf) : (s.setSheaf i x).flights = s.flights := rfl
@[simp] theorem State.setSheaf_chanSeq (s : State) (i : Nat) (x : Sheaf) : (s.setSheaf i x).chanSeq = s.chanSeq := rfl
@[simp] theorem State.setSheaf_chanNext (s : State) (i : Nat) (x : Sheaf) : (s.setSheaf i x).chanNext = s.chanNext := rfl
@[simp] theorem State.setSheaf_chanHeld (s : State) (i : Nat) (x : Sheaf) : (s.setSheaf i x).chanHeld = s.chanHeld := rfl
@[simp] theorem State.setSheaf_sentUpTo (s : State) (i : Nat) (x : Sheaf) : (s.setSheaf i x).sentUpTo = s.sentUpTo := rfl
@[simp] theorem State.setSheaf_tokens (s : State) (i : Nat) (x : Sheaf) : (s.setSheaf i x).tokens = s.tokens := rfl
@[simp] theorem State.setSheaf_precedence (s : State) (i : Nat) (x : Sheaf) : (s.setSheaf i x).precedence = s.precedence := rfl
@[simp] theorem State.setSheaf_nextId (s : State) (i : Nat) (x : Sheaf) : (s.setSheaf i x).nextId = s.nextId := rfl
@[simp] theorem State.setSheaf_issue (s : State) (i : Nat) (x : Sheaf) : (s.setSheaf i x).issue = s.issue := rfl
@[simp] theorem State.setSheaf_agenda (s : State) (i : Nat) (x : Sheaf) : (s.setSheaf i x).agenda = s.agenda := rfl
@[simp] theorem State.setSheaf_out (s : State) (i : Nat) (x : Sheaf) : (s.setSheaf i x).out = s.out := rfl
@[simp] theorem State.setSheaf_freeCtr (s : State) (i : Nat) (x : Sheaf) : (s.setSheaf i x).freeCtr = s.freeCtr := rfl

/-! `State.updSheaf` writes `sheaves`. -/

@[simp] theorem State.updSheaf_cycle (s : State) (i : Nat) (f : Sheaf → Sheaf) : (s.updSheaf i f).cycle = s.cycle := rfl
@[simp] theorem State.updSheaf_round (s : State) (i : Nat) (f : Sheaf → Sheaf) : (s.updSheaf i f).round = s.round := rfl
@[simp] theorem State.updSheaf_phase (s : State) (i : Nat) (f : Sheaf → Sheaf) : (s.updSheaf i f).phase = s.phase := rfl
@[simp] theorem State.updSheaf_failCode (s : State) (i : Nat) (f : Sheaf → Sheaf) : (s.updSheaf i f).failCode = s.failCode := rfl
@[simp] theorem State.updSheaf_absent (s : State) (i : Nat) (f : Sheaf → Sheaf) : (s.updSheaf i f).absent = s.absent := rfl
@[simp] theorem State.updSheaf_featack (s : State) (i : Nat) (f : Sheaf → Sheaf) : (s.updSheaf i f).featack = s.featack := rfl
@[simp] theorem State.updSheaf_ctxtb (s : State) (i : Nat) (f : Sheaf → Sheaf) : (s.updSheaf i f).ctxtb = s.ctxtb := rfl
@[simp] theorem State.updSheaf_fuse (s : State) (i : Nat) (f : Sheaf → Sheaf) : (s.updSheaf i f).fuse = s.fuse := rfl
@[simp] theorem State.updSheaf_partcfg (s : State) (i : Nat) (f : Sheaf → Sheaf) : (s.updSheaf i f).partcfg = s.partcfg := rfl
@[simp] theorem State.updSheaf_parts (s : State) (i : Nat) (f : Sheaf → Sheaf) : (s.updSheaf i f).parts = s.parts := rfl
@[simp] theorem State.updSheaf_pwrlim (s : State) (i : Nat) (f : Sheaf → Sheaf) : (s.updSheaf i f).pwrlim = s.pwrlim := rfl
@[simp] theorem State.updSheaf_pwrcfg (s : State) (i : Nat) (f : Sheaf → Sheaf) : (s.updSheaf i f).pwrcfg = s.pwrcfg := rfl
@[simp] theorem State.updSheaf_target (s : State) (i : Nat) (f : Sheaf → Sheaf) : (s.updSheaf i f).target = s.target := rfl
@[simp] theorem State.updSheaf_clkMhz (s : State) (i : Nat) (f : Sheaf → Sheaf) : (s.updSheaf i f).clkMhz = s.clkMhz := rfl
@[simp] theorem State.updSheaf_clkNext (s : State) (i : Nat) (f : Sheaf → Sheaf) : (s.updSheaf i f).clkNext = s.clkNext := rfl
@[simp] theorem State.updSheaf_samples (s : State) (i : Nat) (f : Sheaf → Sheaf) : (s.updSheaf i f).samples = s.samples := rfl
@[simp] theorem State.updSheaf_pwrFloor (s : State) (i : Nat) (f : Sheaf → Sheaf) : (s.updSheaf i f).pwrFloor = s.pwrFloor := rfl
@[simp] theorem State.updSheaf_energy (s : State) (i : Nat) (f : Sheaf → Sheaf) : (s.updSheaf i f).energy = s.energy := rfl
@[simp] theorem State.updSheaf_avg (s : State) (i : Nat) (f : Sheaf → Sheaf) : (s.updSheaf i f).avg = s.avg := rfl
@[simp] theorem State.updSheaf_inst (s : State) (i : Nat) (f : Sheaf → Sheaf) : (s.updSheaf i f).inst = s.inst := rfl
@[simp] theorem State.updSheaf_tele (s : State) (i : Nat) (f : Sheaf → Sheaf) : (s.updSheaf i f).tele = s.tele := rfl
@[simp] theorem State.updSheaf_tlbiva (s : State) (i : Nat) (f : Sheaf → Sheaf) : (s.updSheaf i f).tlbiva = s.tlbiva := rfl
@[simp] theorem State.updSheaf_tlbicmd (s : State) (i : Nat) (f : Sheaf → Sheaf) : (s.updSheaf i f).tlbicmd = s.tlbicmd := rfl
@[simp] theorem State.updSheaf_tresume (s : State) (i : Nat) (f : Sheaf → Sheaf) : (s.updSheaf i f).tresume = s.tresume := rfl
@[simp] theorem State.updSheaf_sysA (s : State) (i : Nat) (f : Sheaf → Sheaf) : (s.updSheaf i f).sysA = s.sysA := rfl
@[simp] theorem State.updSheaf_sysB (s : State) (i : Nat) (f : Sheaf → Sheaf) : (s.updSheaf i f).sysB = s.sysB := rfl
@[simp] theorem State.updSheaf_ringBase (s : State) (i : Nat) (f : Sheaf → Sheaf) : (s.updSheaf i f).ringBase = s.ringBase := rfl
@[simp] theorem State.updSheaf_ringWi (s : State) (i : Nat) (f : Sheaf → Sheaf) : (s.updSheaf i f).ringWi = s.ringWi := rfl
@[simp] theorem State.updSheaf_ringRi (s : State) (i : Nat) (f : Sheaf → Sheaf) : (s.updSheaf i f).ringRi = s.ringRi := rfl
@[simp] theorem State.updSheaf_ringDropped (s : State) (i : Nat) (f : Sheaf → Sheaf) : (s.updSheaf i f).ringDropped = s.ringDropped := rfl
@[simp] theorem State.updSheaf_devnum (s : State) (i : Nat) (f : Sheaf → Sheaf) : (s.updSheaf i f).devnum = s.devnum := rfl
@[simp] theorem State.updSheaf_peers (s : State) (i : Nat) (f : Sheaf → Sheaf) : (s.updSheaf i f).peers = s.peers := rfl
@[simp] theorem State.updSheaf_routes (s : State) (i : Nat) (f : Sheaf → Sheaf) : (s.updSheaf i f).routes = s.routes := rfl
@[simp] theorem State.updSheaf_redwin (s : State) (i : Nat) (f : Sheaf → Sheaf) : (s.updSheaf i f).redwin = s.redwin := rfl
@[simp] theorem State.updSheaf_ports (s : State) (i : Nat) (f : Sheaf → Sheaf) : (s.updSheaf i f).ports = s.ports := rfl
@[simp] theorem State.updSheaf_queues (s : State) (i : Nat) (f : Sheaf → Sheaf) : (s.updSheaf i f).queues = s.queues := rfl
@[simp] theorem State.updSheaf_launches (s : State) (i : Nat) (f : Sheaf → Sheaf) : (s.updSheaf i f).launches = s.launches := rfl
@[simp] theorem State.updSheaf_children (s : State) (i : Nat) (f : Sheaf → Sheaf) : (s.updSheaf i f).children = s.children := rfl
@[simp] theorem State.updSheaf_teams (s : State) (i : Nat) (f : Sheaf → Sheaf) : (s.updSheaf i f).teams = s.teams := rfl
@[simp] theorem State.updSheaf_cores (s : State) (i : Nat) (f : Sheaf → Sheaf) : (s.updSheaf i f).cores = s.cores := rfl
@[simp] theorem State.updSheaf_gtlb (s : State) (i : Nat) (f : Sheaf → Sheaf) : (s.updSheaf i f).gtlb = s.gtlb := rfl
@[simp] theorem State.updSheaf_gregions (s : State) (i : Nat) (f : Sheaf → Sheaf) : (s.updSheaf i f).gregions = s.gregions := rfl
@[simp] theorem State.updSheaf_ended (s : State) (i : Nat) (f : Sheaf → Sheaf) : (s.updSheaf i f).ended = s.ended := rfl
@[simp] theorem State.updSheaf_hints (s : State) (i : Nat) (f : Sheaf → Sheaf) : (s.updSheaf i f).hints = s.hints := rfl
@[simp] theorem State.updSheaf_mem (s : State) (i : Nat) (f : Sheaf → Sheaf) : (s.updSheaf i f).mem = s.mem := rfl
@[simp] theorem State.updSheaf_lb (s : State) (i : Nat) (f : Sheaf → Sheaf) : (s.updSheaf i f).lb = s.lb := rfl
@[simp] theorem State.updSheaf_poison (s : State) (i : Nat) (f : Sheaf → Sheaf) : (s.updSheaf i f).poison = s.poison := rfl
@[simp] theorem State.updSheaf_blockClean (s : State) (i : Nat) (f : Sheaf → Sheaf) : (s.updSheaf i f).blockClean = s.blockClean := rfl
@[simp] theorem State.updSheaf_green (s : State) (i : Nat) (f : Sheaf → Sheaf) : (s.updSheaf i f).green = s.green := rfl
@[simp] theorem State.updSheaf_ext (s : State) (i : Nat) (f : Sheaf → Sheaf) : (s.updSheaf i f).ext = s.ext := rfl
@[simp] theorem State.updSheaf_extPoison (s : State) (i : Nat) (f : Sheaf → Sheaf) : (s.updSheaf i f).extPoison = s.extPoison := rfl
@[simp] theorem State.updSheaf_extLb (s : State) (i : Nat) (f : Sheaf → Sheaf) : (s.updSheaf i f).extLb = s.extLb := rfl
@[simp] theorem State.updSheaf_peerEnc (s : State) (i : Nat) (f : Sheaf → Sheaf) : (s.updSheaf i f).peerEnc = s.peerEnc := rfl
@[simp] theorem State.updSheaf_pubs (s : State) (i : Nat) (f : Sheaf → Sheaf) : (s.updSheaf i f).pubs = s.pubs := rfl
@[simp] theorem State.updSheaf_remHeld (s : State) (i : Nat) (f : Sheaf → Sheaf) : (s.updSheaf i f).remHeld = s.remHeld := rfl
@[simp] theorem State.updSheaf_sysHeld (s : State) (i : Nat) (f : Sheaf → Sheaf) : (s.updSheaf i f).sysHeld = s.sysHeld := rfl
@[simp] theorem State.updSheaf_flights (s : State) (i : Nat) (f : Sheaf → Sheaf) : (s.updSheaf i f).flights = s.flights := rfl
@[simp] theorem State.updSheaf_chanSeq (s : State) (i : Nat) (f : Sheaf → Sheaf) : (s.updSheaf i f).chanSeq = s.chanSeq := rfl
@[simp] theorem State.updSheaf_chanNext (s : State) (i : Nat) (f : Sheaf → Sheaf) : (s.updSheaf i f).chanNext = s.chanNext := rfl
@[simp] theorem State.updSheaf_chanHeld (s : State) (i : Nat) (f : Sheaf → Sheaf) : (s.updSheaf i f).chanHeld = s.chanHeld := rfl
@[simp] theorem State.updSheaf_sentUpTo (s : State) (i : Nat) (f : Sheaf → Sheaf) : (s.updSheaf i f).sentUpTo = s.sentUpTo := rfl
@[simp] theorem State.updSheaf_tokens (s : State) (i : Nat) (f : Sheaf → Sheaf) : (s.updSheaf i f).tokens = s.tokens := rfl
@[simp] theorem State.updSheaf_precedence (s : State) (i : Nat) (f : Sheaf → Sheaf) : (s.updSheaf i f).precedence = s.precedence := rfl
@[simp] theorem State.updSheaf_nextId (s : State) (i : Nat) (f : Sheaf → Sheaf) : (s.updSheaf i f).nextId = s.nextId := rfl
@[simp] theorem State.updSheaf_issue (s : State) (i : Nat) (f : Sheaf → Sheaf) : (s.updSheaf i f).issue = s.issue := rfl
@[simp] theorem State.updSheaf_agenda (s : State) (i : Nat) (f : Sheaf → Sheaf) : (s.updSheaf i f).agenda = s.agenda := rfl
@[simp] theorem State.updSheaf_out (s : State) (i : Nat) (f : Sheaf → Sheaf) : (s.updSheaf i f).out = s.out := rfl
@[simp] theorem State.updSheaf_freeCtr (s : State) (i : Nat) (f : Sheaf → Sheaf) : (s.updSheaf i f).freeCtr = s.freeCtr := rfl

/-! `State.setTeam` writes `teams`. -/

@[simp] theorem State.setTeam_cycle (s : State) (i : Nat) (x : Team) : (s.setTeam i x).cycle = s.cycle := rfl
@[simp] theorem State.setTeam_round (s : State) (i : Nat) (x : Team) : (s.setTeam i x).round = s.round := rfl
@[simp] theorem State.setTeam_phase (s : State) (i : Nat) (x : Team) : (s.setTeam i x).phase = s.phase := rfl
@[simp] theorem State.setTeam_failCode (s : State) (i : Nat) (x : Team) : (s.setTeam i x).failCode = s.failCode := rfl
@[simp] theorem State.setTeam_absent (s : State) (i : Nat) (x : Team) : (s.setTeam i x).absent = s.absent := rfl
@[simp] theorem State.setTeam_featack (s : State) (i : Nat) (x : Team) : (s.setTeam i x).featack = s.featack := rfl
@[simp] theorem State.setTeam_ctxtb (s : State) (i : Nat) (x : Team) : (s.setTeam i x).ctxtb = s.ctxtb := rfl
@[simp] theorem State.setTeam_fuse (s : State) (i : Nat) (x : Team) : (s.setTeam i x).fuse = s.fuse := rfl
@[simp] theorem State.setTeam_partcfg (s : State) (i : Nat) (x : Team) : (s.setTeam i x).partcfg = s.partcfg := rfl
@[simp] theorem State.setTeam_parts (s : State) (i : Nat) (x : Team) : (s.setTeam i x).parts = s.parts := rfl
@[simp] theorem State.setTeam_pwrlim (s : State) (i : Nat) (x : Team) : (s.setTeam i x).pwrlim = s.pwrlim := rfl
@[simp] theorem State.setTeam_pwrcfg (s : State) (i : Nat) (x : Team) : (s.setTeam i x).pwrcfg = s.pwrcfg := rfl
@[simp] theorem State.setTeam_target (s : State) (i : Nat) (x : Team) : (s.setTeam i x).target = s.target := rfl
@[simp] theorem State.setTeam_clkMhz (s : State) (i : Nat) (x : Team) : (s.setTeam i x).clkMhz = s.clkMhz := rfl
@[simp] theorem State.setTeam_clkNext (s : State) (i : Nat) (x : Team) : (s.setTeam i x).clkNext = s.clkNext := rfl
@[simp] theorem State.setTeam_samples (s : State) (i : Nat) (x : Team) : (s.setTeam i x).samples = s.samples := rfl
@[simp] theorem State.setTeam_pwrFloor (s : State) (i : Nat) (x : Team) : (s.setTeam i x).pwrFloor = s.pwrFloor := rfl
@[simp] theorem State.setTeam_energy (s : State) (i : Nat) (x : Team) : (s.setTeam i x).energy = s.energy := rfl
@[simp] theorem State.setTeam_avg (s : State) (i : Nat) (x : Team) : (s.setTeam i x).avg = s.avg := rfl
@[simp] theorem State.setTeam_inst (s : State) (i : Nat) (x : Team) : (s.setTeam i x).inst = s.inst := rfl
@[simp] theorem State.setTeam_tele (s : State) (i : Nat) (x : Team) : (s.setTeam i x).tele = s.tele := rfl
@[simp] theorem State.setTeam_tlbiva (s : State) (i : Nat) (x : Team) : (s.setTeam i x).tlbiva = s.tlbiva := rfl
@[simp] theorem State.setTeam_tlbicmd (s : State) (i : Nat) (x : Team) : (s.setTeam i x).tlbicmd = s.tlbicmd := rfl
@[simp] theorem State.setTeam_tresume (s : State) (i : Nat) (x : Team) : (s.setTeam i x).tresume = s.tresume := rfl
@[simp] theorem State.setTeam_sysA (s : State) (i : Nat) (x : Team) : (s.setTeam i x).sysA = s.sysA := rfl
@[simp] theorem State.setTeam_sysB (s : State) (i : Nat) (x : Team) : (s.setTeam i x).sysB = s.sysB := rfl
@[simp] theorem State.setTeam_ringBase (s : State) (i : Nat) (x : Team) : (s.setTeam i x).ringBase = s.ringBase := rfl
@[simp] theorem State.setTeam_ringWi (s : State) (i : Nat) (x : Team) : (s.setTeam i x).ringWi = s.ringWi := rfl
@[simp] theorem State.setTeam_ringRi (s : State) (i : Nat) (x : Team) : (s.setTeam i x).ringRi = s.ringRi := rfl
@[simp] theorem State.setTeam_ringDropped (s : State) (i : Nat) (x : Team) : (s.setTeam i x).ringDropped = s.ringDropped := rfl
@[simp] theorem State.setTeam_devnum (s : State) (i : Nat) (x : Team) : (s.setTeam i x).devnum = s.devnum := rfl
@[simp] theorem State.setTeam_peers (s : State) (i : Nat) (x : Team) : (s.setTeam i x).peers = s.peers := rfl
@[simp] theorem State.setTeam_routes (s : State) (i : Nat) (x : Team) : (s.setTeam i x).routes = s.routes := rfl
@[simp] theorem State.setTeam_redwin (s : State) (i : Nat) (x : Team) : (s.setTeam i x).redwin = s.redwin := rfl
@[simp] theorem State.setTeam_ports (s : State) (i : Nat) (x : Team) : (s.setTeam i x).ports = s.ports := rfl
@[simp] theorem State.setTeam_queues (s : State) (i : Nat) (x : Team) : (s.setTeam i x).queues = s.queues := rfl
@[simp] theorem State.setTeam_launches (s : State) (i : Nat) (x : Team) : (s.setTeam i x).launches = s.launches := rfl
@[simp] theorem State.setTeam_children (s : State) (i : Nat) (x : Team) : (s.setTeam i x).children = s.children := rfl
@[simp] theorem State.setTeam_sheaves (s : State) (i : Nat) (x : Team) : (s.setTeam i x).sheaves = s.sheaves := rfl
@[simp] theorem State.setTeam_cores (s : State) (i : Nat) (x : Team) : (s.setTeam i x).cores = s.cores := rfl
@[simp] theorem State.setTeam_gtlb (s : State) (i : Nat) (x : Team) : (s.setTeam i x).gtlb = s.gtlb := rfl
@[simp] theorem State.setTeam_gregions (s : State) (i : Nat) (x : Team) : (s.setTeam i x).gregions = s.gregions := rfl
@[simp] theorem State.setTeam_ended (s : State) (i : Nat) (x : Team) : (s.setTeam i x).ended = s.ended := rfl
@[simp] theorem State.setTeam_hints (s : State) (i : Nat) (x : Team) : (s.setTeam i x).hints = s.hints := rfl
@[simp] theorem State.setTeam_mem (s : State) (i : Nat) (x : Team) : (s.setTeam i x).mem = s.mem := rfl
@[simp] theorem State.setTeam_lb (s : State) (i : Nat) (x : Team) : (s.setTeam i x).lb = s.lb := rfl
@[simp] theorem State.setTeam_poison (s : State) (i : Nat) (x : Team) : (s.setTeam i x).poison = s.poison := rfl
@[simp] theorem State.setTeam_blockClean (s : State) (i : Nat) (x : Team) : (s.setTeam i x).blockClean = s.blockClean := rfl
@[simp] theorem State.setTeam_green (s : State) (i : Nat) (x : Team) : (s.setTeam i x).green = s.green := rfl
@[simp] theorem State.setTeam_ext (s : State) (i : Nat) (x : Team) : (s.setTeam i x).ext = s.ext := rfl
@[simp] theorem State.setTeam_extPoison (s : State) (i : Nat) (x : Team) : (s.setTeam i x).extPoison = s.extPoison := rfl
@[simp] theorem State.setTeam_extLb (s : State) (i : Nat) (x : Team) : (s.setTeam i x).extLb = s.extLb := rfl
@[simp] theorem State.setTeam_peerEnc (s : State) (i : Nat) (x : Team) : (s.setTeam i x).peerEnc = s.peerEnc := rfl
@[simp] theorem State.setTeam_pubs (s : State) (i : Nat) (x : Team) : (s.setTeam i x).pubs = s.pubs := rfl
@[simp] theorem State.setTeam_remHeld (s : State) (i : Nat) (x : Team) : (s.setTeam i x).remHeld = s.remHeld := rfl
@[simp] theorem State.setTeam_sysHeld (s : State) (i : Nat) (x : Team) : (s.setTeam i x).sysHeld = s.sysHeld := rfl
@[simp] theorem State.setTeam_flights (s : State) (i : Nat) (x : Team) : (s.setTeam i x).flights = s.flights := rfl
@[simp] theorem State.setTeam_chanSeq (s : State) (i : Nat) (x : Team) : (s.setTeam i x).chanSeq = s.chanSeq := rfl
@[simp] theorem State.setTeam_chanNext (s : State) (i : Nat) (x : Team) : (s.setTeam i x).chanNext = s.chanNext := rfl
@[simp] theorem State.setTeam_chanHeld (s : State) (i : Nat) (x : Team) : (s.setTeam i x).chanHeld = s.chanHeld := rfl
@[simp] theorem State.setTeam_sentUpTo (s : State) (i : Nat) (x : Team) : (s.setTeam i x).sentUpTo = s.sentUpTo := rfl
@[simp] theorem State.setTeam_tokens (s : State) (i : Nat) (x : Team) : (s.setTeam i x).tokens = s.tokens := rfl
@[simp] theorem State.setTeam_precedence (s : State) (i : Nat) (x : Team) : (s.setTeam i x).precedence = s.precedence := rfl
@[simp] theorem State.setTeam_nextId (s : State) (i : Nat) (x : Team) : (s.setTeam i x).nextId = s.nextId := rfl
@[simp] theorem State.setTeam_issue (s : State) (i : Nat) (x : Team) : (s.setTeam i x).issue = s.issue := rfl
@[simp] theorem State.setTeam_agenda (s : State) (i : Nat) (x : Team) : (s.setTeam i x).agenda = s.agenda := rfl
@[simp] theorem State.setTeam_out (s : State) (i : Nat) (x : Team) : (s.setTeam i x).out = s.out := rfl
@[simp] theorem State.setTeam_freeCtr (s : State) (i : Nat) (x : Team) : (s.setTeam i x).freeCtr = s.freeCtr := rfl

/-! `State.updTeam` writes `teams`. -/

@[simp] theorem State.updTeam_cycle (s : State) (i : Nat) (f : Team → Team) : (s.updTeam i f).cycle = s.cycle := rfl
@[simp] theorem State.updTeam_round (s : State) (i : Nat) (f : Team → Team) : (s.updTeam i f).round = s.round := rfl
@[simp] theorem State.updTeam_phase (s : State) (i : Nat) (f : Team → Team) : (s.updTeam i f).phase = s.phase := rfl
@[simp] theorem State.updTeam_failCode (s : State) (i : Nat) (f : Team → Team) : (s.updTeam i f).failCode = s.failCode := rfl
@[simp] theorem State.updTeam_absent (s : State) (i : Nat) (f : Team → Team) : (s.updTeam i f).absent = s.absent := rfl
@[simp] theorem State.updTeam_featack (s : State) (i : Nat) (f : Team → Team) : (s.updTeam i f).featack = s.featack := rfl
@[simp] theorem State.updTeam_ctxtb (s : State) (i : Nat) (f : Team → Team) : (s.updTeam i f).ctxtb = s.ctxtb := rfl
@[simp] theorem State.updTeam_fuse (s : State) (i : Nat) (f : Team → Team) : (s.updTeam i f).fuse = s.fuse := rfl
@[simp] theorem State.updTeam_partcfg (s : State) (i : Nat) (f : Team → Team) : (s.updTeam i f).partcfg = s.partcfg := rfl
@[simp] theorem State.updTeam_parts (s : State) (i : Nat) (f : Team → Team) : (s.updTeam i f).parts = s.parts := rfl
@[simp] theorem State.updTeam_pwrlim (s : State) (i : Nat) (f : Team → Team) : (s.updTeam i f).pwrlim = s.pwrlim := rfl
@[simp] theorem State.updTeam_pwrcfg (s : State) (i : Nat) (f : Team → Team) : (s.updTeam i f).pwrcfg = s.pwrcfg := rfl
@[simp] theorem State.updTeam_target (s : State) (i : Nat) (f : Team → Team) : (s.updTeam i f).target = s.target := rfl
@[simp] theorem State.updTeam_clkMhz (s : State) (i : Nat) (f : Team → Team) : (s.updTeam i f).clkMhz = s.clkMhz := rfl
@[simp] theorem State.updTeam_clkNext (s : State) (i : Nat) (f : Team → Team) : (s.updTeam i f).clkNext = s.clkNext := rfl
@[simp] theorem State.updTeam_samples (s : State) (i : Nat) (f : Team → Team) : (s.updTeam i f).samples = s.samples := rfl
@[simp] theorem State.updTeam_pwrFloor (s : State) (i : Nat) (f : Team → Team) : (s.updTeam i f).pwrFloor = s.pwrFloor := rfl
@[simp] theorem State.updTeam_energy (s : State) (i : Nat) (f : Team → Team) : (s.updTeam i f).energy = s.energy := rfl
@[simp] theorem State.updTeam_avg (s : State) (i : Nat) (f : Team → Team) : (s.updTeam i f).avg = s.avg := rfl
@[simp] theorem State.updTeam_inst (s : State) (i : Nat) (f : Team → Team) : (s.updTeam i f).inst = s.inst := rfl
@[simp] theorem State.updTeam_tele (s : State) (i : Nat) (f : Team → Team) : (s.updTeam i f).tele = s.tele := rfl
@[simp] theorem State.updTeam_tlbiva (s : State) (i : Nat) (f : Team → Team) : (s.updTeam i f).tlbiva = s.tlbiva := rfl
@[simp] theorem State.updTeam_tlbicmd (s : State) (i : Nat) (f : Team → Team) : (s.updTeam i f).tlbicmd = s.tlbicmd := rfl
@[simp] theorem State.updTeam_tresume (s : State) (i : Nat) (f : Team → Team) : (s.updTeam i f).tresume = s.tresume := rfl
@[simp] theorem State.updTeam_sysA (s : State) (i : Nat) (f : Team → Team) : (s.updTeam i f).sysA = s.sysA := rfl
@[simp] theorem State.updTeam_sysB (s : State) (i : Nat) (f : Team → Team) : (s.updTeam i f).sysB = s.sysB := rfl
@[simp] theorem State.updTeam_ringBase (s : State) (i : Nat) (f : Team → Team) : (s.updTeam i f).ringBase = s.ringBase := rfl
@[simp] theorem State.updTeam_ringWi (s : State) (i : Nat) (f : Team → Team) : (s.updTeam i f).ringWi = s.ringWi := rfl
@[simp] theorem State.updTeam_ringRi (s : State) (i : Nat) (f : Team → Team) : (s.updTeam i f).ringRi = s.ringRi := rfl
@[simp] theorem State.updTeam_ringDropped (s : State) (i : Nat) (f : Team → Team) : (s.updTeam i f).ringDropped = s.ringDropped := rfl
@[simp] theorem State.updTeam_devnum (s : State) (i : Nat) (f : Team → Team) : (s.updTeam i f).devnum = s.devnum := rfl
@[simp] theorem State.updTeam_peers (s : State) (i : Nat) (f : Team → Team) : (s.updTeam i f).peers = s.peers := rfl
@[simp] theorem State.updTeam_routes (s : State) (i : Nat) (f : Team → Team) : (s.updTeam i f).routes = s.routes := rfl
@[simp] theorem State.updTeam_redwin (s : State) (i : Nat) (f : Team → Team) : (s.updTeam i f).redwin = s.redwin := rfl
@[simp] theorem State.updTeam_ports (s : State) (i : Nat) (f : Team → Team) : (s.updTeam i f).ports = s.ports := rfl
@[simp] theorem State.updTeam_queues (s : State) (i : Nat) (f : Team → Team) : (s.updTeam i f).queues = s.queues := rfl
@[simp] theorem State.updTeam_launches (s : State) (i : Nat) (f : Team → Team) : (s.updTeam i f).launches = s.launches := rfl
@[simp] theorem State.updTeam_children (s : State) (i : Nat) (f : Team → Team) : (s.updTeam i f).children = s.children := rfl
@[simp] theorem State.updTeam_sheaves (s : State) (i : Nat) (f : Team → Team) : (s.updTeam i f).sheaves = s.sheaves := rfl
@[simp] theorem State.updTeam_cores (s : State) (i : Nat) (f : Team → Team) : (s.updTeam i f).cores = s.cores := rfl
@[simp] theorem State.updTeam_gtlb (s : State) (i : Nat) (f : Team → Team) : (s.updTeam i f).gtlb = s.gtlb := rfl
@[simp] theorem State.updTeam_gregions (s : State) (i : Nat) (f : Team → Team) : (s.updTeam i f).gregions = s.gregions := rfl
@[simp] theorem State.updTeam_ended (s : State) (i : Nat) (f : Team → Team) : (s.updTeam i f).ended = s.ended := rfl
@[simp] theorem State.updTeam_hints (s : State) (i : Nat) (f : Team → Team) : (s.updTeam i f).hints = s.hints := rfl
@[simp] theorem State.updTeam_mem (s : State) (i : Nat) (f : Team → Team) : (s.updTeam i f).mem = s.mem := rfl
@[simp] theorem State.updTeam_lb (s : State) (i : Nat) (f : Team → Team) : (s.updTeam i f).lb = s.lb := rfl
@[simp] theorem State.updTeam_poison (s : State) (i : Nat) (f : Team → Team) : (s.updTeam i f).poison = s.poison := rfl
@[simp] theorem State.updTeam_blockClean (s : State) (i : Nat) (f : Team → Team) : (s.updTeam i f).blockClean = s.blockClean := rfl
@[simp] theorem State.updTeam_green (s : State) (i : Nat) (f : Team → Team) : (s.updTeam i f).green = s.green := rfl
@[simp] theorem State.updTeam_ext (s : State) (i : Nat) (f : Team → Team) : (s.updTeam i f).ext = s.ext := rfl
@[simp] theorem State.updTeam_extPoison (s : State) (i : Nat) (f : Team → Team) : (s.updTeam i f).extPoison = s.extPoison := rfl
@[simp] theorem State.updTeam_extLb (s : State) (i : Nat) (f : Team → Team) : (s.updTeam i f).extLb = s.extLb := rfl
@[simp] theorem State.updTeam_peerEnc (s : State) (i : Nat) (f : Team → Team) : (s.updTeam i f).peerEnc = s.peerEnc := rfl
@[simp] theorem State.updTeam_pubs (s : State) (i : Nat) (f : Team → Team) : (s.updTeam i f).pubs = s.pubs := rfl
@[simp] theorem State.updTeam_remHeld (s : State) (i : Nat) (f : Team → Team) : (s.updTeam i f).remHeld = s.remHeld := rfl
@[simp] theorem State.updTeam_sysHeld (s : State) (i : Nat) (f : Team → Team) : (s.updTeam i f).sysHeld = s.sysHeld := rfl
@[simp] theorem State.updTeam_flights (s : State) (i : Nat) (f : Team → Team) : (s.updTeam i f).flights = s.flights := rfl
@[simp] theorem State.updTeam_chanSeq (s : State) (i : Nat) (f : Team → Team) : (s.updTeam i f).chanSeq = s.chanSeq := rfl
@[simp] theorem State.updTeam_chanNext (s : State) (i : Nat) (f : Team → Team) : (s.updTeam i f).chanNext = s.chanNext := rfl
@[simp] theorem State.updTeam_chanHeld (s : State) (i : Nat) (f : Team → Team) : (s.updTeam i f).chanHeld = s.chanHeld := rfl
@[simp] theorem State.updTeam_sentUpTo (s : State) (i : Nat) (f : Team → Team) : (s.updTeam i f).sentUpTo = s.sentUpTo := rfl
@[simp] theorem State.updTeam_tokens (s : State) (i : Nat) (f : Team → Team) : (s.updTeam i f).tokens = s.tokens := rfl
@[simp] theorem State.updTeam_precedence (s : State) (i : Nat) (f : Team → Team) : (s.updTeam i f).precedence = s.precedence := rfl
@[simp] theorem State.updTeam_nextId (s : State) (i : Nat) (f : Team → Team) : (s.updTeam i f).nextId = s.nextId := rfl
@[simp] theorem State.updTeam_issue (s : State) (i : Nat) (f : Team → Team) : (s.updTeam i f).issue = s.issue := rfl
@[simp] theorem State.updTeam_agenda (s : State) (i : Nat) (f : Team → Team) : (s.updTeam i f).agenda = s.agenda := rfl
@[simp] theorem State.updTeam_out (s : State) (i : Nat) (f : Team → Team) : (s.updTeam i f).out = s.out := rfl
@[simp] theorem State.updTeam_freeCtr (s : State) (i : Nat) (f : Team → Team) : (s.updTeam i f).freeCtr = s.freeCtr := rfl

/-! `State.setCore` writes `cores`. -/

@[simp] theorem State.setCore_cycle (s : State) (i : Nat) (x : Core) : (s.setCore i x).cycle = s.cycle := rfl
@[simp] theorem State.setCore_round (s : State) (i : Nat) (x : Core) : (s.setCore i x).round = s.round := rfl
@[simp] theorem State.setCore_phase (s : State) (i : Nat) (x : Core) : (s.setCore i x).phase = s.phase := rfl
@[simp] theorem State.setCore_failCode (s : State) (i : Nat) (x : Core) : (s.setCore i x).failCode = s.failCode := rfl
@[simp] theorem State.setCore_absent (s : State) (i : Nat) (x : Core) : (s.setCore i x).absent = s.absent := rfl
@[simp] theorem State.setCore_featack (s : State) (i : Nat) (x : Core) : (s.setCore i x).featack = s.featack := rfl
@[simp] theorem State.setCore_ctxtb (s : State) (i : Nat) (x : Core) : (s.setCore i x).ctxtb = s.ctxtb := rfl
@[simp] theorem State.setCore_fuse (s : State) (i : Nat) (x : Core) : (s.setCore i x).fuse = s.fuse := rfl
@[simp] theorem State.setCore_partcfg (s : State) (i : Nat) (x : Core) : (s.setCore i x).partcfg = s.partcfg := rfl
@[simp] theorem State.setCore_parts (s : State) (i : Nat) (x : Core) : (s.setCore i x).parts = s.parts := rfl
@[simp] theorem State.setCore_pwrlim (s : State) (i : Nat) (x : Core) : (s.setCore i x).pwrlim = s.pwrlim := rfl
@[simp] theorem State.setCore_pwrcfg (s : State) (i : Nat) (x : Core) : (s.setCore i x).pwrcfg = s.pwrcfg := rfl
@[simp] theorem State.setCore_target (s : State) (i : Nat) (x : Core) : (s.setCore i x).target = s.target := rfl
@[simp] theorem State.setCore_clkMhz (s : State) (i : Nat) (x : Core) : (s.setCore i x).clkMhz = s.clkMhz := rfl
@[simp] theorem State.setCore_clkNext (s : State) (i : Nat) (x : Core) : (s.setCore i x).clkNext = s.clkNext := rfl
@[simp] theorem State.setCore_samples (s : State) (i : Nat) (x : Core) : (s.setCore i x).samples = s.samples := rfl
@[simp] theorem State.setCore_pwrFloor (s : State) (i : Nat) (x : Core) : (s.setCore i x).pwrFloor = s.pwrFloor := rfl
@[simp] theorem State.setCore_energy (s : State) (i : Nat) (x : Core) : (s.setCore i x).energy = s.energy := rfl
@[simp] theorem State.setCore_avg (s : State) (i : Nat) (x : Core) : (s.setCore i x).avg = s.avg := rfl
@[simp] theorem State.setCore_inst (s : State) (i : Nat) (x : Core) : (s.setCore i x).inst = s.inst := rfl
@[simp] theorem State.setCore_tele (s : State) (i : Nat) (x : Core) : (s.setCore i x).tele = s.tele := rfl
@[simp] theorem State.setCore_tlbiva (s : State) (i : Nat) (x : Core) : (s.setCore i x).tlbiva = s.tlbiva := rfl
@[simp] theorem State.setCore_tlbicmd (s : State) (i : Nat) (x : Core) : (s.setCore i x).tlbicmd = s.tlbicmd := rfl
@[simp] theorem State.setCore_tresume (s : State) (i : Nat) (x : Core) : (s.setCore i x).tresume = s.tresume := rfl
@[simp] theorem State.setCore_sysA (s : State) (i : Nat) (x : Core) : (s.setCore i x).sysA = s.sysA := rfl
@[simp] theorem State.setCore_sysB (s : State) (i : Nat) (x : Core) : (s.setCore i x).sysB = s.sysB := rfl
@[simp] theorem State.setCore_ringBase (s : State) (i : Nat) (x : Core) : (s.setCore i x).ringBase = s.ringBase := rfl
@[simp] theorem State.setCore_ringWi (s : State) (i : Nat) (x : Core) : (s.setCore i x).ringWi = s.ringWi := rfl
@[simp] theorem State.setCore_ringRi (s : State) (i : Nat) (x : Core) : (s.setCore i x).ringRi = s.ringRi := rfl
@[simp] theorem State.setCore_ringDropped (s : State) (i : Nat) (x : Core) : (s.setCore i x).ringDropped = s.ringDropped := rfl
@[simp] theorem State.setCore_devnum (s : State) (i : Nat) (x : Core) : (s.setCore i x).devnum = s.devnum := rfl
@[simp] theorem State.setCore_peers (s : State) (i : Nat) (x : Core) : (s.setCore i x).peers = s.peers := rfl
@[simp] theorem State.setCore_routes (s : State) (i : Nat) (x : Core) : (s.setCore i x).routes = s.routes := rfl
@[simp] theorem State.setCore_redwin (s : State) (i : Nat) (x : Core) : (s.setCore i x).redwin = s.redwin := rfl
@[simp] theorem State.setCore_ports (s : State) (i : Nat) (x : Core) : (s.setCore i x).ports = s.ports := rfl
@[simp] theorem State.setCore_queues (s : State) (i : Nat) (x : Core) : (s.setCore i x).queues = s.queues := rfl
@[simp] theorem State.setCore_launches (s : State) (i : Nat) (x : Core) : (s.setCore i x).launches = s.launches := rfl
@[simp] theorem State.setCore_children (s : State) (i : Nat) (x : Core) : (s.setCore i x).children = s.children := rfl
@[simp] theorem State.setCore_teams (s : State) (i : Nat) (x : Core) : (s.setCore i x).teams = s.teams := rfl
@[simp] theorem State.setCore_sheaves (s : State) (i : Nat) (x : Core) : (s.setCore i x).sheaves = s.sheaves := rfl
@[simp] theorem State.setCore_gtlb (s : State) (i : Nat) (x : Core) : (s.setCore i x).gtlb = s.gtlb := rfl
@[simp] theorem State.setCore_gregions (s : State) (i : Nat) (x : Core) : (s.setCore i x).gregions = s.gregions := rfl
@[simp] theorem State.setCore_ended (s : State) (i : Nat) (x : Core) : (s.setCore i x).ended = s.ended := rfl
@[simp] theorem State.setCore_hints (s : State) (i : Nat) (x : Core) : (s.setCore i x).hints = s.hints := rfl
@[simp] theorem State.setCore_mem (s : State) (i : Nat) (x : Core) : (s.setCore i x).mem = s.mem := rfl
@[simp] theorem State.setCore_lb (s : State) (i : Nat) (x : Core) : (s.setCore i x).lb = s.lb := rfl
@[simp] theorem State.setCore_poison (s : State) (i : Nat) (x : Core) : (s.setCore i x).poison = s.poison := rfl
@[simp] theorem State.setCore_blockClean (s : State) (i : Nat) (x : Core) : (s.setCore i x).blockClean = s.blockClean := rfl
@[simp] theorem State.setCore_green (s : State) (i : Nat) (x : Core) : (s.setCore i x).green = s.green := rfl
@[simp] theorem State.setCore_ext (s : State) (i : Nat) (x : Core) : (s.setCore i x).ext = s.ext := rfl
@[simp] theorem State.setCore_extPoison (s : State) (i : Nat) (x : Core) : (s.setCore i x).extPoison = s.extPoison := rfl
@[simp] theorem State.setCore_extLb (s : State) (i : Nat) (x : Core) : (s.setCore i x).extLb = s.extLb := rfl
@[simp] theorem State.setCore_peerEnc (s : State) (i : Nat) (x : Core) : (s.setCore i x).peerEnc = s.peerEnc := rfl
@[simp] theorem State.setCore_pubs (s : State) (i : Nat) (x : Core) : (s.setCore i x).pubs = s.pubs := rfl
@[simp] theorem State.setCore_remHeld (s : State) (i : Nat) (x : Core) : (s.setCore i x).remHeld = s.remHeld := rfl
@[simp] theorem State.setCore_sysHeld (s : State) (i : Nat) (x : Core) : (s.setCore i x).sysHeld = s.sysHeld := rfl
@[simp] theorem State.setCore_flights (s : State) (i : Nat) (x : Core) : (s.setCore i x).flights = s.flights := rfl
@[simp] theorem State.setCore_chanSeq (s : State) (i : Nat) (x : Core) : (s.setCore i x).chanSeq = s.chanSeq := rfl
@[simp] theorem State.setCore_chanNext (s : State) (i : Nat) (x : Core) : (s.setCore i x).chanNext = s.chanNext := rfl
@[simp] theorem State.setCore_chanHeld (s : State) (i : Nat) (x : Core) : (s.setCore i x).chanHeld = s.chanHeld := rfl
@[simp] theorem State.setCore_sentUpTo (s : State) (i : Nat) (x : Core) : (s.setCore i x).sentUpTo = s.sentUpTo := rfl
@[simp] theorem State.setCore_tokens (s : State) (i : Nat) (x : Core) : (s.setCore i x).tokens = s.tokens := rfl
@[simp] theorem State.setCore_precedence (s : State) (i : Nat) (x : Core) : (s.setCore i x).precedence = s.precedence := rfl
@[simp] theorem State.setCore_nextId (s : State) (i : Nat) (x : Core) : (s.setCore i x).nextId = s.nextId := rfl
@[simp] theorem State.setCore_issue (s : State) (i : Nat) (x : Core) : (s.setCore i x).issue = s.issue := rfl
@[simp] theorem State.setCore_agenda (s : State) (i : Nat) (x : Core) : (s.setCore i x).agenda = s.agenda := rfl
@[simp] theorem State.setCore_out (s : State) (i : Nat) (x : Core) : (s.setCore i x).out = s.out := rfl
@[simp] theorem State.setCore_freeCtr (s : State) (i : Nat) (x : Core) : (s.setCore i x).freeCtr = s.freeCtr := rfl

/-! `State.updCore` writes `cores`. -/

@[simp] theorem State.updCore_cycle (s : State) (i : Nat) (f : Core → Core) : (s.updCore i f).cycle = s.cycle := rfl
@[simp] theorem State.updCore_round (s : State) (i : Nat) (f : Core → Core) : (s.updCore i f).round = s.round := rfl
@[simp] theorem State.updCore_phase (s : State) (i : Nat) (f : Core → Core) : (s.updCore i f).phase = s.phase := rfl
@[simp] theorem State.updCore_failCode (s : State) (i : Nat) (f : Core → Core) : (s.updCore i f).failCode = s.failCode := rfl
@[simp] theorem State.updCore_absent (s : State) (i : Nat) (f : Core → Core) : (s.updCore i f).absent = s.absent := rfl
@[simp] theorem State.updCore_featack (s : State) (i : Nat) (f : Core → Core) : (s.updCore i f).featack = s.featack := rfl
@[simp] theorem State.updCore_ctxtb (s : State) (i : Nat) (f : Core → Core) : (s.updCore i f).ctxtb = s.ctxtb := rfl
@[simp] theorem State.updCore_fuse (s : State) (i : Nat) (f : Core → Core) : (s.updCore i f).fuse = s.fuse := rfl
@[simp] theorem State.updCore_partcfg (s : State) (i : Nat) (f : Core → Core) : (s.updCore i f).partcfg = s.partcfg := rfl
@[simp] theorem State.updCore_parts (s : State) (i : Nat) (f : Core → Core) : (s.updCore i f).parts = s.parts := rfl
@[simp] theorem State.updCore_pwrlim (s : State) (i : Nat) (f : Core → Core) : (s.updCore i f).pwrlim = s.pwrlim := rfl
@[simp] theorem State.updCore_pwrcfg (s : State) (i : Nat) (f : Core → Core) : (s.updCore i f).pwrcfg = s.pwrcfg := rfl
@[simp] theorem State.updCore_target (s : State) (i : Nat) (f : Core → Core) : (s.updCore i f).target = s.target := rfl
@[simp] theorem State.updCore_clkMhz (s : State) (i : Nat) (f : Core → Core) : (s.updCore i f).clkMhz = s.clkMhz := rfl
@[simp] theorem State.updCore_clkNext (s : State) (i : Nat) (f : Core → Core) : (s.updCore i f).clkNext = s.clkNext := rfl
@[simp] theorem State.updCore_samples (s : State) (i : Nat) (f : Core → Core) : (s.updCore i f).samples = s.samples := rfl
@[simp] theorem State.updCore_pwrFloor (s : State) (i : Nat) (f : Core → Core) : (s.updCore i f).pwrFloor = s.pwrFloor := rfl
@[simp] theorem State.updCore_energy (s : State) (i : Nat) (f : Core → Core) : (s.updCore i f).energy = s.energy := rfl
@[simp] theorem State.updCore_avg (s : State) (i : Nat) (f : Core → Core) : (s.updCore i f).avg = s.avg := rfl
@[simp] theorem State.updCore_inst (s : State) (i : Nat) (f : Core → Core) : (s.updCore i f).inst = s.inst := rfl
@[simp] theorem State.updCore_tele (s : State) (i : Nat) (f : Core → Core) : (s.updCore i f).tele = s.tele := rfl
@[simp] theorem State.updCore_tlbiva (s : State) (i : Nat) (f : Core → Core) : (s.updCore i f).tlbiva = s.tlbiva := rfl
@[simp] theorem State.updCore_tlbicmd (s : State) (i : Nat) (f : Core → Core) : (s.updCore i f).tlbicmd = s.tlbicmd := rfl
@[simp] theorem State.updCore_tresume (s : State) (i : Nat) (f : Core → Core) : (s.updCore i f).tresume = s.tresume := rfl
@[simp] theorem State.updCore_sysA (s : State) (i : Nat) (f : Core → Core) : (s.updCore i f).sysA = s.sysA := rfl
@[simp] theorem State.updCore_sysB (s : State) (i : Nat) (f : Core → Core) : (s.updCore i f).sysB = s.sysB := rfl
@[simp] theorem State.updCore_ringBase (s : State) (i : Nat) (f : Core → Core) : (s.updCore i f).ringBase = s.ringBase := rfl
@[simp] theorem State.updCore_ringWi (s : State) (i : Nat) (f : Core → Core) : (s.updCore i f).ringWi = s.ringWi := rfl
@[simp] theorem State.updCore_ringRi (s : State) (i : Nat) (f : Core → Core) : (s.updCore i f).ringRi = s.ringRi := rfl
@[simp] theorem State.updCore_ringDropped (s : State) (i : Nat) (f : Core → Core) : (s.updCore i f).ringDropped = s.ringDropped := rfl
@[simp] theorem State.updCore_devnum (s : State) (i : Nat) (f : Core → Core) : (s.updCore i f).devnum = s.devnum := rfl
@[simp] theorem State.updCore_peers (s : State) (i : Nat) (f : Core → Core) : (s.updCore i f).peers = s.peers := rfl
@[simp] theorem State.updCore_routes (s : State) (i : Nat) (f : Core → Core) : (s.updCore i f).routes = s.routes := rfl
@[simp] theorem State.updCore_redwin (s : State) (i : Nat) (f : Core → Core) : (s.updCore i f).redwin = s.redwin := rfl
@[simp] theorem State.updCore_ports (s : State) (i : Nat) (f : Core → Core) : (s.updCore i f).ports = s.ports := rfl
@[simp] theorem State.updCore_queues (s : State) (i : Nat) (f : Core → Core) : (s.updCore i f).queues = s.queues := rfl
@[simp] theorem State.updCore_launches (s : State) (i : Nat) (f : Core → Core) : (s.updCore i f).launches = s.launches := rfl
@[simp] theorem State.updCore_children (s : State) (i : Nat) (f : Core → Core) : (s.updCore i f).children = s.children := rfl
@[simp] theorem State.updCore_teams (s : State) (i : Nat) (f : Core → Core) : (s.updCore i f).teams = s.teams := rfl
@[simp] theorem State.updCore_sheaves (s : State) (i : Nat) (f : Core → Core) : (s.updCore i f).sheaves = s.sheaves := rfl
@[simp] theorem State.updCore_gtlb (s : State) (i : Nat) (f : Core → Core) : (s.updCore i f).gtlb = s.gtlb := rfl
@[simp] theorem State.updCore_gregions (s : State) (i : Nat) (f : Core → Core) : (s.updCore i f).gregions = s.gregions := rfl
@[simp] theorem State.updCore_ended (s : State) (i : Nat) (f : Core → Core) : (s.updCore i f).ended = s.ended := rfl
@[simp] theorem State.updCore_hints (s : State) (i : Nat) (f : Core → Core) : (s.updCore i f).hints = s.hints := rfl
@[simp] theorem State.updCore_mem (s : State) (i : Nat) (f : Core → Core) : (s.updCore i f).mem = s.mem := rfl
@[simp] theorem State.updCore_lb (s : State) (i : Nat) (f : Core → Core) : (s.updCore i f).lb = s.lb := rfl
@[simp] theorem State.updCore_poison (s : State) (i : Nat) (f : Core → Core) : (s.updCore i f).poison = s.poison := rfl
@[simp] theorem State.updCore_blockClean (s : State) (i : Nat) (f : Core → Core) : (s.updCore i f).blockClean = s.blockClean := rfl
@[simp] theorem State.updCore_green (s : State) (i : Nat) (f : Core → Core) : (s.updCore i f).green = s.green := rfl
@[simp] theorem State.updCore_ext (s : State) (i : Nat) (f : Core → Core) : (s.updCore i f).ext = s.ext := rfl
@[simp] theorem State.updCore_extPoison (s : State) (i : Nat) (f : Core → Core) : (s.updCore i f).extPoison = s.extPoison := rfl
@[simp] theorem State.updCore_extLb (s : State) (i : Nat) (f : Core → Core) : (s.updCore i f).extLb = s.extLb := rfl
@[simp] theorem State.updCore_peerEnc (s : State) (i : Nat) (f : Core → Core) : (s.updCore i f).peerEnc = s.peerEnc := rfl
@[simp] theorem State.updCore_pubs (s : State) (i : Nat) (f : Core → Core) : (s.updCore i f).pubs = s.pubs := rfl
@[simp] theorem State.updCore_remHeld (s : State) (i : Nat) (f : Core → Core) : (s.updCore i f).remHeld = s.remHeld := rfl
@[simp] theorem State.updCore_sysHeld (s : State) (i : Nat) (f : Core → Core) : (s.updCore i f).sysHeld = s.sysHeld := rfl
@[simp] theorem State.updCore_flights (s : State) (i : Nat) (f : Core → Core) : (s.updCore i f).flights = s.flights := rfl
@[simp] theorem State.updCore_chanSeq (s : State) (i : Nat) (f : Core → Core) : (s.updCore i f).chanSeq = s.chanSeq := rfl
@[simp] theorem State.updCore_chanNext (s : State) (i : Nat) (f : Core → Core) : (s.updCore i f).chanNext = s.chanNext := rfl
@[simp] theorem State.updCore_chanHeld (s : State) (i : Nat) (f : Core → Core) : (s.updCore i f).chanHeld = s.chanHeld := rfl
@[simp] theorem State.updCore_sentUpTo (s : State) (i : Nat) (f : Core → Core) : (s.updCore i f).sentUpTo = s.sentUpTo := rfl
@[simp] theorem State.updCore_tokens (s : State) (i : Nat) (f : Core → Core) : (s.updCore i f).tokens = s.tokens := rfl
@[simp] theorem State.updCore_precedence (s : State) (i : Nat) (f : Core → Core) : (s.updCore i f).precedence = s.precedence := rfl
@[simp] theorem State.updCore_nextId (s : State) (i : Nat) (f : Core → Core) : (s.updCore i f).nextId = s.nextId := rfl
@[simp] theorem State.updCore_issue (s : State) (i : Nat) (f : Core → Core) : (s.updCore i f).issue = s.issue := rfl
@[simp] theorem State.updCore_agenda (s : State) (i : Nat) (f : Core → Core) : (s.updCore i f).agenda = s.agenda := rfl
@[simp] theorem State.updCore_out (s : State) (i : Nat) (f : Core → Core) : (s.updCore i f).out = s.out := rfl
@[simp] theorem State.updCore_freeCtr (s : State) (i : Nat) (f : Core → Core) : (s.updCore i f).freeCtr = s.freeCtr := rfl

/-! `State.emit` writes `out`. -/

@[simp] theorem State.emit_cycle (s : State) (o : Out) : (s.emit o).cycle = s.cycle := rfl
@[simp] theorem State.emit_round (s : State) (o : Out) : (s.emit o).round = s.round := rfl
@[simp] theorem State.emit_phase (s : State) (o : Out) : (s.emit o).phase = s.phase := rfl
@[simp] theorem State.emit_failCode (s : State) (o : Out) : (s.emit o).failCode = s.failCode := rfl
@[simp] theorem State.emit_absent (s : State) (o : Out) : (s.emit o).absent = s.absent := rfl
@[simp] theorem State.emit_featack (s : State) (o : Out) : (s.emit o).featack = s.featack := rfl
@[simp] theorem State.emit_ctxtb (s : State) (o : Out) : (s.emit o).ctxtb = s.ctxtb := rfl
@[simp] theorem State.emit_fuse (s : State) (o : Out) : (s.emit o).fuse = s.fuse := rfl
@[simp] theorem State.emit_partcfg (s : State) (o : Out) : (s.emit o).partcfg = s.partcfg := rfl
@[simp] theorem State.emit_parts (s : State) (o : Out) : (s.emit o).parts = s.parts := rfl
@[simp] theorem State.emit_pwrlim (s : State) (o : Out) : (s.emit o).pwrlim = s.pwrlim := rfl
@[simp] theorem State.emit_pwrcfg (s : State) (o : Out) : (s.emit o).pwrcfg = s.pwrcfg := rfl
@[simp] theorem State.emit_target (s : State) (o : Out) : (s.emit o).target = s.target := rfl
@[simp] theorem State.emit_clkMhz (s : State) (o : Out) : (s.emit o).clkMhz = s.clkMhz := rfl
@[simp] theorem State.emit_clkNext (s : State) (o : Out) : (s.emit o).clkNext = s.clkNext := rfl
@[simp] theorem State.emit_samples (s : State) (o : Out) : (s.emit o).samples = s.samples := rfl
@[simp] theorem State.emit_pwrFloor (s : State) (o : Out) : (s.emit o).pwrFloor = s.pwrFloor := rfl
@[simp] theorem State.emit_energy (s : State) (o : Out) : (s.emit o).energy = s.energy := rfl
@[simp] theorem State.emit_avg (s : State) (o : Out) : (s.emit o).avg = s.avg := rfl
@[simp] theorem State.emit_inst (s : State) (o : Out) : (s.emit o).inst = s.inst := rfl
@[simp] theorem State.emit_tele (s : State) (o : Out) : (s.emit o).tele = s.tele := rfl
@[simp] theorem State.emit_tlbiva (s : State) (o : Out) : (s.emit o).tlbiva = s.tlbiva := rfl
@[simp] theorem State.emit_tlbicmd (s : State) (o : Out) : (s.emit o).tlbicmd = s.tlbicmd := rfl
@[simp] theorem State.emit_tresume (s : State) (o : Out) : (s.emit o).tresume = s.tresume := rfl
@[simp] theorem State.emit_sysA (s : State) (o : Out) : (s.emit o).sysA = s.sysA := rfl
@[simp] theorem State.emit_sysB (s : State) (o : Out) : (s.emit o).sysB = s.sysB := rfl
@[simp] theorem State.emit_ringBase (s : State) (o : Out) : (s.emit o).ringBase = s.ringBase := rfl
@[simp] theorem State.emit_ringWi (s : State) (o : Out) : (s.emit o).ringWi = s.ringWi := rfl
@[simp] theorem State.emit_ringRi (s : State) (o : Out) : (s.emit o).ringRi = s.ringRi := rfl
@[simp] theorem State.emit_ringDropped (s : State) (o : Out) : (s.emit o).ringDropped = s.ringDropped := rfl
@[simp] theorem State.emit_devnum (s : State) (o : Out) : (s.emit o).devnum = s.devnum := rfl
@[simp] theorem State.emit_peers (s : State) (o : Out) : (s.emit o).peers = s.peers := rfl
@[simp] theorem State.emit_routes (s : State) (o : Out) : (s.emit o).routes = s.routes := rfl
@[simp] theorem State.emit_redwin (s : State) (o : Out) : (s.emit o).redwin = s.redwin := rfl
@[simp] theorem State.emit_ports (s : State) (o : Out) : (s.emit o).ports = s.ports := rfl
@[simp] theorem State.emit_queues (s : State) (o : Out) : (s.emit o).queues = s.queues := rfl
@[simp] theorem State.emit_launches (s : State) (o : Out) : (s.emit o).launches = s.launches := rfl
@[simp] theorem State.emit_children (s : State) (o : Out) : (s.emit o).children = s.children := rfl
@[simp] theorem State.emit_teams (s : State) (o : Out) : (s.emit o).teams = s.teams := rfl
@[simp] theorem State.emit_sheaves (s : State) (o : Out) : (s.emit o).sheaves = s.sheaves := rfl
@[simp] theorem State.emit_cores (s : State) (o : Out) : (s.emit o).cores = s.cores := rfl
@[simp] theorem State.emit_gtlb (s : State) (o : Out) : (s.emit o).gtlb = s.gtlb := rfl
@[simp] theorem State.emit_gregions (s : State) (o : Out) : (s.emit o).gregions = s.gregions := rfl
@[simp] theorem State.emit_ended (s : State) (o : Out) : (s.emit o).ended = s.ended := rfl
@[simp] theorem State.emit_hints (s : State) (o : Out) : (s.emit o).hints = s.hints := rfl
@[simp] theorem State.emit_mem (s : State) (o : Out) : (s.emit o).mem = s.mem := rfl
@[simp] theorem State.emit_lb (s : State) (o : Out) : (s.emit o).lb = s.lb := rfl
@[simp] theorem State.emit_poison (s : State) (o : Out) : (s.emit o).poison = s.poison := rfl
@[simp] theorem State.emit_blockClean (s : State) (o : Out) : (s.emit o).blockClean = s.blockClean := rfl
@[simp] theorem State.emit_green (s : State) (o : Out) : (s.emit o).green = s.green := rfl
@[simp] theorem State.emit_ext (s : State) (o : Out) : (s.emit o).ext = s.ext := rfl
@[simp] theorem State.emit_extPoison (s : State) (o : Out) : (s.emit o).extPoison = s.extPoison := rfl
@[simp] theorem State.emit_extLb (s : State) (o : Out) : (s.emit o).extLb = s.extLb := rfl
@[simp] theorem State.emit_peerEnc (s : State) (o : Out) : (s.emit o).peerEnc = s.peerEnc := rfl
@[simp] theorem State.emit_pubs (s : State) (o : Out) : (s.emit o).pubs = s.pubs := rfl
@[simp] theorem State.emit_remHeld (s : State) (o : Out) : (s.emit o).remHeld = s.remHeld := rfl
@[simp] theorem State.emit_sysHeld (s : State) (o : Out) : (s.emit o).sysHeld = s.sysHeld := rfl
@[simp] theorem State.emit_flights (s : State) (o : Out) : (s.emit o).flights = s.flights := rfl
@[simp] theorem State.emit_chanSeq (s : State) (o : Out) : (s.emit o).chanSeq = s.chanSeq := rfl
@[simp] theorem State.emit_chanNext (s : State) (o : Out) : (s.emit o).chanNext = s.chanNext := rfl
@[simp] theorem State.emit_chanHeld (s : State) (o : Out) : (s.emit o).chanHeld = s.chanHeld := rfl
@[simp] theorem State.emit_sentUpTo (s : State) (o : Out) : (s.emit o).sentUpTo = s.sentUpTo := rfl
@[simp] theorem State.emit_tokens (s : State) (o : Out) : (s.emit o).tokens = s.tokens := rfl
@[simp] theorem State.emit_precedence (s : State) (o : Out) : (s.emit o).precedence = s.precedence := rfl
@[simp] theorem State.emit_nextId (s : State) (o : Out) : (s.emit o).nextId = s.nextId := rfl
@[simp] theorem State.emit_issue (s : State) (o : Out) : (s.emit o).issue = s.issue := rfl
@[simp] theorem State.emit_agenda (s : State) (o : Out) : (s.emit o).agenda = s.agenda := rfl
@[simp] theorem State.emit_freeCtr (s : State) (o : Out) : (s.emit o).freeCtr = s.freeCtr := rfl

/-! `State.wr64` writes `mem`. -/

@[simp] theorem State.wr64_cycle (s : State) (pa v : Nat) : (s.wr64 pa v).cycle = s.cycle := rfl
@[simp] theorem State.wr64_round (s : State) (pa v : Nat) : (s.wr64 pa v).round = s.round := rfl
@[simp] theorem State.wr64_phase (s : State) (pa v : Nat) : (s.wr64 pa v).phase = s.phase := rfl
@[simp] theorem State.wr64_failCode (s : State) (pa v : Nat) : (s.wr64 pa v).failCode = s.failCode := rfl
@[simp] theorem State.wr64_absent (s : State) (pa v : Nat) : (s.wr64 pa v).absent = s.absent := rfl
@[simp] theorem State.wr64_featack (s : State) (pa v : Nat) : (s.wr64 pa v).featack = s.featack := rfl
@[simp] theorem State.wr64_ctxtb (s : State) (pa v : Nat) : (s.wr64 pa v).ctxtb = s.ctxtb := rfl
@[simp] theorem State.wr64_fuse (s : State) (pa v : Nat) : (s.wr64 pa v).fuse = s.fuse := rfl
@[simp] theorem State.wr64_partcfg (s : State) (pa v : Nat) : (s.wr64 pa v).partcfg = s.partcfg := rfl
@[simp] theorem State.wr64_parts (s : State) (pa v : Nat) : (s.wr64 pa v).parts = s.parts := rfl
@[simp] theorem State.wr64_pwrlim (s : State) (pa v : Nat) : (s.wr64 pa v).pwrlim = s.pwrlim := rfl
@[simp] theorem State.wr64_pwrcfg (s : State) (pa v : Nat) : (s.wr64 pa v).pwrcfg = s.pwrcfg := rfl
@[simp] theorem State.wr64_target (s : State) (pa v : Nat) : (s.wr64 pa v).target = s.target := rfl
@[simp] theorem State.wr64_clkMhz (s : State) (pa v : Nat) : (s.wr64 pa v).clkMhz = s.clkMhz := rfl
@[simp] theorem State.wr64_clkNext (s : State) (pa v : Nat) : (s.wr64 pa v).clkNext = s.clkNext := rfl
@[simp] theorem State.wr64_samples (s : State) (pa v : Nat) : (s.wr64 pa v).samples = s.samples := rfl
@[simp] theorem State.wr64_pwrFloor (s : State) (pa v : Nat) : (s.wr64 pa v).pwrFloor = s.pwrFloor := rfl
@[simp] theorem State.wr64_energy (s : State) (pa v : Nat) : (s.wr64 pa v).energy = s.energy := rfl
@[simp] theorem State.wr64_avg (s : State) (pa v : Nat) : (s.wr64 pa v).avg = s.avg := rfl
@[simp] theorem State.wr64_inst (s : State) (pa v : Nat) : (s.wr64 pa v).inst = s.inst := rfl
@[simp] theorem State.wr64_tele (s : State) (pa v : Nat) : (s.wr64 pa v).tele = s.tele := rfl
@[simp] theorem State.wr64_tlbiva (s : State) (pa v : Nat) : (s.wr64 pa v).tlbiva = s.tlbiva := rfl
@[simp] theorem State.wr64_tlbicmd (s : State) (pa v : Nat) : (s.wr64 pa v).tlbicmd = s.tlbicmd := rfl
@[simp] theorem State.wr64_tresume (s : State) (pa v : Nat) : (s.wr64 pa v).tresume = s.tresume := rfl
@[simp] theorem State.wr64_sysA (s : State) (pa v : Nat) : (s.wr64 pa v).sysA = s.sysA := rfl
@[simp] theorem State.wr64_sysB (s : State) (pa v : Nat) : (s.wr64 pa v).sysB = s.sysB := rfl
@[simp] theorem State.wr64_ringBase (s : State) (pa v : Nat) : (s.wr64 pa v).ringBase = s.ringBase := rfl
@[simp] theorem State.wr64_ringWi (s : State) (pa v : Nat) : (s.wr64 pa v).ringWi = s.ringWi := rfl
@[simp] theorem State.wr64_ringRi (s : State) (pa v : Nat) : (s.wr64 pa v).ringRi = s.ringRi := rfl
@[simp] theorem State.wr64_ringDropped (s : State) (pa v : Nat) : (s.wr64 pa v).ringDropped = s.ringDropped := rfl
@[simp] theorem State.wr64_devnum (s : State) (pa v : Nat) : (s.wr64 pa v).devnum = s.devnum := rfl
@[simp] theorem State.wr64_peers (s : State) (pa v : Nat) : (s.wr64 pa v).peers = s.peers := rfl
@[simp] theorem State.wr64_routes (s : State) (pa v : Nat) : (s.wr64 pa v).routes = s.routes := rfl
@[simp] theorem State.wr64_redwin (s : State) (pa v : Nat) : (s.wr64 pa v).redwin = s.redwin := rfl
@[simp] theorem State.wr64_ports (s : State) (pa v : Nat) : (s.wr64 pa v).ports = s.ports := rfl
@[simp] theorem State.wr64_queues (s : State) (pa v : Nat) : (s.wr64 pa v).queues = s.queues := rfl
@[simp] theorem State.wr64_launches (s : State) (pa v : Nat) : (s.wr64 pa v).launches = s.launches := rfl
@[simp] theorem State.wr64_children (s : State) (pa v : Nat) : (s.wr64 pa v).children = s.children := rfl
@[simp] theorem State.wr64_teams (s : State) (pa v : Nat) : (s.wr64 pa v).teams = s.teams := rfl
@[simp] theorem State.wr64_sheaves (s : State) (pa v : Nat) : (s.wr64 pa v).sheaves = s.sheaves := rfl
@[simp] theorem State.wr64_cores (s : State) (pa v : Nat) : (s.wr64 pa v).cores = s.cores := rfl
@[simp] theorem State.wr64_gtlb (s : State) (pa v : Nat) : (s.wr64 pa v).gtlb = s.gtlb := rfl
@[simp] theorem State.wr64_gregions (s : State) (pa v : Nat) : (s.wr64 pa v).gregions = s.gregions := rfl
@[simp] theorem State.wr64_ended (s : State) (pa v : Nat) : (s.wr64 pa v).ended = s.ended := rfl
@[simp] theorem State.wr64_hints (s : State) (pa v : Nat) : (s.wr64 pa v).hints = s.hints := rfl
@[simp] theorem State.wr64_lb (s : State) (pa v : Nat) : (s.wr64 pa v).lb = s.lb := rfl
@[simp] theorem State.wr64_poison (s : State) (pa v : Nat) : (s.wr64 pa v).poison = s.poison := rfl
@[simp] theorem State.wr64_blockClean (s : State) (pa v : Nat) : (s.wr64 pa v).blockClean = s.blockClean := rfl
@[simp] theorem State.wr64_ext (s : State) (pa v : Nat) : (s.wr64 pa v).ext = s.ext := rfl
@[simp] theorem State.wr64_extPoison (s : State) (pa v : Nat) : (s.wr64 pa v).extPoison = s.extPoison := rfl
@[simp] theorem State.wr64_extLb (s : State) (pa v : Nat) : (s.wr64 pa v).extLb = s.extLb := rfl
@[simp] theorem State.wr64_peerEnc (s : State) (pa v : Nat) : (s.wr64 pa v).peerEnc = s.peerEnc := rfl
@[simp] theorem State.wr64_pubs (s : State) (pa v : Nat) : (s.wr64 pa v).pubs = s.pubs := rfl
@[simp] theorem State.wr64_remHeld (s : State) (pa v : Nat) : (s.wr64 pa v).remHeld = s.remHeld := rfl
@[simp] theorem State.wr64_sysHeld (s : State) (pa v : Nat) : (s.wr64 pa v).sysHeld = s.sysHeld := rfl
@[simp] theorem State.wr64_flights (s : State) (pa v : Nat) : (s.wr64 pa v).flights = s.flights := rfl
@[simp] theorem State.wr64_chanSeq (s : State) (pa v : Nat) : (s.wr64 pa v).chanSeq = s.chanSeq := rfl
@[simp] theorem State.wr64_chanNext (s : State) (pa v : Nat) : (s.wr64 pa v).chanNext = s.chanNext := rfl
@[simp] theorem State.wr64_chanHeld (s : State) (pa v : Nat) : (s.wr64 pa v).chanHeld = s.chanHeld := rfl
@[simp] theorem State.wr64_sentUpTo (s : State) (pa v : Nat) : (s.wr64 pa v).sentUpTo = s.sentUpTo := rfl
@[simp] theorem State.wr64_tokens (s : State) (pa v : Nat) : (s.wr64 pa v).tokens = s.tokens := rfl
@[simp] theorem State.wr64_precedence (s : State) (pa v : Nat) : (s.wr64 pa v).precedence = s.precedence := rfl
@[simp] theorem State.wr64_nextId (s : State) (pa v : Nat) : (s.wr64 pa v).nextId = s.nextId := rfl
@[simp] theorem State.wr64_issue (s : State) (pa v : Nat) : (s.wr64 pa v).issue = s.issue := rfl
@[simp] theorem State.wr64_agenda (s : State) (pa v : Nat) : (s.wr64 pa v).agenda = s.agenda := rfl
@[simp] theorem State.wr64_out (s : State) (pa v : Nat) : (s.wr64 pa v).out = s.out := rfl
@[simp] theorem State.wr64_freeCtr (s : State) (pa v : Nat) : (s.wr64 pa v).freeCtr = s.freeCtr := rfl

/-! `State.publish` writes `pubs`. -/

@[simp] theorem State.publish_cycle (s : State) (ws : List LineWrite) (o : Option Nat) : (s.publish ws o).cycle = s.cycle := rfl
@[simp] theorem State.publish_round (s : State) (ws : List LineWrite) (o : Option Nat) : (s.publish ws o).round = s.round := rfl
@[simp] theorem State.publish_phase (s : State) (ws : List LineWrite) (o : Option Nat) : (s.publish ws o).phase = s.phase := rfl
@[simp] theorem State.publish_failCode (s : State) (ws : List LineWrite) (o : Option Nat) : (s.publish ws o).failCode = s.failCode := rfl
@[simp] theorem State.publish_absent (s : State) (ws : List LineWrite) (o : Option Nat) : (s.publish ws o).absent = s.absent := rfl
@[simp] theorem State.publish_featack (s : State) (ws : List LineWrite) (o : Option Nat) : (s.publish ws o).featack = s.featack := rfl
@[simp] theorem State.publish_ctxtb (s : State) (ws : List LineWrite) (o : Option Nat) : (s.publish ws o).ctxtb = s.ctxtb := rfl
@[simp] theorem State.publish_fuse (s : State) (ws : List LineWrite) (o : Option Nat) : (s.publish ws o).fuse = s.fuse := rfl
@[simp] theorem State.publish_partcfg (s : State) (ws : List LineWrite) (o : Option Nat) : (s.publish ws o).partcfg = s.partcfg := rfl
@[simp] theorem State.publish_parts (s : State) (ws : List LineWrite) (o : Option Nat) : (s.publish ws o).parts = s.parts := rfl
@[simp] theorem State.publish_pwrlim (s : State) (ws : List LineWrite) (o : Option Nat) : (s.publish ws o).pwrlim = s.pwrlim := rfl
@[simp] theorem State.publish_pwrcfg (s : State) (ws : List LineWrite) (o : Option Nat) : (s.publish ws o).pwrcfg = s.pwrcfg := rfl
@[simp] theorem State.publish_target (s : State) (ws : List LineWrite) (o : Option Nat) : (s.publish ws o).target = s.target := rfl
@[simp] theorem State.publish_clkMhz (s : State) (ws : List LineWrite) (o : Option Nat) : (s.publish ws o).clkMhz = s.clkMhz := rfl
@[simp] theorem State.publish_clkNext (s : State) (ws : List LineWrite) (o : Option Nat) : (s.publish ws o).clkNext = s.clkNext := rfl
@[simp] theorem State.publish_samples (s : State) (ws : List LineWrite) (o : Option Nat) : (s.publish ws o).samples = s.samples := rfl
@[simp] theorem State.publish_pwrFloor (s : State) (ws : List LineWrite) (o : Option Nat) : (s.publish ws o).pwrFloor = s.pwrFloor := rfl
@[simp] theorem State.publish_energy (s : State) (ws : List LineWrite) (o : Option Nat) : (s.publish ws o).energy = s.energy := rfl
@[simp] theorem State.publish_avg (s : State) (ws : List LineWrite) (o : Option Nat) : (s.publish ws o).avg = s.avg := rfl
@[simp] theorem State.publish_inst (s : State) (ws : List LineWrite) (o : Option Nat) : (s.publish ws o).inst = s.inst := rfl
@[simp] theorem State.publish_tele (s : State) (ws : List LineWrite) (o : Option Nat) : (s.publish ws o).tele = s.tele := rfl
@[simp] theorem State.publish_tlbiva (s : State) (ws : List LineWrite) (o : Option Nat) : (s.publish ws o).tlbiva = s.tlbiva := rfl
@[simp] theorem State.publish_tlbicmd (s : State) (ws : List LineWrite) (o : Option Nat) : (s.publish ws o).tlbicmd = s.tlbicmd := rfl
@[simp] theorem State.publish_tresume (s : State) (ws : List LineWrite) (o : Option Nat) : (s.publish ws o).tresume = s.tresume := rfl
@[simp] theorem State.publish_sysA (s : State) (ws : List LineWrite) (o : Option Nat) : (s.publish ws o).sysA = s.sysA := rfl
@[simp] theorem State.publish_sysB (s : State) (ws : List LineWrite) (o : Option Nat) : (s.publish ws o).sysB = s.sysB := rfl
@[simp] theorem State.publish_ringBase (s : State) (ws : List LineWrite) (o : Option Nat) : (s.publish ws o).ringBase = s.ringBase := rfl
@[simp] theorem State.publish_ringWi (s : State) (ws : List LineWrite) (o : Option Nat) : (s.publish ws o).ringWi = s.ringWi := rfl
@[simp] theorem State.publish_ringRi (s : State) (ws : List LineWrite) (o : Option Nat) : (s.publish ws o).ringRi = s.ringRi := rfl
@[simp] theorem State.publish_ringDropped (s : State) (ws : List LineWrite) (o : Option Nat) : (s.publish ws o).ringDropped = s.ringDropped := rfl
@[simp] theorem State.publish_devnum (s : State) (ws : List LineWrite) (o : Option Nat) : (s.publish ws o).devnum = s.devnum := rfl
@[simp] theorem State.publish_peers (s : State) (ws : List LineWrite) (o : Option Nat) : (s.publish ws o).peers = s.peers := rfl
@[simp] theorem State.publish_routes (s : State) (ws : List LineWrite) (o : Option Nat) : (s.publish ws o).routes = s.routes := rfl
@[simp] theorem State.publish_redwin (s : State) (ws : List LineWrite) (o : Option Nat) : (s.publish ws o).redwin = s.redwin := rfl
@[simp] theorem State.publish_ports (s : State) (ws : List LineWrite) (o : Option Nat) : (s.publish ws o).ports = s.ports := rfl
@[simp] theorem State.publish_queues (s : State) (ws : List LineWrite) (o : Option Nat) : (s.publish ws o).queues = s.queues := rfl
@[simp] theorem State.publish_launches (s : State) (ws : List LineWrite) (o : Option Nat) : (s.publish ws o).launches = s.launches := rfl
@[simp] theorem State.publish_children (s : State) (ws : List LineWrite) (o : Option Nat) : (s.publish ws o).children = s.children := rfl
@[simp] theorem State.publish_teams (s : State) (ws : List LineWrite) (o : Option Nat) : (s.publish ws o).teams = s.teams := rfl
@[simp] theorem State.publish_sheaves (s : State) (ws : List LineWrite) (o : Option Nat) : (s.publish ws o).sheaves = s.sheaves := rfl
@[simp] theorem State.publish_cores (s : State) (ws : List LineWrite) (o : Option Nat) : (s.publish ws o).cores = s.cores := rfl
@[simp] theorem State.publish_gtlb (s : State) (ws : List LineWrite) (o : Option Nat) : (s.publish ws o).gtlb = s.gtlb := rfl
@[simp] theorem State.publish_gregions (s : State) (ws : List LineWrite) (o : Option Nat) : (s.publish ws o).gregions = s.gregions := rfl
@[simp] theorem State.publish_ended (s : State) (ws : List LineWrite) (o : Option Nat) : (s.publish ws o).ended = s.ended := rfl
@[simp] theorem State.publish_hints (s : State) (ws : List LineWrite) (o : Option Nat) : (s.publish ws o).hints = s.hints := rfl
@[simp] theorem State.publish_mem (s : State) (ws : List LineWrite) (o : Option Nat) : (s.publish ws o).mem = s.mem := rfl
@[simp] theorem State.publish_lb (s : State) (ws : List LineWrite) (o : Option Nat) : (s.publish ws o).lb = s.lb := rfl
@[simp] theorem State.publish_poison (s : State) (ws : List LineWrite) (o : Option Nat) : (s.publish ws o).poison = s.poison := rfl
@[simp] theorem State.publish_blockClean (s : State) (ws : List LineWrite) (o : Option Nat) : (s.publish ws o).blockClean = s.blockClean := rfl
@[simp] theorem State.publish_green (s : State) (ws : List LineWrite) (o : Option Nat) : (s.publish ws o).green = s.green := rfl
@[simp] theorem State.publish_ext (s : State) (ws : List LineWrite) (o : Option Nat) : (s.publish ws o).ext = s.ext := rfl
@[simp] theorem State.publish_extPoison (s : State) (ws : List LineWrite) (o : Option Nat) : (s.publish ws o).extPoison = s.extPoison := rfl
@[simp] theorem State.publish_extLb (s : State) (ws : List LineWrite) (o : Option Nat) : (s.publish ws o).extLb = s.extLb := rfl
@[simp] theorem State.publish_peerEnc (s : State) (ws : List LineWrite) (o : Option Nat) : (s.publish ws o).peerEnc = s.peerEnc := rfl
@[simp] theorem State.publish_remHeld (s : State) (ws : List LineWrite) (o : Option Nat) : (s.publish ws o).remHeld = s.remHeld := rfl
@[simp] theorem State.publish_sysHeld (s : State) (ws : List LineWrite) (o : Option Nat) : (s.publish ws o).sysHeld = s.sysHeld := rfl
@[simp] theorem State.publish_flights (s : State) (ws : List LineWrite) (o : Option Nat) : (s.publish ws o).flights = s.flights := rfl
@[simp] theorem State.publish_chanSeq (s : State) (ws : List LineWrite) (o : Option Nat) : (s.publish ws o).chanSeq = s.chanSeq := rfl
@[simp] theorem State.publish_chanNext (s : State) (ws : List LineWrite) (o : Option Nat) : (s.publish ws o).chanNext = s.chanNext := rfl
@[simp] theorem State.publish_chanHeld (s : State) (ws : List LineWrite) (o : Option Nat) : (s.publish ws o).chanHeld = s.chanHeld := rfl
@[simp] theorem State.publish_sentUpTo (s : State) (ws : List LineWrite) (o : Option Nat) : (s.publish ws o).sentUpTo = s.sentUpTo := rfl
@[simp] theorem State.publish_tokens (s : State) (ws : List LineWrite) (o : Option Nat) : (s.publish ws o).tokens = s.tokens := rfl
@[simp] theorem State.publish_precedence (s : State) (ws : List LineWrite) (o : Option Nat) : (s.publish ws o).precedence = s.precedence := rfl
@[simp] theorem State.publish_nextId (s : State) (ws : List LineWrite) (o : Option Nat) : (s.publish ws o).nextId = s.nextId := rfl
@[simp] theorem State.publish_issue (s : State) (ws : List LineWrite) (o : Option Nat) : (s.publish ws o).issue = s.issue := rfl
@[simp] theorem State.publish_agenda (s : State) (ws : List LineWrite) (o : Option Nat) : (s.publish ws o).agenda = s.agenda := rfl
@[simp] theorem State.publish_out (s : State) (ws : List LineWrite) (o : Option Nat) : (s.publish ws o).out = s.out := rfl
@[simp] theorem State.publish_freeCtr (s : State) (ws : List LineWrite) (o : Option Nat) : (s.publish ws o).freeCtr = s.freeCtr := rfl

/-! `State.updOpen` writes `sheaves`. -/

@[simp] theorem State.updOpen_cycle (s : State) (f : Chunk → Chunk) : (s.updOpen f).cycle = s.cycle := rfl
@[simp] theorem State.updOpen_round (s : State) (f : Chunk → Chunk) : (s.updOpen f).round = s.round := rfl
@[simp] theorem State.updOpen_phase (s : State) (f : Chunk → Chunk) : (s.updOpen f).phase = s.phase := rfl
@[simp] theorem State.updOpen_failCode (s : State) (f : Chunk → Chunk) : (s.updOpen f).failCode = s.failCode := rfl
@[simp] theorem State.updOpen_absent (s : State) (f : Chunk → Chunk) : (s.updOpen f).absent = s.absent := rfl
@[simp] theorem State.updOpen_featack (s : State) (f : Chunk → Chunk) : (s.updOpen f).featack = s.featack := rfl
@[simp] theorem State.updOpen_ctxtb (s : State) (f : Chunk → Chunk) : (s.updOpen f).ctxtb = s.ctxtb := rfl
@[simp] theorem State.updOpen_fuse (s : State) (f : Chunk → Chunk) : (s.updOpen f).fuse = s.fuse := rfl
@[simp] theorem State.updOpen_partcfg (s : State) (f : Chunk → Chunk) : (s.updOpen f).partcfg = s.partcfg := rfl
@[simp] theorem State.updOpen_parts (s : State) (f : Chunk → Chunk) : (s.updOpen f).parts = s.parts := rfl
@[simp] theorem State.updOpen_pwrlim (s : State) (f : Chunk → Chunk) : (s.updOpen f).pwrlim = s.pwrlim := rfl
@[simp] theorem State.updOpen_pwrcfg (s : State) (f : Chunk → Chunk) : (s.updOpen f).pwrcfg = s.pwrcfg := rfl
@[simp] theorem State.updOpen_target (s : State) (f : Chunk → Chunk) : (s.updOpen f).target = s.target := rfl
@[simp] theorem State.updOpen_clkMhz (s : State) (f : Chunk → Chunk) : (s.updOpen f).clkMhz = s.clkMhz := rfl
@[simp] theorem State.updOpen_clkNext (s : State) (f : Chunk → Chunk) : (s.updOpen f).clkNext = s.clkNext := rfl
@[simp] theorem State.updOpen_samples (s : State) (f : Chunk → Chunk) : (s.updOpen f).samples = s.samples := rfl
@[simp] theorem State.updOpen_pwrFloor (s : State) (f : Chunk → Chunk) : (s.updOpen f).pwrFloor = s.pwrFloor := rfl
@[simp] theorem State.updOpen_energy (s : State) (f : Chunk → Chunk) : (s.updOpen f).energy = s.energy := rfl
@[simp] theorem State.updOpen_avg (s : State) (f : Chunk → Chunk) : (s.updOpen f).avg = s.avg := rfl
@[simp] theorem State.updOpen_inst (s : State) (f : Chunk → Chunk) : (s.updOpen f).inst = s.inst := rfl
@[simp] theorem State.updOpen_tele (s : State) (f : Chunk → Chunk) : (s.updOpen f).tele = s.tele := rfl
@[simp] theorem State.updOpen_tlbiva (s : State) (f : Chunk → Chunk) : (s.updOpen f).tlbiva = s.tlbiva := rfl
@[simp] theorem State.updOpen_tlbicmd (s : State) (f : Chunk → Chunk) : (s.updOpen f).tlbicmd = s.tlbicmd := rfl
@[simp] theorem State.updOpen_tresume (s : State) (f : Chunk → Chunk) : (s.updOpen f).tresume = s.tresume := rfl
@[simp] theorem State.updOpen_sysA (s : State) (f : Chunk → Chunk) : (s.updOpen f).sysA = s.sysA := rfl
@[simp] theorem State.updOpen_sysB (s : State) (f : Chunk → Chunk) : (s.updOpen f).sysB = s.sysB := rfl
@[simp] theorem State.updOpen_ringBase (s : State) (f : Chunk → Chunk) : (s.updOpen f).ringBase = s.ringBase := rfl
@[simp] theorem State.updOpen_ringWi (s : State) (f : Chunk → Chunk) : (s.updOpen f).ringWi = s.ringWi := rfl
@[simp] theorem State.updOpen_ringRi (s : State) (f : Chunk → Chunk) : (s.updOpen f).ringRi = s.ringRi := rfl
@[simp] theorem State.updOpen_ringDropped (s : State) (f : Chunk → Chunk) : (s.updOpen f).ringDropped = s.ringDropped := rfl
@[simp] theorem State.updOpen_devnum (s : State) (f : Chunk → Chunk) : (s.updOpen f).devnum = s.devnum := rfl
@[simp] theorem State.updOpen_peers (s : State) (f : Chunk → Chunk) : (s.updOpen f).peers = s.peers := rfl
@[simp] theorem State.updOpen_routes (s : State) (f : Chunk → Chunk) : (s.updOpen f).routes = s.routes := rfl
@[simp] theorem State.updOpen_redwin (s : State) (f : Chunk → Chunk) : (s.updOpen f).redwin = s.redwin := rfl
@[simp] theorem State.updOpen_ports (s : State) (f : Chunk → Chunk) : (s.updOpen f).ports = s.ports := rfl
@[simp] theorem State.updOpen_queues (s : State) (f : Chunk → Chunk) : (s.updOpen f).queues = s.queues := rfl
@[simp] theorem State.updOpen_launches (s : State) (f : Chunk → Chunk) : (s.updOpen f).launches = s.launches := rfl
@[simp] theorem State.updOpen_children (s : State) (f : Chunk → Chunk) : (s.updOpen f).children = s.children := rfl
@[simp] theorem State.updOpen_teams (s : State) (f : Chunk → Chunk) : (s.updOpen f).teams = s.teams := rfl
@[simp] theorem State.updOpen_cores (s : State) (f : Chunk → Chunk) : (s.updOpen f).cores = s.cores := rfl
@[simp] theorem State.updOpen_gtlb (s : State) (f : Chunk → Chunk) : (s.updOpen f).gtlb = s.gtlb := rfl
@[simp] theorem State.updOpen_gregions (s : State) (f : Chunk → Chunk) : (s.updOpen f).gregions = s.gregions := rfl
@[simp] theorem State.updOpen_ended (s : State) (f : Chunk → Chunk) : (s.updOpen f).ended = s.ended := rfl
@[simp] theorem State.updOpen_hints (s : State) (f : Chunk → Chunk) : (s.updOpen f).hints = s.hints := rfl
@[simp] theorem State.updOpen_mem (s : State) (f : Chunk → Chunk) : (s.updOpen f).mem = s.mem := rfl
@[simp] theorem State.updOpen_lb (s : State) (f : Chunk → Chunk) : (s.updOpen f).lb = s.lb := rfl
@[simp] theorem State.updOpen_poison (s : State) (f : Chunk → Chunk) : (s.updOpen f).poison = s.poison := rfl
@[simp] theorem State.updOpen_blockClean (s : State) (f : Chunk → Chunk) : (s.updOpen f).blockClean = s.blockClean := rfl
@[simp] theorem State.updOpen_green (s : State) (f : Chunk → Chunk) : (s.updOpen f).green = s.green := rfl
@[simp] theorem State.updOpen_ext (s : State) (f : Chunk → Chunk) : (s.updOpen f).ext = s.ext := rfl
@[simp] theorem State.updOpen_extPoison (s : State) (f : Chunk → Chunk) : (s.updOpen f).extPoison = s.extPoison := rfl
@[simp] theorem State.updOpen_extLb (s : State) (f : Chunk → Chunk) : (s.updOpen f).extLb = s.extLb := rfl
@[simp] theorem State.updOpen_peerEnc (s : State) (f : Chunk → Chunk) : (s.updOpen f).peerEnc = s.peerEnc := rfl
@[simp] theorem State.updOpen_pubs (s : State) (f : Chunk → Chunk) : (s.updOpen f).pubs = s.pubs := rfl
@[simp] theorem State.updOpen_remHeld (s : State) (f : Chunk → Chunk) : (s.updOpen f).remHeld = s.remHeld := rfl
@[simp] theorem State.updOpen_sysHeld (s : State) (f : Chunk → Chunk) : (s.updOpen f).sysHeld = s.sysHeld := rfl
@[simp] theorem State.updOpen_flights (s : State) (f : Chunk → Chunk) : (s.updOpen f).flights = s.flights := rfl
@[simp] theorem State.updOpen_chanSeq (s : State) (f : Chunk → Chunk) : (s.updOpen f).chanSeq = s.chanSeq := rfl
@[simp] theorem State.updOpen_chanNext (s : State) (f : Chunk → Chunk) : (s.updOpen f).chanNext = s.chanNext := rfl
@[simp] theorem State.updOpen_chanHeld (s : State) (f : Chunk → Chunk) : (s.updOpen f).chanHeld = s.chanHeld := rfl
@[simp] theorem State.updOpen_sentUpTo (s : State) (f : Chunk → Chunk) : (s.updOpen f).sentUpTo = s.sentUpTo := rfl
@[simp] theorem State.updOpen_tokens (s : State) (f : Chunk → Chunk) : (s.updOpen f).tokens = s.tokens := rfl
@[simp] theorem State.updOpen_precedence (s : State) (f : Chunk → Chunk) : (s.updOpen f).precedence = s.precedence := rfl
@[simp] theorem State.updOpen_nextId (s : State) (f : Chunk → Chunk) : (s.updOpen f).nextId = s.nextId := rfl
@[simp] theorem State.updOpen_issue (s : State) (f : Chunk → Chunk) : (s.updOpen f).issue = s.issue := rfl
@[simp] theorem State.updOpen_agenda (s : State) (f : Chunk → Chunk) : (s.updOpen f).agenda = s.agenda := rfl
@[simp] theorem State.updOpen_out (s : State) (f : Chunk → Chunk) : (s.updOpen f).out = s.out := rfl
@[simp] theorem State.updOpen_freeCtr (s : State) (f : Chunk → Chunk) : (s.updOpen f).freeCtr = s.freeCtr := rfl

/-! `State.begin` writes `sheaves`. -/

@[simp] theorem State.begin_cycle (s : State) : (s.begin).cycle = s.cycle := rfl
@[simp] theorem State.begin_round (s : State) : (s.begin).round = s.round := rfl
@[simp] theorem State.begin_phase (s : State) : (s.begin).phase = s.phase := rfl
@[simp] theorem State.begin_failCode (s : State) : (s.begin).failCode = s.failCode := rfl
@[simp] theorem State.begin_absent (s : State) : (s.begin).absent = s.absent := rfl
@[simp] theorem State.begin_featack (s : State) : (s.begin).featack = s.featack := rfl
@[simp] theorem State.begin_ctxtb (s : State) : (s.begin).ctxtb = s.ctxtb := rfl
@[simp] theorem State.begin_fuse (s : State) : (s.begin).fuse = s.fuse := rfl
@[simp] theorem State.begin_partcfg (s : State) : (s.begin).partcfg = s.partcfg := rfl
@[simp] theorem State.begin_parts (s : State) : (s.begin).parts = s.parts := rfl
@[simp] theorem State.begin_pwrlim (s : State) : (s.begin).pwrlim = s.pwrlim := rfl
@[simp] theorem State.begin_pwrcfg (s : State) : (s.begin).pwrcfg = s.pwrcfg := rfl
@[simp] theorem State.begin_target (s : State) : (s.begin).target = s.target := rfl
@[simp] theorem State.begin_clkMhz (s : State) : (s.begin).clkMhz = s.clkMhz := rfl
@[simp] theorem State.begin_clkNext (s : State) : (s.begin).clkNext = s.clkNext := rfl
@[simp] theorem State.begin_samples (s : State) : (s.begin).samples = s.samples := rfl
@[simp] theorem State.begin_pwrFloor (s : State) : (s.begin).pwrFloor = s.pwrFloor := rfl
@[simp] theorem State.begin_energy (s : State) : (s.begin).energy = s.energy := rfl
@[simp] theorem State.begin_avg (s : State) : (s.begin).avg = s.avg := rfl
@[simp] theorem State.begin_inst (s : State) : (s.begin).inst = s.inst := rfl
@[simp] theorem State.begin_tele (s : State) : (s.begin).tele = s.tele := rfl
@[simp] theorem State.begin_tlbiva (s : State) : (s.begin).tlbiva = s.tlbiva := rfl
@[simp] theorem State.begin_tlbicmd (s : State) : (s.begin).tlbicmd = s.tlbicmd := rfl
@[simp] theorem State.begin_tresume (s : State) : (s.begin).tresume = s.tresume := rfl
@[simp] theorem State.begin_sysA (s : State) : (s.begin).sysA = s.sysA := rfl
@[simp] theorem State.begin_sysB (s : State) : (s.begin).sysB = s.sysB := rfl
@[simp] theorem State.begin_ringBase (s : State) : (s.begin).ringBase = s.ringBase := rfl
@[simp] theorem State.begin_ringWi (s : State) : (s.begin).ringWi = s.ringWi := rfl
@[simp] theorem State.begin_ringRi (s : State) : (s.begin).ringRi = s.ringRi := rfl
@[simp] theorem State.begin_ringDropped (s : State) : (s.begin).ringDropped = s.ringDropped := rfl
@[simp] theorem State.begin_devnum (s : State) : (s.begin).devnum = s.devnum := rfl
@[simp] theorem State.begin_peers (s : State) : (s.begin).peers = s.peers := rfl
@[simp] theorem State.begin_routes (s : State) : (s.begin).routes = s.routes := rfl
@[simp] theorem State.begin_redwin (s : State) : (s.begin).redwin = s.redwin := rfl
@[simp] theorem State.begin_ports (s : State) : (s.begin).ports = s.ports := rfl
@[simp] theorem State.begin_queues (s : State) : (s.begin).queues = s.queues := rfl
@[simp] theorem State.begin_launches (s : State) : (s.begin).launches = s.launches := rfl
@[simp] theorem State.begin_children (s : State) : (s.begin).children = s.children := rfl
@[simp] theorem State.begin_teams (s : State) : (s.begin).teams = s.teams := rfl
@[simp] theorem State.begin_cores (s : State) : (s.begin).cores = s.cores := rfl
@[simp] theorem State.begin_gtlb (s : State) : (s.begin).gtlb = s.gtlb := rfl
@[simp] theorem State.begin_gregions (s : State) : (s.begin).gregions = s.gregions := rfl
@[simp] theorem State.begin_ended (s : State) : (s.begin).ended = s.ended := rfl
@[simp] theorem State.begin_hints (s : State) : (s.begin).hints = s.hints := rfl
@[simp] theorem State.begin_mem (s : State) : (s.begin).mem = s.mem := rfl
@[simp] theorem State.begin_lb (s : State) : (s.begin).lb = s.lb := rfl
@[simp] theorem State.begin_poison (s : State) : (s.begin).poison = s.poison := rfl
@[simp] theorem State.begin_blockClean (s : State) : (s.begin).blockClean = s.blockClean := rfl
@[simp] theorem State.begin_green (s : State) : (s.begin).green = s.green := rfl
@[simp] theorem State.begin_ext (s : State) : (s.begin).ext = s.ext := rfl
@[simp] theorem State.begin_extPoison (s : State) : (s.begin).extPoison = s.extPoison := rfl
@[simp] theorem State.begin_extLb (s : State) : (s.begin).extLb = s.extLb := rfl
@[simp] theorem State.begin_peerEnc (s : State) : (s.begin).peerEnc = s.peerEnc := rfl
@[simp] theorem State.begin_pubs (s : State) : (s.begin).pubs = s.pubs := rfl
@[simp] theorem State.begin_remHeld (s : State) : (s.begin).remHeld = s.remHeld := rfl
@[simp] theorem State.begin_sysHeld (s : State) : (s.begin).sysHeld = s.sysHeld := rfl
@[simp] theorem State.begin_flights (s : State) : (s.begin).flights = s.flights := rfl
@[simp] theorem State.begin_chanSeq (s : State) : (s.begin).chanSeq = s.chanSeq := rfl
@[simp] theorem State.begin_chanNext (s : State) : (s.begin).chanNext = s.chanNext := rfl
@[simp] theorem State.begin_chanHeld (s : State) : (s.begin).chanHeld = s.chanHeld := rfl
@[simp] theorem State.begin_sentUpTo (s : State) : (s.begin).sentUpTo = s.sentUpTo := rfl
@[simp] theorem State.begin_tokens (s : State) : (s.begin).tokens = s.tokens := rfl
@[simp] theorem State.begin_precedence (s : State) : (s.begin).precedence = s.precedence := rfl
@[simp] theorem State.begin_nextId (s : State) : (s.begin).nextId = s.nextId := rfl
@[simp] theorem State.begin_issue (s : State) : (s.begin).issue = s.issue := rfl
@[simp] theorem State.begin_agenda (s : State) : (s.begin).agenda = s.agenda := rfl
@[simp] theorem State.begin_out (s : State) : (s.begin).out = s.out := rfl
@[simp] theorem State.begin_freeCtr (s : State) : (s.begin).freeCtr = s.freeCtr := rfl

/-! `State.movePc` writes `sheaves`. -/

@[simp] theorem State.movePc_cycle (s : State) (m : Mask) (pc : Pc) : (s.movePc m pc).cycle = s.cycle := rfl
@[simp] theorem State.movePc_round (s : State) (m : Mask) (pc : Pc) : (s.movePc m pc).round = s.round := rfl
@[simp] theorem State.movePc_phase (s : State) (m : Mask) (pc : Pc) : (s.movePc m pc).phase = s.phase := rfl
@[simp] theorem State.movePc_failCode (s : State) (m : Mask) (pc : Pc) : (s.movePc m pc).failCode = s.failCode := rfl
@[simp] theorem State.movePc_absent (s : State) (m : Mask) (pc : Pc) : (s.movePc m pc).absent = s.absent := rfl
@[simp] theorem State.movePc_featack (s : State) (m : Mask) (pc : Pc) : (s.movePc m pc).featack = s.featack := rfl
@[simp] theorem State.movePc_ctxtb (s : State) (m : Mask) (pc : Pc) : (s.movePc m pc).ctxtb = s.ctxtb := rfl
@[simp] theorem State.movePc_fuse (s : State) (m : Mask) (pc : Pc) : (s.movePc m pc).fuse = s.fuse := rfl
@[simp] theorem State.movePc_partcfg (s : State) (m : Mask) (pc : Pc) : (s.movePc m pc).partcfg = s.partcfg := rfl
@[simp] theorem State.movePc_parts (s : State) (m : Mask) (pc : Pc) : (s.movePc m pc).parts = s.parts := rfl
@[simp] theorem State.movePc_pwrlim (s : State) (m : Mask) (pc : Pc) : (s.movePc m pc).pwrlim = s.pwrlim := rfl
@[simp] theorem State.movePc_pwrcfg (s : State) (m : Mask) (pc : Pc) : (s.movePc m pc).pwrcfg = s.pwrcfg := rfl
@[simp] theorem State.movePc_target (s : State) (m : Mask) (pc : Pc) : (s.movePc m pc).target = s.target := rfl
@[simp] theorem State.movePc_clkMhz (s : State) (m : Mask) (pc : Pc) : (s.movePc m pc).clkMhz = s.clkMhz := rfl
@[simp] theorem State.movePc_clkNext (s : State) (m : Mask) (pc : Pc) : (s.movePc m pc).clkNext = s.clkNext := rfl
@[simp] theorem State.movePc_samples (s : State) (m : Mask) (pc : Pc) : (s.movePc m pc).samples = s.samples := rfl
@[simp] theorem State.movePc_pwrFloor (s : State) (m : Mask) (pc : Pc) : (s.movePc m pc).pwrFloor = s.pwrFloor := rfl
@[simp] theorem State.movePc_energy (s : State) (m : Mask) (pc : Pc) : (s.movePc m pc).energy = s.energy := rfl
@[simp] theorem State.movePc_avg (s : State) (m : Mask) (pc : Pc) : (s.movePc m pc).avg = s.avg := rfl
@[simp] theorem State.movePc_inst (s : State) (m : Mask) (pc : Pc) : (s.movePc m pc).inst = s.inst := rfl
@[simp] theorem State.movePc_tele (s : State) (m : Mask) (pc : Pc) : (s.movePc m pc).tele = s.tele := rfl
@[simp] theorem State.movePc_tlbiva (s : State) (m : Mask) (pc : Pc) : (s.movePc m pc).tlbiva = s.tlbiva := rfl
@[simp] theorem State.movePc_tlbicmd (s : State) (m : Mask) (pc : Pc) : (s.movePc m pc).tlbicmd = s.tlbicmd := rfl
@[simp] theorem State.movePc_tresume (s : State) (m : Mask) (pc : Pc) : (s.movePc m pc).tresume = s.tresume := rfl
@[simp] theorem State.movePc_sysA (s : State) (m : Mask) (pc : Pc) : (s.movePc m pc).sysA = s.sysA := rfl
@[simp] theorem State.movePc_sysB (s : State) (m : Mask) (pc : Pc) : (s.movePc m pc).sysB = s.sysB := rfl
@[simp] theorem State.movePc_ringBase (s : State) (m : Mask) (pc : Pc) : (s.movePc m pc).ringBase = s.ringBase := rfl
@[simp] theorem State.movePc_ringWi (s : State) (m : Mask) (pc : Pc) : (s.movePc m pc).ringWi = s.ringWi := rfl
@[simp] theorem State.movePc_ringRi (s : State) (m : Mask) (pc : Pc) : (s.movePc m pc).ringRi = s.ringRi := rfl
@[simp] theorem State.movePc_ringDropped (s : State) (m : Mask) (pc : Pc) : (s.movePc m pc).ringDropped = s.ringDropped := rfl
@[simp] theorem State.movePc_devnum (s : State) (m : Mask) (pc : Pc) : (s.movePc m pc).devnum = s.devnum := rfl
@[simp] theorem State.movePc_peers (s : State) (m : Mask) (pc : Pc) : (s.movePc m pc).peers = s.peers := rfl
@[simp] theorem State.movePc_routes (s : State) (m : Mask) (pc : Pc) : (s.movePc m pc).routes = s.routes := rfl
@[simp] theorem State.movePc_redwin (s : State) (m : Mask) (pc : Pc) : (s.movePc m pc).redwin = s.redwin := rfl
@[simp] theorem State.movePc_ports (s : State) (m : Mask) (pc : Pc) : (s.movePc m pc).ports = s.ports := rfl
@[simp] theorem State.movePc_queues (s : State) (m : Mask) (pc : Pc) : (s.movePc m pc).queues = s.queues := rfl
@[simp] theorem State.movePc_launches (s : State) (m : Mask) (pc : Pc) : (s.movePc m pc).launches = s.launches := rfl
@[simp] theorem State.movePc_children (s : State) (m : Mask) (pc : Pc) : (s.movePc m pc).children = s.children := rfl
@[simp] theorem State.movePc_teams (s : State) (m : Mask) (pc : Pc) : (s.movePc m pc).teams = s.teams := rfl
@[simp] theorem State.movePc_cores (s : State) (m : Mask) (pc : Pc) : (s.movePc m pc).cores = s.cores := rfl
@[simp] theorem State.movePc_gtlb (s : State) (m : Mask) (pc : Pc) : (s.movePc m pc).gtlb = s.gtlb := rfl
@[simp] theorem State.movePc_gregions (s : State) (m : Mask) (pc : Pc) : (s.movePc m pc).gregions = s.gregions := rfl
@[simp] theorem State.movePc_ended (s : State) (m : Mask) (pc : Pc) : (s.movePc m pc).ended = s.ended := rfl
@[simp] theorem State.movePc_hints (s : State) (m : Mask) (pc : Pc) : (s.movePc m pc).hints = s.hints := rfl
@[simp] theorem State.movePc_mem (s : State) (m : Mask) (pc : Pc) : (s.movePc m pc).mem = s.mem := rfl
@[simp] theorem State.movePc_lb (s : State) (m : Mask) (pc : Pc) : (s.movePc m pc).lb = s.lb := rfl
@[simp] theorem State.movePc_poison (s : State) (m : Mask) (pc : Pc) : (s.movePc m pc).poison = s.poison := rfl
@[simp] theorem State.movePc_blockClean (s : State) (m : Mask) (pc : Pc) : (s.movePc m pc).blockClean = s.blockClean := rfl
@[simp] theorem State.movePc_green (s : State) (m : Mask) (pc : Pc) : (s.movePc m pc).green = s.green := rfl
@[simp] theorem State.movePc_ext (s : State) (m : Mask) (pc : Pc) : (s.movePc m pc).ext = s.ext := rfl
@[simp] theorem State.movePc_extPoison (s : State) (m : Mask) (pc : Pc) : (s.movePc m pc).extPoison = s.extPoison := rfl
@[simp] theorem State.movePc_extLb (s : State) (m : Mask) (pc : Pc) : (s.movePc m pc).extLb = s.extLb := rfl
@[simp] theorem State.movePc_peerEnc (s : State) (m : Mask) (pc : Pc) : (s.movePc m pc).peerEnc = s.peerEnc := rfl
@[simp] theorem State.movePc_pubs (s : State) (m : Mask) (pc : Pc) : (s.movePc m pc).pubs = s.pubs := rfl
@[simp] theorem State.movePc_remHeld (s : State) (m : Mask) (pc : Pc) : (s.movePc m pc).remHeld = s.remHeld := rfl
@[simp] theorem State.movePc_sysHeld (s : State) (m : Mask) (pc : Pc) : (s.movePc m pc).sysHeld = s.sysHeld := rfl
@[simp] theorem State.movePc_flights (s : State) (m : Mask) (pc : Pc) : (s.movePc m pc).flights = s.flights := rfl
@[simp] theorem State.movePc_chanSeq (s : State) (m : Mask) (pc : Pc) : (s.movePc m pc).chanSeq = s.chanSeq := rfl
@[simp] theorem State.movePc_chanNext (s : State) (m : Mask) (pc : Pc) : (s.movePc m pc).chanNext = s.chanNext := rfl
@[simp] theorem State.movePc_chanHeld (s : State) (m : Mask) (pc : Pc) : (s.movePc m pc).chanHeld = s.chanHeld := rfl
@[simp] theorem State.movePc_sentUpTo (s : State) (m : Mask) (pc : Pc) : (s.movePc m pc).sentUpTo = s.sentUpTo := rfl
@[simp] theorem State.movePc_tokens (s : State) (m : Mask) (pc : Pc) : (s.movePc m pc).tokens = s.tokens := rfl
@[simp] theorem State.movePc_precedence (s : State) (m : Mask) (pc : Pc) : (s.movePc m pc).precedence = s.precedence := rfl
@[simp] theorem State.movePc_nextId (s : State) (m : Mask) (pc : Pc) : (s.movePc m pc).nextId = s.nextId := rfl
@[simp] theorem State.movePc_issue (s : State) (m : Mask) (pc : Pc) : (s.movePc m pc).issue = s.issue := rfl
@[simp] theorem State.movePc_agenda (s : State) (m : Mask) (pc : Pc) : (s.movePc m pc).agenda = s.agenda := rfl
@[simp] theorem State.movePc_out (s : State) (m : Mask) (pc : Pc) : (s.movePc m pc).out = s.out := rfl
@[simp] theorem State.movePc_freeCtr (s : State) (m : Mask) (pc : Pc) : (s.movePc m pc).freeCtr = s.freeCtr := rfl

/-! Reading back what was written. -/

@[simp] theorem State.sheaf_setSheaf (s : State) (i : Nat) (x : Sheaf) : (s.setSheaf i x).sheaf i = x := by
  simp [State.sheaf, State.setSheaf]

theorem State.sheaf_setSheaf_ne (s : State) {i j : Nat} (x : Sheaf) (h : j ≠ i) : (s.setSheaf i x).sheaf j = s.sheaf j := by
  simp [State.sheaf, State.setSheaf, SMap.getD_set_ne _ _ _ h]

@[simp] theorem State.sheaf_updSheaf (s : State) (i : Nat) (f : Sheaf → Sheaf) : (s.updSheaf i f).sheaf i = f (s.sheaf i) := by
  simp [State.updSheaf]

theorem State.sheaf_updSheaf_ne (s : State) {i j : Nat} (f : Sheaf → Sheaf) (h : j ≠ i) : (s.updSheaf i f).sheaf j = s.sheaf j := by
  simp [State.updSheaf, State.sheaf_setSheaf_ne s _ h]

@[simp] theorem State.team_setTeam (s : State) (i : Nat) (x : Team) : (s.setTeam i x).team i = x := by
  simp [State.team, State.setTeam]

theorem State.team_setTeam_ne (s : State) {i j : Nat} (x : Team) (h : j ≠ i) : (s.setTeam i x).team j = s.team j := by
  simp [State.team, State.setTeam, SMap.getD_set_ne _ _ _ h]

@[simp] theorem State.team_updTeam (s : State) (i : Nat) (f : Team → Team) : (s.updTeam i f).team i = f (s.team i) := by
  simp [State.updTeam]

theorem State.team_updTeam_ne (s : State) {i j : Nat} (f : Team → Team) (h : j ≠ i) : (s.updTeam i f).team j = s.team j := by
  simp [State.updTeam, State.team_setTeam_ne s _ h]

@[simp] theorem State.core_setCore (s : State) (i : Nat) (x : Core) : (s.setCore i x).core i = x := by
  simp [State.core, State.setCore]

theorem State.core_setCore_ne (s : State) {i j : Nat} (x : Core) (h : j ≠ i) : (s.setCore i x).core j = s.core j := by
  simp [State.core, State.setCore, SMap.getD_set_ne _ _ _ h]

@[simp] theorem State.core_updCore (s : State) (i : Nat) (f : Core → Core) : (s.updCore i f).core i = f (s.core i) := by
  simp [State.updCore]

theorem State.core_updCore_ne (s : State) {i j : Nat} (f : Core → Core) (h : j ≠ i) : (s.updCore i f).core j = s.core j := by
  simp [State.updCore, State.core_setCore_ne s _ h]

/-! An update of a sheaf is seen in no team and in no core, and the other way round. -/

@[simp] theorem State.team_setSheaf (s : State) (i t : Nat) (x : Sheaf) : (s.setSheaf i x).team t = s.team t := rfl
@[simp] theorem State.team_updSheaf (s : State) (i t : Nat) (f : Sheaf → Sheaf) : (s.updSheaf i f).team t = s.team t := rfl
@[simp] theorem State.team_updCore (s : State) (i t : Nat) (f : Core → Core) : (s.updCore i f).team t = s.team t := rfl
@[simp] theorem State.sheaf_updTeam (s : State) (t i : Nat) (f : Team → Team) : (s.updTeam t f).sheaf i = s.sheaf i := rfl
@[simp] theorem State.sheaf_setTeam (s : State) (t i : Nat) (x : Team) : (s.setTeam t x).sheaf i = s.sheaf i := rfl
@[simp] theorem State.sheaf_updCore (s : State) (c i : Nat) (f : Core → Core) : (s.updCore c f).sheaf i = s.sheaf i := rfl
@[simp] theorem State.core_setSheaf (s : State) (i c : Nat) (x : Sheaf) : (s.setSheaf i x).core c = s.core c := rfl
@[simp] theorem State.core_updSheaf (s : State) (i c : Nat) (f : Sheaf → Sheaf) : (s.updSheaf i f).core c = s.core c := rfl
@[simp] theorem State.core_updTeam (s : State) (t c : Nat) (f : Team → Team) : (s.updTeam t f).core c = s.core c := rfl
@[simp] theorem State.cur_setSheaf (s : State) (i : Nat) (x : Sheaf) : (s.setSheaf i x).cur = s.cur := rfl
@[simp] theorem State.cur_updSheaf (s : State) (i : Nat) (f : Sheaf → Sheaf) : (s.updSheaf i f).cur = s.cur := rfl
@[simp] theorem State.cur_updCore (s : State) (c : Nat) (f : Core → Core) : (s.updCore c f).cur = s.cur := rfl
@[simp] theorem State.cur_updTeam (s : State) (t : Nat) (f : Team → Team) : (s.updTeam t f).cur = s.cur := rfl
@[simp] theorem State.cur_begin (s : State) : s.begin.cur = s.cur := rfl
@[simp] theorem State.launch_updSheaf (s : State) (i l : Nat) (f : Sheaf → Sheaf) : (s.updSheaf i f).launch l = s.launch l := rfl
@[simp] theorem State.feat_updSheaf (s : State) (i w b : Nat) (f : Sheaf → Sheaf) : (s.updSheaf i f).feat w b = s.feat w b := rfl

end Sys2Proof.Machine
end

