-- ==== Sys2Proof/Laws/Ops.lean ====
section
/-! SUPPORT. What the shared operations of an instruction can do: opening a chunk, reading operands, writing through D, ending. -/

namespace Sys2Proof.Machine

/-! Numbers in the order of a key. -/

theorem insertBy_perm (key : Nat → Nat) (a : Nat) (l : List Nat) : (insertBy key a l).Perm (a :: l) := by
  induction l with
  | nil => exact List.Perm.refl _
  | cons b r ih =>
    unfold insertBy
    split
    · exact (ih.cons b).trans (List.Perm.swap a b r)
    · exact List.Perm.refl _

theorem insertBy_sorted (key : Nat → Nat) (a : Nat) (l : List Nat) (h : l.Pairwise (fun x y => key x ≤ key y)) :
    (insertBy key a l).Pairwise (fun x y => key x ≤ key y) := by
  induction l with
  | nil => simp [insertBy]
  | cons b r ih =>
    rw [List.pairwise_cons] at h
    unfold insertBy
    split
    case isTrue k =>
      refine List.pairwise_cons.mpr ⟨fun x hx => ?_, ih h.2⟩
      rcases List.mem_cons.mp ((insertBy_perm key a r).mem_iff.mp hx) with e | e
      · rw [e]; exact k
      · exact h.1 x e
    case isFalse k =>
      refine List.pairwise_cons.mpr ⟨fun x hx => ?_, List.pairwise_cons.mpr h⟩
      rcases List.mem_cons.mp hx with e | e
      · rw [e]; omega
      · have := h.1 x e; omega

theorem sortFold (key : Nat → Nat) (l : List Nat) : ∀ acc : List Nat, acc.Pairwise (fun x y => key x ≤ key y) →
    (l.foldl (fun r a => insertBy key a r) acc).Perm (l ++ acc)
    ∧ (l.foldl (fun r a => insertBy key a r) acc).Pairwise (fun x y => key x ≤ key y) := by
  induction l with
  | nil => exact fun acc h => ⟨List.Perm.refl _, h⟩
  | cons b r ih =>
    intro acc h
    have k := ih (insertBy key b acc) (insertBy_sorted key b acc h)
    exact ⟨k.1.trans (((insertBy_perm key b acc).append_left r).trans List.perm_middle), k.2⟩

/-- A sorted list has the elements it had. -/
theorem sortBy_perm (key : Nat → Nat) (l : List Nat) : (sortBy key l).Perm l := by
  have h := (sortFold key l [] List.Pairwise.nil).1
  rwa [List.append_nil] at h

/-- A sorted list is in rising order of its key. -/
theorem sortBy_sorted (key : Nat → Nat) (l : List Nat) : (sortBy key l).Pairwise (fun x y => key x ≤ key y) :=
  (sortFold key l [] List.Pairwise.nil).2

/-! Opening a chunk. -/

theorem Sheaf.ensureOpen_eq (x : Sheaf) :
    x.ensureOpen = { x with chunks := x.ensureOpen.chunks, nextChunk := x.ensureOpen.nextChunk, redo := x.ensureOpen.redo } := by
  unfold Sheaf.ensureOpen
  split <;> rfl

theorem Sheaf.updLast_eq (x : Sheaf) (f : Chunk → Chunk) : x.updLast f = { x with chunks := (x.updLast f).chunks } := by
  unfold Sheaf.updLast
  split <;> rfl

theorem Sheaf.close_eq (x : Sheaf) :
    x.close = { x with chunks := x.close.chunks, closeNext := x.close.closeNext, redo := x.close.redo } := by
  unfold Sheaf.close
  split
  · split
    · rfl
    · rw [Sheaf.updLast_eq]
  · rfl

theorem Sheaf.counted_eq (x : Sheaf) (cx nw : Bool) :
    x.counted cx nw = { x with
      chunks := (x.counted cx nw).chunks, closeNext := (x.counted cx nw).closeNext, redo := (x.counted cx nw).redo } := by
  unfold Sheaf.counted
  dsimp only
  split
  · split
    · rw [Sheaf.close_eq, Sheaf.updLast_eq]
    · rw [Sheaf.updLast_eq]
  · rw [Sheaf.updLast_eq]

/-- A state that differs from another in the chunks and endpoints of the path's sheaf alone. -/
structure Beside (s u : State) : Prop where
  rest : u = { s with sheaves := u.sheaves }
  others : ∀ j, j ≠ s.cur.sheaf → u.sheaf j = s.sheaf j
  own : u.sheaf s.cur.sheaf = { s.csh with
    chunks := (u.sheaf s.cur.sheaf).chunks, nextChunk := (u.sheaf s.cur.sheaf).nextChunk, eps := (u.sheaf s.cur.sheaf).eps
    redo := (u.sheaf s.cur.sheaf).redo }

namespace Beside

theorem refl (s : State) : Beside s s := ⟨rfl, fun _ _ => rfl, rfl⟩

theorem cur {s u : State} (b : Beside s u) : u.cur = s.cur := by rw [b.rest]; rfl
theorem issue {s u : State} (b : Beside s u) : u.issue = s.issue := by rw [b.rest]
theorem cores {s u : State} (b : Beside s u) : u.cores = s.cores := by rw [b.rest]
theorem core {s u : State} (b : Beside s u) (c : Nat) : u.core c = s.core c := by simp [State.core, b.cores]
theorem teams {s u : State} (b : Beside s u) : u.teams = s.teams := by rw [b.rest]
theorem team {s u : State} (b : Beside s u) (t : Nat) : u.team t = s.team t := by simp [State.team, b.teams]
theorem launch {s u : State} (b : Beside s u) (t : Nat) : u.launch t = s.launch t := by rw [b.rest]; rfl
theorem feat {s u : State} (b : Beside s u) (w k : Nat) : u.feat w k = s.feat w k := by rw [b.rest]; rfl

theorem csh {s u : State} (b : Beside s u) :
    u.csh = { s.csh with chunks := u.csh.chunks, nextChunk := u.csh.nextChunk, eps := u.csh.eps, redo := u.csh.redo } := by
  have := b.own
  simpa [State.csh, b.cur] using this

theorem regs {s u : State} (b : Beside s u) : u.csh.regs = s.csh.regs := by rw [b.csh]
theorem rregs {s u : State} (b : Beside s u) : u.rregs = s.rregs := by simp [State.rregs, b.cur, b.regs]
theorem steam {s u : State} (b : Beside s u) : u.csh.team = s.csh.team := by rw [b.csh]
theorem score {s u : State} (b : Beside s u) : u.csh.core = s.csh.core := by rw [b.csh]
theorem squad {s u : State} (b : Beside s u) : u.csh.quad = s.csh.quad := by rw [b.csh]
theorem ctm {s u : State} (b : Beside s u) : u.ctm = s.ctm := by simp [State.ctm, b.team, b.steam]
theorem width {s u : State} (b : Beside s u) : u.width = s.width := by simp [State.width, b.ctm]
theorem boundsOn {s u : State} (b : Beside s u) : u.boundsOn = s.boundsOn := by simp [State.boundsOn, b.ctm, b.feat]
theorem bnd {s u : State} (b : Beside s u) (x : Bnd) : u.bnd x = s.bnd x := by simp [State.bnd, b.boundsOn]
theorem active {s u : State} (b : Beside s u) (h : Hd) : u.active h = s.active h := by simp [State.active, b.cur, b.rregs]
theorem allow {s u : State} (b : Beside s u) : u.allow = s.allow := by simp [State.allow, b.rregs]
theorem chain {s u : State} (b : Beside s u) : u.chain = s.chain := by
  simp [State.chain, b.cur, b.core, b.score, b.squad]
theorem latchRead {s u : State} (b : Beside s u) (n : Nat) : u.latchRead n = s.latchRead n := by
  simp [State.latchRead, b.chain, b.cur, b.rregs]
theorem rawReg {s u : State} (b : Beside s u) (d : Sel) (w : Bool) (l : Nat) : u.rawReg d w l = s.rawReg d w l := by
  simp [State.rawReg, b.rregs]
theorem special {s u : State} (b : Beside s u) (k : Special) (l : Nat) : u.special k l = s.special k l := by
  have h : u.csh.idx = s.csh.idx := by rw [b.csh]
  simp only [State.special, b.ctm, b.launch, b.score, h]

theorem live {s u : State} (b : Beside s u) : u.live s.cur.sheaf = s.live s.cur.sheaf := by
  have ht := b.steam
  have hr := b.regs
  simp only [State.csh, b.cur] at ht hr
  simp only [State.live, ht, hr, b.team]

end Beside

theorem begin_beside (s : State) : Beside s s.begin := by
  refine ⟨rfl, fun j h => State.sheaf_updSheaf_ne s _ h, ?_⟩
  have h : s.begin.sheaf s.cur.sheaf = s.csh.ensureOpen := State.sheaf_updSheaf s _ _
  rw [h]
  conv_lhs => rw [Sheaf.ensureOpen_eq]
  unfold Sheaf.ensureOpen
  split <;> rfl

theorem Beside.trans {s u v : State} (a : Beside s u) (b : Beside u v) : Beside s v := by
  have hc := a.cur
  refine ⟨?_, ?_, ?_⟩
  · have h := b.rest
    rw [a.rest] at h
    rw [h]
  · intro j h
    rw [b.others j (by rw [hc]; exact h), a.others j h]
  · have h := b.own
    rw [hc] at h
    rw [h]
    have k := a.csh
    rw [k]

theorem updOpen_beside (s : State) (f : Chunk → Chunk) : Beside s (s.updOpen f) := by
  refine ⟨rfl, fun j h => State.sheaf_updSheaf_ne s _ h, ?_⟩
  have h : (s.updOpen f).sheaf s.cur.sheaf = s.csh.updLast f := State.sheaf_updSheaf s _ _
  rw [h]
  conv_lhs => rw [Sheaf.updLast_eq]
  unfold Sheaf.updLast
  split <;> rfl

theorem popEndpoint_beside (s : State) (e : Nat) : Beside s (s.popEndpoint e) := by
  have h1 : Beside s (s.updSheaf s.cur.sheaf (fun x =>
      { x with eps := SMap.update x.eps e {} (fun e => { e with retained := e.retained + 1 }) })) := by
    refine ⟨rfl, fun j h => State.sheaf_updSheaf_ne s _ h, ?_⟩
    rw [State.sheaf_updSheaf]
    rfl
  exact h1.trans (updOpen_beside _ _)

theorem popAll_beside (s : State) (as : List Src) : Beside s (s.popAll as) := by
  unfold State.popAll
  suffices H : ∀ (q : List (BitVec 4)) (u : State), Beside s u →
      Beside s (q.foldl (fun a q => a.popEndpoint (s.rregs.boundTo q.toNat)) u) from H _ s (Beside.refl s)
  intro q
  induction q with
  | nil => exact fun u h => h
  | cons x r ih => exact fun u h => ih _ (h.trans (popEndpoint_beside u _))

/-! Reading operands: opening a chunk changes no source. -/

theorem rawSrc_begin (s : State) (a : Src) (l : Nat) : s.begin.rawSrc a l = s.rawSrc a l := by
  have b := begin_beside s
  have he : s.begin.csh.eps = s.csh.eps := by
    have h : s.begin.csh = s.csh.ensureOpen := State.sheaf_updSheaf s _ _
    rw [h]; unfold Sheaf.ensureOpen; split <;> rfl
  have hh : ∀ n, s.begin.headEntry n = s.headEntry n := by
    intro n; simp [State.headEntry, Sheaf.endpoint, he, b.rregs]
  unfold State.rawSrc
  simp only [b.rawReg, b.latchRead, b.special, b.rregs, hh]

theorem readsScalar_begin (s : State) (a : Src) : s.begin.readsScalar a = s.readsScalar a := by
  simp only [State.readsScalar, (begin_beside s).latchRead]

theorem rd_begin (s : State) (imm : W32) (d16 : Bool) (a : Src) (l : Nat) : s.begin.rd imm d16 a l = s.rd imm d16 a l := by
  simp only [State.rd, rawSrc_begin, readsScalar_begin]

theorem srcTag_begin (s : State) (a : Src) : s.begin.srcTag a = s.srcTag a := by
  simp only [State.srcTag, rawSrc_begin, (begin_beside s).cur]

theorem active_begin (s : State) (h : Hd) : s.begin.active h = s.active h := (begin_beside s).active h

/-! The checks of one instruction. -/

/-- An instruction that passes its checks has its effect (R87, R107). -/
theorem runOp_ready {h : Hd} {imm : W32} {d : Option Dst} {as : List Src} {own : State → Mask → Option Trap}
    {eff : State → Mask → State} {s : State} (r : Ready h imm d as s) (ho : own s (s.active h) = none) :
    runOp h imm d as own eff s = .next (eff s.begin (s.active h)) := by
  obtain ⟨r1, r2, r3, r4, r5, r6⟩ := r
  simp only [State.checkLanes] at r1 r3
  simp only [runOp, r1, r2, r3, ho, r4, r5, r6, Bool.false_eq_true, if_false]

/-- A failed operand check raises its cause and does nothing else (R87, R107). -/
theorem runOp_operandTrap {h : Hd} {imm : W32} {d : Option Dst} {as : List Src} {own : State → Mask → Option Trap}
    {eff : State → Mask → State} {s : State} {t : Trap} (r : s.operandTrap (s.checkLanes h) d as = some t) :
    runOp h imm d as own eff s = .next (s.raise t) := by
  simp only [State.checkLanes] at r
  simp only [runOp, r]

/-! Ending an instruction. -/

/-- What the end of an instruction leaves of a sheaf. -/
def Sheaf.retired (x : Sheaf) (h : Hd) (c : Bool) : Sheaf :=
  { ({ x with nwLast := h.nw } : Sheaf).counted (h.cx || c || x.closeNext) h.nw with closeNext := false }

theorem relock_sheaf (u : State) (nw : Bool) (j : Nat) :
    (u.relock nw).sheaf j = (u.updSheaf u.cur.sheaf (fun x => { x with nwLast := nw })).sheaf j := rfl

theorem retire_sheaf_eq (u : State) (h : Hd) (c : Bool) (j : Nat) :
    (u.retire h c).sheaf j = ((u.relock h.nw).updSheaf u.cur.sheaf
      (fun x => { x.counted (h.cx || c || x.closeNext) h.nw with closeNext := false })).sheaf j := rfl

theorem retire_sheaf (u : State) (h : Hd) (c : Bool) : (u.retire h c).sheaf u.cur.sheaf = u.csh.retired h c := by
  rw [retire_sheaf_eq, State.sheaf_updSheaf, relock_sheaf, State.sheaf_updSheaf]
  rfl

theorem retire_other (u : State) (h : Hd) (c : Bool) {j : Nat} (n : j ≠ u.cur.sheaf) : (u.retire h c).sheaf j = u.sheaf j := by
  rw [retire_sheaf_eq, State.sheaf_updSheaf_ne _ _ n, relock_sheaf, State.sheaf_updSheaf_ne _ _ n]

theorem retire_issue (u : State) (h : Hd) (c : Bool) : (u.retire h c).issue = u.issue.tail := rfl

theorem relock_rest (u : State) (nw : Bool) : ∃ S C, u.relock nw = { u with sheaves := S, cores := C } := ⟨_, _, rfl⟩

theorem retire_rest (u : State) (h : Hd) (c : Bool) :
    ∃ S C, u.retire h c = { u with sheaves := S, cores := C, issue := u.issue.tail } := by
  obtain ⟨S, C, e⟩ := relock_rest u h.nw
  unfold State.retire
  rw [e]
  exact ⟨_, _, rfl⟩

/-- The lock of the quadrant is all that the end of an instruction changes of a core. -/
theorem retire_core (u : State) (h : Hd) (cl : Bool) (k : Nat) :
    ∃ l, (u.retire h cl).core k = { u.core k with lock := l } := by
  have e : (u.retire h cl).core k = ((u.updSheaf u.cur.sheaf (fun x => { x with nwLast := h.nw })).updCore u.csh.core (fun c =>
    { c with lock :=
        if h.nw then (if u.cur.arrived then c.lock else SMap.set c.lock u.csh.quad (u.cur.sheaf, 0))
        else if ((SMap.get? c.lock u.csh.quad).map (·.1)) = some u.cur.sheaf then SMap.erase c.lock u.csh.quad else c.lock })).core k := rfl
  by_cases n : k = u.csh.core
  · subst n
    rw [e, State.core_updCore]
    exact ⟨_, rfl⟩
  · rw [e, State.core_updCore_ne _ _ n]
    exact ⟨(u.core k).lock, rfl⟩

theorem retire_core_ne (u : State) (h : Hd) (cl : Bool) {k : Nat} (n : k ≠ u.csh.core) : (u.retire h cl).core k = u.core k := by
  have e : (u.retire h cl).core k = ((u.updSheaf u.cur.sheaf (fun x => { x with nwLast := h.nw })).updCore u.csh.core (fun c =>
    { c with lock :=
        if h.nw then (if u.cur.arrived then c.lock else SMap.set c.lock u.csh.quad (u.cur.sheaf, 0))
        else if ((SMap.get? c.lock u.csh.quad).map (·.1)) = some u.cur.sheaf then SMap.erase c.lock u.csh.quad else c.lock })).core k := rfl
  rw [e, State.core_updCore_ne _ _ n]
  rfl

theorem Sheaf.retired_eq (x : Sheaf) (h : Hd) (c : Bool) :
    x.retired h c = { x with nwLast := h.nw, closeNext := false, chunks := (x.retired h c).chunks, redo := (x.retired h c).redo } := by
  unfold Sheaf.retired
  rw [Sheaf.counted_eq]

end Sys2Proof.Machine
end

