-- ==== Sys2Proof/Laws/Write.lean ====
section
/-! SUPPORT. What a write through D and the end of an instruction leave behind, and the producers of R106 that rest on them. -/

namespace Sys2Proof.Machine

/-- A state that differs in the path's sheaf's registers and chunks, and in the latches of its core. -/
structure Written (u t : State) : Prop where
  rest : ∃ S C, t = { u with sheaves := S, cores := C }
  others : ∀ j, j ≠ u.cur.sheaf → t.sheaf j = u.sheaf j
  own : t.csh = { u.csh with regs := t.csh.regs, chunks := t.csh.chunks }
  cores : ∀ c, c ≠ u.csh.core → t.core c = u.core c
  core : ∃ L, t.core u.csh.core = { u.core u.csh.core with latches := L }

namespace Written

theorem cur {u t : State} (w : Written u t) : t.cur = u.cur := by obtain ⟨S, C, rfl⟩ := w.rest; rfl
theorem issue {u t : State} (w : Written u t) : t.issue = u.issue := by obtain ⟨S, C, rfl⟩ := w.rest; rfl
theorem teams {u t : State} (w : Written u t) : t.teams = u.teams := by obtain ⟨S, C, rfl⟩ := w.rest; rfl
theorem team {u t : State} (w : Written u t) (k : Nat) : t.team k = u.team k := by simp [State.team, w.teams]
theorem steam {u t : State} (w : Written u t) : t.csh.team = u.csh.team := by rw [w.own]
theorem score {u t : State} (w : Written u t) : t.csh.core = u.csh.core := by rw [w.own]
theorem squad {u t : State} (w : Written u t) : t.csh.quad = u.csh.quad := by rw [w.own]
theorem ctm {u t : State} (w : Written u t) : t.ctm = u.ctm := by simp [State.ctm, w.team, w.steam]
theorem width {u t : State} (w : Written u t) : t.width = u.width := by simp [State.width, w.ctm]

theorem refl (u : State) : Written u u := ⟨⟨_, _, rfl⟩, fun _ _ => rfl, rfl, fun _ _ => rfl, ⟨_, rfl⟩⟩

theorem trans {u v t : State} (a : Written u v) (b : Written v t) : Written u t := by
  have hc := a.cur
  have hk := a.score
  refine ⟨?_, ?_, ?_, ?_, ?_⟩
  · obtain ⟨S, C, rfl⟩ := a.rest
    obtain ⟨S', C', rfl⟩ := b.rest
    exact ⟨_, _, rfl⟩
  · intro j h
    rw [b.others j (by rw [hc]; exact h), a.others j h]
  · have h1 := b.own
    have h2 := a.own
    rw [h2] at h1
    rw [h1]
  · intro c h
    rw [b.cores c (by rw [hk]; exact h), a.cores c h]
  · obtain ⟨L, h1⟩ := a.core
    obtain ⟨L', h2⟩ := b.core
    rw [hk] at h2
    exact ⟨L', by rw [h2, h1]⟩

end Written

theorem csh_updSheaf (u : State) (f : Sheaf → Sheaf) : (u.updSheaf u.cur.sheaf f).csh = f u.csh := State.sheaf_updSheaf u _ _

/-- Any change of the sheaf's registers and chunks alone. -/
theorem written_updSheaf (u : State) (f : Sheaf → Sheaf)
    (h : f u.csh = { u.csh with regs := (f u.csh).regs, chunks := (f u.csh).chunks }) : Written u (u.updSheaf u.cur.sheaf f) := by
  refine ⟨⟨_, _, rfl⟩, fun j n => State.sheaf_updSheaf_ne u _ n, ?_, fun _ _ => rfl, ⟨_, rfl⟩⟩
  rw [csh_updSheaf]
  exact h

theorem updOpen_written (u : State) (f : Chunk → Chunk) : Written u (u.updOpen f) :=
  written_updSheaf u _ (by conv_lhs => rw [Sheaf.updLast_eq]
                           unfold Sheaf.updLast
                           split <;> rfl)

theorem updOpen_regs (u : State) (f : Chunk → Chunk) : (u.updOpen f).csh.regs = u.csh.regs := by
  show ((u.updSheaf u.cur.sheaf (fun x => x.updLast f)).csh).regs = _
  rw [csh_updSheaf, Sheaf.updLast_eq]

/-- The registers after `putD`. -/
def putRegs (w : Nat) (d : Sel) (w64 : Bool) (tag : Ty) (m : Mask) (res : Nat → Nat × Bnd) (r : Regs) : Regs :=
  if m = 0 then r
  else
    match d with
    | .v n => r.putVec w n.toNat w64 m res tag
    | .s n => r.putS n.toNat w64 (res (lowest m)).1 (res (lowest m)).2 tag
    | _ => r

theorem putD_written (u : State) (d : Sel) (w64 : Bool) (tag : Ty) (m : Mask) (res : Nat → Nat × Bnd) :
    Written u (u.putD d w64 tag m res) := by
  unfold State.putD
  split
  · exact Written.refl u
  · exact (written_updSheaf u _ rfl).trans (updOpen_written _ _)

/-- Registers but for the producers noted for the fallback of R93. -/
def SameButProds (x y : Regs) : Prop :=
  y.v = x.v ∧ y.s = x.s ∧ y.p = x.p ∧ y.allow = x.allow ∧ y.pc = x.pc ∧ y.exited = x.exited ∧ y.qbind = x.qbind ∧ y.routine = x.routine

theorem SameButProds.refl (x : Regs) : SameButProds x x := ⟨rfl, rfl, rfl, rfl, rfl, rfl, rfl, rfl⟩

theorem SameButProds.trans {x y z : Regs} (a : SameButProds x y) (b : SameButProds y z) : SameButProds x z := by
  obtain ⟨a1, a2, a3, a4, a5, a6, a7, a8⟩ := a
  obtain ⟨b1, b2, b3, b4, b5, b6, b7, b8⟩ := b
  exact ⟨b1.trans a1, b2.trans a2, b3.trans a3, b4.trans a4, b5.trans a5, b6.trans a6, b7.trans a7, b8.trans a8⟩

theorem putD_regs (u : State) (d : Sel) (w64 : Bool) (tag : Ty) (m : Mask) (res : Nat → Nat × Bnd) :
    SameButProds (putRegs u.width d w64 tag m res u.csh.regs) (u.putD d w64 tag m res).csh.regs := by
  unfold State.putD putRegs
  by_cases hm : m = 0
  · simp only [hm, if_true]
    exact SameButProds.refl _
  · simp only [hm, if_false]
    rw [updOpen_regs, csh_updSheaf]
    cases d <;> exact ⟨rfl, rfl, rfl, rfl, rfl, rfl, rfl, rfl⟩

/-- A change of the chain of the quadrant. -/
def State.chained (u : State) (f : List Latch → List Latch) : State :=
  u.updCore u.csh.core (fun c => { c with latches := SMap.update c.latches u.csh.quad [] f })

theorem chained_written (u : State) (f : List Latch → List Latch) : Written u (u.chained f) :=
  ⟨⟨_, _, rfl⟩, fun _ _ => rfl, rfl, fun _ n => State.core_updCore_ne u _ n, _, State.core_updCore u _ _⟩

theorem enterLatch_eq (u : State) (e : Latch) :
    u.enterLatch e = (u.chained (fun q => (e :: q).take 4)).updSheaf u.cur.sheaf
      (fun y => { y with regs := { y.regs with prods := ({ dst := e.dst, nw := e.nw, w64 := e.w64 } :: y.regs.prods).take 4 } }) := rfl

theorem enterLatch_written (u : State) (e : Latch) : Written u (u.enterLatch e) := by
  rw [enterLatch_eq]
  exact (chained_written u _).trans (written_updSheaf (u.chained _) _ rfl)

theorem enterLatch_regs (u : State) (e : Latch) : SameButProds u.csh.regs (u.enterLatch e).csh.regs := by
  rw [enterLatch_eq]
  have h := csh_updSheaf (u.chained (fun q => (e :: q).take 4))
      (fun y => { y with regs := { y.regs with prods := ({ dst := e.dst, nw := e.nw, w64 := e.w64 } :: y.regs.prods).take 4 } })
  have k : (u.chained (fun q => (e :: q).take 4)).cur.sheaf = u.cur.sheaf := rfl
  rw [k] at h
  rw [h]
  exact ⟨rfl, rfl, rfl, rfl, rfl, rfl, rfl, rfl⟩

theorem enterLatch_chain (u : State) (e : Latch) :
    ∃ r, SMap.getD ((u.enterLatch e).core u.csh.core).latches u.csh.quad [] = e :: r := by
  rw [enterLatch_eq, State.core_updSheaf]
  unfold State.chained
  rw [State.core_updCore, SMap.getD_update_self]
  exact ⟨_, rfl⟩

/-- The result goes to a new entry, or to the one that has waited for it. -/
theorem pushLatch_cases (u : State) (d : Sel) (nw w64 : Bool) (tag : Ty) (m : Mask) (res : Nat → Nat × Bnd) (old : Regs) :
    (u.cur.issued = true ∧ ∃ f, u.pushLatch d nw w64 tag m res old = u.chained f)
    ∨ (u.cur.issued = false ∧ u.pushLatch d nw w64 tag m res old = u.enterLatch (u.latchEntry d nw w64 tag m res old)) := by
  unfold State.pushLatch
  cases hi : u.cur.issued
  · exact .inr ⟨rfl, by simp only [Bool.false_eq_true, if_false]⟩
  · exact .inl ⟨rfl, _, by simp only [if_true]; rfl⟩

theorem pushLatch_written (u : State) (d : Sel) (nw w64 : Bool) (tag : Ty) (m : Mask) (res : Nat → Nat × Bnd) (old : Regs) :
    Written u (u.pushLatch d nw w64 tag m res old) := by
  obtain ⟨-, f, e⟩ | ⟨-, e⟩ := pushLatch_cases u d nw w64 tag m res old
  · rw [e]; exact chained_written u f
  · rw [e]; exact enterLatch_written u _

theorem pushLatch_regs (u : State) (d : Sel) (nw w64 : Bool) (tag : Ty) (m : Mask) (res : Nat → Nat × Bnd) (old : Regs) :
    SameButProds u.csh.regs (u.pushLatch d nw w64 tag m res old).csh.regs := by
  obtain ⟨-, f, e⟩ | ⟨-, e⟩ := pushLatch_cases u d nw w64 tag m res old
  · rw [e]; exact SameButProds.refl _
  · rw [e]; exact enterLatch_regs u _

theorem pushLatch_chain (u : State) (d : Sel) (nw w64 : Bool) (tag : Ty) (m : Mask) (res : Nat → Nat × Bnd) (old : Regs)
    (hi : u.cur.issued = false) :
    ∃ r, SMap.getD ((u.pushLatch d nw w64 tag m res old).core u.csh.core).latches u.csh.quad []
      = u.latchEntry d nw w64 tag m res old :: r := by
  obtain ⟨c, -⟩ | ⟨-, e⟩ := pushLatch_cases u d nw w64 tag m res old
  · simp [hi] at c
  · rw [e]; exact enterLatch_chain u _

/-! The write through D. -/

/-- D's results with R70 applied. -/
def trimmed (u : State) (res : Nat → Nat × Bnd) : Nat → Nat × Bnd := fun l => ((res l).1, u.bnd (res l).2)

theorem wrD_written (u : State) (h : Hd) (d : Sel) (w64 : Bool) (tag : Ty) (m : Mask) (res : Nat → Nat × Bnd) (old : Regs := u.csh.regs) :
    Written u (u.wrD h d w64 tag m res old) := by
  have key : ∀ (d' : Sel) (m' : Mask) (f : Nat → Nat × Bnd),
      Written u ((if h.nw then u else u.putD d w64 tag m (trimmed u res)).pushLatch d' h.nw w64 tag m' f old) := by
    intro d' m' f
    split
    · exact pushLatch_written _ _ _ _ _ _ _ _
    · exact (putD_written _ _ _ _ _ _).trans (pushLatch_written _ _ _ _ _ _ _ _)
  cases d with
  | q n =>
    unfold State.wrD
    dsimp only
    split
    · exact pushLatch_written _ _ _ _ _ _ _ _
    · exact updOpen_written _ _
  | _ => exact key _ _ _

theorem wrD_regs_nw (u : State) (h : Hd) (d : Sel) (w64 : Bool) (tag : Ty) (m : Mask) (res : Nat → Nat × Bnd) (hn : h.nw = true)
    (old : Regs := u.csh.regs) :
    SameButProds u.csh.regs (u.wrD h d w64 tag m res old).csh.regs := by
  have key : ∀ (d' : Sel) (m' : Mask) (f : Nat → Nat × Bnd),
      SameButProds u.csh.regs ((if h.nw then u else u.putD d w64 tag m (trimmed u res)).pushLatch d' h.nw w64 tag m' f old).csh.regs := by
    intro d' m' f
    simp only [hn, if_true]
    exact pushLatch_regs _ _ _ _ _ _ _ _
  cases d with
  | q n =>
    unfold State.wrD
    simp only [hn, if_true]
    exact pushLatch_regs _ _ _ _ _ _ _ _
  | _ => exact key _ _ _

theorem wrD_regs (u : State) (h : Hd) (d : Sel) (w64 : Bool) (tag : Ty) (m : Mask) (res : Nat → Nat × Bnd) (hn : h.nw = false)
    (old : Regs := u.csh.regs) :
    SameButProds (putRegs u.width d w64 tag m (trimmed u res) u.csh.regs) (u.wrD h d w64 tag m res old).csh.regs := by
  have key : ∀ (d' : Sel) (m' : Mask) (f : Nat → Nat × Bnd),
      SameButProds (putRegs u.width d w64 tag m (trimmed u res) u.csh.regs)
        ((if h.nw then u else u.putD d w64 tag m (trimmed u res)).pushLatch d' h.nw w64 tag m' f old).csh.regs := by
    intro d' m' f
    simp only [hn, Bool.false_eq_true, if_false]
    exact (putD_regs _ _ _ _ _ _).trans (pushLatch_regs _ _ _ _ _ _ _ _)
  cases d with
  | q n =>
    unfold State.wrD putRegs
    simp only [hn, Bool.false_eq_true, if_false, updOpen_regs]
    split <;> exact SameButProds.refl _
  | _ => exact key _ _ _

end Sys2Proof.Machine
end

