-- ==== Sys2Proof/Laws/Finish.lean ====
section
/-! SUPPORT. The end of an instruction, and what a producer that passes its checks leaves behind (R87, R106). -/

namespace Sys2Proof.Machine

/-! The end of an instruction. -/

/-- The PCs after the path has moved on. -/
def movedPc (u : State) (r : Regs) : Regs := { r with pc := setLanes u.width r.pc 0 u.cur.lanes (nextPc u.cur.pc) }

theorem finish_eq (u : State) (h : Hd) (c : Bool) :
    u.finish h c = (u.updSheaf u.cur.sheaf (fun x => { x with regs := movedPc u x.regs })).retire h c := rfl

theorem finish_sheaf (u : State) (h : Hd) (c : Bool) :
    (u.finish h c).sheaf u.cur.sheaf = ({ u.csh with regs := movedPc u u.csh.regs } : Sheaf).retired h c := by
  rw [finish_eq]
  have e := retire_sheaf (u.updSheaf u.cur.sheaf (fun x => { x with regs := movedPc u x.regs })) h c
  rw [csh_updSheaf] at e
  exact e

theorem finish_other (u : State) (h : Hd) (c : Bool) {j : Nat} (n : j ≠ u.cur.sheaf) : (u.finish h c).sheaf j = u.sheaf j := by
  rw [finish_eq]
  exact (retire_other (u.updSheaf u.cur.sheaf (fun x => { x with regs := movedPc u x.regs })) h c n).trans
    (State.sheaf_updSheaf_ne u _ n)

theorem finish_rest (u : State) (h : Hd) (c : Bool) :
    ∃ S C, u.finish h c = { u with sheaves := S, cores := C, issue := u.issue.tail } := by
  rw [finish_eq]
  obtain ⟨S, C, e⟩ := retire_rest (u.updSheaf u.cur.sheaf (fun x => { x with regs := movedPc u x.regs })) h c
  rw [e]
  exact ⟨S, C, rfl⟩

theorem finish_core (u : State) (h : Hd) (cl : Bool) (k : Nat) : ∃ l, (u.finish h cl).core k = { u.core k with lock := l } := by
  rw [finish_eq]
  obtain ⟨l, e⟩ := retire_core (u.updSheaf u.cur.sheaf (fun x => { x with regs := movedPc u x.regs })) h cl k
  exact ⟨l, e⟩

theorem finish_core_ne (u : State) (h : Hd) (cl : Bool) {k : Nat} (n : k ≠ u.csh.core) : (u.finish h cl).core k = u.core k := by
  rw [finish_eq]
  have e := retire_core_ne (u.updSheaf u.cur.sheaf (fun x => { x with regs := movedPc u x.regs })) h cl (k := k)
    (by rw [csh_updSheaf]; exact n)
  rw [e]
  rfl

/-- The registers after the end of an instruction: only the PCs differ. -/
theorem finish_regs (u : State) (h : Hd) (c : Bool) : ((u.finish h c).sheaf u.cur.sheaf).regs = movedPc u u.csh.regs := by
  rw [finish_sheaf, Sheaf.retired_eq]

theorem retired_last (x : Sheaf) (h : Hd) (c : Bool) (k : Chunk) (e : x.chunks.getLast? = some k) :
    ∃ k', (x.retired h c).chunks.getLast? = some k' ∧ k'.held = k.held := by
  unfold Sheaf.retired Sheaf.counted
  have upd : ∀ (y : Sheaf) (f : Chunk → Chunk) (k : Chunk), y.chunks.getLast? = some k → (y.updLast f).chunks.getLast? = some (f k) := by
    intro y f k e
    unfold Sheaf.updLast
    rw [e]
    simp
  have e1 := upd ({ x with nwLast := h.nw } : Sheaf) (fun c => { c with count := c.count + 1 }) k e
  dsimp only
  generalize hy : (({ x with nwLast := h.nw } : Sheaf).updLast (fun c => { c with count := c.count + 1 })) = y at e1
  split
  · rename_i c' hc'
    have hk : c' = { k with count := k.count + 1 } := by
      unfold Sheaf.openChunk? at hc'
      rw [e1] at hc'
      simp only at hc'
      split at hc'
      · exact absurd hc' (by simp)
      · exact (Option.some.inj hc').symm
    split
    · unfold Sheaf.close
      rw [hc']
      simp only [hk]
      refine ⟨(fun c : Chunk => { c with closed := true }) { k with count := k.count + 1 }, ?_, rfl⟩
      rw [if_neg (by simp)]
      exact upd y (fun c => { c with closed := true }) _ e1
    · exact ⟨_, e1, rfl⟩
  · exact ⟨_, e1, rfl⟩

/-! A producer. -/

/-- Reads of one register after a write of a register or a pair. -/
theorem putVec_vreg_ne (r : Regs) (w n : Nat) (w64 : Bool) (m : Mask) (res : Nat → Nat × Bnd) (tag : Ty) {k : Nat}
    (h : k ∉ vregsOf (.v (BitVec.ofNat 8 n)) (if w64 then 2 else 1) ∨ (k ≠ n ∧ (w64 = true → k ≠ n + 1))) (hk : k ≠ n ∧ (w64 = true → k ≠ n + 1)) :
    (r.putVec w n w64 m res tag).vreg k = r.vreg k := by
  unfold Regs.putVec
  split
  · rfl
  · cases w64
    · simp only [Bool.false_eq_true, if_false]
      exact SMap.getD_set_ne _ _ _ hk.1
    · simp only [if_true]
      exact (SMap.getD_set_ne _ _ _ (hk.2 rfl)).trans (SMap.getD_set_ne _ _ _ hk.1)

theorem putV_self (r : Regs) (w n : Nat) (m : Mask) (val : Nat → Nat) (sh : Nat → EB16) (tag : Ty) (wf : Bool) :
    (r.putV w n m val sh tag wf).vreg n =
      { val := lanesOf w (fun l => if Mask.has m l then BitVec.ofNat 32 (val l) else lane (r.vreg n).val l 0)
        sh := lanesOf w (fun l => if Mask.has m l then sh l else lane (r.vreg n).sh l 0), tag := tag, wf := wf } :=
  SMap.getD_set_self _ _ _ _

theorem putV_ne (r : Regs) (w n : Nat) (m : Mask) (val : Nat → Nat) (sh : Nat → EB16) (tag : Ty) (wf : Bool) {k : Nat} (h : k ≠ n) :
    (r.putV w n m val sh tag wf).vreg k = r.vreg k :=
  SMap.getD_set_ne _ _ _ h

theorem putVec_holds (r : Regs) (w n l : Nat) (w64 : Bool) (m : Mask) (res : Nat → Nat × Bnd) (tag : Ty) (hl : l < w)
    (hm : Mask.has m l = true) : VecHolds (r.putVec w n w64 m res tag) n l w64 tag (res l).1 (res l).2 := by
  have m0 : m ≠ 0 := by rintro rfl; simp [Mask.has] at hm
  unfold Regs.putVec
  rw [if_neg m0]
  cases w64
  · simp only [Bool.false_eq_true, if_false, VecHolds]
    refine ⟨?_, ?_, ?_, ?_⟩
    · rw [putV_self]
    · rw [putV_self]
    · unfold Regs.vVal32
      rw [putV_self]
      simp only [lane_lanesOf _ _ _ _ hl, hm, if_true, BitVec.toNat_ofNat]
    · rw [putV_self]
      simp only [lane_lanesOf _ _ _ _ hl, hm, if_true]
  · simp only [if_true, VecHolds]
    have ne : n ≠ n + 1 := by omega
    refine ⟨?_, ?_, ?_, ?_, ?_⟩
    · rw [putV_ne _ _ _ _ _ _ _ _ ne, putV_self]
    · rw [putV_ne _ _ _ _ _ _ _ _ ne, putV_self]
    · unfold Regs.vVal64 Regs.vVal32
      rw [putV_ne _ _ _ _ _ _ _ _ ne, putV_self, putV_self]
      simp only [lane_lanesOf _ _ _ _ hl, hm, if_true, BitVec.toNat_ofNat]
      omega
    · rw [putV_ne _ _ _ _ _ _ _ _ ne, putV_self]
      simp only [lane_lanesOf _ _ _ _ hl, hm, if_true]
    · rw [putV_self]
      simp only [lane_lanesOf _ _ _ _ hl, hm, if_true]

theorem putVec_keeps (r : Regs) (w n l : Nat) (w64 : Bool) (m : Mask) (res : Nat → Nat × Bnd) (tag : Ty) (hl : l < w)
    (hm : Mask.has m l = false) :
    (r.putVec w n w64 m res tag).vVal32 n l = r.vVal32 n l
      ∧ (w64 = true → (r.putVec w n w64 m res tag).vVal32 (n + 1) l = r.vVal32 (n + 1) l) := by
  unfold Regs.putVec
  split
  · exact ⟨rfl, fun _ => rfl⟩
  · have ne : n ≠ n + 1 := by omega
    cases w64
    · simp only [Bool.false_eq_true, if_false]
      refine ⟨?_, fun e => absurd e (by simp)⟩
      unfold Regs.vVal32
      rw [putV_self]
      simp only [lane_lanesOf _ _ _ _ hl, hm, Bool.false_eq_true, if_false]
    · simp only [if_true]
      refine ⟨?_, fun _ => ?_⟩
      · unfold Regs.vVal32
        rw [putV_ne _ _ _ _ _ _ _ _ ne, putV_self]
        simp only [lane_lanesOf _ _ _ _ hl, hm, Bool.false_eq_true, if_false]
      · unfold Regs.vVal32
        rw [putV_self, putV_ne _ _ _ _ _ _ _ _ (Ne.symm ne)]
        simp only [lane_lanesOf _ _ _ _ hl, hm, Bool.false_eq_true, if_false]

theorem mem_dstVs {n : BitVec 8} {k : Nat} {w64 : Bool} (h : k ∉ dstVs (.v n) (if w64 then 2 else 1)) :
    k ≠ n.toNat ∧ (w64 = true → k ≠ n.toNat + 1) := by
  cases w64 <;> simp [dstVs, vregsOf, List.range_succ] at h <;> simp_all

/-- The frame of `putRegs`. -/
theorem putRegs_frame (w : Nat) (d : Sel) (w64 : Bool) (tag : Ty) (m : Mask) (res : Nat → Nat × Bnd) (x y : Regs)
    (e : SameButProds (putRegs w d w64 tag m res x) y) : RegsFrame x { y with pc := x.pc } (dstVs d (if w64 then 2 else 1)) (dstSs d) [] := by
  obtain ⟨e1, e2, e3, e4, e5, e6, e7, e8⟩ := e
  have F : (∀ n, n ∉ dstVs d (if w64 then 2 else 1) → (putRegs w d w64 tag m res x).vreg n = x.vreg n)
      ∧ (∀ n, n ∉ dstSs d → (putRegs w d w64 tag m res x).sreg n = x.sreg n)
      ∧ (putRegs w d w64 tag m res x).p = x.p ∧ (putRegs w d w64 tag m res x).allow = x.allow
      ∧ (putRegs w d w64 tag m res x).exited = x.exited ∧ (putRegs w d w64 tag m res x).qbind = x.qbind
      ∧ (putRegs w d w64 tag m res x).routine = x.routine := by
    by_cases hm : m = 0
    · simp only [putRegs, hm, if_true]
      refine ⟨fun _ _ => trivial, fun _ _ => trivial, trivial, trivial, trivial, trivial, trivial⟩
    · simp only [putRegs, hm, if_false]
      cases d with
      | v n =>
        refine ⟨fun k hk => ?_, fun k _ => ?_, ?_, ?_, ?_, ?_, ?_⟩
        · have := mem_dstVs (n := n) (w64 := w64) hk
          exact putVec_vreg_ne x w n.toNat w64 m res tag (Or.inr this) this
        all_goals (dsimp only; unfold Regs.putVec; split; · rfl)
        all_goals (cases w64 <;> rfl)
      | s n =>
        refine ⟨fun k _ => rfl, fun k hk => ?_, rfl, rfl, rfl, rfl, rfl⟩
        have : k ≠ n.toNat := by simpa [dstSs] using hk
        exact SMap.getD_set_ne _ _ _ this
      | _ => exact ⟨fun _ _ => rfl, fun _ _ => rfl, rfl, rfl, rfl, rfl, rfl⟩
  obtain ⟨f1, f2, f3, f4, f5, f6, f7⟩ := F
  refine ⟨fun n hn => ?_, fun n hn => ?_, fun n _ => ?_, ?_, ?_, ?_, ?_⟩
  · rw [← f1 n hn]; simp only [Regs.vreg, e1]
  · rw [← f2 n hn]; simp only [Regs.sreg, e2]
  · rw [e3, f3]
  · rw [e4, f4]
  · rw [e6, f5]
  · rw [e7, f6]
  · rw [e8, f7]

/-- The pieces of a completed instruction: a state beside `s`, what was written from there, and the end of the instruction. -/
theorem finish_completes {s b g : State} (hb : Beside s b) (hg : Written b g) (h : Hd) (c : Bool)
    (hpc : g.csh.regs.pc = s.csh.regs.pc) :
    Advanced s (g.finish h c) ∧ OnlyPath s (g.finish h c) ∧ SheafFrame s.csh ((g.finish h c).sheaf s.cur.sheaf) := by
  have hcur : g.cur = s.cur := hg.cur.trans hb.cur
  have hw : g.width = s.width := hg.width.trans hb.width
  have hreg : ((g.finish h c).sheaf s.cur.sheaf).regs = movedPc g g.csh.regs := by
    have e := finish_regs g h c
    rwa [hcur] at e
  refine ⟨⟨?_, ?_, ?_⟩, ⟨?_, ?_, ?_, ?_⟩, ?_⟩
  · intro l hl hm
    rw [hreg]
    simp only [Regs.pcOf, movedPc, setLanes, hw, hcur, lane_lanesOf _ _ _ _ hl, hm, if_true]
  · intro l hl hm
    rw [hreg]
    simp only [Regs.pcOf, movedPc, setLanes, hw, hcur, lane_lanesOf _ _ _ _ hl, hm, Bool.false_eq_true, if_false, hpc]
  · obtain ⟨S, C, e⟩ := finish_rest g h c
    rw [e]
    show g.issue.tail = s.issue.tail
    rw [hg.issue, hb.issue]
  · obtain ⟨S, C, e⟩ := finish_rest g h c
    obtain ⟨S', C', e'⟩ := hg.rest
    rw [e, e', hb.rest]
  · intro j n
    rw [finish_other g h c (by rw [hcur]; exact n), hg.others j (by rw [hb.cur]; exact n), hb.others j n]
  · intro k n
    have n' : k ≠ b.csh.core := by rw [hb.score]; exact n
    have n'' : k ≠ g.csh.core := by rw [hg.score]; exact n'
    rw [finish_core_ne g h c n'', hg.cores k n', hb.core]
  · obtain ⟨l, e⟩ := finish_core g h c s.csh.core
    obtain ⟨L, e'⟩ := hg.core
    rw [hb.score, hb.core] at e'
    rw [e, e']
    exact ⟨rfl, rfl, rfl, rfl⟩
  · have e := finish_sheaf g h c
    rw [hcur] at e
    rw [e, Sheaf.retired_eq, hg.own, hb.csh]
    exact ⟨rfl, rfl, rfl, ⟨rfl, rfl⟩, rfl, rfl, ⟨rfl, rfl, rfl, rfl, rfl⟩, ⟨rfl, rfl, rfl, rfl, rfl⟩⟩

theorem movedPc_regs (u : State) (x y : Regs) (vs ss ps : List Nat) (f : RegsFrame x { y with pc := x.pc } vs ss ps) :
    RegsFrame x (movedPc u y) vs ss ps :=
  ⟨f.v, f.s, f.p, f.allow, f.exited, f.qbind, f.routine⟩

theorem putRegs_wrote (s : State) (h : Hd) (d : Sel) (w64 : Bool) (tag : Ty) (res : Nat → Nat × Bnd) (y : Regs)
    (hd : ∀ n, d ≠ .q n) (e : SameButProds (putRegs s.width d w64 tag (s.active h) (trimmed s res) s.csh.regs) y) (t : State)
    (ht : (t.sheaf s.cur.sheaf).regs.v = y.v ∧ (t.sheaf s.cur.sheaf).regs.s = y.s) : Wrote s t h d w64 tag res := by
  obtain ⟨e1, e2, -⟩ := e
  obtain ⟨t1, t2⟩ := ht
  have v : ∀ n, (t.sheaf s.cur.sheaf).regs.vreg n = (putRegs s.width d w64 tag (s.active h) (trimmed s res) s.csh.regs).vreg n := by
    intro n; simp only [Regs.vreg, t1, e1]
  have sc : ∀ n, (t.sheaf s.cur.sheaf).regs.sreg n = (putRegs s.width d w64 tag (s.active h) (trimmed s res) s.csh.regs).sreg n := by
    intro n; simp only [Regs.sreg, t2, e2]
  intro _
  cases d with
  | v n =>
    have pv : s.active h ≠ 0 → putRegs s.width (.v n) w64 tag (s.active h) (trimmed s res) s.csh.regs
        = s.csh.regs.putVec s.width n.toNat w64 (s.active h) (trimmed s res) tag := by
      intro m0; simp only [putRegs, m0, if_false]
    refine ⟨fun l hl hm => ?_, fun l hl hm => ?_, fun m0 => ?_⟩
    · have m0 : s.active h ≠ 0 := by intro z; rw [z] at hm; simp [Mask.has] at hm
      have k := putVec_holds s.csh.regs s.width n.toNat l w64 (s.active h) (trimmed s res) tag hl hm
      rw [← pv m0] at k
      unfold VecHolds Regs.vVal64 Regs.vVal32 at k ⊢
      simp only [v]
      exact k
    · by_cases m0 : s.active h = 0
      · have z : putRegs s.width (.v n) w64 tag (s.active h) (trimmed s res) s.csh.regs = s.csh.regs := by simp only [putRegs, m0, if_true]
        unfold Regs.vVal32
        simp only [v, z]
        exact ⟨trivial, fun _ => trivial⟩
      · have k := putVec_keeps s.csh.regs s.width n.toNat l w64 (s.active h) (trimmed s res) tag hl hm
        rw [← pv m0] at k
        unfold Regs.vVal32 at k ⊢
        simp only [v]
        exact k
    · rw [v]
      simp only [putRegs, m0, if_true]
  | s n =>
    by_cases m0 : s.active h = 0
    · simp only [m0, if_true]
      rw [sc]
      simp only [putRegs, m0, if_true]
    · simp only [m0, if_false]
      rw [sc]
      simp only [putRegs, m0, if_false]
      have k : (s.csh.regs.putS n.toNat w64 (trimmed s res (lowest (s.active h))).1 (trimmed s res (lowest (s.active h))).2 tag).sreg n.toNat
          = ⟨_, _, _⟩ := SMap.getD_set_self _ _ _ _
      rw [k]
      exact ⟨rfl, rfl, rfl⟩
  | q n => exact absurd rfl (hd n)
  | _ => trivial

end Sys2Proof.Machine
end

