-- ==== Sys2Proof/Laws/Unstored.lean ====
section
/-! SUPPORT. What a sheaf's chunks hold for storing, and the pieces of an instruction that leave it alone (R203, R222). -/

namespace Sys2Proof.Machine

/-- The stores a sheaf's chunks hold, oldest first. -/
def Sheaf.stores (x : Sheaf) : List LineWrite := x.chunks.flatMap (fun c => c.held.filterMap Held.write?)

theorem heldWrites_eq (s : State) (i : Nat) :
    s.heldWrites i none = (s.pubs.filter (fun p => p.own = some i)).map (·.w) ++ (s.sheaf i).stores := rfl

theorem unstored_of {s t : State} (p : OnlyPath s t) (h : (t.sheaf s.cur.sheaf).stores = s.csh.stores) : Unstored s t := by
  have e := p.rest
  have line : ∀ l, t.line l = s.line l := by
    intro l
    rw [e]
    cases l <;> rfl
  have pubs : t.pubs = s.pubs := by rw [e]
  intro i l k
  unfold State.seen
  rw [heldWrites_eq, heldWrites_eq, line, pubs]
  by_cases hi : i = s.cur.sheaf
  · subst hi
    rw [h]
    rfl
  · rw [p.sheaves i hi]

theorem Sheaf.stores_ensureOpen (x : Sheaf) : x.ensureOpen.stores = x.stores := by
  unfold Sheaf.ensureOpen
  split
  · rfl
  · simp [Sheaf.stores, Sheaf.newChunk]

theorem Sheaf.stores_updLast (x : Sheaf) (f : Chunk → Chunk)
    (h : ∀ c, (f c).held.filterMap Held.write? = c.held.filterMap Held.write?) : (x.updLast f).stores = x.stores := by
  unfold Sheaf.updLast
  split
  · rename_i c hc
    have e : x.chunks = x.chunks.dropLast ++ [c] := by
      obtain ⟨ys, hy⟩ := List.getLast?_eq_some_iff.mp hc
      rw [hy]; simp
    unfold Sheaf.stores
    conv_rhs => rw [e]
    simp [h]
  · rfl

theorem Sheaf.stores_retired (x : Sheaf) (h : Hd) (c : Bool) : (x.retired h c).stores = x.stores := by
  have key : ∀ (y : Sheaf) (cx nw : Bool), (y.counted cx nw).stores = y.stores := by
    intro y cx nw
    unfold Sheaf.counted
    have e := Sheaf.stores_updLast y (fun c => { c with count := c.count + 1 }) (fun _ => rfl)
    dsimp only
    split
    · rename_i c' hc'
      split
      · have hcount : c'.count ≠ 0 := by
          unfold Sheaf.openChunk? Sheaf.updLast at hc'
          cases hl : y.chunks.getLast? with
          | none => simp [hl] at hc'
          | some k =>
            simp only [hl, List.getLast?_concat] at hc'
            split at hc'
            · exact absurd hc' (by simp)
            · rw [← Option.some.inj hc']; simp
        unfold Sheaf.close
        rw [hc']
        simp only [hcount, if_false]
        exact (Sheaf.stores_updLast _ (fun c => { c with closed := true }) (fun _ => rfl)).trans e
      · exact e
    · exact e
  unfold Sheaf.retired
  show (Sheaf.counted _ _ _).stores = _
  rw [key]
  rfl

theorem begin_stores (s : State) : s.begin.csh.stores = s.csh.stores := by
  have h : s.begin.csh = s.csh.ensureOpen := State.sheaf_updSheaf s _ _
  rw [h, Sheaf.stores_ensureOpen]

theorem updOpen_stores (s : State) (f : Chunk → Chunk)
    (h : ∀ c, (f c).held.filterMap Held.write? = c.held.filterMap Held.write?) : (s.updOpen f).csh.stores = s.csh.stores := by
  show ((s.updSheaf s.cur.sheaf (fun x => x.updLast f)).csh).stores = _
  rw [csh_updSheaf, Sheaf.stores_updLast _ _ h]

theorem popEndpoint_stores (s : State) (e : Nat) : (s.popEndpoint e).csh.stores = s.csh.stores := by
  unfold State.popEndpoint
  refine (updOpen_stores _ _ ?_).trans ?_
  · exact fun _ => rfl
  · rw [csh_updSheaf]
    rfl

theorem popAll_stores (s : State) (as : List Src) : (s.popAll as).csh.stores = s.csh.stores := by
  unfold State.popAll
  suffices H : ∀ (q : List (BitVec 4)) (u : State),
      (q.foldl (fun a q => a.popEndpoint (s.rregs.boundTo q.toNat)) u).csh.stores = u.csh.stores from H _ s
  intro q
  induction q with
  | nil => exact fun _ => rfl
  | cons x r ih => exact fun u => (ih _).trans (popEndpoint_stores _ _)

theorem putD_stores (u : State) (d : Sel) (w64 : Bool) (tag : Ty) (m : Mask) (res : Nat → Nat × Bnd) :
    (u.putD d w64 tag m res).csh.stores = u.csh.stores := by
  unfold State.putD
  split
  · rfl
  · refine (updOpen_stores _ _ ?_).trans ?_
    · exact fun _ => rfl
    · rw [csh_updSheaf]
      rfl

theorem enterLatch_stores (u : State) (e : Latch) : (u.enterLatch e).csh.stores = u.csh.stores := by
  rw [enterLatch_eq]
  have h := csh_updSheaf (u.chained (fun q => (e :: q).take 4))
    (fun y => { y with regs := { y.regs with prods := ({ dst := e.dst, nw := e.nw, w64 := e.w64 } :: y.regs.prods).take 4 } })
  have k : (u.chained (fun q => (e :: q).take 4)).cur.sheaf = u.cur.sheaf := rfl
  rw [k] at h
  rw [h]
  rfl

theorem pushLatch_stores (u : State) (d : Sel) (nw w64 : Bool) (tag : Ty) (m : Mask) (res : Nat → Nat × Bnd) (old : Regs) :
    (u.pushLatch d nw w64 tag m res old).csh.stores = u.csh.stores := by
  obtain ⟨-, f, e⟩ | ⟨-, e⟩ := pushLatch_cases u d nw w64 tag m res old
  · rw [e]; rfl
  · rw [e]; exact enterLatch_stores u _

theorem wrD_stores (u : State) (h : Hd) (d : Sel) (w64 : Bool) (tag : Ty) (m : Mask) (res : Nat → Nat × Bnd)
    (old : Regs) : (u.wrD h d w64 tag m res old).csh.stores = u.csh.stores := by
  have key : ∀ (m' : Mask) (f : Nat → Nat × Bnd),
      ((if h.nw then u else u.putD d w64 tag m (fun l => ((res l).1, u.bnd (res l).2))).pushLatch d h.nw w64 tag m' f old).csh.stores
        = u.csh.stores := by
    intro m' f
    rw [pushLatch_stores]
    split
    · rfl
    · exact putD_stores _ _ _ _ _ _
  unfold State.wrD
  cases d with
  | q n =>
    dsimp only
    split
    · exact pushLatch_stores _ _ _ _ _ _ _ _
    · exact updOpen_stores _ _ (fun c => by simp [Chunk.hold, Held.write?])
  | s n => exact key _ _
  | _ => exact key _ _

theorem wrP_stores (u : State) (d : Sel) (m v b : Mask) : (u.wrP d m v b).csh.stores = u.csh.stores := by
  unfold State.wrP
  split
  · rw [csh_updSheaf]; rfl
  · rfl

theorem finish_stores (u : State) (h : Hd) (c : Bool) : ((u.finish h c).sheaf u.cur.sheaf).stores = u.csh.stores := by
  rw [finish_sheaf, Sheaf.stores_retired]
  rfl

end Sys2Proof.Machine
end

