-- ==== Sys2Proof/Laws/Produce.lean ====
section
/-! SUPPORT. A producer that passes its checks writes D, pushes its latch entry, moves its path on and leaves the rest alone (R87, R92, R106). -/

namespace Sys2Proof.Machine

theorem Beside.trimmed {s b : State} (hb : Beside s b) (res : Nat → Nat × Bnd) : trimmed b res = trimmed s res := by
  funext l
  simp only [Sys2Proof.Machine.trimmed, hb.bnd]

theorem putD_core (u : State) (d : Sel) (w64 : Bool) (tag : Ty) (m : Mask) (res : Nat → Nat × Bnd) (c : Nat) :
    (u.putD d w64 tag m res).core c = u.core c := by
  unfold State.putD
  split <;> rfl

theorem pushLatch_chainIn (u : State) (d : Sel) (nw w64 : Bool) (tag : Ty) (m : Mask) (res : Nat → Nat × Bnd) (old : Regs) :
    let q := fun (t : State) => SMap.getD (t.core u.csh.core).latches u.csh.quad []
    let e := u.latchEntry d nw w64 tag m res old
    (u.cur.issued = false → q (u.pushLatch d nw w64 tag m res old) = e :: (q u).take 3)
    ∧ (u.cur.issued = true → q (u.pushLatch d nw w64 tag m res old) = e.fill u.cur.sheaf (q u)) := by
  intro q e
  refine ⟨fun hi => ?_, fun hi => ?_⟩
  · simp only [q, e]
    unfold State.pushLatch
    simp only [hi, Bool.false_eq_true, if_false]
    rw [enterLatch_eq, State.core_updSheaf]
    unfold State.chained
    rw [State.core_updCore, SMap.getD_update_self]
    rfl
  · simp only [q, e]
    unfold State.pushLatch
    simp only [hi, if_true]
    rw [State.core_updCore, SMap.getD_update_self]

/-- The chain after a write through D that pushes an entry. -/
theorem wrD_chain (u : State) (h : Hd) (d : Sel) (w64 : Bool) (tag : Ty) (m : Mask) (res : Nat → Nat × Bnd) (old : Regs)
    (hp : (match d with | .v _ => true | .s _ => true | _ => h.nw) = true) :
    let q := fun (t : State) => SMap.getD (t.core u.csh.core).latches u.csh.quad []
    ∃ w : State, Written u w ∧
      let e := w.latchEntry d h.nw w64 tag (match d with | .s _ => (if m = 0 then 0 else allLanes u.width) | _ => m)
            (match d with | .s _ => (fun _ => trimmed u res (lowest m)) | _ => trimmed u res) old
      (u.cur.issued = false → q (u.wrD h d w64 tag m res old) = e :: (q u).take 3)
      ∧ (u.cur.issued = true → q (u.wrD h d w64 tag m res old) = e.fill u.cur.sheaf (q u)) := by
  intro q
  have key : ∀ (m' : Mask) (f : Nat → Nat × Bnd), ∃ w : State, Written u w ∧
      let e := w.latchEntry d h.nw w64 tag m' f old
      (u.cur.issued = false → q ((if h.nw then u else u.putD d w64 tag m (trimmed u res)).pushLatch d h.nw w64 tag m' f old) = e :: (q u).take 3)
      ∧ (u.cur.issued = true → q ((if h.nw then u else u.putD d w64 tag m (trimmed u res)).pushLatch d h.nw w64 tag m' f old)
          = e.fill u.cur.sheaf (q u)) := by
    intro m' f
    have hw : Written u (if h.nw then u else u.putD d w64 tag m (trimmed u res)) := by
      split
      · exact Written.refl u
      · exact putD_written _ _ _ _ _ _
    have hq : ∀ c, (if h.nw then u else u.putD d w64 tag m (trimmed u res)).core c = u.core c := by
      intro c; split
      · rfl
      · exact putD_core _ _ _ _ _ _ _
    have e := pushLatch_chainIn (if h.nw then u else u.putD d w64 tag m (trimmed u res)) d h.nw w64 tag m' f old
    simp only [hw.score, hw.squad, hw.cur, hq] at e
    exact ⟨_, hw, e⟩
  cases d with
  | q n =>
    simp only at hp
    have e := pushLatch_chainIn u (.q n) true w64 tag m (trimmed u res) old
    refine ⟨u, Written.refl u, ?_⟩
    unfold State.wrD
    simp only [hp, if_true]
    exact e
  | s n => exact key (if m = 0 then 0 else allLanes u.width) (fun _ => trimmed u res (lowest m))
  | _ => exact key m (trimmed u res)

theorem allLanes_has (w l : Nat) (hl : l < w) (h : l < 64) : Mask.has (allLanes w) l = true := by
  rw [allLanes, Mask.has_of _ _ _ h]
  simp [hl]

theorem allLanes_ne (w : Nat) (h : 0 < w) : allLanes w ≠ 0 := by
  intro e
  have := allLanes_has w 0 h (by omega)
  rw [e] at this
  simp [Mask.has] at this

theorem wrD_latched {s b : State} (hb : Beside s b) (h : Hd) (d : Sel) (w64 : Bool) (tag : Ty)
    (res : Nat → Nat × Bnd) (c : Bool) :
    Latched s ((b.wrD h d w64 tag (s.active h) res s.csh.regs).finish h c) h d w64 tag res := by
  intro hp
  obtain ⟨w, hw, e1, e2⟩ := wrD_chain b h d w64 tag (s.active h) res s.csh.regs hp
  have hg := wrD_written b h d w64 tag (s.active h) res s.csh.regs
  obtain ⟨l, ec⟩ := finish_core (b.wrD h d w64 tag (s.active h) res s.csh.regs) h c s.csh.core
  have hq : s.chainIn ((b.wrD h d w64 tag (s.active h) res s.csh.regs).finish h c)
      = SMap.getD ((b.wrD h d w64 tag (s.active h) res s.csh.regs).core s.csh.core).latches s.csh.quad [] := by
    unfold State.chainIn; rw [ec]
  have hqb : SMap.getD (b.core s.csh.core).latches s.csh.quad [] = s.chainIn s := by rw [hb.core]; rfl
  have hww : w.width = s.width := hw.width.trans hb.width
  beta_reduce at e1 e2
  rw [hb.score, hb.squad, hb.cur, hqb, ← hq] at e1 e2
  refine ⟨_, ?_, rfl, rfl, rfl, rfl, rfl, rfl, ?_, e1, e2⟩
  · show w.cur.sheaf = s.cur.sheaf
    rw [hw.cur, hb.cur]
  · intro l hl h64
    rw [hb.trimmed]
    cases d with
    | s n =>
      simp only [State.latchEntry, hww, lane_lanesOf _ _ _ _ hl, hb.width]
      by_cases m0 : s.active h = 0
      · simp [m0, Mask.has]
      · simp only [m0, if_false, allLanes_has _ _ hl h64, if_true, not_false_eq_true, ne_eq, not_true_eq_false, false_implies,
          and_true, true_implies, trimmed]
    | _ =>
      simp only [State.latchEntry, hww, lane_lanesOf _ _ _ _ hl]
      cases hm : Mask.has (s.active h) l <;> simp [trimmed]

/-- A queue destination without NW: the entry is held by the chunk. -/
theorem wrD_queue {s b : State} (hb : Beside s b) (h : Hd) (n : BitVec 4) (w64 : Bool) (tag : Ty) (res : Nat → Nat × Bnd) (c : Bool)
    (k : Chunk) (hk : b.csh.chunks.getLast? = some k) : Wrote s ((b.wrD h (.q n) w64 tag (s.active h) res).finish h c) h (.q n) w64 tag res := by
  intro hn
  have e : b.wrD h (.q n) w64 tag (s.active h) res = b.updOpen (fun c => c.hold (.push (b.rregs.boundTo n.toNat)
      { w64 := w64, tag := tag
        val := lanesOf b.width (fun l => if Mask.has (s.active h) l then BitVec.ofNat 64 (res l).1 else 0)
        bnd := lanesOf b.width (fun l => if Mask.has (s.active h) l then dstBnd (.q n) w64 (b.bnd (res l).2) else 0) })) := by
    unfold State.wrD
    simp only [hn, Bool.false_eq_true, if_false]
  rw [e]
  generalize hE : (Held.push (b.rregs.boundTo n.toNat)
      { w64 := w64, tag := tag
        val := lanesOf b.width (fun l => if Mask.has (s.active h) l then BitVec.ofNat 64 (res l).1 else 0)
        bnd := lanesOf b.width (fun l => if Mask.has (s.active h) l then dstBnd (.q n) w64 (b.bnd (res l).2) else 0) }) = E
  have hc : (b.updOpen (fun c => c.hold E)).cur.sheaf = s.cur.sheaf := congrArg Path.sheaf hb.cur
  have hs := finish_sheaf (b.updOpen (fun c => c.hold E)) h c
  rw [hc] at hs
  have hl : (b.updOpen (fun c => c.hold E)).csh.chunks.getLast? = some (k.hold E) := by
    show ((b.updSheaf b.cur.sheaf (fun x => x.updLast _)).csh).chunks.getLast? = _
    rw [csh_updSheaf]
    unfold Sheaf.updLast
    rw [hk]
    simp
  obtain ⟨k', e1, e2⟩ := retired_last ({ (b.updOpen (fun c => c.hold E)).csh with
    regs := movedPc (b.updOpen (fun c => c.hold E)) (b.updOpen (fun c => c.hold E)).csh.regs } : Sheaf) h c _ hl
  refine ⟨k', ?_, ?_⟩
  · rw [hs]
    exact e1
  · rw [e2]
    show (k.held ++ [E]).getLast? = _
    rw [List.getLast?_concat, ← hE]
    simp only [hb.rregs, hb.width, hb.bnd]

theorem begin_last (s : State) : ∃ k, s.begin.csh.chunks.getLast? = some k := by
  have h : s.begin.csh = s.csh.ensureOpen := State.sheaf_updSheaf s _ _
  rw [h]
  unfold Sheaf.ensureOpen Sheaf.openChunk?
  cases e : s.csh.chunks.getLast? with
  | none => simp
  | some c =>
    cases hc : c.closed
    · simp [e, hc]
    · simp [hc]

theorem popEndpoint_last (s : State) (e : Nat) (k : Chunk) (h : s.csh.chunks.getLast? = some k) :
    ∃ k', (s.popEndpoint e).csh.chunks.getLast? = some k' := by
  have e1 : (s.popEndpoint e).csh = (({ s.csh with eps := SMap.update s.csh.eps e {} (fun e => { e with retained := e.retained + 1 }) } : Sheaf).updLast
      (fun c => { c with pops := SMap.update c.pops e 0 (· + 1) })) := by
    unfold State.popEndpoint State.updOpen
    have c1 : (s.updSheaf s.cur.sheaf (fun x =>
      { x with eps := SMap.update x.eps e {} (fun e => { e with retained := e.retained + 1 }) })).cur.sheaf = s.cur.sheaf := rfl
    rw [csh_updSheaf, csh_updSheaf]
  rw [e1]
  unfold Sheaf.updLast
  rw [show ({ s.csh with eps := SMap.update s.csh.eps e {} (fun e => { e with retained := e.retained + 1 }) } : Sheaf).chunks.getLast? = some k from h]
  simp

theorem popAll_last (s : State) (as : List Src) (h : ∃ k, s.csh.chunks.getLast? = some k) :
    ∃ k, (s.popAll as).csh.chunks.getLast? = some k := by
  unfold State.popAll
  suffices H : ∀ (q : List (BitVec 4)) (u : State), (∃ k, u.csh.chunks.getLast? = some k) →
      ∃ k, (q.foldl (fun a q => a.popEndpoint (s.rregs.boundTo q.toNat)) u).csh.chunks.getLast? = some k from H _ s h
  intro q
  induction q with
  | nil => exact fun u h => h
  | cons x r ih =>
    intro u h
    obtain ⟨k, hk⟩ := h
    exact ih _ (popEndpoint_last u _ k hk)

/-- A producer that passes its checks completes. -/
theorem runDst_produces {i : Instr} {s : State} {h : Hd} {o : Opn} {d : Dst} {tag : State → Ty} {as : List Src}
    {own : State → Mask → Option Trap} {res : State → Mask → (Src → Nat → Val) → Nat → Nat × Bnd}
    (he : exec i s = runDst h o d tag as own res s) (r : Ready h o.imm (some d) as s) (ho : own s (s.active h) = none) :
    Produces i s h o d.w64 (tag s.begin) (res s.begin (s.active h) (s.rd o.imm (d16Of o.d d.w64))) := by
  have hb : Beside s (s.begin.popAll as) := (begin_beside s).trans (popAll_beside _ _)
  have hrd : s.begin.rd o.imm (d16Of o.d d.w64) = s.rd o.imm (d16Of o.d d.w64) := by
    funext a l; exact rd_begin _ _ _ _ _
  generalize hres : res s.begin (s.active h) (s.rd o.imm (d16Of o.d d.w64)) = f
  have hg := wrD_written (s.begin.popAll as) h o.d d.w64 (tag s.begin) (s.active h) f s.csh.regs
  refine ⟨((s.begin.popAll as).wrD h o.d d.w64 (tag s.begin) (s.active h) f s.csh.regs).finish h, ?_, ?_, ?_, ?_⟩
  · rw [he]
    unfold runDst
    rw [runOp_ready r ho, hrd, hres, hb.regs]
  · by_cases hq : ∃ n, o.d = .q n
    · obtain ⟨n, hn⟩ := hq
      obtain ⟨k, hk⟩ := popAll_last s.begin as (begin_last s)
      rw [hn]
      exact wrD_queue hb h n d.w64 (tag s.begin) f false k hk
    · by_cases hn : h.nw = true
      · intro z; rw [hn] at z; exact absurd z (by simp)
      · have hn' : h.nw = false := by simpa using hn
        have e := wrD_regs (s.begin.popAll as) h o.d d.w64 (tag s.begin) (s.active h) f hn' s.csh.regs
        rw [hb.trimmed, hb.width, hb.regs] at e
        refine putRegs_wrote s h o.d d.w64 (tag s.begin) f _ (fun n z => hq ⟨n, z⟩) e _ ?_
        have k := finish_regs ((s.begin.popAll as).wrD h o.d d.w64 (tag s.begin) (s.active h) f s.csh.regs) h false
        rw [hg.cur, hb.cur] at k
        rw [k]
        exact ⟨rfl, rfl⟩
  · exact wrD_latched hb h o.d d.w64 (tag s.begin) f false
  · have k := finish_regs ((s.begin.popAll as).wrD h o.d d.w64 (tag s.begin) (s.active h) f s.csh.regs) h false
    rw [hg.cur, hb.cur] at k
    have hst : ((((s.begin.popAll as).wrD h o.d d.w64 (tag s.begin) (s.active h) f s.csh.regs).finish h).sheaf s.cur.sheaf).stores = s.csh.stores := by
      have z := finish_stores ((s.begin.popAll as).wrD h o.d d.w64 (tag s.begin) (s.active h) f s.csh.regs) h false
      rw [hg.cur, hb.cur] at z
      rw [z, wrD_stores, popAll_stores, begin_stores]
    by_cases hn : h.nw = true
    · have e := wrD_regs_nw (s.begin.popAll as) h o.d d.w64 (tag s.begin) (s.active h) f hn s.csh.regs
      rw [hb.regs] at e
      obtain ⟨e1, e2, e3, e4, e5, e6, e7, e8⟩ := e
      have F := finish_completes hb hg h false e5
      refine ⟨F.1, F.2.1, unstored_of F.2.1 hst, F.2.2, ?_⟩
      rw [k]
      simp only [hn, if_true]
      refine ⟨fun n _ => ?_, fun n _ => ?_, fun n _ => ?_, ?_, ?_, ?_, ?_⟩
      · simp only [Regs.vreg, movedPc, e1]
      · simp only [Regs.sreg, movedPc, e2]
      · simp only [movedPc, e3]
      · exact e4
      · exact e6
      · exact e7
      · exact e8
    · have hn' : h.nw = false := by simpa using hn
      have e := wrD_regs (s.begin.popAll as) h o.d d.w64 (tag s.begin) (s.active h) f hn' s.csh.regs
      rw [hb.trimmed, hb.width, hb.regs] at e
      have hpc : ((s.begin.popAll as).wrD h o.d d.w64 (tag s.begin) (s.active h) f s.csh.regs).csh.regs.pc = s.csh.regs.pc := by
        rw [e.2.2.2.2.1]
        unfold putRegs
        split
        · rfl
        · cases o.d with
          | v n => dsimp only; unfold Regs.putVec; split; · rfl
                   cases d.w64 <;> rfl
          | _ => rfl
      have F := finish_completes hb hg h false hpc
      refine ⟨F.1, F.2.1, unstored_of F.2.1 hst, F.2.2, ?_⟩
      rw [k]
      simp only [hn', Bool.false_eq_true, if_false]
      exact movedPc_regs _ _ _ _ _ _ (putRegs_frame _ _ _ _ _ _ _ _ e)

/-- The same for an entry with a fixed tag and no causes of its own. -/
theorem runD_produces {i : Instr} {s : State} {h : Hd} {o : Opn} {w64 : Bool} {tag : Ty} {as : List Src}
    {res : State → Mask → (Src → Nat → Val) → Nat → Nat × Bnd}
    (he : exec i s = runD h o w64 tag as res s) (r : Ready h o.imm (some (dstD o w64)) as s) :
    Produces i s h o w64 tag (res s.begin (s.active h) (s.rd o.imm (d16Of o.d w64))) :=
  runDst_produces (d := dstD o w64) (tag := fun _ => tag) he r rfl

end Sys2Proof.Machine
end

