-- ==== Sys2Proof/Laws/Complete.lean ====
section
/-! SUPPORT. Completion of the instructions that write a predicate, that only pass on, and that transfer control (R79, R106, R108). -/

namespace Sys2Proof.Machine

/-- The end of an instruction that gives the sheaf the PCs `f`, and nothing else. -/
def State.turned (u : State) (h : Hd) (c : Bool) (f : List Pc) : State :=
  (u.updSheaf u.cur.sheaf (fun x => { x with regs := { x.regs with pc := f } })).retire h c

theorem turned_sheaf (u : State) (h : Hd) (c : Bool) (f : List Pc) :
    (u.turned h c f).sheaf u.cur.sheaf = ({ u.csh with regs := { u.csh.regs with pc := f } } : Sheaf).retired h c := by
  have e := retire_sheaf (u.updSheaf u.cur.sheaf (fun x => { x with regs := { x.regs with pc := f } })) h c
  rw [csh_updSheaf] at e
  exact e

theorem turned_rest (u : State) (h : Hd) (c : Bool) (f : List Pc) :
    ∃ S C, u.turned h c f = { u with sheaves := S, cores := C, issue := u.issue.tail } := by
  obtain ⟨S, C, e⟩ := retire_rest (u.updSheaf u.cur.sheaf (fun x => { x with regs := { x.regs with pc := f } })) h c
  unfold State.turned
  rw [e]
  exact ⟨S, C, rfl⟩

/-- What such an end leaves: the lanes at `f`, all else as before. -/
theorem turned_untouched {s b : State} (hb : Beside s b) (hst : b.csh.stores = s.csh.stores) (h : Hd) (c : Bool) (f : List Pc) :
    ((b.turned h c f).sheaf s.cur.sheaf).regs.pc = f ∧ (b.turned h c f).issue = s.issue.tail ∧ Untouched s (b.turned h c f) := by
  have hs := turned_sheaf b h c f
  rw [hb.cur] at hs
  obtain ⟨S, C, e⟩ := turned_rest b h c f
  have path : OnlyPath s (b.turned h c f) := by
    refine ⟨?_, ?_, ?_, ?_⟩
    · rw [e, hb.rest]
    · intro j n
      have n' : j ≠ b.cur.sheaf := by rw [hb.cur]; exact n
      have k := retire_other (b.updSheaf b.cur.sheaf (fun x => { x with regs := { x.regs with pc := f } })) h c n'
      exact k.trans ((State.sheaf_updSheaf_ne b _ n').trans (hb.others j n))
    · intro k n
      have n' : k ≠ (b.updSheaf b.cur.sheaf (fun x => { x with regs := { x.regs with pc := f } })).csh.core := by
        rw [csh_updSheaf]
        show k ≠ b.csh.core
        rw [hb.score]; exact n
      have z := retire_core_ne (b.updSheaf b.cur.sheaf (fun x => { x with regs := { x.regs with pc := f } })) h c n'
      exact z.trans (hb.core k)
    · obtain ⟨l, z⟩ := retire_core (b.updSheaf b.cur.sheaf (fun x => { x with regs := { x.regs with pc := f } })) h c s.csh.core
      have z' : (b.turned h c f).core s.csh.core = { s.core s.csh.core with lock := l } := by
        refine z.trans ?_
        rw [show (b.updSheaf b.cur.sheaf (fun x => { x with regs := { x.regs with pc := f } })).core s.csh.core = b.core s.csh.core from rfl,
          hb.core]
      rw [z']
      exact ⟨rfl, rfl, rfl, rfl⟩
  have stores : ((b.turned h c f).sheaf s.cur.sheaf).stores = s.csh.stores := by
    rw [hs, Sheaf.stores_retired]
    exact hst
  have hr : ((b.turned h c f).sheaf s.cur.sheaf).regs = { s.csh.regs with pc := f } := by
    rw [hs, Sheaf.retired_eq]
    show ({ b.csh.regs with pc := f } : Regs) = _
    rw [hb.regs]
  refine ⟨by rw [hr], ?_, path, unstored_of path stores, ?_, ?_⟩
  · rw [e]
    show b.issue.tail = _
    rw [hb.issue]
  · rw [hs, Sheaf.retired_eq, hb.csh]
    exact ⟨rfl, rfl, rfl, ⟨rfl, rfl⟩, rfl, rfl, ⟨rfl, rfl, rfl, rfl, rfl⟩, ⟨rfl, rfl, rfl, rfl, rfl⟩⟩
  · rw [hr]
    exact ⟨fun _ _ => rfl, fun _ _ => rfl, fun _ _ => rfl, rfl, rfl, rfl, rfl⟩

theorem finish_turned (u : State) (h : Hd) (c : Bool) : u.finish h c = u.turned h c (setLanes u.width u.csh.regs.pc 0 u.cur.lanes (nextPc u.cur.pc)) := by
  have k : ∀ (f : Sheaf → Sheaf) (g : Sheaf → Sheaf), f u.csh = g u.csh → u.updSheaf u.cur.sheaf f = u.updSheaf u.cur.sheaf g := by
    intro f g e
    unfold State.updSheaf
    exact congrArg _ e
  rw [finish_eq]
  unfold State.turned
  rw [k _ (fun x => { x with regs := { x.regs with pc := setLanes u.width u.csh.regs.pc 0 u.cur.lanes (nextPc u.cur.pc) } }) rfl]

/-- An instruction that only passes on. -/
theorem finish_passes {s b : State} (hb : Beside s b) (hst : b.csh.stores = s.csh.stores) (h : Hd) (c : Bool) :
    Advanced s (b.finish h c) ∧ Untouched s (b.finish h c) := by
  rw [finish_turned]
  obtain ⟨e1, e2, e3⟩ := turned_untouched hb hst h c (setLanes b.width b.csh.regs.pc 0 b.cur.lanes (nextPc b.cur.pc))
  refine ⟨⟨?_, ?_, e2⟩, e3⟩
  · intro l hl hm
    unfold Regs.pcOf
    rw [e1]
    simp only [setLanes, hb.width, hb.cur, lane_lanesOf _ _ _ _ hl, hm, if_true]
  · intro l hl hm
    unfold Regs.pcOf
    rw [e1]
    simp only [setLanes, hb.width, hb.cur, hb.regs, lane_lanesOf _ _ _ _ hl, hm, Bool.false_eq_true, if_false]

theorem begin_passes (s : State) (h : Hd) (c : Bool) : Advanced s (s.begin.finish h c) ∧ Untouched s (s.begin.finish h c) :=
  finish_passes (begin_beside s) (begin_stores s) h c

/-- A transfer of the lanes of `m`, a part of the path. -/
theorem transfer_moves (s : State) (h : Hd) (m : Mask) (tgt : Nat → Pc) (hm : ∀ l, Mask.has m l = true → Mask.has s.cur.lanes l = true) :
    Moved s (s.begin.transfer h m tgt) (fun l => if Mask.has m l then tgt l else nextPc s.cur.pc)
      ∧ Untouched s (s.begin.transfer h m tgt) := by
  have hb := begin_beside s
  have e : s.begin.transfer h m tgt = s.begin.turned h false (lanesOf s.width (fun l =>
      if Mask.has m l then tgt l else if Mask.has s.cur.lanes l then nextPc s.cur.pc else s.csh.regs.pcOf l)) := by
    unfold State.transfer State.turned State.updSheaf
    have r : (s.begin.sheaf s.begin.cur.sheaf).regs = s.csh.regs := hb.regs
    dsimp only
    rw [r, hb.width, hb.cur]
  rw [e]
  obtain ⟨e1, e2, e3⟩ := turned_untouched hb (begin_stores s) h false (lanesOf s.width (fun l =>
      if Mask.has m l then tgt l else if Mask.has s.cur.lanes l then nextPc s.cur.pc else s.csh.regs.pcOf l))
  refine ⟨⟨?_, e2⟩, e3⟩
  intro l hl
  show lane _ l 0 = _
  rw [e1]
  simp only [lane_lanesOf _ _ _ _ hl]
  by_cases k : Mask.has m l = true
  · simp [k, hm l k]
  · simp only [Bool.not_eq_true] at k
    simp [k]

/-! A predicate destination. -/

/-- The registers a write of a predicate leaves. -/
theorem putP_pred (r : Regs) (n k : BitVec 4) (m v b : Mask) (hn : n ≠ 15) (l : Nat) (hl : l < 64) (hk : k = n) :
    Mask.has ((r.putP n m v b).pred k).val l = (if Mask.has m l then Mask.has v l else Mask.has (r.pred k).val l)
      ∧ Mask.has ((r.putP n m v b).pred k).doubt l = (if Mask.has m l then Mask.has b l else Mask.has (r.pred k).doubt l) := by
  subst hk
  unfold Regs.putP
  rw [if_neg hn]
  unfold Regs.pred
  rw [if_neg hn, if_neg hn]
  simp only [SMap.getD_set_self]
  constructor
  all_goals
    unfold Mask.has
    simp only [BitVec.getLsbD_or, BitVec.getLsbD_and, BitVec.getLsbD_not, hl, decide_true, Bool.true_and]
    cases m.getLsbD l <;> simp

theorem wrP_written (u : State) (d : Sel) (m v b : Mask) : Written u (u.wrP d m v b) := by
  unfold State.wrP
  split
  · exact written_updSheaf u _ rfl
  · exact Written.refl u

theorem wrP_regs (u : State) (d : Sel) (m v b : Mask) :
    (u.wrP d m v b).csh.regs = (match d with | .p n => u.csh.regs.putP n m v (if u.boundsOn then b else 0) | _ => u.csh.regs) := by
  unfold State.wrP
  cases d <;> try rfl
  rw [csh_updSheaf]

/-- A predicate-writing instruction that passes its checks completes. -/
theorem runPred_decides {i : Instr} {s : State} {h : Hd} {o : Opn} {as : List Src} {f : State → (Src → Nat → Val) → Nat → Bool × Bool}
    (he : exec i s = runPred h o as f s)
    (r : Ready h o.imm (some { sel := o.d, w64 := false, predOnly := true }) as s) :
    Decides i s h o (f s.begin (s.rd o.imm false)) := by
  have hb : Beside s (s.begin.popAll as) := (begin_beside s).trans (popAll_beside _ _)
  have hrd : s.begin.rd o.imm false = s.rd o.imm false := by
    funext a l; exact rd_begin _ _ _ _ _
  generalize hf : f s.begin (s.rd o.imm false) = g
  generalize hv : Mask.of 64 (fun l => Mask.has (s.active h) l && (g l).1) = v
  generalize hd' : Mask.of 64 (fun l => Mask.has (s.active h) l && (g l).2) = b
  have hw := wrP_written (s.begin.popAll as) o.d (s.active h) v b
  have hst : ((s.begin.popAll as).wrP o.d (s.active h) v b).csh.stores = s.csh.stores := by
    rw [wrP_stores, popAll_stores, begin_stores]
  have hpc : ((s.begin.popAll as).wrP o.d (s.active h) v b).csh.regs.pc = s.csh.regs.pc := by
    rw [wrP_regs, hb.regs]
    cases o.d <;> try rfl
    rename_i n
    dsimp only
    unfold Regs.putP
    split <;> rfl
  have F := finish_completes hb hw h false hpc
  have hreg := finish_regs ((s.begin.popAll as).wrP o.d (s.active h) v b) h false
  rw [hw.cur, hb.cur] at hreg
  refine ⟨((s.begin.popAll as).wrP o.d (s.active h) v b).finish h, ?_, ?_, F.1, F.2.1, ?_, F.2.2, ?_⟩
  · rw [he]
    unfold runPred
    rw [runOp_ready r (own := noTrap) rfl, hrd, hf]
    dsimp only
    rw [hv, hd']
  · intro n hn n15 l hl
    rw [hreg, wrP_regs, hb.regs, hb.boundsOn, hn]
    dsimp only
    have k := putP_pred s.csh.regs n n (s.active h) v (if s.boundsOn then b else 0) n15 l hl rfl
    have p : ∀ x : Regs, (movedPc ((s.begin.popAll as).wrP (Sel.p n) (s.active h) v b) x).pred n = x.pred n := fun _ => rfl
    rw [p, k.1, k.2]
    by_cases ha : Mask.has (s.active h) l = true
    · simp only [ha, if_true]
      rw [← hv, ← hd', Mask.has_of _ _ _ hl]
      refine ⟨by simp [hl, ha], ?_⟩
      by_cases hbo : s.boundsOn = true
      · simp only [hbo, if_true, Bool.true_and]
        rw [Mask.has_of _ _ _ hl]
        simp [hl, ha]
      · simp only [Bool.not_eq_true] at hbo
        simp [hbo, Mask.has]
    · simp only [Bool.not_eq_true] at ha
      simp [ha]
  · refine unstored_of F.2.1 ?_
    have z := finish_stores ((s.begin.popAll as).wrP o.d (s.active h) v b) h false
    rw [hw.cur, hb.cur] at z
    rw [z, hst]
  · rw [hreg, wrP_regs, hb.regs]
    refine movedPc_regs _ _ _ _ _ _ ?_
    cases o.d with
    | p n =>
      dsimp only
      unfold Regs.putP
      split
      · exact ⟨fun _ _ => rfl, fun _ _ => rfl, fun _ _ => rfl, rfl, rfl, rfl, rfl⟩
      · refine ⟨fun _ _ => rfl, fun _ _ => rfl, fun k hk => ?_, rfl, rfl, rfl, rfl⟩
        exact SMap.getD_set_ne _ _ _ (by simpa [dstPs] using hk)
    | _ => exact ⟨fun _ _ => rfl, fun _ _ => rfl, fun _ _ => rfl, rfl, rfl, rfl, rfl⟩

/-! The forms in which the claims about whole families follow. -/

theorem computes_of {i : Instr} {h : Hd} {o : Opn} {d : Dst} {tag tag' : State → Ty} {as : List Src}
    {res : State → Mask → (Src → Nat → Val) → Nat → Nat × Bnd} {res' : State → (Src → Nat → Val) → Nat → Nat × Bnd}
    (he : ∀ s, exec i s = runDst h o d tag as noTrap res s) (ht : ∀ s : State, tag s.begin = tag' s)
    (hr : ∀ (s : State) (rd : Src → Nat → Val), res s.begin (s.active h) rd = res' s rd) : Computes i h o d as tag' res' := by
  intro s r
  have k := runDst_produces (he s) r rfl
  rw [ht, hr] at k
  exact k

theorem computes_runD {i : Instr} {h : Hd} {o : Opn} {w64 : Bool} {tag : Ty} {as : List Src}
    {res : State → Mask → (Src → Nat → Val) → Nat → Nat × Bnd} {res' : State → (Src → Nat → Val) → Nat → Nat × Bnd}
    (he : ∀ s, exec i s = runD h o w64 tag as res s)
    (hr : ∀ (s : State) (rd : Src → Nat → Val), res s.begin (s.active h) rd = res' s rd) :
    Computes i h o (dstD o w64) as (fun _ => tag) res' :=
  computes_of he (fun _ => rfl) hr

theorem tests_of {i : Instr} {h : Hd} {o : Opn} {as : List Src} {f : State → (Src → Nat → Val) → Nat → Bool × Bool}
    {f' : State → (Src → Nat → Val) → Nat → Bool × Bool} (he : ∀ s, exec i s = runPred h o as f s)
    (hr : ∀ s : State, f s.begin (s.rd o.imm false) = f' s (s.rd o.imm false)) : Tests i h o as f' := by
  intro s r
  have k := runPred_decides (he s) r
  rw [hr] at k
  exact k

end Sys2Proof.Machine
end

