-- ==== Sys2Proof/Laws/Dispatch.lean ====
section
/-! SUPPORT. What `exec` runs for each constructor, so that no proof unfolds the dispatch. -/

namespace Sys2Proof.Machine

@[simp] theorem exec_nop (h : Hd) (o : Opn) (m : BitVec 8) (s : State) : exec (.nop h o m) s = execNop h o m s := rfl
@[simp] theorem exec_bra (h : Hd) (o : Opn) (m : BitVec 8) (s : State) : exec (.bra h o m) s = execBra h o m s := rfl
@[simp] theorem exec_jmp (h : Hd) (o : Opn) (m : BitVec 8) (s : State) : exec (.jmp h o m) s = execJmp h o m s := rfl
@[simp] theorem exec_jmpr (h : Hd) (o : Opn) (m : BitVec 8) (s : State) : exec (.jmpr h o m) s = execJmpr h o m s := rfl
@[simp] theorem exec_call (h : Hd) (o : Opn) (m : BitVec 8) (s : State) : exec (.call h o m) s = execCall h o m s := rfl
@[simp] theorem exec_ret (h : Hd) (o : Opn) (m : BitVec 8) (s : State) : exec (.ret h o m) s = execRet h o m s := rfl
@[simp] theorem exec_exit (h : Hd) (o : Opn) (m : BitVec 8) (s : State) : exec (.exit h o m) s = execExit h o m s := rfl
@[simp] theorem exec_brd (h : Hd) (o : Opn) (m : BitVec 8) (s : State) : exec (.brd h o m) s = execBrd h o m s := rfl
@[simp] theorem exec_safept (h : Hd) (o : Opn) (m : BitVec 8) (s : State) : exec (.safept h o m) s = execSafept h o m s := rfl
@[simp] theorem exec_yield (h : Hd) (o : Opn) (m : BitVec 8) (s : State) : exec (.yield h o m) s = execYield h o m s := rfl
@[simp] theorem exec_cclose (h : Hd) (o : Opn) (m : BitVec 8) (s : State) : exec (.cclose h o m) s = execCclose h o m s := rfl
@[simp] theorem exec_iadd (h : Hd) (o : Opn) (m : IMod) (s : State) : exec (.iadd h o m) s = execIadd h o m s := rfl
@[simp] theorem exec_isub (h : Hd) (o : Opn) (m : IMod) (s : State) : exec (.isub h o m) s = execIsub h o m s := rfl
@[simp] theorem exec_imul (h : Hd) (o : Opn) (m : IMod) (s : State) : exec (.imul h o m) s = execImul h o m s := rfl
@[simp] theorem exec_imulh (h : Hd) (o : Opn) (m : IMod) (s : State) : exec (.imulh h o m) s = execImulh h o m s := rfl
@[simp] theorem exec_imad (h : Hd) (o : Opn) (m : IMod) (s : State) : exec (.imad h o m) s = execImad h o m s := rfl
@[simp] theorem exec_imin (h : Hd) (o : Opn) (m : IMod) (s : State) : exec (.imin h o m) s = execImin h o m s := rfl
@[simp] theorem exec_imax (h : Hd) (o : Opn) (m : IMod) (s : State) : exec (.imax h o m) s = execImax h o m s := rfl
@[simp] theorem exec_iabs (h : Hd) (o : Opn) (m : IMod) (s : State) : exec (.iabs h o m) s = execIabs h o m s := rfl
@[simp] theorem exec_bitAnd (h : Hd) (o : Opn) (m : IMod) (s : State) : exec (.bitAnd h o m) s = execAnd h o m s := rfl
@[simp] theorem exec_bitOr (h : Hd) (o : Opn) (m : IMod) (s : State) : exec (.bitOr h o m) s = execOr h o m s := rfl
@[simp] theorem exec_bitXor (h : Hd) (o : Opn) (m : IMod) (s : State) : exec (.bitXor h o m) s = execXor h o m s := rfl
@[simp] theorem exec_bitNot (h : Hd) (o : Opn) (m : IMod) (s : State) : exec (.bitNot h o m) s = execNot h o m s := rfl
@[simp] theorem exec_shl (h : Hd) (o : Opn) (m : IMod) (s : State) : exec (.shl h o m) s = execShl h o m s := rfl
@[simp] theorem exec_shr (h : Hd) (o : Opn) (m : IMod) (s : State) : exec (.shr h o m) s = execShr h o m s := rfl
@[simp] theorem exec_sar (h : Hd) (o : Opn) (m : IMod) (s : State) : exec (.sar h o m) s = execSar h o m s := rfl
@[simp] theorem exec_bfe (h : Hd) (o : Opn) (m : IMod) (s : State) : exec (.bfe h o m) s = execBfe h o m s := rfl
@[simp] theorem exec_bfi (h : Hd) (o : Opn) (m : IMod) (s : State) : exec (.bfi h o m) s = execBfi h o m s := rfl
@[simp] theorem exec_popc (h : Hd) (o : Opn) (m : IMod) (s : State) : exec (.popc h o m) s = execPopc h o m s := rfl
@[simp] theorem exec_clz (h : Hd) (o : Opn) (m : IMod) (s : State) : exec (.clz h o m) s = execClz h o m s := rfl
@[simp] theorem exec_brev (h : Hd) (o : Opn) (m : IMod) (s : State) : exec (.brev h o m) s = execBrev h o m s := rfl
@[simp] theorem exec_isetp (h : Hd) (o : Opn) (m : IMod) (s : State) : exec (.isetp h o m) s = execIsetp h o m s := rfl
@[simp] theorem exec_sel (h : Hd) (o : Opn) (m : IMod) (s : State) : exec (.sel h o m) s = execSel h o m s := rfl
@[simp] theorem exec_mov (h : Hd) (o : Opn) (m : IMod) (s : State) : exec (.mov h o m) s = execMov h o m s := rfl
@[simp] theorem exec_movi (h : Hd) (o : Opn) (m : IMod) (s : State) : exec (.movi h o m) s = execMovi h o m s := rfl
@[simp] theorem exec_lea (h : Hd) (o : Opn) (m : IMod) (s : State) : exec (.lea h o m) s = execLea h o m s := rfl
@[simp] theorem exec_plop (h : Hd) (o : Opn) (m : BitVec 8) (s : State) : exec (.plop h o m) s = execPlop h o m s := rfl
@[simp] theorem exec_pmov (h : Hd) (o : Opn) (m : BitVec 8) (s : State) : exec (.pmov h o m) s = execPmov h o m s := rfl
@[simp] theorem exec_vote (h : Hd) (o : Opn) (m : BitVec 8) (s : State) : exec (.vote h o m) s = execVote h o m s := rfl
@[simp] theorem exec_shfl (h : Hd) (o : Opn) (m : BitVec 8) (s : State) : exec (.shfl h o m) s = execShfl h o m s := rfl
@[simp] theorem exec_rdlane (h : Hd) (o : Opn) (m : BitVec 8) (s : State) : exec (.rdlane h o m) s = execRdlane h o m s := rfl
@[simp] theorem exec_wrlane (h : Hd) (o : Opn) (m : BitVec 8) (s : State) : exec (.wrlane h o m) s = execWrlane h o m s := rfl
@[simp] theorem exec_sredux (h : Hd) (o : Opn) (m : BitVec 8) (s : State) : exec (.sredux h o m) s = execSredux h o m s := rfl
@[simp] theorem exec_matchLanes (h : Hd) (o : Opn) (m : BitVec 8) (s : State) : exec (.matchLanes h o m) s = execMatch h o m s := rfl
@[simp] theorem exec_fadd (h : Hd) (o : Opn) (m : FMod) (s : State) : exec (.fadd h o m) s = execFadd h o m s := rfl
@[simp] theorem exec_fsub (h : Hd) (o : Opn) (m : FMod) (s : State) : exec (.fsub h o m) s = execFsub h o m s := rfl
@[simp] theorem exec_fmul (h : Hd) (o : Opn) (m : FMod) (s : State) : exec (.fmul h o m) s = execFmul h o m s := rfl
@[simp] theorem exec_ffma (h : Hd) (o : Opn) (m : FMod) (s : State) : exec (.ffma h o m) s = execFfma h o m s := rfl
@[simp] theorem exec_fmin (h : Hd) (o : Opn) (m : FMod) (s : State) : exec (.fmin h o m) s = execFmin h o m s := rfl
@[simp] theorem exec_fmax (h : Hd) (o : Opn) (m : FMod) (s : State) : exec (.fmax h o m) s = execFmax h o m s := rfl
@[simp] theorem exec_fsetp (h : Hd) (o : Opn) (m : FMod) (s : State) : exec (.fsetp h o m) s = execFsetp h o m s := rfl
@[simp] theorem exec_fclass (h : Hd) (o : Opn) (m : FMod) (s : State) : exec (.fclass h o m) s = execFclass h o m s := rfl
@[simp] theorem exec_frcp (h : Hd) (o : Opn) (m : FMod) (s : State) : exec (.frcp h o m) s = execFrcp h o m s := rfl
@[simp] theorem exec_frsq (h : Hd) (o : Opn) (m : FMod) (s : State) : exec (.frsq h o m) s = execFrsq h o m s := rfl
@[simp] theorem exec_fsqrt (h : Hd) (o : Opn) (m : FMod) (s : State) : exec (.fsqrt h o m) s = execFsqrt h o m s := rfl
@[simp] theorem exec_fdiv (h : Hd) (o : Opn) (m : FMod) (s : State) : exec (.fdiv h o m) s = execFdiv h o m s := rfl
@[simp] theorem exec_fexp2 (h : Hd) (o : Opn) (m : FMod) (s : State) : exec (.fexp2 h o m) s = execFexp2 h o m s := rfl
@[simp] theorem exec_flog2 (h : Hd) (o : Opn) (m : FMod) (s : State) : exec (.flog2 h o m) s = execFlog2 h o m s := rfl
@[simp] theorem exec_fsinpi (h : Hd) (o : Opn) (m : FMod) (s : State) : exec (.fsinpi h o m) s = execFsinpi h o m s := rfl
@[simp] theorem exec_fcospi (h : Hd) (o : Opn) (m : FMod) (s : State) : exec (.fcospi h o m) s = execFcospi h o m s := rfl
@[simp] theorem exec_cvt (h : Hd) (o : Opn) (m : FMod) (s : State) : exec (.cvt h o m) s = execCvt h o m s := rfl
@[simp] theorem exec_cvtq (h : Hd) (o : Opn) (m : FMod) (s : State) : exec (.cvtq h o m) s = execCvtq h o m s := rfl
@[simp] theorem exec_pack (h : Hd) (o : Opn) (m : FMod) (s : State) : exec (.pack h o m) s = execPack h o m s := rfl
@[simp] theorem exec_unpk (h : Hd) (o : Opn) (m : FMod) (s : State) : exec (.unpk h o m) s = execUnpk h o m s := rfl
@[simp] theorem exec_qdeq (h : Hd) (o : Opn) (m : FMod) (s : State) : exec (.qdeq h o m) s = execQdeq h o m s := rfl
@[simp] theorem exec_dot2 (h : Hd) (o : Opn) (m : FMod) (s : State) : exec (.dot2 h o m) s = execDot2 h o m s := rfl
@[simp] theorem exec_dot4 (h : Hd) (o : Opn) (m : FMod) (s : State) : exec (.dot4 h o m) s = execDot4 h o m s := rfl
@[simp] theorem exec_f6join (h : Hd) (o : Opn) (m : FMod) (s : State) : exec (.f6join h o m) s = execF6join h o m s := rfl
@[simp] theorem exec_frnd (h : Hd) (o : Opn) (m : FMod) (s : State) : exec (.frnd h o m) s = execFrnd h o m s := rfl
@[simp] theorem exec_fscl (h : Hd) (o : Opn) (m : FMod) (s : State) : exec (.fscl h o m) s = execFscl h o m s := rfl
@[simp] theorem exec_bget (h : Hd) (o : Opn) (m : BitVec 8) (s : State) : exec (.bget h o m) s = execBget h o m s := rfl
@[simp] theorem exec_bset (h : Hd) (o : Opn) (m : BitVec 8) (s : State) : exec (.bset h o m) s = execBset h o m s := rfl
@[simp] theorem exec_badd (h : Hd) (o : Opn) (m : BitVec 8) (s : State) : exec (.badd h o m) s = execBadd h o m s := rfl
@[simp] theorem exec_bmax (h : Hd) (o : Opn) (m : BitVec 8) (s : State) : exec (.bmax h o m) s = execBmax h o m s := rfl
@[simp] theorem exec_bchk (h : Hd) (o : Opn) (m : BitVec 8) (s : State) : exec (.bchk h o m) s = execBchk h o m s := rfl
@[simp] theorem exec_bclr (h : Hd) (o : Opn) (m : BitVec 8) (s : State) : exec (.bclr h o m) s = execBclr h o m s := rfl
@[simp] theorem exec_bmode (h : Hd) (o : Opn) (m : BitVec 8) (s : State) : exec (.bmode h o m) s = execBmode h o m s := rfl
@[simp] theorem exec_ld (h : Hd) (o : Opn) (m : MMod) (s : State) : exec (.ld h o m) s = execLd h o m s := rfl
@[simp] theorem exec_st (h : Hd) (o : Opn) (m : MMod) (s : State) : exec (.st h o m) s = execSt h o m s := rfl
@[simp] theorem exec_lds (h : Hd) (o : Opn) (m : MMod) (s : State) : exec (.lds h o m) s = execLds h o m s := rfl
@[simp] theorem exec_sts (h : Hd) (o : Opn) (m : MMod) (s : State) : exec (.sts h o m) s = execSts h o m s := rfl
@[simp] theorem exec_ldf (h : Hd) (o : Opn) (m : MMod) (s : State) : exec (.ldf h o m) s = execLdf h o m s := rfl
@[simp] theorem exec_ste (h : Hd) (o : Opn) (m : MMod) (s : State) : exec (.ste h o m) s = execSte h o m s := rfl
@[simp] theorem exec_feset (h : Hd) (o : Opn) (m : MMod) (s : State) : exec (.feset h o m) s = execFeset h o m s := rfl
@[simp] theorem exec_ldk (h : Hd) (o : Opn) (m : MMod) (s : State) : exec (.ldk h o m) s = execLdk h o m s := rfl
@[simp] theorem exec_pref (h : Hd) (o : Opn) (m : MMod) (s : State) : exec (.pref h o m) s = execPref h o m s := rfl
@[simp] theorem exec_atom (h : Hd) (o : Opn) (m : MMod) (s : State) : exec (.atom h o m) s = execAtom h o m s := rfl
@[simp] theorem exec_cas (h : Hd) (o : Opn) (m : MMod) (s : State) : exec (.cas h o m) s = execCas h o m s := rfl
@[simp] theorem exec_red (h : Hd) (o : Opn) (m : MMod) (s : State) : exec (.red h o m) s = execRed h o m s := rfl
@[simp] theorem exec_fence (h : Hd) (o : Opn) (m : MMod) (s : State) : exec (.fence h o m) s = execFence h o m s := rfl
@[simp] theorem exec_sealRegion (h : Hd) (o : Opn) (m : MMod) (s : State) : exec (.sealRegion h o m) s = execSeal h o m s := rfl
@[simp] theorem exec_unsealRegion (h : Hd) (o : Opn) (m : MMod) (s : State) : exec (.unsealRegion h o m) s = execUnseal h o m s := rfl
@[simp] theorem exec_hint (h : Hd) (o : Opn) (m : MMod) (s : State) : exec (.hint h o m) s = execHint h o m s := rfl
@[simp] theorem exec_waita (h : Hd) (o : Opn) (m : MMod) (s : State) : exec (.waita h o m) s = execWaita h o m s := rfl
@[simp] theorem exec_bari (h : Hd) (o : Opn) (m : BitVec 8) (s : State) : exec (.bari h o m) s = execBari h o m s := rfl
@[simp] theorem exec_bara (h : Hd) (o : Opn) (m : BitVec 8) (s : State) : exec (.bara h o m) s = execBara h o m s := rfl
@[simp] theorem exec_barw (h : Hd) (o : Opn) (m : BitVec 8) (s : State) : exec (.barw h o m) s = execBarw h o m s := rfl
@[simp] theorem exec_barq (h : Hd) (o : Opn) (m : BitVec 8) (s : State) : exec (.barq h o m) s = execBarq h o m s := rfl
@[simp] theorem exec_xacq (h : Hd) (o : Opn) (m : BitVec 8) (s : State) : exec (.xacq h o m) s = execXacq h o m s := rfl
@[simp] theorem exec_xrel (h : Hd) (o : Opn) (m : BitVec 8) (s : State) : exec (.xrel h o m) s = execXrel h o m s := rfl
@[simp] theorem exec_lnch (h : Hd) (o : Opn) (m : BitVec 8) (s : State) : exec (.lnch h o m) s = execLnch h o m s := rfl
@[simp] theorem exec_qbind (h : Hd) (o : Opn) (m : BitVec 8) (s : State) : exec (.qbind h o m) s = execQbind h o m s := rfl
@[simp] theorem exec_qstat (h : Hd) (o : Opn) (m : BitVec 8) (s : State) : exec (.qstat h o m) s = execQstat h o m s := rfl
@[simp] theorem exec_mma (h : Hd) (o : Opn) (m : BitVec 8) (s : State) : exec (.mma h o m) s = execMma h o m s := rfl
@[simp] theorem exec_mzero (h : Hd) (o : Opn) (m : BitVec 8) (s : State) : exec (.mzero h o m) s = execMzero h o m s := rfl
@[simp] theorem exec_mload (h : Hd) (o : Opn) (m : BitVec 8) (s : State) : exec (.mload h o m) s = execMload h o m s := rfl
@[simp] theorem exec_mdrain (h : Hd) (o : Opn) (m : BitVec 8) (s : State) : exec (.mdrain h o m) s = execMdrain h o m s := rfl
@[simp] theorem exec_gath (h : Hd) (o : Opn) (m : BitVec 8) (s : State) : exec (.gath h o m) s = execGath h o m s := rfl
@[simp] theorem exec_spcmp (h : Hd) (o : Opn) (m : BitVec 8) (s : State) : exec (.spcmp h o m) s = execSpcmp h o m s := rfl
@[simp] theorem exec_cpy (h : Hd) (o : Opn) (m : BitVec 8) (s : State) : exec (.cpy h o m) s = execCpy h o m s := rfl
@[simp] theorem exec_cpym (h : Hd) (o : Opn) (m : BitVec 8) (s : State) : exec (.cpym h o m) s = execCpym h o m s := rfl
@[simp] theorem exec_wtc (h : Hd) (o : Opn) (m : BitVec 8) (s : State) : exec (.wtc h o m) s = execWtc h o m s := rfl
@[simp] theorem exec_wto (h : Hd) (o : Opn) (m : BitVec 8) (s : State) : exec (.wto h o m) s = execWto h o m s := rfl
@[simp] theorem exec_trap (h : Hd) (o : Opn) (m : BitVec 8) (s : State) : exec (.trap h o m) s = execTrap h o m s := rfl
@[simp] theorem exec_eret (h : Hd) (o : Opn) (m : BitVec 8) (s : State) : exec (.eret h o m) s = execEret h o m s := rfl
@[simp] theorem exec_srd (h : Hd) (o : Opn) (m : BitVec 8) (s : State) : exec (.srd h o m) s = execSrd h o m s := rfl
@[simp] theorem exec_swr (h : Hd) (o : Opn) (m : BitVec 8) (s : State) : exec (.swr h o m) s = execSwr h o m s := rfl
@[simp] theorem exec_clk (h : Hd) (o : Opn) (m : BitVec 8) (s : State) : exec (.clk h o m) s = execClk h o m s := rfl
@[simp] theorem exec_bkpt (h : Hd) (o : Opn) (m : BitVec 8) (s : State) : exec (.bkpt h o m) s = execBkpt h o m s := rfl
@[simp] theorem exec_sleep (h : Hd) (o : Opn) (m : BitVec 8) (s : State) : exec (.sleep h o m) s = execSleep h o m s := rfl
@[simp] theorem exec_quadrantIssue (core : Nat) (quad : Nat) (s : State) : exec (.quadrantIssue core quad) s = execQuadrantIssue core quad s := rfl
@[simp] theorem exec_nwLockExpire (core : Nat) (quad : Nat) (s : State) : exec (.nwLockExpire core quad) s = execNwLockExpire core quad s := rfl
@[simp] theorem exec_lineRefetch (core : Nat) (line : Nat) (s : State) : exec (.lineRefetch core line) s = execLineRefetch core line s := rfl
@[simp] theorem exec_pageWalk (ctx : Nat) (va : Nat) (s : State) : exec (.pageWalk ctx va) s = execPageWalk ctx va s := rfl
@[simp] theorem exec_commitRound (s : State) : exec .commitRound s = execCommitRound s := rfl
@[simp] theorem exec_priorityTokenTake (sheaf : Nat) (s : State) : exec (.priorityTokenTake sheaf) s = execPriorityTokenTake sheaf s := rfl
@[simp] theorem exec_boundaryPerform (sheaf : Nat) (s : State) : exec (.boundaryPerform sheaf) s = execBoundaryPerform sheaf s := rfl
@[simp] theorem exec_podRelease (sheaf : Nat) (s : State) : exec (.podRelease sheaf) s = execPodRelease sheaf s := rfl
@[simp] theorem exec_accessCompletion (id : Nat) (s : State) : exec (.accessCompletion id) s = execAccessCompletion id s := rfl
@[simp] theorem exec_ldfComplete (sheaf : Nat) (lane : Nat) (s : State) : exec (.ldfComplete sheaf lane) s = execLdfComplete sheaf lane s := rfl
@[simp] theorem exec_steComplete (sheaf : Nat) (lane : Nat) (s : State) : exec (.steComplete sheaf lane) s = execSteComplete sheaf lane s := rfl
@[simp] theorem exec_waitaComplete (sheaf : Nat) (lane : Nat) (s : State) : exec (.waitaComplete sheaf lane) s = execWaitaComplete sheaf lane s := rfl
@[simp] theorem exec_waitaPoll (sheaf : Nat) (s : State) : exec (.waitaPoll sheaf) s = execWaitaPoll sheaf s := rfl
@[simp] theorem exec_xacqGrant (team : Nat) (quad : Nat) (s : State) : exec (.xacqGrant team quad) s = execXacqGrant team quad s := rfl
@[simp] theorem exec_counterWaitWake (sheaf : Nat) (s : State) : exec (.counterWaitWake sheaf) s = execCounterWaitWake sheaf s := rfl
@[simp] theorem exec_queuePopWake (sheaf : Nat) (s : State) : exec (.queuePopWake sheaf) s = execQueuePopWake sheaf s := rfl
@[simp] theorem exec_sleepExpire (sheaf : Nat) (lane : Nat) (s : State) : exec (.sleepExpire sheaf lane) s = execSleepExpire sheaf lane s := rfl
@[simp] theorem exec_yieldExpire (sheaf : Nat) (s : State) : exec (.yieldExpire sheaf) s = execYieldExpire sheaf s := rfl
@[simp] theorem exec_mmaPerform (team : Nat) (cmd : Nat) (s : State) : exec (.mmaPerform team cmd) s = execMmaPerform team cmd s := rfl
@[simp] theorem exec_tileFillPerform (team : Nat) (cmd : Nat) (s : State) : exec (.tileFillPerform team cmd) s = execTileFillPerform team cmd s := rfl
@[simp] theorem exec_mdrainPerform (team : Nat) (cmd : Nat) (s : State) : exec (.mdrainPerform team cmd) s = execMdrainPerform team cmd s := rfl
@[simp] theorem exec_engineQueuePush (team : Nat) (cmd : Nat) (s : State) : exec (.engineQueuePush team cmd) s = execEngineQueuePush team cmd s := rfl
@[simp] theorem exec_copyPerform (team : Nat) (cmd : Nat) (s : State) : exec (.copyPerform team cmd) s = execCopyPerform team cmd s := rfl
@[simp] theorem exec_cpymMmaIssue (team : Nat) (cmd : Nat) (s : State) : exec (.cpymMmaIssue team cmd) s = execCpymMmaIssue team cmd s := rfl
@[simp] theorem exec_gatherPerform (team : Nat) (cmd : Nat) (s : State) : exec (.gatherPerform team cmd) s = execGatherPerform team cmd s := rfl
@[simp] theorem exec_handlerEntry (sheaf : Nat) (s : State) : exec (.handlerEntry sheaf) s = execHandlerEntry sheaf s := rfl
@[simp] theorem exec_teamSwapOut (team : Nat) (s : State) : exec (.teamSwapOut team) s = execTeamSwapOut team s := rfl
@[simp] theorem exec_tresumeWrite (val : W64) (s : State) : exec (.tresumeWrite val) s = execTresumeWrite val s := rfl
@[simp] theorem exec_preemptRequest (team : Nat) (s : State) : exec (.preemptRequest team) s = execPreemptRequest team s := rfl
@[simp] theorem exec_saveRoutineStart (team : Nat) (s : State) : exec (.saveRoutineStart team) s = execSaveRoutineStart team s := rfl
@[simp] theorem exec_teamSuspend (team : Nat) (s : State) : exec (.teamSuspend team) s = execTeamSuspend team s := rfl
@[simp] theorem exec_teamPlace (team : Nat) (core : Nat) (s : State) : exec (.teamPlace team core) s = execTeamPlace team core s := rfl
@[simp] theorem exec_sheafEnd (sheaf : Nat) (s : State) : exec (.sheafEnd sheaf) s = execSheafEnd sheaf s := rfl
@[simp] theorem exec_teamEnd (team : Nat) (s : State) : exec (.teamEnd team) s = execTeamEnd team s := rfl
@[simp] theorem exec_doorbell (off : Nat) (size : Nat) (val : W64) (s : State) : exec (.doorbell off size val) s = execDoorbell off size val s := rfl
@[simp] theorem exec_qd0Write (q : Nat) (val : W64) (s : State) : exec (.qd0Write q val) s = execQd0Write q val s := rfl
@[simp] theorem exec_qd1Write (q : Nat) (val : W64) (s : State) : exec (.qd1Write q val) s = execQd1Write q val s := rfl
@[simp] theorem exec_kernelPkt (q : Nat) (s : State) : exec (.kernelPkt q) s = execKernelPkt q s := rfl
@[simp] theorem exec_waitPkt (q : Nat) (s : State) : exec (.waitPkt q) s = execWaitPkt q s := rfl
@[simp] theorem exec_waitPoll (q : Nat) (s : State) : exec (.waitPoll q) s = execWaitPoll q s := rfl
@[simp] theorem exec_signalPkt (q : Nat) (s : State) : exec (.signalPkt q) s = execSignalPkt q s := rfl
@[simp] theorem exec_childPacketRead (part : Nat) (s : State) : exec (.childPacketRead part) s = execChildPacketRead part s := rfl
@[simp] theorem exec_tlbicmd (val : W64) (s : State) : exec (.tlbicmd val) s = execTlbicmd val s := rfl
@[simp] theorem exec_tlbInvalidateDone (s : State) : exec .tlbInvalidateDone s = execTlbInvalidateDone s := rfl
@[simp] theorem exec_partcfg (val : W64) (s : State) : exec (.partcfg val) s = execPartcfg val s := rfl
@[simp] theorem exec_partsw (p : Nat) (val : W64) (s : State) : exec (.partsw p val) s = execPartsw p val s := rfl
@[simp] theorem exec_partitionSwitchDone (p : Nat) (s : State) : exec (.partitionSwitchDone p) s = execPartitionSwitchDone p s := rfl
@[simp] theorem exec_go (s : State) : exec .go s = execGo s := rfl
@[simp] theorem exec_reset (s : State) : exec .reset s = execReset s := rfl
@[simp] theorem exec_quiesce (s : State) : exec .quiesce s = execQuiesce s := rfl
@[simp] theorem exec_coldReset (s : State) : exec .coldReset s = execColdReset s := rfl
@[simp] theorem exec_bringupPhaseDone (absent : Byte) (fail : Byte) (s : State) : exec (.bringupPhaseDone absent fail) s = execBringupPhaseDone absent fail s := rfl
@[simp] theorem exec_registerWrite (off : Nat) (val : W64) (s : State) : exec (.registerWrite off val) s = execRegisterWrite off val s := rfl
@[simp] theorem exec_telemetryClear (k : Nat) (s : State) : exec (.telemetryClear k) s = execTelemetryClear k s := rfl
@[simp] theorem exec_pwrlim (val : W64) (s : State) : exec (.pwrlim val) s = execPwrlim val s := rfl
@[simp] theorem exec_powerControlTick (inst : Nat) (milli : Nat) (temp : Nat) (s : State) : exec (.powerControlTick inst milli temp) s = execPowerControlTick inst milli temp s := rfl
@[simp] theorem exec_portstat (p : Nat) (val : W64) (s : State) : exec (.portstat p val) s = execPortstat p val s := rfl
@[simp] theorem exec_keycmd (p : Nat) (val : W64) (s : State) : exec (.keycmd p val) s = execKeycmd p val s := rfl
@[simp] theorem exec_keySlotWrite (p : Nat) (rx : Bool) (idx : Nat) (word : Nat) (val : W64) (s : State) : exec (.keySlotWrite p rx idx word val) s = execKeySlotWrite p rx idx word val s := rfl
@[simp] theorem exec_flitReceive (p : FlitIn) (key : Nat) (crcOk : Bool) (tagOk : Bool) (s : State) : exec (.flitReceive p key crcOk tagOk) s = execFlitReceive p key crcOk tagOk s := rfl
@[simp] theorem exec_flitReplay (p : Nat) (s : State) : exec (.flitReplay p) s = execFlitReplay p s := rfl
@[simp] theorem exec_flitAck (p : Nat) (s : State) : exec (.flitAck p) s = execFlitAck p s := rfl
@[simp] theorem exec_laneFail (p : Nat) (lane : Nat) (s : State) : exec (.laneFail p lane) s = execLaneFail p lane s := rfl
@[simp] theorem exec_linkUp (p : LinkEnd) (s : State) : exec (.linkUp p) s = execLinkUp p s := rfl
@[simp] theorem exec_peerDepart (dev : Nat) (s : State) : exec (.peerDepart dev) s = execPeerDepart dev s := rfl
@[simp] theorem exec_peerArrive (dev : Arrival) (s : State) : exec (.peerArrive dev) s = execPeerArrive dev s := rfl
@[simp] theorem exec_peerRequest (pa : Nat) (req : PeerReq) (s : State) : exec (.peerRequest pa req) s = execPeerRequest pa req s := rfl
@[simp] theorem exec_redGroupApply (pa : Nat) (op : BitVec 3) (ty : Ty) (x : W64) (bnd : EB32) (s : State) : exec (.redGroupApply pa op ty x bnd) s = execRedGroupApply pa op ty x bnd s := rfl
@[simp] theorem exec_remoteTimeout (id : Nat) (s : State) : exec (.remoteTimeout id) s = execRemoteTimeout id s := rfl
@[simp] theorem exec_systemAccessTimeout (id : Nat) (s : State) : exec (.systemAccessTimeout id) s = execSystemAccessTimeout id s := rfl
@[simp] theorem exec_hostRead (pa : Nat) (size : Nat) (s : State) : exec (.hostRead pa size) s = execHostRead pa size s := rfl
@[simp] theorem exec_hostWrite (pa : Nat) (bytes : List Byte) (poison : Bool) (s : State) : exec (.hostWrite pa bytes poison) s = execHostWrite pa bytes poison s := rfl
@[simp] theorem exec_hostSnoop (pa : Nat) (s : State) : exec (.hostSnoop pa) s = execHostSnoop pa s := rfl
@[simp] theorem exec_backInvalidate (pa : Nat) (s : State) : exec (.backInvalidate pa) s = execBackInvalidate pa s := rfl
@[simp] theorem exec_softError (site : Nat) (a : Nat) (b : Nat) (c : Nat) (s : State) : exec (.softError site a b c) s = execSoftError site a b c s := rfl
@[simp] theorem exec_dieLoss (d : Nat) (s : State) : exec (.dieLoss d) s = execDieLoss d s := rfl
@[simp] theorem exec_lineEviction (key : Nat) (s : State) : exec (.lineEviction key) s = execLineEviction key s := rfl
@[simp] theorem exec_preemptionLimitExpire (team : Nat) (s : State) : exec (.preemptionLimitExpire team) s = execPreemptionLimitExpire team s := rfl

end Sys2Proof.Machine
end

