-- ==== Sys2Proof/Laws/Encoding.lean ====
section
/-! SUPPORT. The fields of a word and the word of the fields (R83, R84), and the round trips of the selectors (R88) and of the M conventions (R96). -/

namespace Sys2Proof

theorem Raw.ofWord_toWord (r : Raw) : Raw.ofWord r.toWord = r := by
  cases r
  unfold Raw.toWord Raw.ofWord
  simp only [Raw.mk.injEq]
  refine ⟨?_, ?_, ?_, ?_, ?_, ?_, ?_, ?_, ?_, ?_, ?_, ?_⟩
  all_goals first
    | (simp only [BitVec.getLsbD_append]; simp)
    | (apply BitVec.eq_of_getLsbD_eq; intro i hi
       simp only [BitVec.getLsbD_extractLsb', BitVec.getLsbD_append]
       interval_cases i <;> simp)

theorem Raw.toWord_ofWord (w : BitVec 96) : (Raw.ofWord w).toWord = w := by
  unfold Raw.toWord Raw.ofWord
  apply BitVec.eq_of_getLsbD_eq
  intro i hi
  simp only [BitVec.getLsbD_extractLsb', BitVec.getLsbD_append, BitVec.getLsbD_ofBool]
  interval_cases i <;> simp

/-- Every 10-bit value is read back from the selector it names, and that selector is canonical. -/
theorem Sel.bits_ofBits (r : BitVec 10) : (Sel.ofBits r).bits = r ∧ (Sel.ofBits r).canonical = true := by
  revert r; decide +kernel

theorem Sel.ofBits_bits (x : Sel) (h : x.canonical = true) : Sel.ofBits x.bits = x := by
  cases x with
  | v n => revert n; decide +kernel
  | s n => revert n; decide +kernel
  | l n => revert n; decide +kernel
  | q n => revert n; decide +kernel
  | c n => revert n; decide +kernel
  | p n => revert n; decide +kernel
  | imm => rfl
  | immF => rfl
  | special k => cases k <;> decide +kernel
  | rsv r =>
    have k : ∀ r : BitVec 10, (!selReserved r || decide (Sel.ofBits r = .rsv r)) = true := by decide +kernel
    have := k r
    have h' : selReserved r = true := h
    rw [h'] at this
    show Sel.ofBits r = .rsv r
    simpa using this

theorem IMod.bits_ofBits (m : BitVec 8) : (IMod.ofBits m).bits = m := by revert m; decide +kernel
theorem FMod.bits_ofBits (m : BitVec 8) : (FMod.ofBits m).bits = m := by revert m; decide +kernel
theorem MMod.bits_ofBits (m : BitVec 8) : (MMod.ofBits m).bits = m := by revert m; decide +kernel

theorem IMod.ofBits_bits (m : IMod) : IMod.ofBits m.bits = m := by
  obtain ⟨t, u, r⟩ := m
  revert u r
  cases t <;> decide +kernel
theorem FMod.ofBits_bits (m : FMod) : FMod.ofBits m.bits = m := by
  obtain ⟨t, u, r⟩ := m
  cases t <;> cases u <;> cases r <;> rfl
theorem MMod.ofBits_bits (m : MMod) : MMod.ofBits m.bits = m := by
  obtain ⟨a, t, u, r⟩ := m
  cases a <;> cases t <;> cases u <;> cases r <;> rfl

end Sys2Proof
end

