-- ==== Sys2Proof/Laws/Memory.lean ====
section
/-! SUPPORT. Bytes of memory: read after write, and the canonical form that every write keeps. -/

namespace Sys2Proof.Machine

theorem Memory.wfFrom_mono (m : Memory) {lo hi : Nat} (h : lo ≤ hi) (w : Memory.wfFrom hi m = true) :
    Memory.wfFrom lo m = true := by
  cases m with
  | nil => rfl
  | cons p r =>
    obtain ⟨a, x⟩ := p
    simp [Memory.wfFrom] at w ⊢
    exact ⟨⟨by omega, w.1.2⟩, w.2⟩

theorem Memory.get_below (m : Memory) (lo a : Nat) (w : Memory.wfFrom lo m = true) (h : a < lo) : Memory.get m a = 0 := by
  induction m generalizing lo with
  | nil => rfl
  | cons p r ih =>
    obtain ⟨b, x⟩ := p
    simp [Memory.wfFrom] at w
    have : ¬ b = a := by omega
    simp [Memory.get, this]
    exact ih (b + 1) w.2 (by omega)

theorem Memory.wfFrom_put (m : Memory) (a : Nat) (x : Byte) (lo : Nat) (w : Memory.wfFrom lo m = true) (h : lo ≤ a) :
    Memory.wfFrom lo (Memory.put m a x) = true := by
  induction m generalizing lo with
  | nil =>
    by_cases hx : x = 0#8
    · simp [Memory.put, hx, Memory.wfFrom]
    · simp [Memory.put, hx, Memory.wfFrom, h]
  | cons p r ih =>
    obtain ⟨b, y⟩ := p
    simp [Memory.wfFrom] at w
    by_cases h1 : a < b
    · by_cases hx : x = 0#8
      · simp [Memory.put, h1, hx, Memory.wfFrom, w]
      · simp [Memory.put, h1, hx, Memory.wfFrom, w, h]
    · by_cases h2 : a = b
      · subst h2
        by_cases hx : x = 0#8
        · simp [Memory.put, hx]
          exact Memory.wfFrom_mono r (by omega) w.2
        · simp [Memory.put, hx, Memory.wfFrom, w]
      · simp [Memory.put, h1, h2, Memory.wfFrom, w]
        exact ih (b + 1) w.2 (by omega)

/-- A byte written keeps the canonical form. -/
theorem Memory.wf_put (m : Memory) (a : Nat) (x : Byte) (w : Memory.wf m = true) : Memory.wf (Memory.put m a x) = true :=
  Memory.wfFrom_put m a x 0 w (Nat.zero_le a)

theorem Memory.wf_write (m : Memory) (a : Nat) (bs : List Byte) (w : Memory.wf m = true) :
    Memory.wf (Memory.write m a bs) = true := by
  induction bs generalizing m a with
  | nil => exact w
  | cons b r ih => exact ih _ _ (Memory.wf_put m a b w)

theorem Memory.wf_writeAt (m : Memory) (a : Nat) (bs : List (Nat × Byte)) (w : Memory.wf m = true) :
    Memory.wf (Memory.writeAt m a bs) = true := by
  unfold Memory.writeAt
  induction bs generalizing m with
  | nil => exact w
  | cons b r ih => exact ih _ (Memory.wf_put m _ b.2 w)

theorem Memory.get_put_from (m : Memory) (a b : Nat) (x : Byte) (lo : Nat) (w : Memory.wfFrom lo m = true) :
    Memory.get (Memory.put m a x) b = if b = a then x else Memory.get m b := by
  induction m generalizing lo with
  | nil =>
    by_cases hx : x = 0#8
    · simp [Memory.put, hx, Memory.get]
    · by_cases hb : b = a
      · simp [Memory.put, hx, Memory.get, hb]
      · have : ¬ a = b := fun e => hb e.symm
        simp [Memory.put, hx, Memory.get, hb, this]
  | cons p r ih =>
    obtain ⟨c, y⟩ := p
    simp [Memory.wfFrom] at w
    have tail : ∀ b, b ≤ c → Memory.get r b = 0 := fun b hb => Memory.get_below r (c + 1) b w.2 (by omega)
    by_cases h1 : a < c
    · by_cases hx : x = 0#8
      · simp only [Memory.put, h1, show (x = 0) = True from by simp [hx], if_true]
        by_cases hb : b = a
        · subst hb
          have hc : ¬ c = b := by omega
          rw [if_pos rfl]
          simp only [Memory.get, if_neg hc, hx]
          exact tail b (by omega)
        · simp [hb]
      · simp only [Memory.put, h1, show (x = 0) = False from by simp [hx], if_true, if_false]
        by_cases hb : b = a
        · simp [hb, Memory.get]
        · have : ¬ a = b := fun e => hb e.symm
          simp [hb, Memory.get, this]
    · by_cases h2 : a = c
      · subst h2
        by_cases hx : x = 0#8
        · simp [Memory.put, hx]
          by_cases hb : b = a
          · simp [hb, tail a (by omega)]
          · have : ¬ a = b := fun e => hb e.symm
            simp [hb, Memory.get, this]
        · by_cases hb : b = a
          · simp [Memory.put, hx, Memory.get, hb]
          · have : ¬ a = b := fun e => hb e.symm
            simp [Memory.put, hx, Memory.get, hb, this]
      · simp only [Memory.put, h1, h2, if_false]
        by_cases hcb : c = b
        · have : ¬ b = a := by omega
          simp [Memory.get, hcb, this]
        · simp only [Memory.get, hcb, if_false]
          exact ih (c + 1) w.2

/-- A read after a write of one byte. -/
theorem Memory.get_put (m : Memory) (a b : Nat) (x : Byte) (w : Memory.wf m = true) :
    Memory.get (Memory.put m a x) b = if b = a then x else Memory.get m b :=
  Memory.get_put_from m a b x 0 w

/-- A read after a write of several bytes: the byte written last there, or what stood there. -/
theorem Memory.get_write (m : Memory) (a b : Nat) (bs : List Byte) (w : Memory.wf m = true) :
    Memory.get (Memory.write m a bs) b = if a ≤ b ∧ b < a + bs.length then bs.getD (b - a) 0 else Memory.get m b := by
  induction bs generalizing m a with
  | nil =>
    have : ¬ (a ≤ b ∧ b < a + 0) := by omega
    simp [Memory.write]
  | cons x r ih =>
    rw [Memory.write, ih _ _ (Memory.wf_put m a x w), Memory.get_put m a b x w]
    by_cases hb : b = a
    · subst hb
      have h1 : ¬ (b + 1 ≤ b ∧ b < b + 1 + r.length) := by omega
      simp
    · by_cases h2 : a + 1 ≤ b ∧ b < a + 1 + r.length
      · have h3 : a ≤ b ∧ b < a + (x :: r).length := by simp; omega
        have e : b - a = (b - (a + 1)) + 1 := by omega
        rw [if_pos h2, if_pos h3, e]
        simp
      · have h3 : ¬ (a ≤ b ∧ b < a + (x :: r).length) := by simp; omega
        rw [if_neg h2, if_neg h3, if_neg hb]

/-- A read of several bytes, byte by byte. -/
theorem Memory.read_length (m : Memory) (a n : Nat) : (Memory.read m a n).length = n := by simp [Memory.read]

end Sys2Proof.Machine
end

