-- ==== Sys2Proof/Laws/PerInstr.lean ====
section
/-! SUPPORT. The round trip of the encoding, one lemma for each constructor of Instr. -/

namespace Sys2Proof

/-- An encoded instruction's word decodes to it, given that the opcode map names it. -/
theorem decode_of (opc : BitVec 8) (h : Hd) (o : Opn) (m : BitVec 8) (i : Instr) (hw : i.wf = true) (hc : o.canonical = true)
    (hi : Instr.ofOp opc h o m = some i) : decode (Raw.of opc h o m).toWord = .ok i := by
  unfold decode
  rw [Raw.ofWord_toWord]
  unfold Opn.canonical at hc
  simp only [Bool.and_eq_true] at hc
  have e : (Raw.of opc h o m).opn = o := by
    unfold Raw.opn Raw.of
    simp only [Sel.ofBits_bits _ hc.1.1.1, Sel.ofBits_bits _ hc.1.1.2, Sel.ofBits_bits _ hc.1.2, Sel.ofBits_bits _ hc.2]
  have e2 : (Raw.of opc h o m).hd = h := rfl
  simp only [e, e2]
  show (match Instr.ofOp opc h o m with | none => _ | some i => _) = _
  rw [hi]
  simp [hw, Raw.of]

end Sys2Proof

namespace Sys2Proof.Laws.RoundTrip

/-- The word of a well-formed instruction decodes to it. -/
def Statement (i : Instr) : Prop :=
  ∀ w : BitVec 96, i.wf = true → i.canonical = true → encode i = some w → decode w = .ok i

theorem nop (h : Hd) (o : Opn) (m : BitVec 8) : Statement (.nop h o m) := fun _ hw hc he =>
  Option.some.inj he ▸ decode_of _ h o _ _ hw hc rfl
theorem bra (h : Hd) (o : Opn) (m : BitVec 8) : Statement (.bra h o m) := fun _ hw hc he =>
  Option.some.inj he ▸ decode_of _ h o _ _ hw hc rfl
theorem jmp (h : Hd) (o : Opn) (m : BitVec 8) : Statement (.jmp h o m) := fun _ hw hc he =>
  Option.some.inj he ▸ decode_of _ h o _ _ hw hc rfl
theorem jmpr (h : Hd) (o : Opn) (m : BitVec 8) : Statement (.jmpr h o m) := fun _ hw hc he =>
  Option.some.inj he ▸ decode_of _ h o _ _ hw hc rfl
theorem call (h : Hd) (o : Opn) (m : BitVec 8) : Statement (.call h o m) := fun _ hw hc he =>
  Option.some.inj he ▸ decode_of _ h o _ _ hw hc rfl
theorem ret (h : Hd) (o : Opn) (m : BitVec 8) : Statement (.ret h o m) := fun _ hw hc he =>
  Option.some.inj he ▸ decode_of _ h o _ _ hw hc rfl
theorem exit (h : Hd) (o : Opn) (m : BitVec 8) : Statement (.exit h o m) := fun _ hw hc he =>
  Option.some.inj he ▸ decode_of _ h o _ _ hw hc rfl
theorem brd (h : Hd) (o : Opn) (m : BitVec 8) : Statement (.brd h o m) := fun _ hw hc he =>
  Option.some.inj he ▸ decode_of _ h o _ _ hw hc rfl
theorem safept (h : Hd) (o : Opn) (m : BitVec 8) : Statement (.safept h o m) := fun _ hw hc he =>
  Option.some.inj he ▸ decode_of _ h o _ _ hw hc rfl
theorem yield (h : Hd) (o : Opn) (m : BitVec 8) : Statement (.yield h o m) := fun _ hw hc he =>
  Option.some.inj he ▸ decode_of _ h o _ _ hw hc rfl
theorem cclose (h : Hd) (o : Opn) (m : BitVec 8) : Statement (.cclose h o m) := fun _ hw hc he =>
  Option.some.inj he ▸ decode_of _ h o _ _ hw hc rfl
theorem iadd (h : Hd) (o : Opn) (m : IMod) : Statement (.iadd h o m) := fun _ hw hc he =>
  Option.some.inj he ▸ decode_of _ h o _ _ hw hc (congrArg (fun m => some (Instr.iadd h o m)) (IMod.ofBits_bits m))
theorem isub (h : Hd) (o : Opn) (m : IMod) : Statement (.isub h o m) := fun _ hw hc he =>
  Option.some.inj he ▸ decode_of _ h o _ _ hw hc (congrArg (fun m => some (Instr.isub h o m)) (IMod.ofBits_bits m))
theorem imul (h : Hd) (o : Opn) (m : IMod) : Statement (.imul h o m) := fun _ hw hc he =>
  Option.some.inj he ▸ decode_of _ h o _ _ hw hc (congrArg (fun m => some (Instr.imul h o m)) (IMod.ofBits_bits m))
theorem imulh (h : Hd) (o : Opn) (m : IMod) : Statement (.imulh h o m) := fun _ hw hc he =>
  Option.some.inj he ▸ decode_of _ h o _ _ hw hc (congrArg (fun m => some (Instr.imulh h o m)) (IMod.ofBits_bits m))
theorem imad (h : Hd) (o : Opn) (m : IMod) : Statement (.imad h o m) := fun _ hw hc he =>
  Option.some.inj he ▸ decode_of _ h o _ _ hw hc (congrArg (fun m => some (Instr.imad h o m)) (IMod.ofBits_bits m))
theorem imin (h : Hd) (o : Opn) (m : IMod) : Statement (.imin h o m) := fun _ hw hc he =>
  Option.some.inj he ▸ decode_of _ h o _ _ hw hc (congrArg (fun m => some (Instr.imin h o m)) (IMod.ofBits_bits m))
theorem imax (h : Hd) (o : Opn) (m : IMod) : Statement (.imax h o m) := fun _ hw hc he =>
  Option.some.inj he ▸ decode_of _ h o _ _ hw hc (congrArg (fun m => some (Instr.imax h o m)) (IMod.ofBits_bits m))
theorem iabs (h : Hd) (o : Opn) (m : IMod) : Statement (.iabs h o m) := fun _ hw hc he =>
  Option.some.inj he ▸ decode_of _ h o _ _ hw hc (congrArg (fun m => some (Instr.iabs h o m)) (IMod.ofBits_bits m))
theorem bitAnd (h : Hd) (o : Opn) (m : IMod) : Statement (.bitAnd h o m) := fun _ hw hc he =>
  Option.some.inj he ▸ decode_of _ h o _ _ hw hc (congrArg (fun m => some (Instr.bitAnd h o m)) (IMod.ofBits_bits m))
theorem bitOr (h : Hd) (o : Opn) (m : IMod) : Statement (.bitOr h o m) := fun _ hw hc he =>
  Option.some.inj he ▸ decode_of _ h o _ _ hw hc (congrArg (fun m => some (Instr.bitOr h o m)) (IMod.ofBits_bits m))
theorem bitXor (h : Hd) (o : Opn) (m : IMod) : Statement (.bitXor h o m) := fun _ hw hc he =>
  Option.some.inj he ▸ decode_of _ h o _ _ hw hc (congrArg (fun m => some (Instr.bitXor h o m)) (IMod.ofBits_bits m))
theorem bitNot (h : Hd) (o : Opn) (m : IMod) : Statement (.bitNot h o m) := fun _ hw hc he =>
  Option.some.inj he ▸ decode_of _ h o _ _ hw hc (congrArg (fun m => some (Instr.bitNot h o m)) (IMod.ofBits_bits m))
theorem shl (h : Hd) (o : Opn) (m : IMod) : Statement (.shl h o m) := fun _ hw hc he =>
  Option.some.inj he ▸ decode_of _ h o _ _ hw hc (congrArg (fun m => some (Instr.shl h o m)) (IMod.ofBits_bits m))
theorem shr (h : Hd) (o : Opn) (m : IMod) : Statement (.shr h o m) := fun _ hw hc he =>
  Option.some.inj he ▸ decode_of _ h o _ _ hw hc (congrArg (fun m => some (Instr.shr h o m)) (IMod.ofBits_bits m))
theorem sar (h : Hd) (o : Opn) (m : IMod) : Statement (.sar h o m) := fun _ hw hc he =>
  Option.some.inj he ▸ decode_of _ h o _ _ hw hc (congrArg (fun m => some (Instr.sar h o m)) (IMod.ofBits_bits m))
theorem bfe (h : Hd) (o : Opn) (m : IMod) : Statement (.bfe h o m) := fun _ hw hc he =>
  Option.some.inj he ▸ decode_of _ h o _ _ hw hc (congrArg (fun m => some (Instr.bfe h o m)) (IMod.ofBits_bits m))
theorem bfi (h : Hd) (o : Opn) (m : IMod) : Statement (.bfi h o m) := fun _ hw hc he =>
  Option.some.inj he ▸ decode_of _ h o _ _ hw hc (congrArg (fun m => some (Instr.bfi h o m)) (IMod.ofBits_bits m))
theorem popc (h : Hd) (o : Opn) (m : IMod) : Statement (.popc h o m) := fun _ hw hc he =>
  Option.some.inj he ▸ decode_of _ h o _ _ hw hc (congrArg (fun m => some (Instr.popc h o m)) (IMod.ofBits_bits m))
theorem clz (h : Hd) (o : Opn) (m : IMod) : Statement (.clz h o m) := fun _ hw hc he =>
  Option.some.inj he ▸ decode_of _ h o _ _ hw hc (congrArg (fun m => some (Instr.clz h o m)) (IMod.ofBits_bits m))
theorem brev (h : Hd) (o : Opn) (m : IMod) : Statement (.brev h o m) := fun _ hw hc he =>
  Option.some.inj he ▸ decode_of _ h o _ _ hw hc (congrArg (fun m => some (Instr.brev h o m)) (IMod.ofBits_bits m))
theorem isetp (h : Hd) (o : Opn) (m : IMod) : Statement (.isetp h o m) := fun _ hw hc he =>
  Option.some.inj he ▸ decode_of _ h o _ _ hw hc (congrArg (fun m => some (Instr.isetp h o m)) (IMod.ofBits_bits m))
theorem sel (h : Hd) (o : Opn) (m : IMod) : Statement (.sel h o m) := fun _ hw hc he =>
  Option.some.inj he ▸ decode_of _ h o _ _ hw hc (congrArg (fun m => some (Instr.sel h o m)) (IMod.ofBits_bits m))
theorem mov (h : Hd) (o : Opn) (m : IMod) : Statement (.mov h o m) := fun _ hw hc he =>
  Option.some.inj he ▸ decode_of _ h o _ _ hw hc (congrArg (fun m => some (Instr.mov h o m)) (IMod.ofBits_bits m))
theorem movi (h : Hd) (o : Opn) (m : IMod) : Statement (.movi h o m) := fun _ hw hc he =>
  Option.some.inj he ▸ decode_of _ h o _ _ hw hc (congrArg (fun m => some (Instr.movi h o m)) (IMod.ofBits_bits m))
theorem lea (h : Hd) (o : Opn) (m : IMod) : Statement (.lea h o m) := fun _ hw hc he =>
  Option.some.inj he ▸ decode_of _ h o _ _ hw hc (congrArg (fun m => some (Instr.lea h o m)) (IMod.ofBits_bits m))
theorem plop (h : Hd) (o : Opn) (m : BitVec 8) : Statement (.plop h o m) := fun _ hw hc he =>
  Option.some.inj he ▸ decode_of _ h o _ _ hw hc rfl
theorem pmov (h : Hd) (o : Opn) (m : BitVec 8) : Statement (.pmov h o m) := fun _ hw hc he =>
  Option.some.inj he ▸ decode_of _ h o _ _ hw hc rfl
theorem vote (h : Hd) (o : Opn) (m : BitVec 8) : Statement (.vote h o m) := fun _ hw hc he =>
  Option.some.inj he ▸ decode_of _ h o _ _ hw hc rfl
theorem shfl (h : Hd) (o : Opn) (m : BitVec 8) : Statement (.shfl h o m) := fun _ hw hc he =>
  Option.some.inj he ▸ decode_of _ h o _ _ hw hc rfl
theorem rdlane (h : Hd) (o : Opn) (m : BitVec 8) : Statement (.rdlane h o m) := fun _ hw hc he =>
  Option.some.inj he ▸ decode_of _ h o _ _ hw hc rfl
theorem wrlane (h : Hd) (o : Opn) (m : BitVec 8) : Statement (.wrlane h o m) := fun _ hw hc he =>
  Option.some.inj he ▸ decode_of _ h o _ _ hw hc rfl
theorem sredux (h : Hd) (o : Opn) (m : BitVec 8) : Statement (.sredux h o m) := fun _ hw hc he =>
  Option.some.inj he ▸ decode_of _ h o _ _ hw hc rfl
theorem matchLanes (h : Hd) (o : Opn) (m : BitVec 8) : Statement (.matchLanes h o m) := fun _ hw hc he =>
  Option.some.inj he ▸ decode_of _ h o _ _ hw hc rfl
theorem fadd (h : Hd) (o : Opn) (m : FMod) : Statement (.fadd h o m) := fun _ hw hc he =>
  Option.some.inj he ▸ decode_of _ h o _ _ hw hc (congrArg (fun m => some (Instr.fadd h o m)) (FMod.ofBits_bits m))
theorem fsub (h : Hd) (o : Opn) (m : FMod) : Statement (.fsub h o m) := fun _ hw hc he =>
  Option.some.inj he ▸ decode_of _ h o _ _ hw hc (congrArg (fun m => some (Instr.fsub h o m)) (FMod.ofBits_bits m))
theorem fmul (h : Hd) (o : Opn) (m : FMod) : Statement (.fmul h o m) := fun _ hw hc he =>
  Option.some.inj he ▸ decode_of _ h o _ _ hw hc (congrArg (fun m => some (Instr.fmul h o m)) (FMod.ofBits_bits m))
theorem ffma (h : Hd) (o : Opn) (m : FMod) : Statement (.ffma h o m) := fun _ hw hc he =>
  Option.some.inj he ▸ decode_of _ h o _ _ hw hc (congrArg (fun m => some (Instr.ffma h o m)) (FMod.ofBits_bits m))
theorem fmin (h : Hd) (o : Opn) (m : FMod) : Statement (.fmin h o m) := fun _ hw hc he =>
  Option.some.inj he ▸ decode_of _ h o _ _ hw hc (congrArg (fun m => some (Instr.fmin h o m)) (FMod.ofBits_bits m))
theorem fmax (h : Hd) (o : Opn) (m : FMod) : Statement (.fmax h o m) := fun _ hw hc he =>
  Option.some.inj he ▸ decode_of _ h o _ _ hw hc (congrArg (fun m => some (Instr.fmax h o m)) (FMod.ofBits_bits m))
theorem fsetp (h : Hd) (o : Opn) (m : FMod) : Statement (.fsetp h o m) := fun _ hw hc he =>
  Option.some.inj he ▸ decode_of _ h o _ _ hw hc (congrArg (fun m => some (Instr.fsetp h o m)) (FMod.ofBits_bits m))
theorem fclass (h : Hd) (o : Opn) (m : FMod) : Statement (.fclass h o m) := fun _ hw hc he =>
  Option.some.inj he ▸ decode_of _ h o _ _ hw hc (congrArg (fun m => some (Instr.fclass h o m)) (FMod.ofBits_bits m))
theorem frcp (h : Hd) (o : Opn) (m : FMod) : Statement (.frcp h o m) := fun _ hw hc he =>
  Option.some.inj he ▸ decode_of _ h o _ _ hw hc (congrArg (fun m => some (Instr.frcp h o m)) (FMod.ofBits_bits m))
theorem frsq (h : Hd) (o : Opn) (m : FMod) : Statement (.frsq h o m) := fun _ hw hc he =>
  Option.some.inj he ▸ decode_of _ h o _ _ hw hc (congrArg (fun m => some (Instr.frsq h o m)) (FMod.ofBits_bits m))
theorem fsqrt (h : Hd) (o : Opn) (m : FMod) : Statement (.fsqrt h o m) := fun _ hw hc he =>
  Option.some.inj he ▸ decode_of _ h o _ _ hw hc (congrArg (fun m => some (Instr.fsqrt h o m)) (FMod.ofBits_bits m))
theorem fdiv (h : Hd) (o : Opn) (m : FMod) : Statement (.fdiv h o m) := fun _ hw hc he =>
  Option.some.inj he ▸ decode_of _ h o _ _ hw hc (congrArg (fun m => some (Instr.fdiv h o m)) (FMod.ofBits_bits m))
theorem fexp2 (h : Hd) (o : Opn) (m : FMod) : Statement (.fexp2 h o m) := fun _ hw hc he =>
  Option.some.inj he ▸ decode_of _ h o _ _ hw hc (congrArg (fun m => some (Instr.fexp2 h o m)) (FMod.ofBits_bits m))
theorem flog2 (h : Hd) (o : Opn) (m : FMod) : Statement (.flog2 h o m) := fun _ hw hc he =>
  Option.some.inj he ▸ decode_of _ h o _ _ hw hc (congrArg (fun m => some (Instr.flog2 h o m)) (FMod.ofBits_bits m))
theorem fsinpi (h : Hd) (o : Opn) (m : FMod) : Statement (.fsinpi h o m) := fun _ hw hc he =>
  Option.some.inj he ▸ decode_of _ h o _ _ hw hc (congrArg (fun m => some (Instr.fsinpi h o m)) (FMod.ofBits_bits m))
theorem fcospi (h : Hd) (o : Opn) (m : FMod) : Statement (.fcospi h o m) := fun _ hw hc he =>
  Option.some.inj he ▸ decode_of _ h o _ _ hw hc (congrArg (fun m => some (Instr.fcospi h o m)) (FMod.ofBits_bits m))
theorem cvt (h : Hd) (o : Opn) (m : FMod) : Statement (.cvt h o m) := fun _ hw hc he =>
  Option.some.inj he ▸ decode_of _ h o _ _ hw hc (congrArg (fun m => some (Instr.cvt h o m)) (FMod.ofBits_bits m))
theorem cvtq (h : Hd) (o : Opn) (m : FMod) : Statement (.cvtq h o m) := fun _ hw hc he =>
  Option.some.inj he ▸ decode_of _ h o _ _ hw hc (congrArg (fun m => some (Instr.cvtq h o m)) (FMod.ofBits_bits m))
theorem pack (h : Hd) (o : Opn) (m : FMod) : Statement (.pack h o m) := fun _ hw hc he =>
  Option.some.inj he ▸ decode_of _ h o _ _ hw hc (congrArg (fun m => some (Instr.pack h o m)) (FMod.ofBits_bits m))
theorem unpk (h : Hd) (o : Opn) (m : FMod) : Statement (.unpk h o m) := fun _ hw hc he =>
  Option.some.inj he ▸ decode_of _ h o _ _ hw hc (congrArg (fun m => some (Instr.unpk h o m)) (FMod.ofBits_bits m))
theorem qdeq (h : Hd) (o : Opn) (m : FMod) : Statement (.qdeq h o m) := fun _ hw hc he =>
  Option.some.inj he ▸ decode_of _ h o _ _ hw hc (congrArg (fun m => some (Instr.qdeq h o m)) (FMod.ofBits_bits m))
theorem dot2 (h : Hd) (o : Opn) (m : FMod) : Statement (.dot2 h o m) := fun _ hw hc he =>
  Option.some.inj he ▸ decode_of _ h o _ _ hw hc (congrArg (fun m => some (Instr.dot2 h o m)) (FMod.ofBits_bits m))
theorem dot4 (h : Hd) (o : Opn) (m : FMod) : Statement (.dot4 h o m) := fun _ hw hc he =>
  Option.some.inj he ▸ decode_of _ h o _ _ hw hc (congrArg (fun m => some (Instr.dot4 h o m)) (FMod.ofBits_bits m))
theorem f6join (h : Hd) (o : Opn) (m : FMod) : Statement (.f6join h o m) := fun _ hw hc he =>
  Option.some.inj he ▸ decode_of _ h o _ _ hw hc (congrArg (fun m => some (Instr.f6join h o m)) (FMod.ofBits_bits m))
theorem frnd (h : Hd) (o : Opn) (m : FMod) : Statement (.frnd h o m) := fun _ hw hc he =>
  Option.some.inj he ▸ decode_of _ h o _ _ hw hc (congrArg (fun m => some (Instr.frnd h o m)) (FMod.ofBits_bits m))
theorem fscl (h : Hd) (o : Opn) (m : FMod) : Statement (.fscl h o m) := fun _ hw hc he =>
  Option.some.inj he ▸ decode_of _ h o _ _ hw hc (congrArg (fun m => some (Instr.fscl h o m)) (FMod.ofBits_bits m))
theorem bget (h : Hd) (o : Opn) (m : BitVec 8) : Statement (.bget h o m) := fun _ hw hc he =>
  Option.some.inj he ▸ decode_of _ h o _ _ hw hc rfl
theorem bset (h : Hd) (o : Opn) (m : BitVec 8) : Statement (.bset h o m) := fun _ hw hc he =>
  Option.some.inj he ▸ decode_of _ h o _ _ hw hc rfl
theorem badd (h : Hd) (o : Opn) (m : BitVec 8) : Statement (.badd h o m) := fun _ hw hc he =>
  Option.some.inj he ▸ decode_of _ h o _ _ hw hc rfl
theorem bmax (h : Hd) (o : Opn) (m : BitVec 8) : Statement (.bmax h o m) := fun _ hw hc he =>
  Option.some.inj he ▸ decode_of _ h o _ _ hw hc rfl
theorem bchk (h : Hd) (o : Opn) (m : BitVec 8) : Statement (.bchk h o m) := fun _ hw hc he =>
  Option.some.inj he ▸ decode_of _ h o _ _ hw hc rfl
theorem bclr (h : Hd) (o : Opn) (m : BitVec 8) : Statement (.bclr h o m) := fun _ hw hc he =>
  Option.some.inj he ▸ decode_of _ h o _ _ hw hc rfl
theorem bmode (h : Hd) (o : Opn) (m : BitVec 8) : Statement (.bmode h o m) := fun _ hw hc he =>
  Option.some.inj he ▸ decode_of _ h o _ _ hw hc rfl
theorem ld (h : Hd) (o : Opn) (m : MMod) : Statement (.ld h o m) := fun _ hw hc he =>
  Option.some.inj he ▸ decode_of _ h o _ _ hw hc (congrArg (fun m => some (Instr.ld h o m)) (MMod.ofBits_bits m))
theorem st (h : Hd) (o : Opn) (m : MMod) : Statement (.st h o m) := fun _ hw hc he =>
  Option.some.inj he ▸ decode_of _ h o _ _ hw hc (congrArg (fun m => some (Instr.st h o m)) (MMod.ofBits_bits m))
theorem lds (h : Hd) (o : Opn) (m : MMod) : Statement (.lds h o m) := fun _ hw hc he =>
  Option.some.inj he ▸ decode_of _ h o _ _ hw hc (congrArg (fun m => some (Instr.lds h o m)) (MMod.ofBits_bits m))
theorem sts (h : Hd) (o : Opn) (m : MMod) : Statement (.sts h o m) := fun _ hw hc he =>
  Option.some.inj he ▸ decode_of _ h o _ _ hw hc (congrArg (fun m => some (Instr.sts h o m)) (MMod.ofBits_bits m))
theorem ldf (h : Hd) (o : Opn) (m : MMod) : Statement (.ldf h o m) := fun _ hw hc he =>
  Option.some.inj he ▸ decode_of _ h o _ _ hw hc (congrArg (fun m => some (Instr.ldf h o m)) (MMod.ofBits_bits m))
theorem ste (h : Hd) (o : Opn) (m : MMod) : Statement (.ste h o m) := fun _ hw hc he =>
  Option.some.inj he ▸ decode_of _ h o _ _ hw hc (congrArg (fun m => some (Instr.ste h o m)) (MMod.ofBits_bits m))
theorem feset (h : Hd) (o : Opn) (m : MMod) : Statement (.feset h o m) := fun _ hw hc he =>
  Option.some.inj he ▸ decode_of _ h o _ _ hw hc (congrArg (fun m => some (Instr.feset h o m)) (MMod.ofBits_bits m))
theorem ldk (h : Hd) (o : Opn) (m : MMod) : Statement (.ldk h o m) := fun _ hw hc he =>
  Option.some.inj he ▸ decode_of _ h o _ _ hw hc (congrArg (fun m => some (Instr.ldk h o m)) (MMod.ofBits_bits m))
theorem pref (h : Hd) (o : Opn) (m : MMod) : Statement (.pref h o m) := fun _ hw hc he =>
  Option.some.inj he ▸ decode_of _ h o _ _ hw hc (congrArg (fun m => some (Instr.pref h o m)) (MMod.ofBits_bits m))
theorem atom (h : Hd) (o : Opn) (m : MMod) : Statement (.atom h o m) := fun _ hw hc he =>
  Option.some.inj he ▸ decode_of _ h o _ _ hw hc (congrArg (fun m => some (Instr.atom h o m)) (MMod.ofBits_bits m))
theorem cas (h : Hd) (o : Opn) (m : MMod) : Statement (.cas h o m) := fun _ hw hc he =>
  Option.some.inj he ▸ decode_of _ h o _ _ hw hc (congrArg (fun m => some (Instr.cas h o m)) (MMod.ofBits_bits m))
theorem red (h : Hd) (o : Opn) (m : MMod) : Statement (.red h o m) := fun _ hw hc he =>
  Option.some.inj he ▸ decode_of _ h o _ _ hw hc (congrArg (fun m => some (Instr.red h o m)) (MMod.ofBits_bits m))
theorem fence (h : Hd) (o : Opn) (m : MMod) : Statement (.fence h o m) := fun _ hw hc he =>
  Option.some.inj he ▸ decode_of _ h o _ _ hw hc (congrArg (fun m => some (Instr.fence h o m)) (MMod.ofBits_bits m))
theorem sealRegion (h : Hd) (o : Opn) (m : MMod) : Statement (.sealRegion h o m) := fun _ hw hc he =>
  Option.some.inj he ▸ decode_of _ h o _ _ hw hc (congrArg (fun m => some (Instr.sealRegion h o m)) (MMod.ofBits_bits m))
theorem unsealRegion (h : Hd) (o : Opn) (m : MMod) : Statement (.unsealRegion h o m) := fun _ hw hc he =>
  Option.some.inj he ▸ decode_of _ h o _ _ hw hc (congrArg (fun m => some (Instr.unsealRegion h o m)) (MMod.ofBits_bits m))
theorem hint (h : Hd) (o : Opn) (m : MMod) : Statement (.hint h o m) := fun _ hw hc he =>
  Option.some.inj he ▸ decode_of _ h o _ _ hw hc (congrArg (fun m => some (Instr.hint h o m)) (MMod.ofBits_bits m))
theorem waita (h : Hd) (o : Opn) (m : MMod) : Statement (.waita h o m) := fun _ hw hc he =>
  Option.some.inj he ▸ decode_of _ h o _ _ hw hc (congrArg (fun m => some (Instr.waita h o m)) (MMod.ofBits_bits m))
theorem bari (h : Hd) (o : Opn) (m : BitVec 8) : Statement (.bari h o m) := fun _ hw hc he =>
  Option.some.inj he ▸ decode_of _ h o _ _ hw hc rfl
theorem bara (h : Hd) (o : Opn) (m : BitVec 8) : Statement (.bara h o m) := fun _ hw hc he =>
  Option.some.inj he ▸ decode_of _ h o _ _ hw hc rfl
theorem barw (h : Hd) (o : Opn) (m : BitVec 8) : Statement (.barw h o m) := fun _ hw hc he =>
  Option.some.inj he ▸ decode_of _ h o _ _ hw hc rfl
theorem barq (h : Hd) (o : Opn) (m : BitVec 8) : Statement (.barq h o m) := fun _ hw hc he =>
  Option.some.inj he ▸ decode_of _ h o _ _ hw hc rfl
theorem xacq (h : Hd) (o : Opn) (m : BitVec 8) : Statement (.xacq h o m) := fun _ hw hc he =>
  Option.some.inj he ▸ decode_of _ h o _ _ hw hc rfl
theorem xrel (h : Hd) (o : Opn) (m : BitVec 8) : Statement (.xrel h o m) := fun _ hw hc he =>
  Option.some.inj he ▸ decode_of _ h o _ _ hw hc rfl
theorem lnch (h : Hd) (o : Opn) (m : BitVec 8) : Statement (.lnch h o m) := fun _ hw hc he =>
  Option.some.inj he ▸ decode_of _ h o _ _ hw hc rfl
theorem qbind (h : Hd) (o : Opn) (m : BitVec 8) : Statement (.qbind h o m) := fun _ hw hc he =>
  Option.some.inj he ▸ decode_of _ h o _ _ hw hc rfl
theorem qstat (h : Hd) (o : Opn) (m : BitVec 8) : Statement (.qstat h o m) := fun _ hw hc he =>
  Option.some.inj he ▸ decode_of _ h o _ _ hw hc rfl
theorem mma (h : Hd) (o : Opn) (m : BitVec 8) : Statement (.mma h o m) := fun _ hw hc he =>
  Option.some.inj he ▸ decode_of _ h o _ _ hw hc rfl
theorem mzero (h : Hd) (o : Opn) (m : BitVec 8) : Statement (.mzero h o m) := fun _ hw hc he =>
  Option.some.inj he ▸ decode_of _ h o _ _ hw hc rfl
theorem mload (h : Hd) (o : Opn) (m : BitVec 8) : Statement (.mload h o m) := fun _ hw hc he =>
  Option.some.inj he ▸ decode_of _ h o _ _ hw hc rfl
theorem mdrain (h : Hd) (o : Opn) (m : BitVec 8) : Statement (.mdrain h o m) := fun _ hw hc he =>
  Option.some.inj he ▸ decode_of _ h o _ _ hw hc rfl
theorem gath (h : Hd) (o : Opn) (m : BitVec 8) : Statement (.gath h o m) := fun _ hw hc he =>
  Option.some.inj he ▸ decode_of _ h o _ _ hw hc rfl
theorem spcmp (h : Hd) (o : Opn) (m : BitVec 8) : Statement (.spcmp h o m) := fun _ hw hc he =>
  Option.some.inj he ▸ decode_of _ h o _ _ hw hc rfl
theorem cpy (h : Hd) (o : Opn) (m : BitVec 8) : Statement (.cpy h o m) := fun _ hw hc he =>
  Option.some.inj he ▸ decode_of _ h o _ _ hw hc rfl
theorem cpym (h : Hd) (o : Opn) (m : BitVec 8) : Statement (.cpym h o m) := fun _ hw hc he =>
  Option.some.inj he ▸ decode_of _ h o _ _ hw hc rfl
theorem wtc (h : Hd) (o : Opn) (m : BitVec 8) : Statement (.wtc h o m) := fun _ hw hc he =>
  Option.some.inj he ▸ decode_of _ h o _ _ hw hc rfl
theorem wto (h : Hd) (o : Opn) (m : BitVec 8) : Statement (.wto h o m) := fun _ hw hc he =>
  Option.some.inj he ▸ decode_of _ h o _ _ hw hc rfl
theorem trap (h : Hd) (o : Opn) (m : BitVec 8) : Statement (.trap h o m) := fun _ hw hc he =>
  Option.some.inj he ▸ decode_of _ h o _ _ hw hc rfl
theorem eret (h : Hd) (o : Opn) (m : BitVec 8) : Statement (.eret h o m) := fun _ hw hc he =>
  Option.some.inj he ▸ decode_of _ h o _ _ hw hc rfl
theorem srd (h : Hd) (o : Opn) (m : BitVec 8) : Statement (.srd h o m) := fun _ hw hc he =>
  Option.some.inj he ▸ decode_of _ h o _ _ hw hc rfl
theorem swr (h : Hd) (o : Opn) (m : BitVec 8) : Statement (.swr h o m) := fun _ hw hc he =>
  Option.some.inj he ▸ decode_of _ h o _ _ hw hc rfl
theorem clk (h : Hd) (o : Opn) (m : BitVec 8) : Statement (.clk h o m) := fun _ hw hc he =>
  Option.some.inj he ▸ decode_of _ h o _ _ hw hc rfl
theorem bkpt (h : Hd) (o : Opn) (m : BitVec 8) : Statement (.bkpt h o m) := fun _ hw hc he =>
  Option.some.inj he ▸ decode_of _ h o _ _ hw hc rfl
theorem sleep (h : Hd) (o : Opn) (m : BitVec 8) : Statement (.sleep h o m) := fun _ hw hc he =>
  Option.some.inj he ▸ decode_of _ h o _ _ hw hc rfl
theorem quadrantIssue (core : Nat) (quad : Nat) : Statement (.quadrantIssue core quad) := fun _ _ _ he => nomatch he
theorem nwLockExpire (core : Nat) (quad : Nat) : Statement (.nwLockExpire core quad) := fun _ _ _ he => nomatch he
theorem lineRefetch (core : Nat) (line : Nat) : Statement (.lineRefetch core line) := fun _ _ _ he => nomatch he
theorem pageWalk (ctx : Nat) (va : Nat) : Statement (.pageWalk ctx va) := fun _ _ _ he => nomatch he
theorem commitRound : Statement .commitRound := fun _ _ _ he => nomatch he
theorem priorityTokenTake (sheaf : Nat) : Statement (.priorityTokenTake sheaf) := fun _ _ _ he => nomatch he
theorem boundaryPerform (sheaf : Nat) : Statement (.boundaryPerform sheaf) := fun _ _ _ he => nomatch he
theorem podRelease (sheaf : Nat) : Statement (.podRelease sheaf) := fun _ _ _ he => nomatch he
theorem accessCompletion (id : Nat) : Statement (.accessCompletion id) := fun _ _ _ he => nomatch he
theorem ldfComplete (sheaf : Nat) (lane : Nat) : Statement (.ldfComplete sheaf lane) := fun _ _ _ he => nomatch he
theorem steComplete (sheaf : Nat) (lane : Nat) : Statement (.steComplete sheaf lane) := fun _ _ _ he => nomatch he
theorem waitaComplete (sheaf : Nat) (lane : Nat) : Statement (.waitaComplete sheaf lane) := fun _ _ _ he => nomatch he
theorem waitaPoll (sheaf : Nat) : Statement (.waitaPoll sheaf) := fun _ _ _ he => nomatch he
theorem xacqGrant (team : Nat) (quad : Nat) : Statement (.xacqGrant team quad) := fun _ _ _ he => nomatch he
theorem counterWaitWake (sheaf : Nat) : Statement (.counterWaitWake sheaf) := fun _ _ _ he => nomatch he
theorem queuePopWake (sheaf : Nat) : Statement (.queuePopWake sheaf) := fun _ _ _ he => nomatch he
theorem sleepExpire (sheaf : Nat) (lane : Nat) : Statement (.sleepExpire sheaf lane) := fun _ _ _ he => nomatch he
theorem yieldExpire (sheaf : Nat) : Statement (.yieldExpire sheaf) := fun _ _ _ he => nomatch he
theorem mmaPerform (team : Nat) (cmd : Nat) : Statement (.mmaPerform team cmd) := fun _ _ _ he => nomatch he
theorem tileFillPerform (team : Nat) (cmd : Nat) : Statement (.tileFillPerform team cmd) := fun _ _ _ he => nomatch he
theorem mdrainPerform (team : Nat) (cmd : Nat) : Statement (.mdrainPerform team cmd) := fun _ _ _ he => nomatch he
theorem engineQueuePush (team : Nat) (cmd : Nat) : Statement (.engineQueuePush team cmd) := fun _ _ _ he => nomatch he
theorem copyPerform (team : Nat) (cmd : Nat) : Statement (.copyPerform team cmd) := fun _ _ _ he => nomatch he
theorem cpymMmaIssue (team : Nat) (cmd : Nat) : Statement (.cpymMmaIssue team cmd) := fun _ _ _ he => nomatch he
theorem gatherPerform (team : Nat) (cmd : Nat) : Statement (.gatherPerform team cmd) := fun _ _ _ he => nomatch he
theorem handlerEntry (sheaf : Nat) : Statement (.handlerEntry sheaf) := fun _ _ _ he => nomatch he
theorem teamSwapOut (team : Nat) : Statement (.teamSwapOut team) := fun _ _ _ he => nomatch he
theorem tresumeWrite (val : W64) : Statement (.tresumeWrite val) := fun _ _ _ he => nomatch he
theorem preemptRequest (team : Nat) : Statement (.preemptRequest team) := fun _ _ _ he => nomatch he
theorem saveRoutineStart (team : Nat) : Statement (.saveRoutineStart team) := fun _ _ _ he => nomatch he
theorem teamSuspend (team : Nat) : Statement (.teamSuspend team) := fun _ _ _ he => nomatch he
theorem teamPlace (team : Nat) (core : Nat) : Statement (.teamPlace team core) := fun _ _ _ he => nomatch he
theorem sheafEnd (sheaf : Nat) : Statement (.sheafEnd sheaf) := fun _ _ _ he => nomatch he
theorem teamEnd (team : Nat) : Statement (.teamEnd team) := fun _ _ _ he => nomatch he
theorem doorbell (off : Nat) (size : Nat) (val : W64) : Statement (.doorbell off size val) := fun _ _ _ he => nomatch he
theorem qd0Write (q : Nat) (val : W64) : Statement (.qd0Write q val) := fun _ _ _ he => nomatch he
theorem qd1Write (q : Nat) (val : W64) : Statement (.qd1Write q val) := fun _ _ _ he => nomatch he
theorem kernelPkt (q : Nat) : Statement (.kernelPkt q) := fun _ _ _ he => nomatch he
theorem waitPkt (q : Nat) : Statement (.waitPkt q) := fun _ _ _ he => nomatch he
theorem waitPoll (q : Nat) : Statement (.waitPoll q) := fun _ _ _ he => nomatch he
theorem signalPkt (q : Nat) : Statement (.signalPkt q) := fun _ _ _ he => nomatch he
theorem childPacketRead (part : Nat) : Statement (.childPacketRead part) := fun _ _ _ he => nomatch he
theorem tlbicmd (val : W64) : Statement (.tlbicmd val) := fun _ _ _ he => nomatch he
theorem tlbInvalidateDone : Statement .tlbInvalidateDone := fun _ _ _ he => nomatch he
theorem partcfg (val : W64) : Statement (.partcfg val) := fun _ _ _ he => nomatch he
theorem partsw (p : Nat) (val : W64) : Statement (.partsw p val) := fun _ _ _ he => nomatch he
theorem partitionSwitchDone (p : Nat) : Statement (.partitionSwitchDone p) := fun _ _ _ he => nomatch he
theorem go : Statement .go := fun _ _ _ he => nomatch he
theorem reset : Statement .reset := fun _ _ _ he => nomatch he
theorem quiesce : Statement .quiesce := fun _ _ _ he => nomatch he
theorem coldReset : Statement .coldReset := fun _ _ _ he => nomatch he
theorem bringupPhaseDone (absent : Byte) (fail : Byte) : Statement (.bringupPhaseDone absent fail) := fun _ _ _ he => nomatch he
theorem registerWrite (off : Nat) (val : W64) : Statement (.registerWrite off val) := fun _ _ _ he => nomatch he
theorem telemetryClear (k : Nat) : Statement (.telemetryClear k) := fun _ _ _ he => nomatch he
theorem pwrlim (val : W64) : Statement (.pwrlim val) := fun _ _ _ he => nomatch he
theorem powerControlTick (inst : Nat) (milli : Nat) (temp : Nat) : Statement (.powerControlTick inst milli temp) := fun _ _ _ he => nomatch he
theorem portstat (p : Nat) (val : W64) : Statement (.portstat p val) := fun _ _ _ he => nomatch he
theorem keycmd (p : Nat) (val : W64) : Statement (.keycmd p val) := fun _ _ _ he => nomatch he
theorem keySlotWrite (p : Nat) (rx : Bool) (idx : Nat) (word : Nat) (val : W64) : Statement (.keySlotWrite p rx idx word val) := fun _ _ _ he => nomatch he
theorem flitReceive (p : FlitIn) (key : Nat) (crcOk : Bool) (tagOk : Bool) : Statement (.flitReceive p key crcOk tagOk) := fun _ _ _ he => nomatch he
theorem flitReplay (p : Nat) : Statement (.flitReplay p) := fun _ _ _ he => nomatch he
theorem flitAck (p : Nat) : Statement (.flitAck p) := fun _ _ _ he => nomatch he
theorem laneFail (p : Nat) (lane : Nat) : Statement (.laneFail p lane) := fun _ _ _ he => nomatch he
theorem linkUp (p : LinkEnd) : Statement (.linkUp p) := fun _ _ _ he => nomatch he
theorem peerDepart (dev : Nat) : Statement (.peerDepart dev) := fun _ _ _ he => nomatch he
theorem peerArrive (dev : Arrival) : Statement (.peerArrive dev) := fun _ _ _ he => nomatch he
theorem peerRequest (pa : Nat) (req : PeerReq) : Statement (.peerRequest pa req) := fun _ _ _ he => nomatch he
theorem redGroupApply (pa : Nat) (op : BitVec 3) (ty : Ty) (x : W64) (bnd : EB32) : Statement (.redGroupApply pa op ty x bnd) := fun _ _ _ he => nomatch he
theorem remoteTimeout (id : Nat) : Statement (.remoteTimeout id) := fun _ _ _ he => nomatch he
theorem systemAccessTimeout (id : Nat) : Statement (.systemAccessTimeout id) := fun _ _ _ he => nomatch he
theorem hostRead (pa : Nat) (size : Nat) : Statement (.hostRead pa size) := fun _ _ _ he => nomatch he
theorem hostWrite (pa : Nat) (bytes : List Byte) (poison : Bool) : Statement (.hostWrite pa bytes poison) := fun _ _ _ he => nomatch he
theorem hostSnoop (pa : Nat) : Statement (.hostSnoop pa) := fun _ _ _ he => nomatch he
theorem backInvalidate (pa : Nat) : Statement (.backInvalidate pa) := fun _ _ _ he => nomatch he
theorem softError (site : Nat) (a : Nat) (b : Nat) (c : Nat) : Statement (.softError site a b c) := fun _ _ _ he => nomatch he
theorem dieLoss (d : Nat) : Statement (.dieLoss d) := fun _ _ _ he => nomatch he
theorem lineEviction (key : Nat) : Statement (.lineEviction key) := fun _ _ _ he => nomatch he
theorem preemptionLimitExpire (team : Nat) : Statement (.preemptionLimitExpire team) := fun _ _ _ he => nomatch he

end Sys2Proof.Laws.RoundTrip
end

