-- ==== Sys2Proof/Tests/Slice0.lean ====
section
/-! SUPPORT. The model's own tests: ill-formed terms are refused, words written out by the spec decode, single steps give results calculated
from the spec, and the hypotheses of the statements are met. -/

namespace Sys2Proof.Tests

open Sys2Proof Sys2Proof.Machine

set_option Elab.async false

/-- PG 15 and no flag. -/
def hh : Hd := ⟨15, false, false, false⟩
/-- Operands without an immediate. -/
def opr (d sa sb sc : Sel) : Opn := ⟨d, sa, sb, sc, 0⟩
/-- Fields that hold 0. -/
def none0 : Opn := opr (.v 0) (.v 0) (.v 0) (.v 0)
/-- The integer M byte of a type. -/
def im (t : Ty) : IMod := ⟨t, 0, false⟩
/-- The floating M byte of a type, unit AUTO, rounding RN. -/
def fm (t : Ty) : FMod := ⟨t, .auto, .rn⟩

/-! Ill-formed terms, one for each condition of R85 and R86 and for reserved M and IMM values; each check refuses its term. -/

theorem test_wf_nop : (Instr.nop hh none0 0).wf = true := by decide
theorem test_wf_unused_d : (Instr.nop hh { none0 with d := .v 1 } 0).wf = false := by decide
theorem test_wf_unused_sa : (Instr.nop hh { none0 with sa := .s 0 } 0).wf = false := by decide
theorem test_wf_unused_sb : (Instr.mov hh { none0 with sb := .v 2 } (im .i32)).wf = false := by decide
theorem test_wf_unused_sc : (Instr.iadd hh { none0 with sc := .v 3 } (im .i32)).wf = false := by decide
theorem test_wf_unused_imm : (Instr.nop hh { none0 with imm := 1 } 0).wf = false := by decide
theorem test_wf_imm_without_selector : (Instr.iadd hh { none0 with imm := 1 } (im .i32)).wf = false := by decide
theorem test_wf_imm_with_selector : (Instr.iadd hh { none0 with sb := .imm, imm := 1 } (im .i32)).wf = true := by decide
theorem test_wf_pn_with_pg15 : (Instr.nop { hh with pn := true } none0 0).wf = false := by decide
theorem test_wf_nw_no_producer : (Instr.nop { hh with nw := true } none0 0).wf = false := by decide
theorem test_wf_nw_with_cx : (Instr.iadd { hh with nw := true, cx := true } none0 (im .i32)).wf = false := by decide
theorem test_wf_nw_closing : (Instr.srd { hh with nw := true } none0 0).wf = false := by decide
theorem test_wf_guard_of_cclose : (Instr.cclose ⟨3, false, false, false⟩ none0 0).wf = false := by decide
theorem test_wf_brd_negated : (Instr.brd ⟨3, true, false, false⟩ none0 0).wf = false := by decide
theorem test_wf_iadd_float : (Instr.iadd hh none0 (im .f32)).wf = false := by decide
theorem test_wf_sat_of_imin : (Instr.imin hh none0 ⟨.i32, 0, true⟩).wf = false := by decide
theorem test_wf_isetp_condition_6 : (Instr.isetp hh none0 ⟨.i32, 6, false⟩).wf = false := by decide
theorem test_wf_fadd_class_3 : (Instr.fadd hh none0 ⟨.f32, .rsv, .rn⟩).wf = false := by decide
theorem test_wf_fmin_rounds : (Instr.fmin hh none0 ⟨.f32, .auto, .rz⟩).wf = false := by decide
theorem test_wf_ld_scl_5 : (Instr.ld hh { none0 with imm := 0xA0000000 } ⟨false, .dev, .rlx, .b32⟩).wf = false := by decide
theorem test_wf_ld_width_7 : (Instr.ld hh none0 ⟨false, .dev, .rlx, .rsv⟩).wf = false := by decide
theorem test_wf_ld_release : (Instr.ld hh none0 ⟨false, .dev, .rel, .b32⟩).wf = false := by decide
theorem test_wf_ld_sx_32 : (Instr.ld hh none0 ⟨true, .dev, .rlx, .b32⟩).wf = false := by decide
theorem test_wf_atom_op_7 : (Instr.atom hh { none0 with imm := 0x07100000 } ⟨false, .dev, .rlx, .b32⟩).wf = false := by decide
theorem test_wf_fence_rlx : (Instr.fence hh none0 ⟨false, .pod, .rlx, .b8⟩).wf = false := by decide
theorem test_wf_seal_without_cx : (Instr.sealRegion hh { none0 with sa := .s 6, imm := 0x08000000 } ⟨false, .dev, .rlx, .b8⟩).wf = false := by decide
theorem test_wf_sleep_0 : (Instr.sleep hh none0 0).wf = false := by decide
theorem test_wf_xacq_no_block : (Instr.xacq hh none0 0).wf = false := by decide
theorem test_wf_qbind_6 : (Instr.qbind hh { none0 with d := .q 0 } 6).wf = false := by decide
theorem test_wf_mma_type : (Instr.mma hh none0 0x40).wf = false := by decide
theorem test_wf_gath_stride_0 : (Instr.gath hh none0 0).wf = false := by decide
theorem test_decode_unassigned : decode 0 = .error (.unassignedOpcode 0) := by decide +kernel
theorem test_decode_bit_15 : decode 0x8F01 = .error .reservedBit15 := by decide +kernel
theorem test_decode_pg15_pn : decode 0x1F01 = .error .illFormed := by decide +kernel

/-! Words written out in the spec, W2 W1 W0, beside their assembly text (notes 06, 08, 10, 14, 16, 18, 22 and the reference chapters). -/

/-- The decoder's reading as one decidable test. -/
def reads (w : BitVec 96) (i : Instr) : Bool := match decode w with | .ok j => decide (j = i) | .error _ => false

/-- BRA, EXIT: R110 and note 14. -/
theorem test_decode_control :
    reads 0xFFFFFFFB_00000000_00000202 (.bra ⟨2, false, false, false⟩ { none0 with imm := 0xFFFFFFFB } 0)
    ∧ reads 0x00000000_00000000_00000F07 (.exit hh none0 0) := by decide +kernel

/-- ISETP.LT.I32 p1, v3, 16; MOVI.N32 v8, 1; MOVI.N64 s6, 0x10000040; MOV v1, LANE. -/
theorem test_decode_integer :
    reads 0x00000010_04001800_0D710F24 (.isetp hh ⟨.p 1, .v 3, .imm, .v 0, 16⟩ ⟨.i32, 2, false⟩)
    ∧ reads 0x00000001_10000000_00080F27 (.movi hh ⟨.v 8, .v 0, .v 0, .v 0, 1⟩ (im .n32))
    ∧ reads 0x10000040_30000000_01060F27 (.movi hh ⟨.s 6, .v 0, .v 0, .v 0, 0x10000040⟩ (im .n64))
    ∧ reads 0x00000000_10000007_00010F26 (.mov hh (opr (.v 1) (.special .lane) (.v 0) (.v 0)) (im .n32)) := by decide +kernel

/-- SHFL.UP.W64.EDGE v0, v2, 1, v12; SREDUX.ADD.F64 s10, v2. -/
theorem test_decode_lane :
    reads 0x00000001_0D031800_08000F33 (.shfl hh ⟨.v 0, .v 2, .imm, .v 12, 1⟩ 0x0D)
    ∧ reads 0x00000000_50000000_090A0F36 (.sredux hh (opr (.s 10) (.v 2) (.v 0) (.v 0)) 0x50) := by decide +kernel

/-- FSETP.LT.F64 p1, v2, v6; FDIV.F32.RN v9, v3, v4; CVTQ.Q4NX8.SF32.RN.EL0 v10, v8, s2, v10. -/
theorem test_decode_float :
    reads 0x00000000_52000060_09710F46 (.fsetp hh (opr (.p 1) (.v 2) (.v 6) (.v 0)) ⟨.f64, .auto, .ru⟩)
    ∧ reads 0x00000000_40000040_0C090F4B (.fdiv hh (opr (.v 9) (.v 3) (.v 4) (.v 0)) (fm .f32))
    ∧ reads 0x00000004_A0029020_200A0F51 (.cvtq hh ⟨.v 10, .v 8, .s 2, .v 10, 4⟩ (fm .q4nx8)) := by decide +kernel

/-- BMODE.CLEAR 0x30000 and BMODE.SET 0x10000. -/
theorem test_decode_bounds :
    reads 0x00030000_02000006_00000F66 (.bmode hh ⟨.v 0, .imm, .v 0, .v 0, 0x30000⟩ 2)
    ∧ reads 0x00010000_01000006_00000F66 (.bmode hh ⟨.v 0, .imm, .v 0, .v 0, 0x10000⟩ 1) := by decide +kernel

/-- LD.64 v2, [s4 + v7*8]; ST.64 [s4 + v7*8], v2; ATOM.ADD.N32.SP v9, [0x100], v8; FENCE.REL.POD; SEAL [s6]. -/
theorem test_decode_memory :
    reads 0x78000000_03000074_10020F70 (.ld hh ⟨.v 2, .s 4, .v 7, .v 0, 0x78000000⟩ ⟨false, .dev, .rlx, .b64⟩)
    ∧ reads 0x78000000_03008074_10000F71 (.st hh ⟨.v 0, .s 4, .v 7, .v 2, 0x78000000⟩ ⟨false, .dev, .rlx, .b64⟩)
    ∧ reads 0x00100100_82020000_00090F79 (.atom hh ⟨.v 9, .v 0, .v 0, .v 8, 0x00100100⟩ ⟨true, .dev, .rlx, .b32⟩)
    ∧ reads 0x00000000_30000000_00000F7C (.fence hh none0 ⟨false, .pod, .rel, .b8⟩)
    ∧ reads 0x08000000_00000004_18004F7D
        (.sealRegion ⟨15, false, false, true⟩ { none0 with sa := .s 6, imm := 0x08000000 } ⟨false, .dev, .rlx, .b8⟩) := by decide +kernel

/-- BARA v3, b2; BARW b1; BARQ b2, v3; XACQ X0, X1; XREL X1; (p1) LNCH.P1 v10. -/
theorem test_decode_team :
    reads 0x00000000_02000000_00030F91 (.bara hh { none0 with d := .v 3 } 2)
    ∧ reads 0x00000000_01000000_00000F92 (.barw hh none0 1)
    ∧ reads 0x00000000_02000000_0C000F93 (.barq hh { none0 with sa := .v 3 } 2)
    ∧ reads 0x00000000_03000000_00000F94 (.xacq hh none0 3)
    ∧ reads 0x00000000_02000000_00000F95 (.xrel hh none0 2)
    ∧ reads 0x00000000_01000000_28000196 (.lnch ⟨1, false, false, false⟩ { none0 with sa := .v 10 } 1) := by decide +kernel

/-- QBIND.MA q0; MMA.BF16X2.UA a3, q0, q1, c2; MDRAIN.BF16X2.RN.REL [s12], a3, s13, c2; CPY [s10], c3; WTO c3, 1. -/
theorem test_decode_engine :
    reads 0x00000000_01000000_01500FA0 (.qbind hh { none0 with d := .q 0 } 1)
    ∧ reads 0x02800003_70001515_40000FA2 (.mma hh ⟨.v 0, .q 0, .q 1, .v 0, 0x02800003⟩ 0x70)
    ∧ reads 0x00002E03_700010D4_30000FA5 (.mdrain hh ⟨.v 0, .s 12, .s 13, .v 0, 0x2E03⟩ 0x70)
    ∧ reads 0x00000013_00000004_28000FA8 (.cpy hh { none0 with sa := .s 10, imm := 0x13 } 0)
    ∧ reads 0x00000001_00001805_8C000FAB (.wto hh ⟨.v 0, .c 3, .imm, .v 0, 1⟩ 0) := by decide +kernel

/-- TRAP 7; BKPT 0; ERET.NEXT; SWR TEPC, s20; CLK s2; SLEEP 100. -/
theorem test_decode_system :
    reads 0x00000007_00000000_00000FC0 (.trap hh { none0 with imm := 7 } 0)
    ∧ reads 0x00000000_00000000_00000FC5 (.bkpt hh none0 0)
    ∧ reads 0x00000000_01000000_00000FC1 (.eret hh none0 1)
    ∧ reads 0x00000001_00000004_50000FC3 (.swr hh { none0 with sa := .s 20, imm := 1 } 0)
    ∧ reads 0x00000000_00000000_01020FC4 (.clk hh { none0 with d := .s 2 } 0)
    ∧ reads 0x00000064_00000000_00000FC6 (.sleep hh { none0 with imm := 100 } 0) := by decide +kernel

/-! Single steps. The state: one sheaf of sixteen lanes on core 0, the word at PC 0, every other slot of its line a NOP-less zero. -/

/-- A state about to run one instruction, changed by `f`. -/
def ready (i : Instr) (f : State → State) : State :=
  f (State.reset.withFetchWord 96 ((encode i).getD 0).toNat)

/-- The state after a step; the reset state where there is none. -/
def after (s : State) : State := match step s with | .next t => t | _ => State.reset

/-- Vector register n holds `x l` on lane l. -/
def setV (n : Nat) (t : Ty) (x : Nat → Nat) (s : State) : State :=
  s.updSheaf 0 (fun y => { y with regs := { y.regs with v := SMap.set y.regs.v n
                                                                    ⟨lanesOf 16 (fun l => BitVec.ofNat 32 (x l)), lanesOf 16 (fun _ => 0), t, false⟩ } })

/-- An even pair holds `x l` on lane l. -/
def setV2 (n : Nat) (t : Ty) (x : Nat → Nat) (s : State) : State :=
  s.updSheaf 0 (fun y =>
    let half := fun (k : Nat) => (⟨lanesOf 16 (fun l => BitVec.ofNat 32 (x l / 2 ^ (32 * k))), lanesOf 16 (fun _ => 0), t, true⟩ : VReg)
    { y with regs := { y.regs with v := SMap.set (SMap.set y.regs.v n (half 0)) (n + 1) (half 1) } })

/-- Scalar register n. -/
def setS (n : Nat) (t : Ty) (x : W64) (s : State) : State :=
  s.updSheaf 0 (fun y => { y with regs := { y.regs with s := SMap.set y.regs.s n { val := x, bnd := 0, tag := t } } })

/-- Predicate n, without doubt. -/
def setP (n : Nat) (v : Mask) (s : State) : State :=
  s.updSheaf 0 (fun y => { y with regs := { y.regs with p := SMap.set y.regs.p n { val := v, doubt := 0 } } })

def regs (s : State) : Regs := (s.sheaf 0).regs
def v32 (s : State) (n l : Nat) : Nat := (regs s).vVal32 n l
def s64 (s : State) (n : Nat) : Nat := ((regs s).sreg n).val.toNat

/-- Two vector sources in v1 and v2, D in v3. -/
def two (t : Ty) (x y : Nat) (s : State) : State := setV 2 t (fun _ => y) (setV 1 t (fun _ => x) s)
def o321 : Opn := opr (.v 3) (.v 1) (.v 2) (.v 0)

theorem test_nop_advances : (regs (after (ready (.nop hh none0 0) id))).pcOf 5 = 1 := by decide +kernel

/-- R108: the lanes whose guard is false stand at the next slot all the same. -/
theorem test_exit_guarded :
    (regs (after (ready (.exit ⟨1, false, false, false⟩ none0 0) (setP 1 0x00F0)))).exited = 0x00F0 := by decide +kernel

/-- A branch to its own slot, whose TGT bit is set; the lanes not taken go on. -/
theorem test_bra_diverges :
    let t := after (ready (.bra ⟨1, false, false, false⟩ none0 0) (setP 1 0x000F))
    (regs t).pcOf 3 = 0 ∧ (regs t).pcOf 4 = 1 := by decide +kernel

theorem test_iadd_wraps : v32 (after (ready (.iadd hh o321 (im .i32)) (two .i32 0x7FFFFFFF 1))) 3 0 = 0x80000000 := by decide +kernel
theorem test_iadd_saturates :
    v32 (after (ready (.iadd hh o321 ⟨.i32, 0, true⟩) (two .i32 0x7FFFFFFF 1))) 3 15 = 0x7FFFFFFF := by decide +kernel
theorem test_isub_order : v32 (after (ready (.isub hh o321 (im .n32)) (two .n32 0 1))) 3 0 = 0xFFFFFFFF := by decide +kernel
theorem test_imul_low : v32 (after (ready (.imul hh o321 (im .n32)) (two .n32 0x10001 0x10001))) 3 0 = 0x20001 := by decide +kernel
theorem test_imulh_high :
    v32 (after (ready (.imulh hh o321 (im .n32)) (two .n32 0xFFFFFFFF 0xFFFFFFFF))) 3 0 = 0xFFFFFFFE := by decide +kernel
theorem test_imin_signed : v32 (after (ready (.imin hh o321 (im .i32)) (two .i32 0xFFFFFFFF 1))) 3 0 = 0xFFFFFFFF := by decide +kernel
theorem test_imax_unsigned : v32 (after (ready (.imax hh o321 (im .n32)) (two .n32 0xFFFFFFFF 1))) 3 0 = 0xFFFFFFFF := by decide +kernel
theorem test_iabs_of_minus_5 : v32 (after (ready (.iabs hh (opr (.v 3) (.v 1) (.v 0) (.v 0)) (im .i32)) (two .i32 0xFFFFFFFB 0))) 3 0 = 5 := by
  decide +kernel
theorem test_imad_source_is_destination :
    v32 (after (ready (.imad hh (opr (.v 1) (.v 1) (.v 2) (.v 1)) (im .n32)) (two .n32 7 3))) 1 0 = 28 := by decide +kernel

theorem test_and : v32 (after (ready (.bitAnd hh o321 (im .n32)) (two .n32 0xFF00 0x0FF0))) 3 0 = 0x0F00 := by decide +kernel
theorem test_not : v32 (after (ready (.bitNot hh (opr (.v 3) (.v 1) (.v 0) (.v 0)) (im .n32)) (two .n32 0xFF 0))) 3 0 = 0xFFFFFF00 := by
  decide +kernel
theorem test_shl_by_32 : v32 (after (ready (.shl hh o321 (im .n32)) (two .n32 1 32))) 3 0 = 0 := by decide +kernel
theorem test_sar_by_40 : v32 (after (ready (.sar hh o321 (im .n32)) (two .n32 0x80000000 40))) 3 0 = 0xFFFFFFFF := by decide +kernel
theorem test_bfe_signed_field :
    v32 (after (ready (.bfe hh o321 (im .i32)) (setV 2 .n32 (fun _ => 0x0404) ∘ setV 1 .i32 (fun _ => 0xA5)))) 3 0 = 0xFFFFFFFA := by
  decide +kernel
theorem test_popc : v32 (after (ready (.popc hh (opr (.v 3) (.v 1) (.v 0) (.v 0)) (im .n32)) (two .n32 0xF0F1 0))) 3 0 = 9 := by decide +kernel
theorem test_clz_of_1 : v32 (after (ready (.clz hh (opr (.v 3) (.v 1) (.v 0) (.v 0)) (im .n32)) (two .n32 1 0))) 3 0 = 31 := by decide +kernel
theorem test_brev : v32 (after (ready (.brev hh (opr (.v 3) (.v 1) (.v 0) (.v 0)) (im .n32)) (two .n32 1 0))) 3 0 = 0x80000000 := by
  decide +kernel

/-- R127's example: p1 where v3 < 16. -/
theorem test_isetp_lt :
    ((regs (after (ready (.isetp hh ⟨.p 1, .v 3, .imm, .v 0, 16⟩ ⟨.i32, 2, false⟩) (setV 3 .i32 (fun l => 2 * l))))).pred 1).val
      = 0x00FF := by decide +kernel

theorem test_movi_n64 : s64 (after (ready (.movi hh ⟨.s 6, .v 0, .v 0, .v 0, 0x80000000⟩ (im .n64)) id)) 6 = 0x80000000 := by decide +kernel
theorem test_movi_i64_extends :
    s64 (after (ready (.movi hh ⟨.s 6, .v 0, .v 0, .v 0, 0x80000000⟩ (im .i64)) id)) 6 = 0xFFFFFFFF80000000 := by decide +kernel
theorem test_mov_lane : v32 (after (ready (.mov hh (opr (.v 1) (.special .lane) (.v 0) (.v 0)) (im .n32)) id)) 1 11 = 11 := by decide +kernel

/-- R133's example: v0 takes v2 of lane l − 1, and lane 0 its own v12. -/
theorem test_shfl_up_edge :
    let t := after (ready (.shfl hh ⟨.v 0, .v 2, .imm, .v 12, 1⟩ 0x05) (setV 12 .n32 (fun l => 100 + l) ∘ setV 2 .n32 (fun l => l)))
    v32 t 0 0 = 100 ∧ v32 t 0 1 = 0 ∧ v32 t 0 15 = 14 := by decide +kernel

theorem test_plop_is_a_table :
    ((regs (after (ready (.plop hh ⟨.p 0, .p 1, .p 2, .p 15, 0⟩ 0x80) (setP 2 0x33 ∘ setP 1 0x0F)))).pred 0).val = 0x03 := by decide +kernel

theorem test_fadd_f32 : v32 (after (ready (.fadd hh o321 (fm .f32)) (two .f32 0x3F800000 0x40000000))) 3 0 = 0x40400000 := by decide +kernel
theorem test_fmul_f32 : v32 (after (ready (.fmul hh o321 (fm .f32)) (two .f32 0x40400000 0xBF000000))) 3 0 = 0xBFC00000 := by decide +kernel
theorem test_fdiv_third : v32 (after (ready (.fdiv hh o321 (fm .f32)) (two .f32 0x3F800000 0x40400000))) 3 0 = 0x3EAAAAAB := by decide +kernel
theorem test_fdiv_by_zero : v32 (after (ready (.fdiv hh o321 (fm .f32)) (two .f32 0x3F800000 0x80000000))) 3 0 = 0xFF800000 := by decide +kernel
theorem test_fsqrt_of_4 :
    v32 (after (ready (.fsqrt hh (opr (.v 3) (.v 1) (.v 0) (.v 0)) (fm .f32)) (two .f32 0x40800000 0))) 3 0 = 0x40000000 := by decide +kernel
theorem test_fexp2_of_3 :
    v32 (after (ready (.fexp2 hh (opr (.v 3) (.v 1) (.v 0) (.v 0)) (fm .f32)) (two .f32 0x40400000 0))) 3 0 = 0x41000000 := by decide +kernel
theorem test_cvt_truncates :
    v32 (after (ready (.cvt hh ⟨.v 3, .v 1, .v 0, .v 0, 4⟩ ⟨.i32, .auto, .rz⟩) (two .f32 0xC0200000 0))) 3 0 = 0xFFFFFFFE := by decide +kernel

/-- R66: a comparison of values nearer than their bounds is in doubt. Bounds are on once BOUNDS is accepted. -/
def bounded (s : State) : State := { s with featack := [1, 0, 0, 0] }
theorem test_fsetp_doubt :
    let wide := fun (s : State) => s.updSheaf 0 (fun y => { y with regs := { y.regs with v := SMap.set y.regs.v 1 { y.regs.vreg 1 with sh := lanesOf 16 (fun _ => 0x7F00) } } })
    let t := after (ready (.fsetp hh ⟨.p 1, .v 1, .v 2, .v 0, 0⟩ ⟨.f32, .auto, .ru⟩) (wide ∘ two .f32 0x3F800000 0x40000000 ∘ bounded))
    ((regs t).pred 1).val = 0xFFFF ∧ ((regs t).pred 1).doubt = 0xFFFF := by decide +kernel

/-- R122: D of a shift is tagged RAW, and a count N32. -/
theorem test_tags :
    ((regs (after (ready (.shl hh o321 (im .n32)) (two .n32 1 3)))).vreg 3).tag = .raw
    ∧ ((regs (after (ready (.popc hh (opr (.v 3) (.v 1) (.v 0) (.v 0)) (im .n32)) (two .n32 1 3)))).vreg 3).tag = .n32 := by decide +kernel

/-- R87, check 7: a source whose tag the entry does not accept raises FORMAT; with no handler the context ends. -/
theorem test_format_ends_the_context :
    (after (ready (.fadd hh o321 (fm .f32)) (two .n32 1 2))).ended = [0] := by decide +kernel

/-- A handler at slot 0 of line 1, whose TGT bit is set. -/
def withHandler (s : State) : State :=
  (s.updCore 0 (fun c => { c with icache := (0, 1, lineWith 0xF01) :: c.icache })).updTeam 0
    (fun t => { t with hdr := { t.hdr with trappc := 64, regs := 128 } })

/-- R291 and R292: TRAP 7 enters the handler with SWTRAP, check 9, TEPC 0 and ICODE 7. -/
theorem test_trap_enters_the_handler :
    let t := after (ready (.trap hh { none0 with imm := 7 } 0) withHandler)
    (t.sheaf 0).hm = true ∧ (regs t).pcOf 9 = 64 ∧ (t.sheaf 0).frame.cause = 0x900E ∧ (t.sheaf 0).frame.epc = 0
      ∧ (t.sheaf 0).frame.lanes = 0xFFFF ∧ (t.sheaf 0).frame.info.extractLsb' 32 32 = 7 := by decide +kernel

/-- R298: ERET.NEXT goes to the slot after TEPC. -/
theorem test_eret_next :
    let s := ready (.eret hh none0 1) (fun s => s.updSheaf 0 (fun x => { x with hm := true, tg := 0x0003, savedPc := List.replicate 16 128, frame := { epc := 68 } }))
    (regs (after s)).pcOf 0 = 128 ∧ (regs (after s)).pcOf 2 = 128 ∧ ((after s).sheaf 0).hm = false := by decide +kernel

theorem test_srd_argp :
    s64 (after (ready (.srd hh { none0 with d := .s 3, imm := 0x10 } 0)
      (fun s => { s with launches := [(0, { argp := 0x1234 })] }))) 3 = 0x1234 := by decide +kernel

theorem test_sleep_waits :
    SMap.get? ((after (ready (.sleep hh { none0 with imm := 100 } 0) (fun s => { s with cycle := 5 }))).sheaf 0).waits 4 = some (.sleep 105) := by
  decide +kernel

/-- R283: the last arrival flips the phase. -/
theorem test_bara_completes :
    (((after (ready (.bara hh none0 1) (fun s => s.updTeam 0 (fun t => t.setBar 1 { exp := 2, arr := 1 })))).team 0).bar 1)
      = { exp := 2, arr := 0, ph := true, phases := 1 } := by decide +kernel

/-- R27: XACQ X1 takes 32 registers where the quadrant has them. -/
theorem test_xacq :
    ((after (ready (.xacq hh none0 2) (fun s => s.updTeam 0 (fun t => { t with hdr := { t.hdr with xpool := 2 } })))).sheaf 0).ext = 2 := by
  decide +kernel

/-- R242: QBIND.MA binds q0 to MA. -/
theorem test_qbind : (regs (after (ready (.qbind hh { none0 with d := .q 0 } 1) id))).boundTo 0 = 1 := by decide +kernel

/-- A translation of the 64 KiB page at virtual 0x10000 to physical 0x20000, readable and writable. -/
def mapped (s : State) : State := s.updCore 0 (fun c => { c with tlb := [⟨0, 1, 16, 0x2001B⟩] })
/-- [s4], XB. -/
def at4 (d sc : Sel) : Opn := ⟨d, .s 4, .v 0, sc, 0x08000000⟩

theorem test_ld_32 :
    v32 (after (ready (.ld hh (at4 (.v 2) (.v 0)) ⟨false, .dev, .rlx, .b32⟩)
      (fun s => { (setS 4 .n64 0x10004 (mapped s)) with mem := Memory.write [] 0x20004 [0x78, 0x56, 0x34, 0x12] }))) 2 3 = 0x12345678 := by
  decide +kernel

theorem test_ld_sign_extends :
    v32 (after (ready (.ld hh (at4 (.v 2) (.v 0)) ⟨true, .dev, .rlx, .b8⟩)
      (fun s => { (setS 4 .n64 0x10004 (mapped s)) with mem := Memory.write [] 0x20004 [0x80] }))) 2 3 = 0xFFFFFF80 := by decide +kernel

/-- R222: a store is held in the chunk; its own sheaf sees it, memory does not. -/
theorem test_st_is_held :
    let t := after (ready (.st hh (at4 (.v 0) (.v 1)) ⟨false, .dev, .rlx, .b32⟩)
      (setV 1 .n32 (fun l => 0xAA00 + l) ∘ setS 4 .n64 0x10004 ∘ mapped))
    t.seen 0 (.mem 0x400) 4 = 0x0F ∧ t.seen 0 (.mem 0x400) 5 = 0xAA ∧ Memory.get t.mem 0x20004 = 0 := by decide +kernel

/-- R199, R289: a misaligned access raises ALIGN. -/
theorem test_ld_misaligned :
    ((after (ready (.ld hh (at4 (.v 2) (.v 0)) ⟨false, .dev, .rlx, .b32⟩) (withHandler ∘ setS 4 .n64 0x10002 ∘ mapped))).sheaf 0).frame.cause
      = 0x9008 := by decide +kernel

/-- A path whose atomic's round has come. -/
def atRound (s : State) : State := { s with issue := s.issue.map (fun p => { p with inRound := true }) }

/-- R211: the lanes of an ATOM.ADD act in ascending order. -/
theorem test_atom_add :
    let t := after (ready (.atom hh ⟨.v 9, .s 4, .v 0, .v 8, 0x08100000⟩ ⟨false, .dev, .rlx, .b32⟩)
      (atRound ∘ setV 8 .n32 (fun _ => 1) ∘ setS 4 .n64 0x10004 ∘ mapped))
    v32 t 9 0 = 0 ∧ v32 t 9 15 = 15 := by decide +kernel

theorem test_sts_then_scratchpad :
    let t := after (ready (.sts hh ⟨.v 0, .v 0, .v 0, .v 1, 0x40⟩ ⟨false, .dev, .rlx, .b32⟩)
      ((fun s => s.updTeam 0 (fun y => { y with hdr := { y.hdr with scratch := 4096 } })) ∘ setV 1 .n32 (fun l => l)))
    t.seen 0 (.sp 0 0) 0x40 = 15 := by decide +kernel

/-! Events. -/

theorem test_go_accepts :
    (match exec .go { State.reset with phase := 4, featack := [0xFFFF, 0x3, 1, 0] } with
     | .next t => decide (t.phase = 5 ∧ t.featack = [0x1FF, 0x3, 0, 0]) | _ => false) = true := by decide +kernel

/-- R342, R343: with RAMP 100 the goal of 700 is approached; above TARGET the clock goes down by 25 MHz. -/
theorem test_power_tick :
    (match exec (.powerControlTick 2000 0 60) { State.reset with pwrlim := 100, pwrcfg := 0x000A0064 } with
     | .next t => decide (t.target = 1900 ∧ t.clkMhz = 700 ∧ t.takeClock.clkMhz = 675 ∧ t.readReg 0x2118 = 0 ∧ t.readReg 0x2128 = 60)
     | _ => false) = true := by decide +kernel

/-- R342: WINDOW 2 of the last three samples. -/
theorem test_power_window :
    (match exec (.powerControlTick 1000 0 60) { State.reset with pwrcfg := 0x00020000, samples := [500000, 7000] } with
     | .next t => decide (t.avg = 750 ∧ t.inst = 1000 ∧ t.samples = [1000000, 500000, 7000]) | _ => false) = true := by decide +kernel

/-- R148: FSINPI of −1/2 is −1. -/
theorem test_fsinpi_negative :
    v32 (after (ready (.fsinpi hh (opr (.v 3) (.v 1) (.v 0) (.v 0)) (fm .f32)) (two .f32 0xBF000000 0))) 3 0 = 0xBF800000 := by decide +kernel

/-- R91: lane is no lane-independent source, so BARI of it raises ILLOPND. -/
theorem test_bari_lane :
    ((after (ready (.bari hh { none0 with sa := .special .lane } 1) withHandler)).sheaf 0).frame.cause = 0x4002 := by decide +kernel

/-- R226: a round commits a closed chunk; its store reaches memory. -/
theorem test_round_commits :
    let s := after (ready (.st ⟨15, false, false, true⟩ (at4 (.v 0) (.v 1)) ⟨false, .dev, .rlx, .b32⟩)
      (setV 1 .n32 (fun _ => 0x55) ∘ setS 4 .n64 0x10004 ∘ mapped))
    (match exec .commitRound s with
     | .next t => decide (Memory.get t.mem 0x20004 = 0x55 ∧ (t.sheaf 0).chunks = []) | _ => false) = true := by decide +kernel

/-! Witnesses: for each statement with hypotheses, a state and operands that meet them. -/

/-- Order in a sheaf, as one test. -/
theorem tidy_of (x : Sheaf) (h : decide ((∀ c ∈ x.chunks.dropLast, c.closed = true) ∧ (∀ c ∈ x.chunks, c.count = 0 → c.closed = false ∧ c.held = [])
    ∧ (x.waits.map (·.1)).Nodup ∧ (x.savedWaits.map (·.1)).Nodup) = true) : x.tidy := by have k := of_decide_eq_true h; exact k

theorem sheavesTidy_of (s : State) (h : decide ((s.sheaves.map (·.1)).Nodup ∧ (s.teams.map (·.1)).Nodup ∧ ∀ p ∈ s.sheaves,
    ((∀ c ∈ p.2.chunks.dropLast, c.closed = true) ∧ (∀ c ∈ p.2.chunks, c.count = 0 → c.closed = false ∧ c.held = [])
    ∧ (p.2.waits.map (·.1)).Nodup ∧ (p.2.savedWaits.map (·.1)).Nodup)) = true) : SheavesTidy s := by have k := of_decide_eq_true h; exact k

theorem allTidy_of (s : State) (h : decide (∀ p ∈ s.sheaves,
    ((∀ c ∈ p.2.chunks.dropLast, c.closed = true) ∧ (∀ c ∈ p.2.chunks, c.count = 0 → c.closed = false ∧ c.held = [])
    ∧ (p.2.waits.map (·.1)).Nodup ∧ (p.2.savedWaits.map (·.1)).Nodup)) = true) : ∀ p ∈ s.sheaves, p.2.tidy := by have k := of_decide_eq_true h; exact k

theorem canonical_of (s : State) (h : decide (Memory.wf s.mem = true ∧ Memory.wf s.ext = true ∧ ∀ p ∈ s.teams, Memory.wf p.2.sp = true) = true) :
    MemCanonical s := by have k := of_decide_eq_true h; exact k

/-- A property of every lane in a mask need only be looked at below 64. -/
theorem lanes_of (m : Mask) (p : Nat → Prop) (h : ∀ l, l < 64 → Mask.has m l = true → p l) : ∀ l, Mask.has m l = true → p l := by
  intro l hl
  by_cases k : l < 64
  · exact h l k hl
  · have : Mask.has m l = false := by unfold Mask.has; exact BitVec.getLsbD_of_ge _ _ (by omega)
    rw [this] at hl; cases hl

/-- A closed chunk not yet committed stands in the sheaf. -/
def behind (s : State) : State :=
  s.updSheaf 0 (fun x => { x with chunks := [{ id := 1, count := 1, closed := true }], nextChunk := 2 })

/-! Fetch and control. -/

/-- The bytes of the line the state above fetches, in memory and not in the cache. -/
def fromMemory (s : State) : State :=
  { s.updCore 0 (fun c => { c with icache := [], tlb := [⟨0, 0, 16, 0x2002B⟩] }) with mem := Memory.write [] 0x20000 (lineWith 0xF01) }

theorem witness_StepRunsTheInstructionAtThePc :
    (∃ p r e, (ready (.nop hh none0 0) id).issue = p :: r ∧ pcMalformed p.pc.toNat = false
      ∧ ((ready (.nop hh none0 0) id).core 0).icache.find? (fun e => e.1 = 0 && e.2.1 = pcLine p.pc) = some e
      ∧ parityOk e.2.2 = true ∧ lineReserved e.2.2 = false ∧ reads (slotWord e.2.2 (pcSlot p.pc)) (.nop hh none0 0) = true)
    ∧ (∃ l, let s := ready (.nop hh none0 0) fromMemory
        (s.core 0).icache = [] ∧ s.fetchLoc 0 0 0 = .ok l ∧ parityOk (s.fetchBytes l) = true ∧ lineReserved (s.fetchBytes l) = false
        ∧ reads (slotWord (s.fetchBytes l) 0) (.nop hh none0 0) = true)
    ∧ State.reset.issue = [] ∧ State.reset.agenda = [] ∧ ({ State.reset with agenda := [.go] } : State).agenda = .go :: [] :=
  ⟨⟨_, _, _, rfl, by decide +kernel, rfl, by decide +kernel, by decide +kernel, by decide +kernel⟩,
    ⟨_, by decide +kernel, rfl, by decide +kernel, by decide +kernel, by decide +kernel⟩, rfl, rfl, rfl⟩

/-- The cached line with byte k replaced. -/
def spoilt (k : Nat) (b : Byte) (s : State) : State :=
  s.updCore 0 (fun c => { c with icache := [(0, 0, (lineWith 0xF01).set k b)] })

theorem witness_FetchChecksInTheirOrder :
    pcMalformed (5 : Pc).toNat = true
    ∧ (let s := ready (.nop hh none0 0) (spoilt 0 0)
       parityOk ((s.core 0).icache.headD (0, 0, [])).2.2 = false ∧ (s.core 0).refetched.contains (0, 0) = false)
    ∧ (({ refetched := [(0, 0)] } : Core).refetched.contains (0, 0) = true)
    ∧ (let l : List Byte := leBytes 12 0xF01 ++ List.replicate 48 0 ++ leBytes 4 (0x201 + lineParity (leBytes 12 0xF01 ++ List.replicate 48 0 ++ [1, 2, 0, 0]) * 2 ^ 24)
       parityOk l = true ∧ lineReserved l = true)
    ∧ (let l := lineWith 0
       parityOk l = true ∧ lineReserved l = false ∧ decode (slotWord l 0) = .error (.unassignedOpcode 0)) := by decide +kernel

/-- Doubt in p1 on lanes 0 to 3. -/
def doubtful (s : State) : State :=
  s.updSheaf 0 (fun x => { x with regs := { x.regs with p := [(1, { val := 0xFF, doubt := 0xF })] } })

theorem witness_BranchesMoveTheTakenLanes :
    let g : Hd := ⟨1, false, false, false⟩
    let a := ready (.bra g none0 0) doubtful
    let b := ready (.bra g none0 0) (fun s => doubtful (s.updSheaf 0 (fun x => { x with regs := { x.regs with allow := BitVec.ofNat 32 (2 ^ 19) } })))
    (a.active g ≠ 0 ∧ a.targetTrap (a.active g) (branchTarget a.cur.pc 0).toNat = none)
    ∧ (a.doubtful g ≠ 0 ∧ a.targetTrap a.cur.lanes (branchTarget a.cur.pc 0).toNat = none)
    ∧ (ready (.brd hh none0 0) id).doubtful hh = 0
    ∧ (a.active g ≠ 0 ∧ a.cur.lanes ≠ 0 ∧ a.targetBad a.csh.core a.ctm.ctx (branchTarget a.cur.pc 1).toNat = true)
    ∧ b.doubtful g ≠ 0 := by decide +kernel

theorem witness_CallsAndIndirectTransfers :
    let s := ready (.jmp hh { none0 with sa := .s 1 } 0) (setS 1 .n64 0)
    (Ready hh 0 none [(srcTyAlso 2 (.s 1) .n64 [.i64]).only true] s ∧ s.dtrap hh = none)
    ∧ (∀ l, Mask.has (s.active hh) l = true →
        let x := (s.rd 0 false ((srcTyAlso 2 (.s 1) .n64 [.i64]).only true) l).bits
        x < 2 ^ 56 ∧ s.targetBad s.csh.core s.ctm.ctx x = false)
    ∧ (let c := ready (.call hh { none0 with d := .v 20 } 0) id
       Ready hh 0 (some { dstD { none0 with d := .v 20 } true with queueOk := false, anyScalar := true }) [] c ∧ c.dtrap hh = none
        ∧ c.targetTrap (c.active hh) (branchTarget c.cur.pc 0).toNat = none ∧ c.targetBad c.csh.core c.ctm.ctx (branchTarget c.cur.pc 1).toNat = true)
    ∧ (let t := ready (.jmp hh { none0 with sa := .s 1 } 0) (setS 1 .n64 (2 ^ 56))
       Ready hh 0 none [(srcTyAlso 2 (.s 1) .n64 [.i64]).only true] t
        ∧ Mask.of 64 (fun l => Mask.has (t.active hh) l
            && (decide (2 ^ 56 ≤ (t.rd 0 false ((srcTyAlso 2 (.s 1) .n64 [.i64]).only true) l).bits))) ≠ 0)
    ∧ (let g : Hd := ⟨1, false, false, false⟩
       let b := ready (.jmp g { none0 with sa := .s 1 } 0)
         (fun s => doubtful (setS 1 .n64 0 (s.updSheaf 0 (fun x => { x with regs := { x.regs with allow := BitVec.ofNat 32 (2 ^ 19) } }))))
       Ready g 0 none [(srcTyAlso 2 (.s 1) .n64 [.i64]).only true] b ∧ allowDtrap b.allow = true ∧ b.doubtful g ≠ 0) := by
  refine ⟨by decide +kernel, lanes_of _ _ (by decide +kernel), by decide +kernel, by decide +kernel, by decide +kernel⟩

/-- One failing form for each of checks 4 to 8 and QUEUE, the earlier checks passing. -/
theorem witness_OperandChecksInTheirOrder :
    let x := srcTy 2 (.v 1) .n32
    let y := srcTy 3 (.v 2) .n32
    let l : Src := srcTy 3 (.l 1) .n32
    let q : Src := srcTy 3 (.q 2) .n32
    let d := some (dstD o321 false)
    let s := ready (.iadd hh o321 (im .n32)) (two .n32 5 7)
    let r := s.updTeam 0 (fun t => { t with hdr := { t.hdr with regs := 2 } })
    let f := ready (.iadd hh o321 (im .n32)) (two .f32 5 7)
    let strict := fun (s : State) => s.updSheaf 0 (fun z => { z with regs := { z.regs with
      allow := BitVec.ofNat 32 (2 ^ 18), v := SMap.set z.regs.v 1 { z.regs.vreg 1 with sh := lanesOf 16 (fun k => if k = 3 then 0xFF00 else 0) } } })
    let b := strict s
    r.badField d [x, y] = some 1 ∧ s.badField d [srcTy 2 (.rsv 0x3FF) .n32, y] = some 2
    ∧ s.badField d [q, { q with fld := 4 }] = some 4
    ∧ s.badField d [x, srcTy 3 (.v 192) .n32] = none ∧ s.awayField d [x, srcTy 3 (.v 192) .n32] = some 3
    ∧ s.badField d [x, l] = none ∧ s.awayField d [x, l] = none ∧ [x, l].find? (fun a => (s.latchBad a).isSome) = some l ∧ s.latchBad l = some cLATCH
    ∧ f.badField d [x, y] = none ∧ f.awayField d [x, y] = none ∧ f.latchBad x = none ∧ f.latchBad y = none
    ∧ x.tagBad (allowFxc f.allow) (f.srcTag x) = true
    ∧ allowStrict b.allow = true ∧ (b.rd 0 true x 3).bnd.isInf = true ∧ (b.rd 0 true x 4).bnd.isInf = false ∧ (b.rd 0 true x 3).bnd.poi = false
    ∧ x.tagBad (allowFxc b.allow) (b.srcTag x) = false
    ∧ s.badField d [x, q] = none ∧ s.queueField d [x, q] = some 3 ∧ allowStrict s.allow = false := by decide +kernel

/-- A latch held, its low half of a pair, one that fell back, one lost; a written lane and one that is not. -/
theorem witness_LatchReadsAndPushes :
    let s := ready (.iadd hh o321 (im .n32)) (two .n32 5 7)
    let u := s.pushLatch (.v 3) false false .n32 0x0001 (fun _ => (9, .zero)) s.csh.regs
    let w := s.pushLatch (.v 4) false true .n64 0xFFFF (fun _ => (2 ^ 40 + 9, .zero)) s.csh.regs
    let z := u.loseLatches 0
    (match u.latchRead 0 with | .held e => decide (u.chain[0]? = some e) | _ => false) = true
    ∧ (match w.latchRead 0 with | .held e => e.w64 | _ => false) = true
    ∧ z.chain.any (fun e => e.held) = false ∧ z.rregs.prods[0]? = some { dst := .v 3, nw := false } ∧ s.rregs.prods[0]? = none
    ∧ (u.rregs.stale (.v 2) true).prods[0]? = some { dst := .v 3, nw := false, stale := true } := by
  decide +kernel

theorem witness_PlainControlCompletes :
    let s := ready (.safept hh none0 0) (fun s => s.updTeam 0 (fun t => { t with hdr := { t.hdr with sptab := [(0, 64, 128)] } }))
    let q := s.updTeam 0 (fun t => { t with preq := true })
    (ready (.safept hh none0 0) id).ctm.hdr.sptab = []
    ∧ s.ctm.hdr.sptab.any (fun e => e.1 = s.cur.pc.toNat) = true ∧ s.ctm.preq = false
    ∧ q.ctm.hdr.sptab.any (fun e => e.1 = q.cur.pc.toNat) = true ∧ (q.ctm.preq && q.convergent && !q.csh.regs.routine) = true := by
  decide +kernel

/-! Producers: their operands pass on registers of the type. -/

theorem witness_IntegerArithmeticCompletes :
    (∀ t ∈ tInt, let o : Opn := ⟨.v 4, .v 0, .v 2, .v 6, 0⟩
      let s := ready (.imad hh o (im t)) (setV 0 t (fun l => l) ∘ setV 1 t (fun _ => 0) ∘ setV 2 t (fun _ => 3) ∘ setV 3 t (fun _ => 0)
        ∘ setV 6 t (fun _ => 5) ∘ setV 7 t (fun _ => 0))
      let n := ready (.imad hh o (im t)) (setV2 0 t (fun l => l) ∘ setV2 2 t (fun _ => 3) ∘ setV2 6 t (fun _ => 5))
      Ready hh 0 (some (dstD o t.is64)) [srcTy 2 o.sa t, srcTy 3 o.sb t, srcTy 4 o.sc t] (if t.is64 then n else s))
    ∧ (∀ t ∈ tInt8, t.is64 = true ∨ Ready hh 0 (some (dstD o321 false)) [srcTy 2 (.v 1) t, srcTy 3 (.v 2) t] (ready (.iadd hh o321 (im t)) (two t 5 7)))
    ∧ Ready hh 0 (some (dstD o321 false)) [srcTy 2 (.v 1) .i32] (ready (.iabs hh { o321 with sb := .v 0 } (im .i32)) (two .i32 5 7)) := by
  decide +kernel

/-- In range, out of range with and without SAT, a poisoned source, a bound that is lost. -/
theorem witness_IntegerLaneFitsTheType :
    let v : List Val := [⟨0x7FFFFFFF, .zero, .i32⟩, ⟨1, .of (some 1), .i32⟩]
    let e := fun (x : List Int) => x.getD 0 0 + x.getD 1 0
    Ty.i32.isIn tInt = true ∧ intMax .i32 < e (v.map (fun x => intVal .i32 x.bits)) ∧ v.any (·.bnd.poi) = false ∧ (∃ x ∈ v, x.bnd.x ≠ some 0)
    ∧ ¬ (e [0, 1] < intMin .i32 ∨ intMax .i32 < e [0, 1]) ∧ [(⟨1, .poison, .i32⟩ : Val)].any (·.bnd.poi) = true
    ∧ Ty.i8x4.isIn [.i8x4, .n8x4] = true := by
  refine ⟨by decide +kernel, by decide +kernel, by decide +kernel, ⟨⟨1, .of (some 1), .i32⟩, by simp, by decide +kernel⟩, by decide +kernel, by decide +kernel,
    by decide +kernel⟩

theorem witness_BitInstructionsComplete :
    let o : Opn := ⟨.v 4, .v 0, .v 2, .v 6, 0⟩
    let s := ready (.bfi hh o (im .n32)) (setV 6 .n32 (fun _ => 0x404) ∘ setV 2 .n32 (fun _ => 3) ∘ setV 0 .n32 (fun l => l))
    let n := ready (.bfi hh o (im .n64)) (setV 6 .n32 (fun _ => 0x404) ∘ setV2 2 .n64 (fun _ => 3) ∘ setV2 0 .n64 (fun l => l))
    let w := fun (k : Nat) (x : Sel) (t : Ty) => srcW k x t.is64 t
    (∀ as ∈ [[w 2 o.sa .n32], [w 2 o.sa .n32, w 3 o.sb .n32], [w 2 o.sa .n32, srcN32 3 o.sb], [srcTy 2 o.sa .n32, srcN32 3 o.sb],
        [srcTy 2 o.sa .n32, srcTy 3 o.sb .n32, srcN32 4 o.sc]], Ready hh 0 (some (dstD o false)) as s)
    ∧ (∀ as ∈ [[w 2 o.sa .n64], [w 2 o.sa .n64, w 3 o.sb .n64], [w 2 o.sa .n64, srcN32 4 o.sc], [srcTy 2 o.sa .n64, srcN32 4 o.sc],
        [srcTy 2 o.sa .n64, srcTy 3 o.sb .n64, srcN32 4 o.sc]], Ready hh 0 (some (dstD o true)) as n)
    ∧ Ready hh 0 (some (dstD o false)) [w 2 o.sa .n64] n := by decide +kernel

/-- Both widths, and a shift of the width. -/
theorem witness_BitInstructionsComplete_helpers :
    (0xFFFFFFFF : Nat) < 2 ^ tyW .i32 ∧ (2 ^ 64 - 1 : Nat) < 2 ^ tyW .n64 ∧ (0xFFFFFFFF : Nat) ≠ 0 ∧ tyW .i32 ≤ 32 ∧ isSignedTy .n64 = false := by decide +kernel

theorem witness_MovesAndAddressesComplete :
    let o : Opn := ⟨.v 4, .v 1, .v 2, .p 1, 0⟩
    let s := ready (.sel hh o (im .n32)) (two .n32 5 7)
    Ready hh 0 (some (dstD o false)) [srcW 2 o.sa false .n32, srcW 3 o.sb false .n32, (srcAny 4 o.sc false .n32).only (selIsP o.sc)] s
    ∧ Ready hh 0 (some (dstD o false)) [srcAny 2 o.sa false .n32] s
    ∧ Ready hh 0 (some { dstD o false with queueOk := true }) [] s
    ∧ Ready hh 0 (some { dstD o true with queueOk := false }) [] s
    ∧ Ready hh 0 (some (dstD o false)) [(srcTy 2 o.sa .n32).only (!o.sa.isImm), (srcTy 3 o.sb .n32).only (!o.sb.isImm)] s
    ∧ (⟨.n64, 1, false⟩ : IMod).sub.getLsbD 0 = true ∧ (im .n64).sub.getLsbD 0 = false := by decide +kernel

theorem witness_PredicateWritesComplete :
    let o : Opn := ⟨.p 1, .v 1, .v 2, .v 0, 0⟩
    let q : Opn := ⟨.p 0, .p 1, .p 2, .p 15, 0⟩
    let p : Option Dst := some { sel := .p 1, w64 := false, predOnly := true }
    let p0 : Option Dst := some { sel := .p 0, w64 := false, predOnly := true }
    Ready hh 0 p [srcTy 2 o.sa .i32, srcTy 3 o.sb .i32] (ready (.isetp hh o ⟨.i32, 5, false⟩) (two .i32 5 7))
    ∧ Ready hh 0 p [srcTy 2 o.sa .f32, srcTy 3 o.sb .f32] (ready (.fsetp hh o (fm .f32)) (two .f32 5 7))
    ∧ Ready hh 0 p0 [srcP 2 q.sa, srcP 3 q.sb, srcP 4 q.sc] (ready (.plop hh q 0x80) id)
    ∧ Ready hh 0 p0 [srcP 2 q.sa] (ready (.pmov hh { q with sb := .v 0, sc := .v 0 } 0) id)
    ∧ Ready hh 0 p [(srcAny 2 (.v 1) false .n32).only (selIsV (.v 1))] (ready (.pmov hh { o with sb := .v 0 } 2) (two .n32 5 7)) := by decide +kernel

theorem witness_CrossLaneReadsComplete :
    let o : Opn := ⟨.v 4, .v 1, .v 2, .v 3, 0⟩
    let s := ready (.shfl hh o 4) (setV 3 .n32 (fun _ => 9) ∘ two .n32 5 1)
    let sx := (srcAny 2 o.sa false .raw).only (selIsV o.sa)
    Ready hh 0 (some (dstD o false)) [sx, srcN32 3 o.sb, srcAny 4 o.sc false .raw] s ∧ Ready hh 0 (some (dstD o false)) [sx, srcN32 3 o.sb] s
    ∧ Ready hh 0 (some { dstD o false with scalarOk := false, queueOk := false }) [srcP 2 (.p 1)] s
    ∧ Ready hh 0 (some { dstD o true with queueOk := false, anyScalar := true }) [srcP 2 (.p 1)] s
    ∧ Ready hh 0 (some { dstD o false with anyScalar := true }) [srcAny 2 o.sa false .raw, (srcN32 3 (.special .width)).only (selUniform (.special .width))] s
    ∧ Ready hh 0 (some { dstD o false with anyScalar := true }) [srcTy 2 o.sa .n32] s
    ∧ Ready hh 0 (some { dstD o true with scalarOk := false, queueOk := false }) [srcAny 2 o.sa false .raw] s := by decide +kernel

/-- Lane k = WIDTH is lane 0, which is active under PG 15 and not under a false guard. -/
theorem witness_CrossLaneReadsComplete_wrlane :
    let o : Opn := ⟨.v 4, .s 1, .special .width, .v 0, 0⟩
    let s := ready (.wrlane hh o 0) (setS 1 .n32 7)
    Ready hh 0 (some { dstD o false with scalarOk := false, queueOk := false })
      [(srcAny 2 o.sa false .raw).only (selUniform o.sa), (srcN32 3 o.sb).only (selUniform o.sb)] s
    ∧ (s.rd 0 true ((srcN32 3 o.sb).only (selUniform o.sb)) 0).bits % s.width = 0 ∧ Mask.has (s.active hh) 0 = true
    ∧ Mask.has (s.active ⟨1, false, false, false⟩) 0 = false := by decide +kernel

theorem witness_FloatArithmeticCompletes :
    let o : Opn := ⟨.v 4, .v 1, .v 2, .v 3, 0⟩
    let own := fun (a : Src) => a.only (!a.sel.isImm)
    (∀ t ∈ [Ty.f32, .f16x2, .bf16x2],
      Ready hh 0 (some (dstD o false)) [srcTy 2 o.sa t, srcTy 3 o.sb t, srcTy 4 o.sc t] (ready (.ffma hh o (fm t)) (setV 3 t (fun _ => 0) ∘ two t 5 7))
      ∧ Ready hh 0 (some (dstD o false)) [srcTy 2 o.sa t, srcTy 3 o.sb t] (ready (.fadd hh { o with sc := .v 0 } (fm t)) (two t 5 7)))
    ∧ (∀ t ∈ [Ty.f16x2, .e4m3x4], Ready hh 0 (some (dstD o false)) [own (srcTy 2 o.sa t), own (srcTy 3 o.sb t), own (srcTy 4 o.sc .f32)]
      (ready (.dot2 hh { o with imm := 6 } (fm .f32)) (setV 3 .f32 (fun _ => 0) ∘ two t 5 7))) := by decide +kernel

theorem witness_FloatSelectionAndScalingComplete :
    let o : Opn := ⟨.v 4, .v 1, .v 2, .v 0, 0⟩
    let s := ready (.fmin hh o (fm .f32)) (two .f32 5 7)
    Ready hh 0 (some (dstD o false)) [srcTy 2 o.sa .f32, srcTy 3 o.sb .f32] s ∧ Ready hh 0 (some (dstD o false)) [srcTy 2 o.sa .f32] s
    ∧ Ready hh 0 (some (dstD o false)) [srcTy 2 o.sa .f32, srcTy 3 o.sb .i32] (ready (.fscl hh o (fm .f32)) (setV 2 .i32 (fun _ => 3) ∘ setV 1 .f32 (fun _ => 5))) := by
  decide +kernel

theorem witness_SpecialFunctionsComplete :
    Ready hh 0 (some (dstD ⟨.v 4, .v 1, .v 0, .v 0, 0⟩ false)) [srcTy 2 (.v 1) .f32] (ready (.frcp hh ⟨.v 4, .v 1, .v 0, .v 0, 0⟩ (fm .f32)) (two .f32 5 7))
    ∧ Ready hh 0 (some (dstD ⟨.v 4, .v 0, .v 0, .v 0, 0⟩ true)) [srcTy 2 (.v 0) .f64] (ready (.frcp hh ⟨.v 4, .v 0, .v 0, .v 0, 0⟩ (fm .f64)) (setV2 0 .f64 (fun _ => 5)))
    ∧ (0 : Rat) < 1 := by decide +kernel

theorem witness_ConversionsComplete :
    let o : Opn := ⟨.v 4, .v 1, .v 2, .v 3, 0⟩
    let d := some (dstD o false)
    Ready hh 0 d [(srcTy 2 o.sa .i32).reg] (ready (.cvt hh o (fm .f32)) (two .i32 5 7))
    ∧ Ready hh 0 d [(srcTy 2 o.sa .f32).reg, (srcTy 3 o.sb .f32).reg, (srcTy 4 o.sc .q4nx8).only true] (ready (.cvtq hh o (fm .q4nx8)) (setV 3 .q4nx8 (fun _ => 0) ∘ two .f32 5 7))
    ∧ Ready hh 0 d [(srcTy 2 o.sa .i32).reg, (srcTy 3 o.sb .i32).reg, (srcTy 4 o.sc .i8x4).reg] (ready (.pack hh o (fm .i8x4)) (setV 3 .i8x4 (fun _ => 0) ∘ two .i32 5 7))
    ∧ Ready hh 0 d [(srcTy 2 o.sa .f32).reg, (srcTy 3 o.sb .f32).reg] (ready (.pack hh o (fm .f16x2)) (two .f32 5 7))
    ∧ (∀ t ∈ [Ty.i8x4, .n8x4, .f16x2], Ready hh 0 d [(srcTy 2 o.sa t).reg] (ready (.unpk hh o (fm t)) (two t 5 7)))
    ∧ Ready hh 0 d [(srcTy 2 o.sa .q4nx8).reg, (srcN32 3 o.sb).reg, (srcTy 4 o.sc .f32).reg]
        (ready (.qdeq hh o (fm .f32)) (setV 3 .f32 (fun _ => 0) ∘ setV 2 .n32 (fun _ => 0) ∘ setV 1 .q4nx8 (fun _ => 5)))
    ∧ Ready hh 0 d [(srcTy 2 o.sa .f6hi).reg, (srcTy 3 o.sb .f6lo).reg] (ready (.f6join hh o (fm .e4m3x4)) (setV 2 .f6lo (fun _ => 0) ∘ setV 1 .f6hi (fun _ => 5)))
    ∧ Ty.e4m3x4.elems = 4 ∧ Ty.f16x2.elems ≠ 4 := by decide +kernel

theorem witness_RoundingErrorIsBounded : Fmt.f32 ∈ roundFormats ∧ (0 : Rat) ≤ 1 / 3 ∧ (1 / 3 : Rat) ≤ Fmt.f32.maxFin ∧ Fmt.f32.maxFin ≤ Fmt.f32.maxFin := by
  decide +kernel

/-- 1 ± 1/8 and 2 ± 1/8, whose sums and products are bounded. -/
theorem witness_BoundsContainTheExactResult :
    let v : List Val := [⟨0x3F800000, .of (some (1 / 8)), .f32⟩, ⟨0x40000000, .of (some (1 / 8)), .f32⟩, ⟨0x3F800000, .of (some 0), .f32⟩]
    v.length = 3 ∧ (∀ k, k < 3 → ((tyFmt .f32).decode (v.getD k ⟨0, .zero, .f32⟩).bits).isFin = true
      ∧ [(1 : Rat), 2, 1].getD k 0 = ((tyFmt .f32).decode (v.getD k ⟨0, .zero, .f32⟩).bits).rat
      ∧ (v.getD k ⟨0, .zero, .f32⟩).bnd = { x := some ([(1 / 8 : Rat), 1 / 8, 0].getD k 0) } ∧ 0 ≤ [(1 / 8 : Rat), 1 / 8, 0].getD k 0
      ∧ [(9 / 8 : Rat), 15 / 8, 1].getD k 0 - [(1 : Rat), 2, 1].getD k 0 ≤ [(1 / 8 : Rat), 1 / 8, 0].getD k 0
      ∧ [(1 : Rat), 2, 1].getD k 0 - [(9 / 8 : Rat), 15 / 8, 1].getD k 0 ≤ [(1 / 8 : Rat), 1 / 8, 0].getD k 0)
    ∧ (∀ op ∈ [FOp.add, .sub, .mul, .fma], ∀ c ∈ [true, false], ((fLane op .f32 .rn c v).2.1.x).isSome = true) := by decide +kernel

theorem witness_SettledComparisonsHold :
    (1 : Rat) ≤ 1 ∧ doubtOf (FVal.ofRat 1) (FVal.ofRat 4) { x := some 1 } { x := some 1 } = false
    ∧ doubtOf (FVal.ofRat 1) (FVal.ofRat 1) { x := some 0 } { x := some 0 } = false := by decide +kernel

/-! Bounds, memory, barriers, engines, the system. -/

theorem witness_BoundInstructionsComplete :
    let o : Opn := ⟨.v 4, .v 1, .v 2, .v 0, 0⟩
    let d := some (dstD o false)
    let any := fun (f : Nat) (x : Sel) => srcAny f x false .n32
    let s := ready (.bset hh o 0) (two .f32 5 7)
    let b : Opn := ⟨.s 1, .imm, .v 0, .v 0, 0x10000⟩
    let x := (srcN32 2 b.sa).only (selUniform b.sa)
    let q := ready (.bmode hh b 5) id
    Ready hh 0 d [any 2 o.sa] s ∧ Ready hh 0 d [any 2 o.sa, srcTy 3 o.sb .f32] s ∧ Ready hh 0 d [any 2 o.sa, any 3 o.sb] s
    ∧ Ready hh 0 d [any 2 o.sa, srcN32 3 o.sb] (ready (.bset hh o 1) (two .n32 5 7))
    ∧ s.trusted s.ctm.ctx = false
    ∧ Ready hh b.imm (some { dstD b false with vecOk := false, queueOk := false }) [x] q
    ∧ (BitVec.ofNat 32 (q.rd b.imm false x 0).bits).toNat / 2 ^ 21 = 0 ∧ (BitVec.ofNat 32 (q.rd b.imm false x 0).bits).extractLsb' 16 2 ≠ 3
    ∧ (0x30000 : W32).extractLsb' 16 2 = 3 ∧ (0x200000 : W32).toNat / 2 ^ 21 ≠ 0 := by decide +kernel

/-- A context whose descriptor says TRUST, where the feature is accepted: BCLR has its effect. -/
theorem witness_trusted : ∃ s : State, s.trusted s.ctm.ctx = true
    ∧ Ready hh 0 (some (dstD ⟨.v 4, .v 1, .v 0, .v 0, 0⟩ false)) [srcAny 2 (.v 1) false .n32] s :=
  ⟨ready (.bclr hh ⟨.v 4, .v 1, .v 0, .v 0, 0⟩ 0) (fun s => { (two .n32 5 7 s) with featack := [0x100, 0, 0, 0], mem := [(7, 0x40)] }),
    by decide +kernel, by decide +kernel⟩

/-- A region of one page at 0x10000, read-write, with budgets 0. -/
def oneRegion (s : State) : State := s.updCore 0 (fun c => { c with regions := [⟨0, 0, 0x10021, 1, 0, 0, 0, 0, 0, []⟩] })

theorem witness_BchkTestsTheBudget :
    let o : Opn := ⟨.p 1, .v 1, .s 4, .v 0, 0⟩
    let a := (srcTyAlso 3 o.sb .n64 [.i64]).only true
    let s := ready (.bchk hh o 0) (two .n32 5 7 ∘ setS 4 .n64 0x10000 ∘ oneRegion ∘ bounded)
    let wide := fun (s : State) => s.updSheaf 0 (fun y => { y with regs := { y.regs with v := SMap.set y.regs.v 1 { y.regs.vreg 1 with sh := lanesOf 16 (fun _ => 0x7F00) } } })
    let u := ready (.bchk hh { o with d := .v 0 } 1) (wide ∘ two .n32 5 7 ∘ setS 4 .n64 0x10000 ∘ oneRegion ∘ bounded)
    Ready hh 0 (some { sel := .p 1, w64 := false, predOnly := true }) [srcAny 2 o.sa false .n32, a] s
    ∧ Ready hh 0 none [srcAny 2 o.sa false .n32, a] s ∧ Ready hh 0 none [srcAny 2 o.sa false .n32, a] u
    ∧ (s.regCover s.port 0 0x10000).length = 1
    ∧ (∀ e ∈ s.regCover s.port 0 0x10000, s.regMalformed e = false ∧ budgetPasses e (s.rd 0 false (srcAny 2 o.sa false .n32) 0).bnd (some 5) = true
        ∧ budgetPasses e (u.rd 0 false (srcAny 2 o.sa false .n32) 0).bnd (some 5) = false) := by decide +kernel

/-- Local memory read on every lane; then a load with an acquire at POD. -/
theorem witness_LoadsComplete :
    let o := at4 (.v 2) (.v 0)
    let m : MMod := ⟨false, .dev, .rlx, .b32⟩
    let s := ready (.ld hh o m) (setS 4 .n64 0x1FFFC ∘ mapped)
    let ls := s.locs false .load 4 (s.active hh) (s.memAddr o false false)
    Ready hh o.imm (some (loadDst o .b32 false)) (addrSrcs o false false) s
    ∧ s.accTrap false .load 4 (loadRule .b32) (s.active hh) (s.memAddr o false false) = none
    ∧ ls.any (fun p => p.2.irrevocable) = false ∧ s.codedWait (ls.map (fun p => p.2.line)) = false
    ∧ s.linesFull (fun c => ls.foldl (fun c p => c.noteRead (s.memAddr o false false p.1) p.2) c) = false
    ∧ ls.length = 16 := by decide +kernel

theorem witness_LoadsComplete_scratchpad_and_constant :
    let o : Opn := ⟨.v 2, .v 0, .v 0, .v 0, 0xFFC⟩
    let m : MMod := ⟨false, .dev, .rlx, .b32⟩
    let s := ready (.lds hh o m) (fun s => s.updTeam 0 (fun y => { y with hdr := { y.hdr with scratch := 4096 } }))
    let k := at4 (.s 2) (.v 0)
    let q := ready (.ldk hh k m) (setS 4 .n64 0x10000 ∘ mapped
      ∘ (fun s => s.updCore 0 (fun c => { c with regions := [⟨0, 0, 0x10001, 1, 0, 0, 0, 0, 0, []⟩] })))
    (Ready hh o.imm (some (loadDst o .b32 false)) (addrSrcs o true false) s
      ∧ s.accTrap true .load 4 (loadRule .b32) (s.active hh) (s.memAddr o true false) = none)
    ∧ Ready hh k.imm (some (loadDst k .b32 true)) (addrSrcs k false true) q
    ∧ pickFault ((Mask.list (q.active hh)).filterMap (fun l => (q.ldkFault 4 (q.memAddr k false true l)).map (fun f => (l, f)))) 0 = none := by
  decide +kernel

/-- Remote memory: a page of device 3, reachable through a port that is up; and system memory. -/
def farPage (pa : Nat) (s : State) : State :=
  { s.updCore 0 (fun c => { c with tlb := [⟨0, 1, 16, BitVec.ofNat 64 (pa + 0x1B)⟩] }) with
    phase := 5, featack := [0x1FF, 0, 0, 0], peers := [3], ports := [(0, { up := true })], routes := [(3, [0])] }

theorem witness_BoundaryLoadsComplete :
    let o := at4 (.v 2) (.v 0)
    let m : MMod := ⟨false, .dev, .rlx, .b32⟩
    let s := ready (.ld hh o m) (setS 4 .n64 0x10000 ∘ farPage (2 ^ 51 + 3 * 2 ^ 40))
    let ls := s.locs false .load 4 (s.active hh) (s.memAddr o false false)
    let q := ready (.ld hh o ⟨false, .pod, .acq, .b32⟩) (setS 4 .n64 0x10000 ∘ mapped)
    let u : State := { s with issue := s.issue.map (fun p => { p with arrived := true, atBoundary := true }) }
    Ready hh o.imm (some (loadDst o .b32 false)) (addrSrcs o false false) s
    ∧ s.accTrap false .load 4 (loadRule .b32) (s.active hh) (s.memAddr o false false) = none
    ∧ (ls.find? (fun p => p.2.irrevocable)).isSome = true ∧ s.remoteTrap ls ((Mask.list (s.active hh)).map (s.memAddr o false false)) = none ∧ s.cur.arrived = false ∧ u.cur.arrived = true
    ∧ AtBoundary s ∧ BeforeBoundary (behind s)
    ∧ Ready hh o.imm (some (loadDst o .b32 false)) (addrSrcs o false false) u ∧ Ready hh o.imm (some (loadDst o .b32 false)) (addrSrcs o false false) (behind s)
    ∧ Ready hh o.imm (some (loadDst o .b32 false)) (addrSrcs o false false) q ∧ AtBoundary q := by
  dsimp only
  and_intros <;> first | exact tidy_of _ (by decide +kernel) | decide +kernel

theorem witness_StoresComplete :
    let o := at4 (.v 0) (.v 1)
    let s := ready (.st hh o ⟨false, .dev, .rlx, .b32⟩) (setV 1 .n32 (fun l => l) ∘ setS 4 .n64 0x1FFFC ∘ mapped)
    let ls := s.locs false .store 4 (s.active hh) (s.memAddr o false false)
    let p : Opn := ⟨.v 0, .v 0, .v 0, .v 1, 0xFFC⟩
    let q := ready (.sts hh p ⟨false, .dev, .rlx, .b32⟩) ((fun s => s.updTeam 0 (fun y => { y with hdr := { y.hdr with scratch := 4096 } })) ∘ setV 1 .n32 (fun l => l))
    Ready hh o.imm none (addrSrcs o false false ++ storeSrcs o .b32) s
    ∧ s.accTrap false .store 4 (storeRule .b32) (s.active hh) (s.memAddr o false false) = none ∧ s.storeBudget o .b32 false (s.active hh) = none
    ∧ ls.any (fun p => p.2.irrevocable) = false
    ∧ s.linesFull (fun c => ls.foldl (fun c p => c.noteWrite (s.memAddr o false false p.1) p.2) c) = false
    ∧ Ready hh p.imm none (addrSrcs p true false ++ storeSrcs p .b32) q
    ∧ q.accTrap true .store 4 (storeRule .b32) (q.active hh) (q.memAddr p true false) = none ∧ q.storeBudget p .b32 true (q.active hh) = none := by decide +kernel

theorem witness_BoundaryStoresComplete :
    let o := at4 (.v 0) (.v 1)
    let s := ready (.st hh o ⟨false, .pod, .rel, .b32⟩) (setV 1 .n32 (fun l => l) ∘ setS 4 .n64 0x10000 ∘ mapped)
    let f := ready (.st hh o ⟨false, .dev, .rlx, .b32⟩) (setV 1 .n32 (fun l => l) ∘ setS 4 .n64 0x10000 ∘ farPage (2 ^ 51 + 3 * 2 ^ 40))
    let ls := fun (s : State) => s.locs false .store 4 (s.active hh) (s.memAddr o false false)
    let ok := fun (s : State) => Ready hh o.imm none (addrSrcs o false false ++ storeSrcs o .b32) s
      ∧ s.accTrap false .store 4 (storeRule .b32) (s.active hh) (s.memAddr o false false) = none ∧ s.storeBudget o .b32 false (s.active hh) = none
      ∧ s.remoteTrap (ls s) ((Mask.list (s.active hh)).map (s.memAddr o false false)) = none
    ok s ∧ ok f ∧ ok (behind s) ∧ (ls f).any (fun p => p.2.irrevocable) = true ∧ s.cur.released = false
    ∧ AtBoundary s ∧ AtBoundary f ∧ BeforeBoundary (behind s) := by
  dsimp only
  and_intros <;> first | exact tidy_of _ (by decide +kernel) | decide +kernel

/-- A misaligned lane; a scratchpad range that leaves SCRATCH at its last byte; a load of the page below. -/
theorem witness_AccessFaultsAreRaised :
    (let o := at4 (.v 2) (.v 0)
     let s := ready (.ld hh o ⟨false, .dev, .rlx, .b32⟩) (setS 4 .n64 0x10002 ∘ mapped)
     Ready hh o.imm (some (loadDst o .b32 false)) (addrSrcs o false false) s
     ∧ (s.accTrap false .load 4 (loadRule .b32) (s.active hh) (s.memAddr o false false)).map (fun c => (c.cause, c.lanes)) = some (cALIGN, 0xFFFF))
    ∧ (let o := at4 (.v 0) (.v 1)
       let s := ready (.st hh o ⟨false, .dev, .rlx, .b32⟩) (setV 1 .n32 (fun l => l) ∘ setS 4 .n64 0x10002 ∘ mapped)
       Ready hh o.imm none (addrSrcs o false false ++ storeSrcs o .b32) s
       ∧ (s.accTrap false .store 4 (storeRule .b32) (s.active hh) (s.memAddr o false false)).isSome = true)
    ∧ (let s := ready (.nop hh none0 0) (fun s => s.updTeam 0 (fun y => { y with hdr := { y.hdr with scratch := 4096 } }))
       s.laneFault true .load 4 (fun _ => none) 4092 = none ∧ s.laneFault true .load 4 (fun _ => none) 4096 = some { cause := cREGION, addr := 4096, akind := 2 })
    ∧ (let s := ready (.nop hh none0 0) id
       s.xlate s.port 0 0x10000 = .page ∧ (mapped s).xlate s.port 0 0x10000 = .leaf 0x2001B 16 ∧ (mapped s).regCover s.port 0 0x10000 = []
       ∧ (mapped s).lostAt 0x20000 = none ∧ (mapped { s with absent := 1 }).lostAt 0x20000 = some 0 ∧ (mapped s).lostAt ((mapped s).regionBase 0) = none
       ∧ (match (mapped s).globalLoc s.port 0 0x10000 .atomic with | .ok _ => true | _ => false) = true
       ∧ (match (mapped s).globalLoc s.port 0 0x10000 .fetch with | .error f => decide (f.cause = cPERM) | _ => false) = true)
    ∧ (let s := (oneRegion ∘ mapped) (ready (.nop hh none0 0) id)
       let e : RegEntry := ⟨0, 0, 0x10021, 1, 0, 0, 0, 0, 0, []⟩
       s.regCover s.port 0 0x10000 = [e] ∧ s.regMalformed e = false ∧ s.regMalformed { e with w5 := 2 ^ 40 } = true ∧ s.regMalformed { e with w6 := 1 } = true)
    ∧ (let w : State := { State.reset with mem := Memory.write [] 0x1000 (leBytes 8 0x2001 ++ leBytes 8 0x3 ++ leBytes 8 (2 ^ 63 + 1)) }
       w.lostAt 0x1000 = none ∧ (w.rd64 0x1000).testBit 0 = true ∧ (w.rd64 0x1000).testBit 1 = false ∧ (w.rd64 0x1008).testBit 1 = true
       ∧ bitsAt (w.rd64 0x1010) 63 52 ≠ 0 ∧ w.rd64 0x1018 = 0) := by decide +kernel

/-- A line with 64-bit elements, one group written whole and one in part; a coded line with an element written and one lost. -/
theorem witness_LineBoundsCoverTheirElements :
    (0 : Rat) ≤ 7 / 4 ∧ (7 / 4 : Rat) ≤ 7 / 4 * pow2 (((2047 : Nat) : Int) - 2047) ∧ (0 : Rat) < 7 / 4
    ∧ (List.replicate 8 (0xFFE00000 : EB32)).length = 8
    ∧ (let w : LineWrite := { line := .mem 0, wide := true, bytes := (List.range 24).map (fun k => (k, 1)), elems := [⟨0, 8, 0x7FE00000⟩, ⟨8, 8, 0⟩, ⟨16, 8, 0⟩] }
       w.untracked = false ∧ lbKind 0x2000000000000000 ≠ 0 ∧ covers w.bytes 0 16 = true ∧ covers w.bytes 16 16 = false ∧ covers w.bytes 0 128 = false
       ∧ covers ((List.range 128).map (fun k => (k, 1))) 0 128 = true)
    ∧ (let d : LineData := { bytes := List.replicate 128 0, lb := 0x3000000000000000, lostEls := [3] }
       let w : LineWrite := { line := .coded 64 0 8 0 0, wide := true, bytes := [(0, 1)], elems := [⟨0, 8, 5⟩, ⟨120, 8, 6⟩] }
       w.line.isSys = false ∧ d.poison = false ∧ anyPoison w.elems = false ∧ w.elems.Pairwise (fun a b => a.ofs / 8 ≠ b.ofs / 8)
       ∧ (3 ∈ d.lostEls ∧ ∀ e ∈ w.elems, e.ofs / 8 ≠ 3) ∧ d.fresh = [] ∧ d.halfPoi = (false, false) ∧ lbKind d.lb ≠ 0) := by decide +kernel

/-- Coefficients that use planes 1 to 3; a zero block and a block with an infinity; a stream that is poisoned; a region entry apart from its block. -/
theorem witness_CodedMemoryRoundTrips :
    (∀ x ∈ ([14, -6, 0, 2] : List Int), x.natAbs < 2 ^ (3 + 1) ∧ x.natAbs % 2 ^ 1 = 0)
    ∧ (List.replicate 16 (FVal.fin true 0)).all FVal.isZero = true ∧ (FVal.inf true :: List.replicate 15 (.fin false 1)).all FVal.isZero = false
    ∧ (fbcDecode (List.replicate 128 true)).poison = true ∧ (fbcDecode ([false, true] ++ List.replicate 11 false ++ [true] ++ List.replicate 200 false)).poison = false
    ∧ (FVal.inf false).isFin = false ∧ (FVal.fin false 1).rat = 1
    ∧ (let s := State.reset
       Memory.wf s.mem = true
       ∧ ((s.descAddr 0, 64) :: [(0x1000, 2 * 8), (0x2000, 8), (s.regionBase 0 + 64 * 4 + 0x20, 16)]).Pairwise (fun a b => a.1 + a.2 ≤ b.1 ∨ b.1 + b.2 ≤ a.1)) := by
  decide +kernel

theorem witness_AtomicsComplete :
    let o : Opn := ⟨.v 9, .s 4, .v 0, .v 8, 0x08100000⟩
    let c : Opn := ⟨.v 9, .s 4, .v 7, .v 8, 0x08100000⟩
    let d := some { dstD o false with scalarOk := false, queueOk := false }
    let src := fun (f : Nat) (x : Sel) => (srcTy f x .n32).only (selIsS x || selIsV x)
    let set := setV 7 .n32 (fun _ => 0) ∘ setV 8 .n32 (fun _ => 1) ∘ setS 4 .n64 0x10004 ∘ mapped
    let s := ready (.atom hh o ⟨false, .dev, .rlx, .b32⟩) set
    let far := ready (.atom hh o ⟨false, .dev, .rlx, .b32⟩) (setV 8 .n32 (fun _ => 1) ∘ setS 4 .n64 0x10004 ∘ farPage (2 ^ 51 + 3 * 2 ^ 40))
    let ls := fun (s : State) (a : Acc) (b : Bool) => s.locs false a 4 (s.active hh) (s.memAddr o false b)
    (∀ x ∈ [s, far, behind s], Ready hh o.imm d (addrSrcs o false false ++ [src 4 o.sc]) x
      ∧ x.accTrap false .atomic 4 (x.atomicRule none) (x.active hh) (x.memAddr o false false) = none ∧ x.remoteTrap (ls x .atomic false) ((Mask.list (x.active hh)).map (x.memAddr o false false)) = none)
    ∧ ((ls far .atomic false).find? (fun p => p.2.irrevocable)).isSome = true ∧ far.cur.arrived = false
    ∧ (ls s .atomic false).any (fun p => p.2.irrevocable) = false
    ∧ s.atomBudget (ls s .atomic false) (s.memAddr o false false) .n32
        (s.atomPlan (ls s .atomic false) 4 .n32 s.strict s.boundsOn (fun l v => some (atomVal 0 .n32 v (s.rd o.imm false (src 4 o.sc) l)))) = none
    ∧ Ready hh c.imm d (addrSrcs c false true ++ [src 3 c.sb, src 4 c.sc]) s
    ∧ s.accTrap false .casFail 4 (s.atomicRule none) (s.active hh) (s.memAddr c false true) = none
    ∧ Ready hh o.imm none (addrSrcs o false false ++ [src 4 o.sc]) s
    ∧ s.accTrap false .atomic 4 (s.atomicRule (some (0, .n32, .dev))) (s.active hh) (s.memAddr o false false) = none
    ∧ AtBoundary s ∧ AtBoundary far ∧ BeforeBoundary (behind s) := by
  dsimp only
  and_intros <;> first | exact tidy_of _ (by decide +kernel) | decide +kernel

/-- A scratchpad of 4096 bytes, its words at 0x40 full. -/
def full40 (s : State) : State :=
  s.updTeam 0 (fun y => { y with hdr := { y.hdr with scratch := 4096 }, spfe := [(0x10, true)] })

theorem witness_ConditionalAccessesComplete :
    let o : Opn := ⟨.v 2, .v 0, .v 0, .v 0, 0x40⟩
    let e : Opn := ⟨.v 0, .v 0, .v 0, .v 1, 0x40⟩
    let m : MMod := ⟨false, .dev, .rlx, .b32⟩
    let w : Opn := ⟨.v 9, .s 4, .v 0, .v 8, 0x08100000⟩
    let src := fun (f : Nat) (x : Sel) => (srcTy f x .n32).only (selIsS x || selIsV x)
    let s := ready (.ldf hh o m) full40
    let t := ready (.ste hh e m) (setV 1 .n32 (fun l => l) ∘ full40)
    let f := ready (.feset hh { o with d := .v 0 } m) full40
    let a := ready (.waita hh w m) (setV 8 .n32 (fun _ => 1) ∘ setS 4 .n64 0x10004 ∘ mapped)
    Ready hh o.imm (some { dstD o false with scalarOk := false, queueOk := false }) (addrSrcs o true false) s
    ∧ s.accTrap true .load 4 (fun _ => none) (s.active hh) (s.memAddr o true false) = none
    ∧ Ready hh e.imm none (addrSrcs e true false ++ storeSrcs e .b32) t
    ∧ t.accTrap true .store 4 (fun _ => none) (t.active hh) (t.memAddr e true false) = none
    ∧ Ready hh o.imm none (addrSrcs o true false) f
    ∧ Ready hh w.imm (some { dstD w false with scalarOk := false, queueOk := false }) (addrSrcs w false false ++ [src 4 w.sc]) a
    ∧ a.accTrap false .load 4 waitRule (a.active hh) (a.memAddr w false false) = none
    ∧ (feWords (s.spAbs 0 0x40) false).all (fun k => SMap.getD (s.team 0).spfe k false) = true
    ∧ (feWords (s.spAbs 0 0x44) false).all (fun k => !SMap.getD (s.team 0).spfe k false) = true
    ∧ 15 < s.ctm.hdr.width ∧ AtBoundary s ∧ AtBoundary t ∧ AtBoundary a ∧ BeforeBoundary (behind s) := by
  dsimp only
  and_intros <;> first | exact tidy_of _ (by decide +kernel) | decide +kernel

theorem witness_FencesSealsAndHintsComplete :
    let o := at4 (.v 0) (.v 0)
    let s := ready (.hint hh o ⟨false, .dev, .rlx, .b8⟩) (setS 4 .n64 0x10000 ∘ farPage (2 ^ 50))
    let n := ready (.hint hh o ⟨false, .dev, .rlx, .b8⟩) (setS 4 .n64 0x10000 ∘ mapped)
    let q := ready (.hint hh o ⟨false, .dev, .rlx, .b8⟩) (setS 4 .n64 0x10000 ∘ oneRegion)
    let z := ready (.hint hh o ⟨false, .dev, .rlx, .b8⟩) (setS 4 .n64 0x10000
      ∘ (fun s => s.updCore 0 (fun c => { c with regions := [⟨0, 0, 0x10801, 1, 0, 0, 0, 0, 0, []⟩] })))
    (∀ x ∈ [s, n, q, z], Ready hh o.imm none (addrSrcs o false true) x ∧ Ready hh o.imm none (addrSrcs o false false) x)
    ∧ (s.active hh ≠ 0 ∧ s.xlate s.port s.ctm.ctx 0x10000 = .leaf (2 ^ 50 + 0x1B) 16 ∧ paSystem (leafPa (2 ^ 50 + 0x1B) 16 0x10000) = true)
    ∧ (n.xlate n.port n.ctm.ctx 0x10000 = .leaf 0x2001B 16 ∧ paSystem (leafPa 0x2001B 16 0x10000) = false)
    ∧ s.memAddr o false true (lowest (s.active hh)) = 0x10000
    ∧ s.active ⟨1, false, false, false⟩ = 0 ∧ q.xlate q.port q.ctm.ctx 0x10000 = .page
    ∧ (let e : RegEntry := ⟨0, 0, 0x10021, 1, 0, 0, 0, 0, 0, []⟩; q.regCover q.port q.ctm.ctx 0x10000 = [e] ∧ q.regMalformed e = false ∧ e.state = stSHARED)
    ∧ (let e : RegEntry := ⟨0, 0, 0x10801, 1, 0, 0, 0, 0, 0, []⟩; z.regCover z.port z.ctm.ctx 0x10000 = [e] ∧ z.regMalformed e = false ∧ e.state = stRO ∧ e.sealed = true)
    ∧ s.regCover s.port s.ctm.ctx 0x10000 = [] ∧ AtBoundary q ∧ BeforeBoundary (behind q) := by
  dsimp only
  and_intros <;> first | exact tidy_of _ (by decide +kernel) | decide +kernel

/-- One sheaf of 16 lanes arrives with all of them, and with one lane short. -/
theorem witness_BarriersCountAndRelease :
    let s := ready (.barw hh none0 1) (fun s => s.updTeam 0 (fun t => t.setBar 1 { exp := 1 }))
    SheavesTidy s ∧ (0xFFFF : Mask) ≠ 0 ∧ s.committedLive 0 &&& ~~~(0xFFFF : Mask) = 0 ∧ s.committedLive 0 &&& ~~~(0x7FFF : Mask) ≠ 0
    ∧ 0 < ((s.team 0).bar 1).exp ∧ ((s.team 0).bar 1).exp ≤ ((s.team 0).bar 1).arr + 1 ∧ ((s.team 0).bar 2).exp = 0 := by
  dsimp only
  and_intros <;> first | exact allTidy_of _ (by decide +kernel) | decide +kernel

theorem witness_BarrierInstructionsComplete :
    let n := (srcTy 2 (.imm) .n32).only true
    let s := ready (.bari hh { none0 with sa := .imm, imm := 32 } 1) id
    let p := (srcAny 2 (.v 3) false .n32).only true
    let q := ready (.barq hh { none0 with sa := .v 3 } 1) (setV 3 .n32 (fun l => l))
    Ready hh 32 none [n] s ∧ (s.rd 32 false n (s.readLane (s.active hh))).bits = 32 ∧ (s.rd 33 false n (s.readLane (s.active hh))).bits = 33
    ∧ Ready hh 0 none [] s ∧ Ready hh 0 (some { dstD { none0 with d := .v 3 } false with queueOk := false, anyScalar := true }) [] s
    ∧ Ready hh 0 none [p] q ∧ AtBoundary s ∧ AtBoundary q ∧ BeforeBoundary (behind s) := by
  dsimp only
  and_intros <;> first | exact tidy_of _ (by decide +kernel) | decide +kernel

theorem witness_TeamInstructionsComplete :
    let pool := fun (s : State) => s.updTeam 0 (fun t => { t with hdr := { t.hdr with xpool := 2 } })
    let s := ready (.xacq hh none0 1) pool
    let c : Opn := ⟨.v 0, .c 3, .imm, .v 0, 2⟩
    let l := ready (.lnch hh { none0 with sa := .v 10 } 0) (setV2 10 .n64 (fun _ => 64) ∘ (fun s => { s with featack := [0x80, 0, 0, 0] }))
    Ready hh 0 none [] s ∧ s.csh.ext &&& 3 = 0 ∧ Mask.count ((3 : BitVec 4).setWidth 64) ≤ s.freeBlocks s.csh.team (s.ctm.quadOf s.csh)
    ∧ s.csh.ext &&& 7 = 0 ∧ s.ctm.hdr.xpool < Mask.count ((7 : BitVec 4).setWidth 64)
    ∧ Ready hh 2 none [fieldOk 2 true, (srcTy 3 .imm .n64).only true] (ready (.wtc hh c 0) id)
    ∧ Ready hh 0 none [fieldOk 1 true] s ∧ s.qbindTrap 0 1 = false
    ∧ Ready hh 0 (some { dstD { none0 with d := .v 4 } true with queueOk := false, anyScalar := true }) [fieldOk 2 true] s
    ∧ s.feat 0 7 = false ∧ l.feat 0 7 = true ∧ Ready hh 0 none [(srcTy 2 (.v 10) .n64).only true] l
    ∧ Mask.of 64 (fun k => Mask.has (l.active hh) k && decide ((l.rd 0 false ((srcTy 2 (.v 10) .n64).only true) k).bits % 64 ≠ 0)) = 0
    ∧ l.csh.openChunk? = none ∧ AtBoundary s ∧ BeforeBoundary (behind s) := by
  dsimp only
  and_intros <;> first | exact tidy_of _ (by decide +kernel) | decide +kernel

/-- A team with four tiles and a scratchpad, whose bytes at 0x40 hold the first shape record of note 18. -/
def engineTeam (s : State) : State :=
  s.updTeam 0 (fun t => { t with hdr := { t.hdr with acc := 4, scratch := 65536 }
                                 sp := Memory.write [] 0x40 (leBytes 8 0x30010000 ++ leBytes 8 0x0100000000000000 ++ leBytes 8 0x3007 ++ leBytes 8 0x000800900000
                                   ++ leBytes 8 0 ++ leBytes 8 0x0020000000000000) })

theorem room_of (s : State) (f : Chunk → Chunk) (h : decide (s.linesFull f = false ∧ s.csh.openChunk? = none) = true) : CmdRoom s f := by
  have k := of_decide_eq_true h
  exact ⟨k.1, fun c e => by rw [k.2] at e; cases e⟩

theorem witness_EngineCommandsAreHeld :
    let set := setV 7 .n32 (fun l => l) ∘ setS 5 .f32 0x3F800000 ∘ setS 2 .n32 0x1000 ∘ setS 1 .n32 0x40 ∘ setS 3 .n64 0x10000
    let s := ready (.mma hh ⟨.v 0, .s 1, .s 2, .v 0, 0x02800003⟩ 0x70) (set ∘ engineTeam)
    let a : Opn := ⟨.v 0, .s 1, .s 2, .v 0, 0x02800003⟩
    let f := fragBytes .bf16x2
    CmdRoom s id ∧ CmdRoom s (fun c => c.noteRead 0 (s.spLoc 0x40))
    ∧ (Ready hh 0x02800003 none (fragSrcs 2 a.sa ++ fragSrcs 3 a.sb ++ scaleSrcs a) s ∧ s.tileTrap 3 false = none
      ∧ s.fragTrap a.sa 1 2 f = none ∧ s.fragTrap a.sb 2 3 f = none)
    ∧ Ready hh 0 none [] s ∧ (Ready hh 0 none [scalar32 2 (.s 1)] s ∧ Ready hh 0 none [scalar64 2 (.s 3)] s ∧ (s.rd 0 false (scalar64 2 (.s 3)) 0).bits % 2 ^ 56 % 128 = 0)
    ∧ (Ready hh 0 none [scalar64 2 (.s 3), scalar32 3 (.s 1), (srcTy 4 (.s 5) .f32).only true] s ∧ s.ofsTrap (s.capOfs (scalar32 3 (.s 1))) 64 32 = none)
    ∧ (Ready hh 0 none [scalar32 2 (.s 1), (srcTy 3 (.v 7) .n32).only true] s ∧ s.bindTrap (.v 7) 4 3 = none ∧ s.ofsTrap 0x40 64 64 = none ∧ s.gathWaiting 0 = false)
    ∧ (Ready hh 0 none [scalar32 2 (.s 1)] s ∧ s.shapeTrap (s.capOfs (scalar32 2 (.s 1))) false = none)
    ∧ (s.ofsTrap (s.shapeAt 0x40).daddr 64 f = none ∧ s.shapeTrap 0x40 true = none) := by
  dsimp only
  and_intros <;> first | exact room_of _ _ (by decide +kernel) | decide +kernel

theorem witness_SpcmpCompletes :
    let x : Src := ⟨2, .v 0, true, .ty .f16x2 [], .f16x2, true⟩
    let s := ready (.spcmp hh { none0 with d := .v 4 } 0x60) (setV 1 .f16x2 (fun _ => 5) ∘ setV 0 .f16x2 (fun _ => 7))
    Ready hh 0 (some { dstD { none0 with d := .v 4 } true with scalarOk := false }) [x, srcTy 2 (.v 1) .f16x2] s
    ∧ Ready hh 0 (some { dstD { none0 with d := .v 4 } false with scalarOk := false }) [srcTy 2 (.v 1) .i8x4] (ready (.spcmp hh none0 0xB0) (setV 1 .i8x4 (fun _ => 5))) := by
  decide +kernel

theorem witness_SystemInstructionsComplete :
    let d : Dst := { dstD { none0 with d := .s 3 } true with queueOk := false, anyScalar := true }
    let s := ready (.srd hh { none0 with d := .s 3, imm := 0x10 } 0) id
    let q := ready (.swr hh { none0 with sa := .s 1, imm := 1 } 0) (setS 1 .n64 64 ∘ (fun s => s.updSheaf 0 (fun x => { x with hm := true })))
    Ready hh 0x10 (some d) [] s ∧ s.sysReg 0x10 = some 0 ∧ s.sysReg 5 = none ∧ Ready hh 1 none [(srcAny 2 (.s 1) true .n64).only true] q ∧ q.csh.hm = true
    ∧ Ready hh 100 none [] s ∧ AtBoundary s ∧ AtBoundary q ∧ BeforeBoundary (behind s) := by
  dsimp only
  and_intros <;> first | exact tidy_of _ (by decide +kernel) | decide +kernel

theorem witness_SoftwareTrapsRaise :
    let s := ready (.trap hh { none0 with imm := 7 } 0) id
    Ready hh 7 none [] s ∧ s.active hh ≠ 0 ∧ s.active ⟨1, false, false, false⟩ = 0 ∧ Ready ⟨1, false, false, false⟩ 7 none [] s
    ∧ AtBoundary s ∧ BeforeBoundary (behind s) := by
  dsimp only
  and_intros <;> first | exact tidy_of _ (by decide +kernel) | decide +kernel

theorem witness_SoftwareTrapsRaise_frames :
    (255 : Nat) < 256 ∧ (15 : Nat) < 16 ∧ (7 : Nat) < 8 ∧ (3 : Nat) < 4 ∧ (∀ r, some 255 = some r → r < 256) := by
  refine ⟨by decide, by decide, by decide, by decide, fun r h => ?_⟩
  cases h; decide

theorem witness_TrapsEnterTheHandler :
    let s := ready (.trap hh { none0 with imm := 7 } 0) withHandler
    let n := s.updSheaf 0 (fun x => { x with hm := true })
    (∀ x ∈ [s, n, behind s], x.csh.nwLast = false ∧ (SMap.get? x.sheaves x.cur.sheaf).isSome = true)
    ∧ s.csh.tidy ∧ n.csh.tidy ∧ (behind s).csh.tidy ∧ s.csh.close.uncommitted = false ∧ (behind s).csh.close.uncommitted = true
    ∧ cSWTRAP < 0x20 ∧ s.ctm.hdr.trappc ≠ 0 ∧ s.csh.regs.routine = false ∧ s.csh.hm = false ∧ n.csh.hm = true
    ∧ s.targetBad s.csh.core s.ctm.ctx s.ctm.hdr.trappc = false ∧ n.ended.contains n.ctm.ctx = false := by
  dsimp only
  and_intros <;> first | exact tidy_of _ (by decide +kernel) | decide +kernel

theorem witness_EretReturnsFromTheHandler :
    let s := ready (.eret hh none0 0) (fun s => s.updSheaf 0 (fun x => { x with hm := true, tg := 3, savedPc := List.replicate 16 128, frame := { epc := 68 } }))
    let o := ready (.eret hh none0 0) id
    Ready hh 0 none [] s ∧ Ready hh 0 none [] o ∧ (SMap.get? s.sheaves s.cur.sheaf).isSome = true ∧ o.csh.hm = false ∧ s.csh.hm = true
    ∧ s.csh.frame.epc.toNat < 2 ^ 56 ∧ pcMalformed s.csh.frame.epc.toNat = false ∧ AtBoundary s ∧ BeforeBoundary (behind s) := by
  dsimp only
  and_intros <;> first | exact tidy_of _ (by decide +kernel) | decide +kernel

/-! Events. -/

/-- Context 0 with a valid descriptor, a page table whose first gigabyte is mapped at 2^30, one swap slot and one save area; PHASE 5, every feature
accepted; the page at 0x10000 held by the green's unit. -/
def desc0 : Nat := 2 ^ 63 + 0x1000 + 12 * 2 ^ 384 + 2 ^ 400 + 2 ^ 416
def table0 : Memory :=
  Memory.write (Memory.write (Memory.write (Memory.write [] 0 (leBytes 64 desc0)) 0x1000 (leBytes 8 0x2001)) 0x2000 (leBytes 8 0x3001)) 0x3000 (leBytes 8 0x4000001B)
def opened (s : State) : State :=
  { s with phase := 5, featack := [0x1FF, 0x1F, 0, 0], parts := [(0, { ctx := some 0 })], mem := table0, gtlb := [⟨0, 1, 16, 0x2001B⟩] }

/-- The sheaf of `ready`, nothing issuing. -/
def idle : State := { ready (.nop hh none0 0) id with issue := [] }

/-- A sheaf whose lanes stand at two slots of one line. -/
def diverged (s : State) : State :=
  s.updSheaf 0 (fun x => { x with regs := { x.regs with pc := List.replicate 8 0 ++ List.replicate 8 1 }, pickWait := 256, passes := [(1, 64)] })

/-- A ready sheaf that has waited long, under a lock and without one; a quadrant with none; a sheaf with two groups, one with 64 passes. -/
theorem witness_QuadrantPicksAndVotes :
    let lk := idle.updCore 0 (fun c => { c with lock := [(0, (0, 31))] })
    let none' : State := { idle with sheaves := [] }
    let two' := diverged idle
    SheavesTidy idle ∧ idle.quadSheaves 0 0 = [0] ∧ idle.sheafFree 0 = true ∧ idle.canIssue 0 0 0 ≠ [] ∧ idle.groups 0 = [(0, 0xFFFF)]
    ∧ SMap.get? (idle.core 0).lock 0 = none ∧ SMap.get? (lk.core 0).lock 0 = some (0, 31) ∧ lk.canIssue 0 0 0 ≠ []
    ∧ SheavesTidy none' ∧ none'.quadSheaves 0 0 = []
    ∧ SheavesTidy two' ∧ 256 ≤ (two'.sheaf 0).pickWait ∧ two'.groups 0 = [(0, 0xFF), (1, 0xFF00)] ∧ 64 ≤ (two'.sheaf 0).passOf 1
    ∧ two'.able 0 0 0 false (0, 0xFF) = true := by
  dsimp only
  and_intros <;> first | exact allTidy_of _ (by decide +kernel) | decide +kernel

theorem witness_IssueEventsComplete :
    let l31 := idle.updCore 0 (fun c => { c with lock := [(0, (0, 31))] })
    let l32 := idle.updCore 0 (fun c => { c with lock := [(0, (0, 32))] })
    let w := opened idle
    SMap.get? (l31.core 0).lock 0 = some (0, 31) ∧ SMap.get? (l32.core 0).lock 0 = some (0, 32)
    ∧ (let f := fromMemory idle
       let g := f.updCore 0 (fun c => { c with icache := [(0, 0, lineWith 0)] })
       (g.core 0).icache.filter (fun e => e.2.1 = 0 / 64) = [(0, 0 / 64, lineWith 0)] ∧ (match g.fetchLoc 0 0 (64 * (0 / 64)) with | .ok _ => true | _ => false) = true)
    ∧ w.walk 0 0x12345 = .leaf 0x4000001B 30 ∧ SheavesTidy { w with absent := 1 }
    ∧ ({ w with absent := 1 } : State).walk 0 0x12345 = .dieLost 0 ∧ (w.teams.find? (fun p => p.2.ctx = 0 && p.2.status ≠ .ended)).isSome = true := by
  dsimp only
  and_intros <;> first | exact allTidy_of _ (by decide +kernel) | decide +kernel

/-- A chunk with one store, closed, in a team that runs. -/
def oneStore : State :=
  after (ready (.st ⟨15, false, false, true⟩ (at4 (.v 0) (.v 1)) ⟨false, .dev, .rlx, .b32⟩) (setV 1 .n32 (fun _ => 0x55) ∘ setS 4 .n64 0x10004 ∘ mapped))

/-- A sheaf that does not exist awaits no commit. -/
theorem awaiting_absent (s : State) (j : Nat) (h : SMap.get? s.sheaves j = none) : s.awaiting j = none := by
  unfold State.awaiting State.sheaf SMap.getD
  rw [h]; rfl

theorem absent_of_one {s : State} {x : Sheaf} (h : s.sheaves = [(0, x)]) (j : Nat) (hj : j ≠ 0) : SMap.get? s.sheaves j = none := by
  have k : ¬ 0 = j := fun e => hj e.symm
  rw [h]; simp [SMap.get?, k]

theorem sheaves_oneStore : ∃ x, oneStore.sheaves = [(0, x)] := by
  have h : oneStore.sheaves.map (·.1) = [0] := by decide +kernel
  match k : oneStore.sheaves with
  | [] => rw [k] at h; cases h
  | [(0, x)] => exact ⟨x, rfl⟩
  | (n + 1, x) :: r => rw [k] at h; cases h
  | (0, x) :: y :: r => rw [k] at h; cases h

/-- The token clause: sheaf 0 holds die 0's token and has read the line sheaf 1's closed chunk writes. -/
def tokenState : State :=
  { opened State.reset with
    teams := [(0, { status := .resident })]
    sheaves := [(0, { chunks := [{ id := 1, count := 1, reads := [.mem 7] }] }), (1, { chunks := [{ id := 1, count := 1, closed := true, writes := [.mem 7], squashes := 4 }] })]
    tokens := [(0, (0, 1, 7))] }

theorem witness_RoundsCommitChunks :
    (SheavesTidy oneStore ∧ MemCanonical oneStore ∧ oneStore.tokens = [] ∧ oneStore.pubs = [] ∧ (∀ j, j ≠ 0 → oneStore.awaiting j = none)
      ∧ (match oneStore.awaiting 0 with
         | some c => oneStore.accepts 0 c && decide (c.heldCmds = []) && (c.held.filterMap Held.write?).all (fun w => !w.line.isCoded) && decide (c.held.length = 1)
         | none => false) = true
      ∧ (∀ p ∈ oneStore.teams, ∀ k ∈ p.2.cmds, k.stage ≠ .done))
    ∧ (let s : State := { State.reset with pubs := [{ w := { line := .mem 7 } }] }
       SheavesTidy s ∧ MemCanonical s ∧ (∀ j, s.awaiting j = none) ∧ s.tokens = [])
    ∧ (tokenState.awaiting 1).isSome = true ∧ (0, 0, 1, 7) ∈ tokenState.tokens ∧ tokenState.tokenOf 1 1 = none
    ∧ Mask.has (tokenState.live 0) 3 = true ∧ SMap.get? (tokenState.sheaf 0).waits 3 = none
    ∧ (tokenState.sheaf 1).chunks.any (fun c => decide (4 ≤ c.squashes)) = true ∧ SMap.get? ({ tokenState with tokens := [] } : State).tokens 0 = none := by
  obtain ⟨x, hx⟩ := sheaves_oneStore
  refine ⟨⟨sheavesTidy_of _ (by decide +kernel), canonical_of _ (by decide +kernel), by decide +kernel, by decide +kernel,
    fun j hj => awaiting_absent _ _ (absent_of_one hx j hj), by decide +kernel, by decide +kernel⟩, ⟨sheavesTidy_of _ (by decide +kernel), canonical_of _ (by decide +kernel),
    fun j => awaiting_absent _ _ rfl, rfl⟩, by decide +kernel, by decide +kernel, by decide +kernel, by decide +kernel, by decide +kernel, by decide +kernel, by decide +kernel⟩

/-- A sheaf that waits as `f` says, in a team that runs. -/
def waiting (f : Sheaf → Sheaf) (g : State → State) : State :=
  g { opened State.reset with teams := [(0, { status := .resident, hdr := { regs := 128, scratch := 4096, xpool := 2 } })], sheaves := [(0, f { regs := { pc := List.replicate 16 0 } })] }

theorem ok_of {x : Except AccFault Loc} {l : Loc} (h : (match x with | .ok k => decide (k = l) | .error _ => false) = true) : x = .ok l := by
  match x, h with
  | .ok k, h => exact congrArg Except.ok (of_decide_eq_true h)

theorem witness_WaitsEndWhenTheirConditionHolds :
    let p : Path := { sheaf := 0, lanes := 0xFFFF, pc := 0, atBoundary := true }
    let b := waiting (fun x => { x with pend := .boundary p }) id
    let r := waiting (fun x => { x with pend := .release p false 1 }) id
    let f := waiting (fun x => { x with pend := .fence true true true 1 }) id
    let fl := fun (k : FlightKind) (id : Nat) (ch : Option Nat) => ({ id := id, sheaf := 0, team := 0, ctx := 0, pc := 0, lanes := 1, pa := 2 ^ 51 + 3 * 2 ^ 40, kind := k, chan := ch } : Flight)
    let a := waiting id (fun s => { s with flights := [fl (.value p) 1 none, fl (.store { line := .rem (2 ^ 44) }) 2 (some 1), fl (.store { line := .rem (2 ^ 44) }) 3 (some 1),
                                                       fl (.red 0 .n32) 4 none] })
    let w := waiting (fun x => { x with waits := [(1, .ldf (.v 2) false false 0x40), (2, .ste false 0x40 1 0), (3, .waita (.v 2) .n32 0 false .dev 0x10004 0), (4, .sleep 9), (5, .wtc 3 1),
                                                  (6, .wto 3 0), (7, .pop 0), (8, .xacq 1 0)], yieldUntil := 5 })
      (fun s => mapped (s.updTeam 0 (fun t => { t with xq := [(0, 1, 0)] })))
    let w1 := waiting (fun x => { x with waits := [(3, .waita (.v 2) .n32 0 false .dev 0x10004 0)] }) mapped
    (b.sheaf 0).pend = .boundary p ∧ (b.sheaf 0).uncommitted = false ∧ b.sheafRuns 0 = true ∧ (behind b).sheafRuns 0 = true ∧ ((behind b).sheaf 0).uncommitted = true
    ∧ (r.sheaf 0).pend = .release p false 1 ∧ (r.sheaf 0).uncommitted = false ∧ r.pubs = [] ∧ r.flights = [] ∧ r.sheafRuns 0 = true
    ∧ (f.sheaf 0).pend = .fence true true true 1 ∧ f.sheafRuns 0 = true
    ∧ MemCanonical a ∧ (∀ k ∈ a.flights, a.flights.find? (fun g => g.id = k.id) = some k) ∧ a.flights.map a.inOrder = [true, true, false, true]
    ∧ w.sheafRuns 0 = true ∧ (∀ l, 1 ≤ l → l < 5 → (SMap.get? (w.sheaf 0).waits l).isSome = true) ∧ (w1.sheaf 0).waits = [(3, .waita (.v 2) .n32 0 false .dev 0x10004 0)]
    ∧ w.globalLoc (.core (w.sheaf 0).core) (w.team (w.sheaf 0).team).ctx 0x10004 .load = .ok ⟨.mem 0x400, 4, 128 * 0x400 + 4, none⟩ ∧ 3 < (w.team (w.sheaf 0).team).hdr.width
    ∧ SheavesTidy w ∧ (w.team 0).xq.find? (fun e => (w.team 0).quadOf (w.sheaf e.1) = 0) = some (0, 1, 0) ∧ Mask.count ((1 : BitVec 4).setWidth 64) ≤ w.freeBlocks 0 0
    ∧ w.cycle < (w.sheaf 0).yieldUntil ∧ ({ w with cycle := 5 } : State).cycle = (w.sheaf 0).yieldUntil := by
  dsimp only
  and_intros <;> first
    | exact allTidy_of _ (by decide +kernel) | (intro l h1 h2; interval_cases l <;> decide +kernel) | decide +kernel

/-- WAITA whose page is gone from it by its right, whose device has departed, and one behind an entry of its own sheaf. -/
theorem witness_WaitsEndWhenTheirConditionHolds_ends :
    let w := waiting (fun x => { x with waits := [(3, .waita (.v 2) .n32 0 false .dev 0x10004 0)] })
    let no := w (fun s => s.updCore 0 (fun c => { c with tlb := [⟨0, 1, 16, 0x20013⟩] }))
    let far := w (fun s => { farPage (2 ^ 51 + 3 * 2 ^ 40) s with peers := [] })
    let own := w (fun s => { mapped s with pubs := [{ w := { line := .mem 9 }, maker := some (0, 0) }] })
    (match no.globalLoc (.core 0) 0 0x10004 .load with | .error f => decide (f.cause = cPERM) | _ => false) = true
    ∧ (match far.globalLoc (.core 0) 0 0x10004 .load with | .ok l => (match l.line with | .rem _ => true | _ => false) && !far.reachable l.pa | _ => false) = true
    ∧ (match own.globalLoc (.core 0) 0 0x10004 .load with | .ok l => !l.irrevocable | _ => false) = true ∧ own.settled 0 = false := by decide +kernel

/-- A team that runs, with one command. -/
def withCmd (k : CmdKind) (st : CmdStage) (g : State → State := id) : State :=
  g (waiting id (fun s => s.updTeam 0 (fun t => { t with
    hdr := { t.hdr with acc := 4, scratch := 8192 }
    tiles := [(1, { words := List.replicate 256 0, bnds := List.replicate 16 0, fmt := some .f32, defined := true })]
    cmds := [{ sheaf := 0, pc := 0, allow := 0, kind := k, tile := 1, id := 5, stage := st }] })))

theorem witness_EngineCommandsTakeEffect :
    let turn := fun (s : State) => match (s.team 0).cmd? 5 with | some c => s.engTurn 0 c && decide (c.id = 5) | none => false
    let m : MmaArgs := { ty := .bf16x2, uc := .auto, sat := false, z := true, a := .sp 0, b := .sp 1024 }
    let q : MmaArgs := { m with a := .queue }
    let c : Cmd := { sheaf := 0, pc := 0, allow := 0, kind := .mma m, tile := 1, id := 5 }
    let d : DrainArgs := { ty := .raw, rm := .rn, kind := 0, dst := 0, pitch := 64, record := none, scale := none }
    let r : Shape := { saddr := 0, ssp := true, daddr := 64, dsp := true, ext := [2], sstr := [1], dstr := [1], esz := 2, drop := false }
    (∀ k ∈ [CmdKind.mma m, .mma q, .mzero .f32, .mload .f32 false 0, .mdrain d, .mdrain { d with kind := 2 }, .gath 0 64 none, .gath 0 64 (some [(0, false)]), .cpy r none none false, .cpym r m],
      turn (withCmd k .released) = true)
    ∧ turn (withCmd (.cpym r m) .copied) = true ∧ turn (withCmd (.mdrain { d with kind := 2 }) .pushing) = true
    ∧ ((withCmd (.mma m) .released).fragOf 0 c m.a 1 1024).isSome = true ∧ ((withCmd (.mma m) .released).fragOf 0 c q.a 1 1024) = none
    ∧ ((withCmd (.cpy r none none false) .released).copyEls 0 c r (shapeIdx r.ext) 0 [] (withCmd (.cpy r none none false) .released)).2.2.1 = none
    ∧ (∀ ix ∈ shapeIdx r.ext, (match (withCmd (.cpy r none none false) .released).engLoc c 0 true false false (shapeAddr true 0 4 (shapeOfs r.sstr ix)) 4 with | .ok _ => true | _ => false) = true)
    ∧ ((withCmd (.gath 0 64 (some [(0, false)])) .released).team 0).spBad 0 64 = false ∧ ((withCmd (.gath 0 64 (some [(0, false)])) .released).team 0).spBad 8192 64 = true
    ∧ (withCmd (.mdrain { d with kind := 2 }) .pushing).pushBefore 0 { c with kind := .mdrain { d with kind := 2 }, stage := .pushing } = false
    ∧ ((16 : Nat) = 16 ∨ (16 : Nat) = 32 ∨ (16 : Nat) = 64) ∧ (List.replicate 256 ((0 : Nat), Bnd.zero)).length = 256 := by decide +kernel

theorem witness_TrapAndSwapEventsComplete :
    let t : Trap := { cause := cSWTRAP, check := 9, lanes := 0xFFFF }
    let p : Path := { sheaf := 0, lanes := 0xFFFF, pc := 0 }
    let team := fun (f : Team → Team) (s : State) => s.updTeam 0 f
    let h := withHandler (waiting (fun x => { x with pend := .trap t p }) id)
    let g := waiting (fun x => { x with pend := .trap { t with cause := cPAGE } p }) id
    let f := waiting id (team (fun m => { m with status := .faulted, fault := some ({ t with cause := cPAGE }, p, false) }))
    let sw := waiting id (team (fun m => { m with status := .swapped, slot := some 0, fault := some ({ t with cause := cPAGE }, p, false) }))
    let pr := waiting (fun x => { x with parked := some 64 }) (team (fun m => { m with preq := true, hdr := { m.hdr with sptab := [(64, 64, 64)] } }))
    let sv := waiting (fun x => { x with regs := { x.regs with exited := 0xFFFF } }) (team (fun m => { m with status := .saving }))
    SheavesTidy h ∧ (h.sheaf 0).pend = .trap t p ∧ (h.sheaf 0).uncommitted = false ∧ h.sheafRuns 0 = true ∧ (h.team 0).hdr.trappc ≠ 0
    ∧ h.targetBad (h.sheaf 0).core (h.team 0).ctx (h.team 0).hdr.trappc = false ∧ ((behind h).sheaf 0).uncommitted = true ∧ (behind h).sheafRuns 0 = true
    ∧ SheavesTidy g ∧ g.sheafRuns 0 = true
    ∧ SheavesTidy f ∧ (f.team 0).status = .faulted ∧ (f.team 0).fault = some ({ t with cause := cPAGE }, p, false) ∧ f.atRest 0 = true ∧ f.freeSlot (f.team 0).ctx = some 0
    ∧ f.slotOk (f.swapAddr (f.team 0).ctx 0) = true ∧ (behind f).atRest 0 = false ∧ ({ f with mem := [] } : State).freeSlot 0 = none
    ∧ SheavesTidy sw ∧ sw.open' = true
    ∧ (sw.teams.find? (fun p => p.2.ctx = (0 : W64).toNat % 2 ^ 16 && p.2.index = (0 : W64).toNat / 2 ^ 32 && p.2.status = .swapped)).isSome = true
    ∧ SheavesTidy pr ∧ (pr.team 0).status = .resident ∧ pr.running 0 = [0] ∧ (pr.team 0).cmds = [] ∧ pr.teamRuns 0 = true ∧ pr.freeArea 0 = some 0
    ∧ (pr.sheaf 0).parked ≠ none ∧ (pr.sheaf 0).uncommitted = false
    ∧ (pr.team 0).hdr.sptab.find? (fun e => some (BitVec.ofNat 56 e.1) = (pr.sheaf 0).parked && decide (e.1 < 2 ^ 56)) = some (64, 64, 64)
    ∧ (withHandler pr).targetBad ((withHandler pr).sheaf 0).core 0 64 = false
    ∧ SheavesTidy sv ∧ sv.running 0 = [0] ∧ sv.live 0 = 0 ∧ (sv.sheaf 0).pend = .idle
    ∧ (SMap.get? h.sheaves 0).isSome = true ∧ (oneStore.sheaf 0).chunks.findIdx? (fun k => k.id = 1) = some 0
    ∧ h.dieAbsent 1 = false ∧ ({ h with absent := 2 } : State).dieAbsent 1 = true := by
  dsimp only
  and_intros <;> first | exact allTidy_of _ (by decide +kernel) | decide +kernel

/-- Queue 0 with one packet at 0x10000, and a kernel object at 0x10400. -/
def packet (p : Nat) : State :=
  { opened State.reset with
    queues := [(0, { d0 := 0x80F0000000000000, d1 := 0x1000C, widx := 1 })]
    mem := Memory.write (Memory.write table0 0x20000 (leBytes 64 p)) 0x20400 (leBytes 64 (0x10440 + 2 ^ 56 + 2 ^ 72)) }

/-- A KERNEL packet of one team of one sheaf. -/
def kernel1 : Nat := 1 + 2 ^ 32 + 2 ^ 64 + 2 ^ 80 + 0x10400 * 2 ^ 128
def wait1 (cc : Nat) : Nat := 2 + cc * 2 ^ 9 + 0x10800 * 2 ^ 64
def signal1 : Nat := 3 + 0x10800 * 2 ^ 64 + 7 * 2 ^ 128

theorem witness_LaunchEventsComplete :
    let k := packet kernel1
    let w := packet (wait1 0)
    let g := packet signal1
    let la : Launch := { hdr := { entry := 0x10440, regs := 8 }, ctx := 0 }
    let pl : State := { opened State.reset with launches := [(1, la)], teams := [(2, { launch := 1, hdr := la.hdr })], nextId := 3 }
    let en := waiting (fun x => { x with regs := { x.regs with exited := 0xFFFF } }) id
    let td := waiting (fun x => { x with ended := true }) (fun s => { s with launches := [(0, { done := 0 })] })
    let q := packet 0
    let ch : State := { packet kernel1 with children := [(0, [{ launch := 5, parent := 0, team := 0, va := 0x10000, prio := 0 }])], launches := [(0, {})] }
    (pl.placeChoice = some 2 ∧ pl.fits 2 0 = true ∧ (pl.team 2).status = .waiting ∧ pl.slotOk (pl.swapAddr 0 0) = true)
    ∧ (SheavesTidy en ∧ en.live 0 = 0 ∧ (en.sheaf 0).ended = false ∧ (en.sheaf 0).uncommitted = false ∧ (en.sheaf 0).pend = .idle ∧ (en.team 0).status ≠ .saving)
    ∧ ((td.team 0).status = .resident ∧ td.sheavesOf 0 = [0] ∧ (td.sheaf 0).ended = true ∧ (td.team 0).cmds = [] ∧ (td.launch 0).total ≤ (td.launch 0).ended + 1 ∧ td.sysReleased = true)
    ∧ (td.luFree 0 0x10800 = true ∧ td.luLoc 0 0x10800 .atomic = some ⟨.mem (0x20800 / 128), 0x20800 % 128, 0x20800, none⟩)
    ∧ ((q.queue 0).en = true ∧ q.descOk (q.queue 0).ctx = true ∧ (q.queue 0).widx ≤ 1 ∧ 64 ≤ (q.queue 0).ridx + (q.queue 0).slots ∧ q.phase = 5)
    ∧ q.headPacket 0 = some (some 0) ∧ (opened State.reset).headPacket 0 = none
    ∧ (k.headPacket 0 = some (some kernel1) ∧ kernelCodes kernel1 = [] ∧ (k.queue 0).pmask.testBit (bitsAt kernel1 14 12) = true ∧ k.partOk (bitsAt kernel1 14 12) = true
      ∧ (k.tookPacket 0).depMet 0 (bitsAt kernel1 375 320) = true ∧ ((k.tookPacket 0).readHeader 0 (bitsAt kernel1 183 128) (bitsAt kernel1 100 96 + 1)).1 = [])
    ∧ ((packet 1).headPacket 0 = some (some 1) ∧ kernelCodes 1 ≠ [])
    ∧ (w.headPacket 0 = some (some (wait1 0)) ∧ (w.tookPacket 0).luRead 0 0x10800 8 = some 0 ∧ bitsAt (wait1 3) 11 9 = 3 ∧ wait1 0 / 2 ^ 192 = 0 ∧ bitsAt (wait1 0) 119 64 % 8 = 0)
    ∧ (g.headPacket 0 = some (some signal1) ∧ signal1 / 2 ^ 192 = 0 ∧ g.sysReleased = true ∧ g.luFree 0 0x10800 = true
      ∧ (({ g.tookPacket 0 with green := [] } : State).luWord 0 0x10800).isSome = true)
    ∧ (ch.luRead 0 0x10000 64 = some kernel1 ∧ bitsAt kernel1 14 12 = 0 ∧ (SMap.getD ch.children 0 []).length = 1 ∧ ch.open' = true) := by
  dsimp only
  and_intros <;> first | exact allTidy_of _ (by decide +kernel) | decide +kernel

theorem witness_HostAndPartitionEventsComplete :
    let s := opened State.reset
    let none' : State := { s with parts := [] }
    let half : SysHalf := { bytes := List.replicate 64 1, owned := true, dirty := true, poison := false }
    let busy : State := { s with parts := [(0, { ctx := some 0, busy := true })] }
    let inv : State := { s with tlbicmd := 0x8000000000000010 }
    let win : State := { s with sysA := [(0, 0x8000000000000001), (1, 0x9400000040000001)], sysHeld := [(2 ^ 44, half)] }
    let fl : State := { s with flights := [{ id := 1, sheaf := 0, team := 0, ctx := 0, pc := 0, lanes := 1, pa := 2 ^ 51 + 3 * 2 ^ 40, kind := .store { line := .rem 0 } },
                                           { id := 2, sheaf := 0, team := 0, ctx := 0, pc := 0, lanes := 1, pa := 2 ^ 50, kind := .store { line := .sys 0 } }] }
    (none'.open' = true ∧ (∀ p ∈ none'.parts, p.2.ctx = none) ∧ (0x42 : W64).toNat / 8 % 16 ≤ 8 ∧ ¬ (∀ p ∈ s.parts, p.2.ctx = none))
    ∧ (SheavesTidy s ∧ (s.part 0).busy = false ∧ 0 < s.nparts ∧ (busy.part 0).busy = true ∧ busy.partHalted 0 = true)
    ∧ (s.tlbicmd.getLsbD 63 = false ∧ inv.tlbicmd.getLsbD 63 = true ∧ (∀ p ∈ inv.pubs, p.cmd = none) ∧ (∀ f ∈ inv.flights, f.cmd = none))
    ∧ (4 ≤ s.phase ∧ s.phase ≤ 6 ∧ s.localOk 0 = true ∧ s.localOk (0xC000000000 - 1) = true ∧ s.localOk (2 ^ 49) = false ∧ State.reset.phase < 4)
    ∧ ((match paDie 0 with | some d => s.dieAbsent d | none => false) = false ∧ (match paDie 0 with | some d => ({ s with absent := 1 } : State).dieAbsent d | none => false) = true)
    ∧ (paSystem (2 ^ 50) = true ∧ win.winTarget (2 ^ 50) = some (0, 0) ∧ win.winTarget (2 ^ 50 + 2 ^ 30) = some (1, 2 ^ 52) ∧ win.winTarget (2 ^ 50 + 2 ^ 31) = none)
    ∧ (MemCanonical win ∧ SMap.get? win.sysHeld (2 ^ 44) = some half ∧ half.bytes.length = 64 ∧ win.winTarget (64 * 2 ^ 44) = some (0, 0))
    ∧ ((fl.flights.find? (fun f => f.id = 1 && paRemote f.pa)).isSome = true ∧ (fl.flights.find? (fun f => f.id = 2 && paSystem f.pa)).isSome = true
      ∧ fl.flights.find? (fun f => f.id = 3 && paRemote f.pa) = none) := by
  dsimp only
  and_intros <;> first | exact allTidy_of _ (by decide +kernel) | exact canonical_of _ (by decide +kernel) | decide +kernel

theorem witness_FabricEventsComplete :
    let up := fun (f : Port → Port) => ({ opened State.reset with ports := [(127, f { up := true })], peers := [3] } : State)
    let s := opened State.reset
    let u := up id
    let key : KeySlot := { words := [(0, 1), (1, 1), (2, 1), (3, 1), (4, 1)] }
    let o := up (fun x => { x with unacked := [⟨0, 4⟩, ⟨1, 0⟩], txki := 1, rx := [(0, key), (1, key)], tagfails := 3, fail := 1, newFrom := some 4 })
    s.open' = true ∧ (s.port' 127).up = false ∧ s.feat 0 4 = true ∧ s.feat 0 5 = true ∧ 127 ∉ s.peerEnc ∧ 127 ∈ ({ s with peerEnc := [127] } : State).peerEnc ∧ (u.port' 127).up = true
    ∧ (u.port' 127).slotBusy false 0 = true ∧ (u.port' 127).slotBusy false 1 = false
    ∧ (o.port' 127).unacked = ⟨0, 4⟩ :: [⟨1, 0⟩] ∧ (⟨0, 4⟩ : Flit).key ≠ (o.port' 127).txki
    ∧ (o.port' 127).rxold = true ∧ (o.port' 127).slotBusy true 1 = true ∧ (o.port' 127).newFrom = some 4 ∧ (o.port' 127).rxNum < 3 ∧ (u.port' 127).newFrom = none ∧ 3 ≤ (o.port' 127).tagfails ∧ (u.port' 127).tagfails < 3 ∧ (u.port' 127).fail = 0 ∧ (o.port' 127).fail.getLsbD 2 = false
    ∧ ((o.port' 127).fail ||| BitVec.ofNat 3 (2 ^ 2) : BitVec 3) ≠ 7
    ∧ 1151 ∉ u.peers ∧ 3 ∈ u.peers ∧ u.localOk 0x20004 = true ∧ u.localOk (2 ^ 49) = false ∧ u.green = [] ∧ u.pubs = []
    ∧ (match paDie 0x20004 with | some d => u.dieAbsent d | none => false) = false := by decide +kernel

theorem witness_BringupAndPowerEventsComplete :
    State.reset.phase = 0 ∧ (1 : Byte).toNat ≤ 3 ∧ ({ State.reset with phase := 4 } : State).phase = 4 ∧ (opened State.reset).phase = 5
    ∧ 350 ≤ State.reset.clkNext ∧ State.reset.clkNext ≤ 700 ∧ (0x20008 + 256 * 127 : Nat) < 0x28000
    ∧ State.reset.cycle % Config.roundCycles = 0 ∧ 1 % Config.roundCycles ≠ 0 ∧ (opened State.reset).feat 0 6 = true ∧ State.reset.feat 0 6 = false
    ∧ (State.reset.tlbicmd.getLsbD 63 = false ∧ (0x8000000000000010 : W64).getLsbD 63 = true)
    ∧ (let half : SysHalf := { bytes := List.replicate 64 1, owned := true, dirty := true, poison := false, key := some 0 }
       half.key = some 0 ∧ half.dirty = true) := by decide +kernel

/-- The invariants hold after reset, and in a state with a sheaf, chunks and memory, in which a step answers a next state. -/
theorem witness_EveryStepKeeps :
    SheavesTidy State.reset ∧ MemCanonical State.reset ∧ SheavesTidy oneStore ∧ MemCanonical oneStore
    ∧ (match step oneStore with | .next _ => true | _ => false) = true ∧ (match step idle with | .next _ => true | _ => false) = true := by
  exact ⟨sheavesTidy_of _ (by decide +kernel), canonical_of _ (by decide +kernel), sheavesTidy_of _ (by decide +kernel), canonical_of _ (by decide +kernel),
    by decide +kernel, by decide +kernel⟩

/-- The round trip's hypotheses: BRA's word. -/
theorem witness_DecodeOfEncodeIsTheInstruction :
    let i : Instr := .bra ⟨2, false, false, false⟩ { none0 with imm := 0xFFFFFFFB } 0
    i.wf = true ∧ i.canonical = true ∧ encode i = some 0xFFFFFFFB_00000000_00000202 := by decide +kernel

theorem witness_EncodeOfDecodeIsTheWord : reads 0xFFFFFFFB_00000000_00000202 (.bra ⟨2, false, false, false⟩ { none0 with imm := 0xFFFFFFFB } 0) = true := by decide +kernel

theorem witness_IllFormedWordsAreRefused :
    (∀ n ∈ [0x00, 0x0C, 0x0F, 0x29, 0x2F, 0x38, 0x3F, 0x5A, 0x5F, 0x67, 0x6F, 0x81, 0x8F, 0x97, 0x9F, 0xAC, 0xBF, 0xC7, 0xFF],
      (match decode (BitVec.ofNat 96 (0xF00 + n)) with | .error (.unassignedOpcode _) => true | _ => false) = true)
    ∧ (∀ n ∈ [0x01, 0x0B, 0x10, 0x28, 0x30, 0x37, 0x40, 0x59, 0x60, 0x66, 0x70, 0x80, 0x90, 0x96, 0xA0, 0xAB, 0xC0, 0xC6],
      (match decode (BitVec.ofNat 96 (0xF00 + n)) with | .error (.unassignedOpcode _) => false | _ => true) = true)
    ∧ (0x8F01 : BitVec 96).getLsbD 15 = true ∧ (0x1F01 : BitVec 96).extractLsb' 8 4 = 15 ∧ (0x1F01 : BitVec 96).getLsbD 12 = true
    ∧ (0x6F10 : BitVec 96).getLsbD 13 = true ∧ (0x6F10 : BitVec 96).getLsbD 14 = true ∧ (Instr.nop hh none0 0).use.isSome = true := by decide +kernel

/-! Forms and clauses beside the first: each hypothesis of a statement's further clauses is met. -/

/-- Operands of every kind; path two's registers; tags that differ from the one expected within its group, and that do not. -/
theorem witness_OperandReadsYield :
    let s := ready (.iadd hh o321 (im .n32)) (two .f32 5 7 ∘ setV2 4 .f64 (fun l => l) ∘ setS 4 .n64 0x10004)
    let q : State := { s.updSheaf 0 (fun x => { x with eps := [(0, { entries := [⟨false, [5], [0], .n32⟩] })] }) with launches := [(0, { fx := 2, fy := 3, fz := 1 })] }
    let p : State := { s with issue := s.issue.map (fun p => { p with snap := some {} }) }
    let x := srcTy 2 (.v 1) .n32
    let e := q.csh.endpoint (q.rregs.boundTo 0)
    x.sel = .v 1 ∧ (srcTy 2 (.v 4) .f64).w64 = true ∧ (4 : BitVec 8).toNat % 2 = 0 ∧ (srcTy 2 (.s 4) .n64).sel = .s 4 ∧ (srcP 2 (.p 3)).sel = .p 3
    ∧ e.entries[e.retained]? = some ⟨false, [5], [0], .n32⟩ ∧ (0 < (q.launch q.ctm.launch).fx ∧ 0 < (q.launch q.ctm.launch).fy ∧ q.ctm.index < 2 * 3 * 1)
    ∧ p.cur.snap = some {} ∧ s.cur.snap = none ∧ (srcTy 3 .imm .i64).w64 = true ∧ (srcTy 3 .immF .f64).w64 = true
    ∧ (s.rawSrc x 0).tag = .f32 ∧ x.exp = .ty .n32 [] ∧ x.sel.isImm = false ∧ (s.rawSrc (srcTy 2 (.v 4) .f64) 0).tag = .f64 := by decide +kernel

theorem witness_ConversionsComplete_values :
    ((Fmt.f32.decode 0x7FC00000 = .nan ∧ Fmt.f64.decode 0x7FF0000000000000 = .inf false) ∧ Fmt.f32.decode 0x3F800000 = .fin false 1)
    ∧ (isFloatTy .i32 = false ∧ isFloatTy .f64 = true ∧ Ty.i32 ≠ Ty.n64 ∧ (0 : Rat) ≤ 5 / 2) := by decide +kernel

/-- A producer with NW just before, whose entry stands in L0. -/
theorem witness_TrapsEnterTheHandler_after_nw :
    let s := (ready (.trap hh { none0 with imm := 7 } 0) withHandler).updSheaf 0 (fun x =>
      { x with nwLast := true, regs := { x.regs with prods := [{ dst := .v 3, nw := true, w64 := false }] } })
    let e : Latch := { sheaf := 0, dst := .v 3, nw := true, w64 := false, tag := .n32, val := [1], bnd := [0], lanes := 1, held := true }
    let u := s.updCore 0 (fun c => { c with latches := [(0, [e])] })
    s.csh.tidy ∧ (SMap.get? u.sheaves 0).isSome = true ∧ (u.sheaf 0).nwLast = true ∧ (u.sheaf 0).regs.prods = { dst := .v 3, nw := true, w64 := false } :: []
    ∧ (SMap.getD (u.core (u.sheaf 0).core).latches (u.sheaf 0).quad []).find? (fun e => e.sheaf = 0) = some e ∧ e.nw = true ∧ e.awaits = false ∧ e.lanes ≠ 0
    ∧ (12 : Nat) < 256 ∧ (9 : Nat) < 16 := by
  dsimp only
  and_intros <;> first | exact tidy_of _ (by decide +kernel) | decide +kernel

/-- The die of the descriptor is lost; of the region table alone; a held region entry beside one of the table. -/
theorem witness_AccessFaultsAreRaised_dies :
    let s := { opened State.reset with absent := 1 }
    let t : State := { opened State.reset with absent := 2, mem := Memory.write table0 0 (leBytes 64 (desc0 + 96 * 2 ^ 16 * 2 ^ 142)) }
    s.lostAt (s.descAddr 0) = some 0 ∧ t.lostAt (t.descAddr 0) = none ∧ t.lostAt (t.regionBase 0) = some 1
    ∧ t.regLost (.core 0) 0 0x10000 = some 1 ∧ t.tableLost 0 = some 1 ∧ (opened State.reset).tableLost 0 = none
    ∧ (((oneRegion State.reset).regCacheOf (.core 0)).filter (fun g => g.ctx = 0 && g.covers 0x10000)).length = 1
    ∧ (State.reset.regCacheOf (.core 0)).filter (fun g => g.ctx = 0 && g.covers 0x10000) = [] := by decide +kernel

/-- Atomics whose round has not come and whose round has come; far ones; an operation on device memory that stores, and a CAS that does not. -/
theorem witness_AtomicsComplete_rounds :
    let o : Opn := ⟨.v 9, .s 4, .v 0, .v 8, 0x08100000⟩
    let set := setV 8 .n32 (fun _ => 1) ∘ setS 4 .n64 0x10004
    let s := ready (.atom hh o ⟨false, .dev, .rlx, .b32⟩) (set ∘ mapped)
    let far := ready (.atom hh o ⟨false, .dev, .rlx, .b32⟩) (set ∘ farPage (2 ^ 51 + 3 * 2 ^ 40))
    let ls := fun (s : State) => s.locs false .atomic 4 (s.active hh) (s.memAddr o false false)
    let op : PubOp := { op := 0, ty := .n32, ofs := 4, x := 1, bnd := some 0, bnds := true }
    (∃ p ∈ ls s, s.onDevice p.2 = true) ∧ s.cur.inRound = false ∧ (atRound s).cur.inRound = true
    ∧ (ls far).filter (fun p => p.2.irrevocable) ≠ [] ∧ far.cur.arrived = false ∧ (0 : Nat) ≠ casOp
    ∧ (s.opPlan (.mem 0x400) op).ws.length = 1 ∧ s.localLine (.mem 0x400) = .mem 0x400 ∧ (s.opPlan (.mem 0x400) { op with op := casOp, cmp := 1 }).ws = []
    ∧ far.accTrap false .load 4 waitRule (far.active hh) (far.memAddr o false false) = none ∧ s.linesFull (fun k => k.addRead (.ctr 0 1) true) = false := by
  decide +kernel

/-- A walk that meets no leaf, and one that meets a malformed entry. -/
theorem witness_IssueEventsComplete_no_leaf :
    let w := opened idle
    let m : State := { w with mem := Memory.write w.mem 0x3008 (leBytes 8 0x40000FFF) }
    w.walk 0 (2 ^ 40) = .page ∧ (match m.walk 0 (2 ^ 30 + 5) with | .malformed _ => true | _ => false) = true
    ∧ paDie (w.ptRoot 0 + 8 * (2 ^ 40 / 2 ^ 48 % 2 ^ 8)) = some 0 ∧ w.dieAbsent 0 = false ∧ w.lostAt (w.descAddr 0) = none := by decide +kernel

/-- Two sheaves with a chunk awaiting its commit, the second of which has read what the first writes. -/
def twoStores (reads : List Line) : State :=
  let st := fun (v : Byte) => Held.store { line := .mem 7, bytes := [(0, v)] }
  { opened State.reset with
    teams := [(0, { status := .resident })]
    sheaves := [(0, { chunks := [{ id := 1, count := 1, closed := true, held := [st 1], writes := [.mem 7] }] }),
                (1, { slot := 1, chunks := [{ id := 1, count := 1, closed := true, held := [st 2], writes := [.mem 7], reads := reads }] })] }

theorem witness_RoundsCommitChunks_two :
    (∀ r ∈ [[], [Line.mem 7]],
      let s := twoStores r
      SheavesTidy s ∧ MemCanonical s ∧ s.tokens = [] ∧ s.pubs = [] ∧ (s.sheaf 0).slot < (s.sheaf 1).slot
      ∧ (s.awaiting 0).isSome = true ∧ (s.awaiting 1).isSome = true ∧ (∀ l, l ≠ 0 → l ≠ 1 → s.awaiting l = none)
      ∧ (∀ i ∈ s.sheafIds, (s.sheaf i).quad < 4 ∧ (s.sheaf i).slot < 16) ∧ (∀ p ∈ s.teams, ∀ q ∈ p.2.cmds, q.stage ≠ .done))
    ∧ (let s : State := { tokenState with sheaves := [(1, { redo := [(2, 4)] })], tokens := [] }
       (s.sheaf 1).openChunk? = none ∧ (s.sheaf 1).redo.head? = some (2, 4) ∧ s.tokenOf 1 2 = none) := by
  refine ⟨fun r hr => ?_, by decide +kernel⟩
  have h : ∀ l, l ≠ 0 → l ≠ 1 → (twoStores r).awaiting l = none := fun l h0 h1 => awaiting_absent _ _ (by
    have a : ¬ 0 = l := fun e => h0 e.symm
    have b : ¬ 1 = l := fun e => h1 e.symm
    simp [twoStores, opened, SMap.get?, a, b])
  simp only [List.mem_cons, List.not_mem_nil, or_false] at hr
  rcases hr with rfl | rfl <;>
    exact ⟨sheavesTidy_of _ (by decide +kernel), canonical_of _ (by decide +kernel), rfl, rfl, by decide +kernel, by decide +kernel, by decide +kernel, h,
      by decide +kernel, by decide +kernel⟩

/-- An atomic before and in its round; a boundary instruction behind an entry of its own sheaf, and one beside an open chunk; a request for a block
that is held; a page that is gone. -/
theorem witness_WaitsEndWhenTheirConditionHolds_atomics :
    let p : Path := { sheaf := 0, lanes := 0xFFFF, pc := 0, inRound := true }
    let a := fun (d : Bool) => waiting (fun x => { x with pend := .atomic 1 p d }) id
    let b := waiting (fun x => { x with pend := .boundary p, chunks := [{ id := 1, count := 1 }], nextChunk := 2 })
      (fun s => { s with pubs := [{ w := { line := .mem 9 }, maker := some (0, 0) }] })
    let g := waiting (fun x => { x with ext := 1 }) (fun s => s.updTeam 0 (fun t => { t with xq := [(0, 1, 4)] }))
    let w := waiting (fun x => { x with waits := [(3, .waita (.v 2) .n32 0 false .dev 0x10004 0)] }) id
    (a false).sheaf 0 = { (a true).sheaf 0 with pend := .atomic 1 p false } ∧ ((a true).sheaf 0).pend = .atomic 1 p true
    ∧ b.settled 0 = false ∧ ((b.updSheaf 0 Sheaf.close).sheaf 0).uncommitted = true ∧ (b.sheaf 0).openChunk?.isSome = true
    ∧ (g.team 0).xq.find? (fun e => (g.team 0).quadOf (g.sheaf e.1) = 0) = some (0, 1, 4) ∧ (g.sheaf 0).ext &&& 1 ≠ 0
    ∧ (match ({ w with mem := [] } : State).globalLoc (.core 0) 0 (2 ^ 40) .load with | .error f => decide (f.cause = cPAGE) | _ => false) = true := by
  decide +kernel

/-- A copy that lands with a word to fill and an entry to push, poisoned; an index that is; a drain's rows, two to a line. -/
theorem witness_EngineCommandsTakeEffect_payload :
    let r : Shape := { saddr := 0, ssp := true, daddr := 64, dsp := true, ext := [2], sstr := [1], dstr := [1], esz := 2, drop := false }
    let k := CmdKind.cpy r (some (8, 5)) (some 6) true
    let s := withCmd k .sent
    let d : DrainArgs := { ty := .raw, rm := .rn, kind := 0, dst := 0, pitch := 64, record := none, scale := none }
    let c : Cmd := { sheaf := 0, pc := 0, allow := 0, kind := .mdrain d, tile := 1, id := 5 }
    let m := withCmd (.mdrain d) .released
    (match (s.team 0).cmd? 5 with | some c => decide (c.kind = k ∧ c.id = 5) | none => false) = true ∧ (∀ f ∈ s.flights, f.cmd ≠ some 5)
    ∧ (m.drainStore 0 c d (List.replicate 256 (7, .zero))).2.1 = none ∧ (m.drainStore 0 c d (List.replicate 256 (7, .zero))).1.row = 16
    ∧ ((0, true) : Nat × Bool).2 = true := by decide +kernel

/-- A switch that finds an NW result; accesses that time out; a port's flits in their turn; a peer's ordered stores; a sheaf of a team being saved. -/
theorem witness_FabricEventsComplete_flits :
    let key : KeySlot := { words := [(0, 1), (1, 1), (2, 1), (3, 1), (4, 1)] }
    let up := fun (f : Port → Port) => ({ opened State.reset with ports := [(127, f { up := true, rx := [(1, key)] })], peers := [3] } : State)
    let fl : State := { up id with flights := [{ id := 1, sheaf := 0, team := 0, ctx := 0, pc := 0, lanes := 3, pa := 2 ^ 50, also := [2 ^ 51 + 3 * 2 ^ 40], kind := .store { line := .sys 0 } }] }
    let sv := waiting id (fun s => s.updTeam 0 (fun t => { t with inSave := true }))
    ((SMap.getD ((up id).port' 127).rx 1 {}).whole = true ∧ (1 : Nat) ≠ ((up id).port' 127).rxki ∧ (SMap.getD ((up id).port' 127).rx 0 {}).whole = false)
    ∧ ((up (fun x => { x with rxNum := 7, newFrom := some 7 })).port' 127).newFrom = some 7
    ∧ (∀ f ∈ fl.flights, f.toDevice 3 = true ∧ f.places.any paRemote = true ∧ f.places.any paSystem = true ∧ paRemote f.pa = false)
    ∧ (({ up id with chanNext := [(3, 1, 5)] } : State).chanNext.find? (fun c => c.1 = 3 && c.2.1 = 1)).isSome = true ∧ (∀ c ∈ (up id).chanHeld, c.1 ≠ 3)
    ∧ (sv.team (sv.sheaf 0).team).inSave = true ∧ (0x20004 : Nat) % 4 = 0 := by decide +kernel

/-- A breakpoint taken by a handler: the sheaf stands. -/
theorem witness_SoftwareTrapsRaise_chunk :
    let s := ready (.bkpt hh none0 0) withHandler
    s.active hh ≠ 0 ∧ s.csh.tidy ∧ s.csh.nwLast = false ∧ (SMap.get? s.sheaves s.cur.sheaf).isSome = true
    ∧ (match exec (.bkpt hh none0 0) s with | .next t => (SMap.get? t.sheaves s.cur.sheaf).isSome | _ => false) = true := by
  dsimp only
  and_intros <;> first | exact tidy_of _ (by decide +kernel) | decide +kernel

/-- Forms that raise: a tile beyond the count, a queue register bound elsewhere, offsets that are misaligned or outside the window, no gather waiting,
a record with NDIM 7; and Ready with each. -/
theorem witness_EngineCommandsAreHeld_causes :
    let s := ready (.mzero hh { none0 with imm := 9 } 0x40) (setS 1 .n32 0x44 ∘ setS 2 .n32 0x10000 ∘ engineTeam)
    let r : RawShape := ⟨7 * 2 ^ 215⟩
    Ready hh 9 none [] s ∧ s.ctm.hdr.acc ≤ 9 ∧ s.rregs.boundTo 0 ≠ 5 ∧ Ready hh 0 none [scalar32 2 (.s 1)] s ∧ s.capOfs (scalar32 2 (.s 1)) % 64 ≠ 0
    ∧ s.ctm.spBad (s.capOfs (scalar32 2 (.s 2))) 64 = true ∧ s.gathWaiting 0 = false ∧ bitsAt r.bits 217 215 = 7
    ∧ (fragSrcs 3 (.q 1) (some (.q 1))).map (·.ok) = [false] := by decide +kernel

/-- Rows: an old matrix of 256 elements; elements that tie, with a NaN, and −128. -/
theorem witness_EngineCommandsTakeEffect_rows :
    (List.replicate 256 0).length = 256 ∧ Ty.f6hi ∈ [Ty.f64, .bf16x2, .e4m3x4, .e5m2x4, .q4nx8, .f6hi]
    ∧ (spKeep .i8x4 false [0x80, 1, 0x80, 2] .zero).2.2.1 = 8 ∧ (spKeep .i8x4 true [1, 5, 5, 0] .zero).2.2.1 = 5
    ∧ (spRank .e4m3x4 0x7F) = none := by decide +kernel

/-- A packet that cannot be read, one on a lost die; WAIT and SIGNAL malformed in each way; children that become ready, are lost, are malformed. -/
theorem witness_LaunchEventsComplete_malformed :
    let away : State := { packet 0 with queues := [(0, { d0 := 0x80F0000000000000, d1 := 0x10000000000C, widx := 1 })] }
    let lost : State := { packet 0 with gtlb := [⟨0, 1, 16, BitVec.ofNat 64 (96 * 2 ^ 30 + 0x1B)⟩], absent := 2 }
    let w := fun (p : Nat) => ((packet p).headPacket 0, (packet p).luTest 0 (bitsAt p 119 64))
    let child := fun (l : Launch) => ({ packet 1 with launches := [(5, { l with child := true })] } : State)
    let kid := fun (p : Nat) => ({ packet p with children := [(0, [{ launch := 5, parent := 0, team := 0, va := 0x10000, prio := 0 }])], launches := [(0, {})] } : State)
    (away.headPacket 0 = some none ∧ away.luLost 0 ((away.queue 0).slotVa 0) .load = none)
    ∧ (lost.headPacket 0 = some none ∧ lost.luLost 0 ((lost.queue 0).slotVa 0) .load = some 1 ∧ lost.lostRead 0 [(5, 0x10000)] = some 0x10000)
    ∧ (3 < bitsAt (wait1 4) 11 9 ∧ (w (wait1 4)).1 = some (some (wait1 4)) ∧ bitsAt (wait1 0 + 4 * 2 ^ 64) 119 64 % 8 ≠ 0)
    ∧ (w (2 + 2 ^ 40 * 2 ^ 64) = (some (some (2 + 2 ^ 40 * 2 ^ 64)), none) ∧ (signal1 + 2 ^ 10) / 2 ^ 10 % 2 = 1)
    ∧ (({ (packet (3 + 2 ^ 40 * 2 ^ 64)).tookPacket 0 with green := [] } : State).luWord 0 (2 ^ 40) = none ∧ (packet (3 + 2 ^ 40 * 2 ^ 64)).luFree 0 (2 ^ 40) = true)
    ∧ ((child {}).nowReady 0 = [5] ∧ (child {}).lostDep 0 = none ∧ (child { dep := 2 ^ 40 }).lostDep 0 = some 5)
    ∧ ((kid 1).lostDep 0 = none ∧ (kid 1).nowReady 0 = [] ∧ (kid 1).luRead 0 0x10000 64 = some 1 ∧ kernelCodes 1 ≠ [] ∧ (kid 0).luRead 0 0x10000 64 = some 0
      ∧ ({ kid 0 with gtlb := [], mem := [] } : State).luRead 0 0x10000 64 = none) := by decide +kernel

/-- A port whose third lane fails: one device is led to by it alone, one by another port as well, toward the same neighbour. -/
theorem witness_FabricEventsComplete_routes :
    let s : State := { opened State.reset with peers := [3, 4], routes := [(3, [1]), (4, [0, 1])], ports := [(0, { up := true, nbr := 9 }), (1, { up := true, nbr := 9, fail := 3 })] }
    let d : State := { s with featack := [0x10, 0, 0, 0] }
    ((s.port' 1).fail ||| BitVec.ofNat 3 (2 ^ 2) : BitVec 3) = 7 ∧ (∀ q ∈ SMap.getD s.routes 3 [], q ≠ 1 → (s.port' q).up = false)
    ∧ (s.port' 0).up = true ∧ (s.ports.find? (fun q => q.2.up && q.1 ≠ 1 && decide (q.2.nbr = 9))).isSome = true ∧ d.feat 0 5 = false
    ∧ s.outPort 3 = some 1 ∧ s.outPort 4 = some 0 ∧ (∃ p ∈ [7, 1], (s.port' p).up = true) := by decide +kernel

/-- Faults of the other accesses: an atomic, a full/empty access and a WAITA that are misaligned; a page of a device that has departed. -/
theorem witness_AccessFaultsAreRaised_atomics :
    let o : Opn := ⟨.v 9, .s 4, .v 0, .v 8, 0x08100000⟩
    let f := ready (.ld hh (at4 (.v 2) (.v 0)) ⟨false, .dev, .rlx, .b32⟩) (setS 4 .n64 0x10000 ∘ farPage (2 ^ 51 + 3 * 2 ^ 40))
    let gone : State := { f with peers := [] }
    let s := ready (.atom hh o ⟨false, .dev, .rlx, .b32⟩) (setV 8 .n32 (fun _ => 1) ∘ setS 4 .n64 0x10002 ∘ mapped)
    Ready hh o.imm (some { dstD o false with scalarOk := false, queueOk := false }) (addrSrcs o false false ++ [(srcTy 4 o.sc .n32).only true]) s
    ∧ (s.accTrap false .atomic 4 (s.atomicRule none) (s.active hh) (s.memAddr o false false)).isSome = true
    ∧ (s.accTrap false .load 4 waitRule (s.active hh) (s.memAddr o false false)).isSome = true
    ∧ (s.accTrap true .store 4 (fun _ => none) (s.active hh) (fun _ => 2)).isSome = true
    ∧ (s.ldkFault 4 2).isSome = true
    ∧ ((gone.remoteTrap (gone.locs false .load 4 (gone.active hh) (gone.memAddr (at4 (.v 2) (.v 0)) false false)) []).isSome = true)
    ∧ AtBoundary gone := by
  dsimp only
  and_intros <;> first | exact tidy_of _ (by decide +kernel) | decide +kernel

/-- An entry behind one of its line, and one that has been decided, to which a chunk that awaits its commit stores; a chunk that has written no
vector register, and one that has. -/
theorem witness_RoundsCommitChunks_entries :
    let p : Pub := { w := { line := .mem 7 }, decided := true }
    let s : State := { twoStores [] with pubs := [p] }
    (∃ q ∈ s.pubs, q.w.line.name = p.w.line.name) ∧ p ∈ s.pubs ∧ (s.awaiting 0).isSome = true ∧ ((s.sheaf 0).chunks.map (·.writes)) = [[Line.mem 7]]
    ∧ (s.sheaf 0).chunks.map (·.vregs) = [[]] ∧ ((s.sheaf 0).regs.vreg 3).wf = false := by decide +kernel

end Sys2Proof.Tests
end

/-! SUPPORT. Sequential flow from slot to slot and malformed PCs (R79): the proof of O7. -/

namespace Sys2Proof.Proofs.SequentialFlow

open Sys2Proof Sys2Proof.Machine

/-! A PC as R79 writes it: the line address, bits [5:3], the slot. -/

/-- The PC as a number: 64 addresses to a line, of which bits [5:3] count eights. -/
theorem toNat_line_bits_slot (line : BitVec 50) (z k : BitVec 3) :
    (line ++ z ++ k).toNat = 64 * line.toNat + 8 * z.toNat + k.toNat := by
  rw [BitVec.toNat_append, BitVec.toNat_append, ← Nat.shiftLeft_add_eq_or_of_lt z.isLt,
    ← Nat.shiftLeft_add_eq_or_of_lt k.isLt]
  simp only [Nat.shiftLeft_eq]
  omega

theorem toNat_line_slot (line : BitVec 50) (k : BitVec 3) :
    (line ++ (0 : BitVec 3) ++ k).toNat = 64 * line.toNat + k.toNat :=
  toNat_line_bits_slot line 0 k

/-- What `nextPc` tests, bits [2:0], is the slot. -/
theorem extractLsb'_slot (line : BitVec 50) (z k : BitVec 3) : (line ++ z ++ k).extractLsb' 0 3 = k :=
  BitVec.extractLsb'_append_eq_right

/-- Clearing bits [5:0] leaves the line's own address. -/
theorem and_not_63_eq_line (line : BitVec 50) (z k : BitVec 3) :
    ((line ++ z ++ k : Pc) &&& ~~~(0x3F : Pc)) = line ++ (0 : BitVec 3) ++ (0 : BitVec 3) := by
  have hmask : (~~~(0x3F : Pc)) = BitVec.allOnes 50 ++ (0 : BitVec 3) ++ (0 : BitVec 3) := by decide
  rw [hmask, BitVec.and_append, BitVec.and_append, BitVec.and_allOnes]
  simp only [BitVec.ofNat_eq_ofNat, BitVec.and_zero]

/-! Sequential flow (R79). -/

theorem nextPc_of_slot_lt_four (line : BitVec 50) {k : BitVec 3} (hk : k.toNat < 4) :
    nextPc (line ++ (0 : BitVec 3) ++ k) = line ++ (0 : BitVec 3) ++ (k + 1) := by
  have hne : k ≠ 4 := by rintro rfl; exact absurd hk (by decide)
  have hsucc : (k + 1).toNat = k.toNat + 1 := by bv_omega
  have hline := line.isLt
  unfold nextPc
  rw [extractLsb'_slot, if_neg hne]
  apply BitVec.eq_of_toNat_eq
  rw [BitVec.toNat_add, toNat_line_slot, toNat_line_slot, hsucc, show (1 : Pc).toNat = 1 from rfl]
  omega

/-- The last line is followed by line 0: both sides count modulo 2^56. -/
theorem nextPc_of_slot_four (line : BitVec 50) :
    nextPc (line ++ (0 : BitVec 3) ++ (4 : BitVec 3)) = (line + 1) ++ (0 : BitVec 3) ++ (0 : BitVec 3) := by
  have hnext : (line + 1).toNat = (line.toNat + 1) % 2 ^ 50 := BitVec.toNat_add line 1
  unfold nextPc
  rw [extractLsb'_slot, if_pos rfl, and_not_63_eq_line]
  apply BitVec.eq_of_toNat_eq
  rw [BitVec.toNat_add, toNat_line_slot, toNat_line_slot, hnext, show (64 : Pc).toNat = 64 from rfl]
  omega

/-! Malformed PCs (R79). -/

theorem pcMalformed_iff (line : BitVec 50) (z k : BitVec 3) :
    pcMalformed (line ++ z ++ k).toNat = true ↔ z ≠ 0 ∨ 5 ≤ k.toNat := by
  have hz := z.isLt
  have hk := k.isLt
  have hbits : (64 * line.toNat + 8 * z.toNat + k.toNat) / 8 % 8 = z.toNat := by omega
  have hslot : (64 * line.toNat + 8 * z.toNat + k.toNat) % 8 = k.toNat := by omega
  have hzero : z.toNat = 0 ↔ z = 0 := BitVec.toNat_inj (y := 0)
  unfold pcMalformed
  rw [toNat_line_bits_slot, hbits, hslot]
  simp only [Bool.or_eq_true, decide_eq_true_eq, ne_eq, hzero, Nat.lt_iff_add_one_le]

/-! The instruction that only moves on. -/

/-- NOP completes in every state, with its path at the next slot; no check of the TGT bit stands in its way. -/
theorem exec_nop_advances (h : Hd) (o : Opn) (m : BitVec 8) (s : State) :
    ∃ t, exec (.nop h o m) s = .next t ∧ Advanced s t :=
  ⟨s.begin.finish h, exec_nop h o m s, (begin_passes s h false).1⟩

/-- Settles O7: the PC's three parts are read off as numbers, and NOP's end moves the path by `nextPc` in every state. -/
theorem sequentialFlowAndMalformedPcs : Obligations.SequentialFlowAndMalformedPcs :=
  ⟨fun line _ => ⟨nextPc_of_slot_lt_four line, nextPc_of_slot_four line, fun z => pcMalformed_iff line z _⟩,
    exec_nop_advances⟩

end Sys2Proof.Proofs.SequentialFlow

/-! SUPPORT. TRAP and BKPT (R297): a boundary instruction that waits or ends (R221), and what a cause leaves of the sheaf that raises it
(R230): the proof of O45. -/

namespace Sys2Proof.Proofs.SoftwareTraps

open Sys2Proof Sys2Proof.Machine

/-! What a sparse map lists. -/

theorem mem_insertSorted {α : Type} (m : SMap α) (k : Nat) (a : α) (q : Nat × α) :
    q ∈ SMap.insertSorted m k a ↔ q = (k, a) ∨ q ∈ m := by
  induction m with
  | nil => simp [SMap.insertSorted]
  | cons p r ih =>
    unfold SMap.insertSorted
    split
    · exact List.mem_cons
    · simp only [List.mem_cons, ih]
      exact or_left_comm

theorem mem_set {α : Type} (m : SMap α) (k : Nat) (a : α) (q : Nat × α) :
    q ∈ SMap.set m k a ↔ q = (k, a) ∨ (q ∈ m ∧ q.1 ≠ k) := by
  rw [SMap.set, mem_insertSorted, SMap.erase, List.mem_filter, bne_iff_ne]

theorem mem_of_get?_eq_some {α : Type} {m : SMap α} {k : Nat} {a : α} (h : SMap.get? m k = some a) : (k, a) ∈ m := by
  induction m with
  | nil => exact absurd h (by simp [SMap.get?])
  | cons p r ih =>
    unfold SMap.get? at h
    split at h
    · next hk => rw [← hk, ← Option.some.inj h]; exact List.mem_cons_self
    · exact List.mem_cons_of_mem _ (ih h)

/-! A sheaf's open chunk (R219). -/

theorem chunks_of_openChunk?_eq_some {x : Sheaf} {c : Chunk} (h : x.openChunk? = some c) :
    x.chunks = x.chunks.dropLast ++ [c] ∧ c.closed = false := by
  unfold Sheaf.openChunk? at h
  split at h
  · next k hk =>
    split at h
    · exact absurd h (by simp)
    · next hopen =>
      obtain rfl := Option.some.inj h
      obtain ⟨ys, hys⟩ := List.getLast?_eq_some_iff.mp hk
      exact ⟨by simp [hys], by simpa using hopen⟩
  · exact absurd h (by simp)

/-- Where no chunk stands open and all but the last are closed, all are. -/
theorem closed_of_openChunk?_eq_none {x : Sheaf} (h : x.openChunk? = none) (hd : ∀ c ∈ x.chunks.dropLast, c.closed = true) :
    ∀ c ∈ x.chunks, c.closed = true := by
  rcases List.eq_nil_or_concat x.chunks with hn | ⟨ys, k, hk⟩
  · simp [hn]
  · have hlast : k.closed = true := by simpa [Sheaf.openChunk?, hk] using h
    rw [List.concat_eq_append] at hk
    rw [hk, List.dropLast_concat] at hd
    intro c hc
    rw [hk] at hc
    rcases List.mem_append.mp hc with hy | hy
    · exact hd c hy
    · rw [List.mem_singleton.mp hy]; exact hlast

theorem uncommitted_eq_false_iff (x : Sheaf) : x.uncommitted = false ↔ ∀ c ∈ x.chunks, c.count = 0 ∧ c.closed = false := by
  simp [Sheaf.uncommitted]

theorem uncommitted_ensureOpen (x : Sheaf) : x.ensureOpen.uncommitted = x.uncommitted := by
  unfold Sheaf.ensureOpen
  split
  · rfl
  · simp [Sheaf.uncommitted, Sheaf.newChunk]

/-- With nothing left to commit, a sheaf whose chunks are all closed has none. -/
theorem chunks_eq_nil_of_closed {x : Sheaf} (hc : ∀ c ∈ x.chunks, c.closed = true) (hu : x.uncommitted = false) : x.chunks = [] :=
  List.eq_nil_iff_forall_not_mem.mpr fun c h =>
    absurd (hc c h) (by simp [((uncommitted_eq_false_iff x).mp hu c h).2])

/-- Closing leaves no chunk open. -/
theorem close_chunks_closed {x : Sheaf} (hd : ∀ c ∈ x.chunks.dropLast, c.closed = true) : ∀ c ∈ x.close.chunks, c.closed = true := by
  unfold Sheaf.close
  cases ho : x.openChunk? with
  | none => exact closed_of_openChunk?_eq_none ho hd
  | some k =>
    obtain ⟨hk, _⟩ := chunks_of_openChunk?_eq_some ho
    have hlast : x.chunks.getLast? = some k := by rw [hk]; simp
    dsimp only
    split
    · exact hd
    · unfold Sheaf.updLast
      rw [hlast]
      intro c hc
      rcases List.mem_append.mp hc with hy | hy
      · exact hd c hy
      · rw [List.mem_singleton.mp hy]

/-- An open chunk that is dropped has held nothing. -/
theorem stores_close {x : Sheaf} (he : ∀ c ∈ x.chunks, c.count = 0 → c.held = []) : x.close.stores = x.stores := by
  unfold Sheaf.close
  cases ho : x.openChunk? with
  | none => rfl
  | some k =>
    obtain ⟨hk, _⟩ := chunks_of_openChunk?_eq_some ho
    dsimp only
    split
    · next h0 =>
      have hheld : k.held = [] := he k (by rw [hk]; simp) h0
      unfold Sheaf.stores
      conv_rhs => rw [hk]
      simp [hheld]
    · exact Sheaf.stores_updLast x _ (fun _ => rfl)

theorem ensureOpen_held {x : Sheaf} (he : ∀ c ∈ x.chunks, c.count = 0 → c.held = []) :
    ∀ c ∈ x.ensureOpen.chunks, c.count = 0 → c.held = [] := by
  unfold Sheaf.ensureOpen
  split
  · exact he
  · intro c hc
    rcases List.mem_append.mp hc with hy | hy
    · exact he c hy
    · rw [List.mem_singleton.mp hy]; exact fun _ => rfl

/-! A boundary instruction before its boundary (R221). -/

theorem begin_csh (s : State) : s.begin.csh = s.csh.ensureOpen := csh_updSheaf s _

theorem begin_uncommitted (s : State) : s.begin.csh.uncommitted = s.csh.uncommitted := by
  rw [begin_csh, uncommitted_ensureOpen]

theorem runBoundary_before {h : Hd} {imm : W32} {d : Option Dst} {as : List Src} {own : State → Mask → Option Trap}
    {eff : State → Mask → State} {s : State} (r : Ready h imm d as s) (ho : own s (s.active h) = none) (hb : BeforeBoundary s) :
    runBoundary h imm d as own eff s = .next s.begin.holdBoundary := by
  rw [runBoundary, runOp_ready r ho, begin_uncommitted, hb.1, if_pos rfl]

theorem runBoundary_at {h : Hd} {imm : W32} {d : Option Dst} {as : List Src} {own : State → Mask → Option Trap}
    {eff : State → Mask → State} {s : State} (r : Ready h imm d as s) (ho : own s (s.active h) = none) (hb : AtBoundary s) :
    runBoundary h imm d as own eff s = .next (eff s.edge (s.active h)) := by
  rw [runBoundary, runOp_ready r ho, begin_uncommitted, hb.1]
  rfl

/-- A sheaf whose boundary instruction, that of the path of `s`, begins to wait. -/
def pausedSheaf (s : State) (x : Sheaf) : Sheaf :=
  { (if s.others.isEmpty then x.close else x) with pend := .boundary s.boundaryPath }

theorem holdBoundary_sheaf_eq (s : State) (j : Nat) :
    s.begin.holdBoundary.sheaf j = (s.begin.updSheaf s.cur.sheaf (pausedSheaf s)).sheaf j := rfl

theorem holdBoundary_sheaf (s : State) : s.begin.holdBoundary.sheaf s.cur.sheaf = pausedSheaf s s.csh.ensureOpen := by
  rw [holdBoundary_sheaf_eq, State.sheaf_updSheaf, ← begin_csh]
  rfl

theorem holdBoundary_other (s : State) {j : Nat} (n : j ≠ s.cur.sheaf) : s.begin.holdBoundary.sheaf j = s.sheaf j := by
  rw [holdBoundary_sheaf_eq, State.sheaf_updSheaf_ne _ _ n]
  exact State.sheaf_updSheaf_ne s _ n

/-- All that the wait changes of a sheaf is its chunks and `pend`. -/
theorem pausedSheaf_eq (s : State) (x : Sheaf) : pausedSheaf s x = { x with
    chunks := (pausedSheaf s x).chunks, redo := (pausedSheaf s x).redo, closeNext := (pausedSheaf s x).closeNext
    pend := .boundary s.boundaryPath } := by
  unfold pausedSheaf
  split
  · rw [Sheaf.close_eq]
  · rfl

theorem pausedSheaf_stores (s : State) {x : Sheaf} (he : ∀ c ∈ x.chunks, c.count = 0 → c.held = []) :
    (pausedSheaf s x).stores = x.stores := by
  unfold pausedSheaf
  split
  · exact stores_close he
  · rfl

/-- An instruction held until its boundary waits, and nothing else happens. -/
theorem waits_of_holdBoundary {i : Instr} {s : State} (he : exec i s = .next s.begin.holdBoundary) (ht : s.csh.tidy) : Waits i s := by
  obtain ⟨_, hempty, _⟩ := ht
  have hheld := ensureOpen_held (fun c hc h0 => (hempty c hc h0).2)
  have hs := holdBoundary_sheaf s
  have path : OnlyPath s s.begin.holdBoundary :=
    ⟨rfl, fun j n => holdBoundary_other s n, fun _ _ => rfl, ⟨rfl, rfl, rfl, rfl⟩⟩
  refine ⟨_, he, rfl, ?_, ?_, path, unstored_of path ?_, ?_⟩
  · rw [hs]; rfl
  · rw [hs, pausedSheaf_eq, Sheaf.ensureOpen_eq]
  · rw [hs, pausedSheaf_stores s hheld, Sheaf.stores_ensureOpen]
  · rw [hs, pausedSheaf_eq, Sheaf.ensureOpen_eq]
    exact ⟨rfl, rfl, rfl, ⟨rfl, rfl⟩, rfl, rfl, ⟨rfl, rfl, rfl, rfl, rfl⟩, ⟨rfl, rfl, rfl, rfl, rfl⟩⟩

/-! A boundary instruction at its boundary (R221). -/

theorem edge_csh (s : State) : s.edge.csh = s.csh.ensureOpen.dropEmpty := by
  rw [← begin_csh]
  exact csh_updSheaf s.begin _

theorem dropEmpty_ensureOpen_chunks {x : Sheaf} (hu : x.uncommitted = false) (ht : x.tidy) : x.ensureOpen.dropEmpty.chunks = [] := by
  obtain ⟨hclosed, _⟩ := ht
  have hopen := (uncommitted_eq_false_iff x).mp hu
  unfold Sheaf.ensureOpen
  cases ho : x.openChunk? with
  | some k =>
    obtain ⟨hk, _⟩ := chunks_of_openChunk?_eq_some ho
    have h0 : k.count = 0 := (hopen k (by rw [hk]; simp)).1
    have hnil : x.chunks.dropLast = [] := List.eq_nil_iff_forall_not_mem.mpr fun c hc =>
      absurd (hclosed c hc) (by simp [(hopen c (List.mem_of_mem_dropLast hc)).2])
    simp [Sheaf.dropEmpty, ho, h0, hnil]
  | none =>
    have hnil := chunks_eq_nil_of_closed (closed_of_openChunk?_eq_none ho hclosed) hu
    simp [Sheaf.dropEmpty, Sheaf.openChunk?, Sheaf.newChunk, hnil]

theorem edge_chunks {s : State} (hb : AtBoundary s) : s.edge.csh.chunks = [] := by
  rw [edge_csh, dropEmpty_ensureOpen_chunks hb.1 hb.2]

theorem dropEmpty_beside (s : State) : Beside s (s.updSheaf s.cur.sheaf Sheaf.dropEmpty) := by
  refine ⟨rfl, fun j h => State.sheaf_updSheaf_ne s _ h, ?_⟩
  rw [State.sheaf_updSheaf]
  unfold Sheaf.dropEmpty
  split <;> rfl

theorem edge_beside (s : State) : Beside s s.edge := (begin_beside s).trans (dropEmpty_beside s.begin)

/-- A chunk that has executed nothing holds no store, so none is lost with it. -/
theorem edge_stores {s : State} (hb : AtBoundary s) : s.edge.csh.stores = s.csh.stores := by
  obtain ⟨_, hempty, _⟩ := hb.2
  have hnone : s.csh.stores = [] := List.flatMap_eq_nil_iff.mpr fun c hc => by
    have h0 := ((uncommitted_eq_false_iff _).mp hb.1 c hc).1
    rw [(hempty c hc h0).2, List.filterMap_nil]
  rw [hnone, Sheaf.stores, edge_chunks hb, List.flatMap_nil]

theorem counted_of_chunks_nil {x : Sheaf} (h : x.chunks = []) (cx nw : Bool) : x.counted cx nw = x := by
  simp [Sheaf.counted, Sheaf.updLast, Sheaf.openChunk?, h]

/-- With no chunk to count in, a boundary instruction ends as any instruction does. -/
theorem leave_eq_retire (u : State) (h : Hd) (c : Bool) (hc : u.csh.chunks = []) : u.leave h.nw = u.retire h c := by
  have hx : ((u.relock h.nw).sheaf u.cur.sheaf).chunks = [] := by
    rw [relock_sheaf, State.sheaf_updSheaf]
    exact hc
  unfold State.leave State.retire State.updSheaf
  simp only [counted_of_chunks_nil hx]

theorem finishBoundary_eq_finish (u : State) (h : Hd) (hc : u.csh.chunks = []) : u.finishBoundary h.nw = u.finish h :=
  leave_eq_retire _ h false (by rw [State.movePc, csh_updSheaf]; exact hc)

theorem finishBoundary_passes {s : State} (hb : AtBoundary s) :
    Advanced s s.edge.finishBoundary ∧ Untouched s s.edge.finishBoundary := by
  rw [finishBoundary_eq_finish s.edge ⟨15, false, false, false⟩ (edge_chunks hb)]
  exact finish_passes (edge_beside s) (edge_stores hb) _ _

/-! What a cause leaves of the sheaf that raises it (R230, R290). -/

/-- Every entry of the state's list of sheaves for `i` is `x`. -/
def Lists (s : State) (i : Nat) (x : Sheaf) : Prop := ∀ p ∈ s.sheaves, p.1 = i → p.2 = x

namespace Lists

theorem sheaf {s : State} {i : Nat} {x : Sheaf} (h : Lists s i x) (hp : SMap.get? s.sheaves i ≠ none) : s.sheaf i = x := by
  obtain ⟨y, hy⟩ := Option.ne_none_iff_exists'.mp hp
  rw [State.sheaf, SMap.getD, hy]
  exact h _ (mem_of_get?_eq_some hy) rfl

/-- A sheaf that is not listed has no chunk either. -/
theorem chunks {s : State} {i : Nat} {x : Sheaf} (h : Lists s i x) (hx : x.chunks = []) : (s.sheaf i).chunks = [] := by
  by_cases hp : SMap.get? s.sheaves i = none
  · rw [State.sheaf, SMap.getD, hp]; rfl
  · rw [h.sheaf hp, hx]

theorem of_setSheaf (s : State) (i : Nat) (x : Sheaf) : Lists (s.setSheaf i x) i x := by
  intro p hp hi
  rcases (mem_set _ _ _ _).mp hp with rfl | ⟨_, hne⟩
  · rfl
  · exact absurd hi hne

theorem setSheaf_ne {s : State} {i j : Nat} {x : Sheaf} (h : Lists s i x) (y : Sheaf) (hj : j ≠ i) : Lists (s.setSheaf j y) i x := by
  intro p hp hi
  rcases (mem_set _ _ _ _).mp hp with rfl | ⟨hm, _⟩
  · exact absurd hi hj
  · exact h p hm hi

/-- A sheaf without chunks has none that is squashed. -/
theorem squashIf {s : State} {i : Nat} {x : Sheaf} (h : Lists s i x) (hx : x.chunks = []) (j : Nat) (f : Chunk → Bool) :
    Lists (s.squashIf j f) i x := by
  unfold State.squashIf
  split
  · next k hk =>
    have hj : j ≠ i := by
      rintro rfl
      rw [h.chunks hx] at hk
      exact absurd hk (by simp)
    exact h.setSheaf_ne _ hj
  · exact h

theorem foldl_squashIf {s : State} {i : Nat} {x : Sheaf} (h : Lists s i x) (hx : x.chunks = []) (js : List Nat) (f : Chunk → Bool) :
    Lists (js.foldl (fun a j => a.squashIf j f) s) i x := by
  induction js generalizing s with
  | nil => exact h
  | cons j r ih => exact ih (h.squashIf hx j f)

theorem greenWrite {s : State} {i : Nat} {x : Sheaf} (h : Lists s i x) (hx : x.chunks = []) (pa : Nat) (bs : List Byte) :
    Lists (s.greenWrite pa bs) i x := by
  unfold State.greenWrite
  split
  · exact h
  · exact h.foldl_squashIf hx s.sheafIds _

theorem putRecord {s : State} {i : Nat} {x : Sheaf} (h : Lists s i x) (hx : x.chunks = []) (ctx : Nat) (bs : List Byte) :
    Lists (s.putRecord ctx bs) i x := by
  unfold State.putRecord
  split
  · exact h
  · exact h.greenWrite hx _ _

/-- The end of a context drops sheaves, and changes none that stays. -/
theorem endContext {s : State} {i : Nat} {x : Sheaf} (h : Lists s i x) (hx : x.chunks = []) (f : Frame) (t core k : Nat) :
    Lists (s.endContext f t core k) i x := by
  unfold State.endContext
  dsimp only
  split
  · exact h
  · have hw : Lists (s.writeRecord f t core k) i x := h.putRecord hx _ _
    exact fun p hp => hw p (List.mem_of_mem_filter hp)

end Lists

/-- What a cause leaves of the sheaf: its registers but the PCs, and no chunk open. -/
def Truncated (x y : Sheaf) : Prop := RegsFrame x.regs y.regs [] [] [] ∧ ∀ c ∈ y.chunks, c.closed = true

theorem truncated_of_eq {x y : Sheaf} (hr : ∃ f, y.regs = { x.regs with pc := f }) (hc : ∀ c ∈ y.chunks, c.closed = true) : Truncated x y := by
  obtain ⟨f, hf⟩ := hr
  rw [Truncated, hf]
  exact ⟨⟨fun _ _ => rfl, fun _ _ => rfl, fun _ _ => rfl, rfl, rfl, rfl, rfl⟩, hc⟩

theorem truncated_of_chunks_nil {x : Sheaf} (hx : x.chunks = []) : Truncated x x :=
  truncated_of_eq ⟨x.regs.pc, rfl⟩ (by simp [hx])

theorem loseLatches_sheaf (s : State) (j k : Nat) : (s.loseLatches j).sheaf k = s.sheaf k := rfl

theorem enterHandler_truncated {s : State} {i : Nat} (h : Lists s i (s.sheaf i)) (hx : (s.sheaf i).chunks = []) (t : Trap) (p : Path)
    (hp : SMap.get? (s.enterHandler i t p).sheaves i ≠ none) : Truncated (s.sheaf i) ((s.enterHandler i t p).sheaf i) := by
  unfold State.enterHandler at hp ⊢
  dsimp only at hp ⊢
  split at hp
  · next hbad =>
    rw [if_pos hbad, (h.endContext hx _ _ _ _).sheaf hp]
    exact truncated_of_chunks_nil hx
  · next hbad =>
    rw [if_neg hbad, loseLatches_sheaf, State.sheaf_setSheaf]
    exact truncated_of_eq ⟨_, rfl⟩ (by simp [hx])

/-- Every cause but PAGE enters the handler or ends the context (R290). -/
theorem enterTrap_truncated {s : State} {i : Nat} (h : Lists s i (s.sheaf i)) (hx : (s.sheaf i).chunks = []) {t : Trap} (p : Path)
    (hc : t.cause ≠ cPAGE) (hp : SMap.get? (s.enterTrap i t p).sheaves i ≠ none) :
    Truncated (s.sheaf i) ((s.enterTrap i t p).sheaf i) := by
  unfold State.enterTrap at hp ⊢
  dsimp only at hp ⊢
  rw [if_neg hc] at hp ⊢
  split at hp
  · next hh =>
    rw [if_pos hh]
    exact enterHandler_truncated h hx t p hp
  · next hh =>
    rw [if_neg hh, (h.endContext hx _ _ _ _).sheaf hp]
    exact truncated_of_chunks_nil hx

/-- Without an NW producer just before, no result waits in L0 for its register (R95). -/
theorem settleNw_of_nwLast_eq_false {s : State} {i : Nat} (h : (s.sheaf i).nwLast = false) : s.settleNw i = s := by
  unfold State.settleNw
  dsimp only
  split
  · rw [h]; rfl
  · rfl

/-- The path of the current instruction as a cause records it. -/
def trapPath (s : State) : Path := { s.cur with snap := none, lat := none, vis := none }

/-- A cause as it is kept: the addresses its access has touched are counted by then (R307). -/
def keptTrap (t : Trap) : Trap := { t with walks := [], tables := [] }

/-- The state in which a cause takes its course: the quadrant's lock given back, nothing issuing. -/
def trapState (s : State) : State := { s.unlock s.cur.sheaf with issue := [] }

/-- A cause of an instruction that accesses nothing, with no NW producer just before. -/
theorem raise_eq {s : State} {t : Trap} (hw : t.walks = []) (ht : t.tables = []) (hn : s.csh.nwLast = false) :
    s.raise t = if s.csh.close.uncommitted
      then (trapState s).setSheaf s.cur.sheaf { s.csh.close with pend := .trap (keptTrap t) (trapPath s) }
      else ((trapState s).setSheaf s.cur.sheaf s.csh.close).enterTrap s.cur.sheaf (keptTrap t) (trapPath s) := by
  have hsettle : s.settleNw s.cur.sheaf = s := settleNw_of_nwLast_eq_false hn
  unfold State.raise
  simp only [hw, ht, List.foldl_nil, hsettle]
  rfl

theorem raise_truncated {s : State} {t : Trap} (hw : t.walks = []) (ht : t.tables = []) (hc : t.cause ≠ cPAGE) (hn : s.csh.nwLast = false)
    (hd : ∀ c ∈ s.csh.chunks.dropLast, c.closed = true) (hp : SMap.get? (s.raise t).sheaves s.cur.sheaf ≠ none) :
    Truncated s.csh ((s.raise t).sheaf s.cur.sheaf) := by
  have hregs : s.csh.close.regs = s.csh.regs := by rw [Sheaf.close_eq]
  have hclosed := close_chunks_closed hd
  rw [raise_eq hw ht hn] at hp ⊢
  split at hp
  · next hu =>
    rw [if_pos hu, State.sheaf_setSheaf]
    exact truncated_of_eq ⟨s.csh.regs.pc, hregs⟩ hclosed
  · next hu =>
    rw [if_neg hu]
    have hl := Lists.of_setSheaf (trapState s) s.cur.sheaf s.csh.close
    have hs := State.sheaf_setSheaf (trapState s) s.cur.sheaf s.csh.close
    have hnil := chunks_eq_nil_of_closed hclosed (by simpa using hu)
    have hcause : (keptTrap t).cause ≠ cPAGE := hc
    have h := enterTrap_truncated (by rw [hs]; exact hl) (by rw [hs]; exact hnil) (trapPath s) hcause hp
    rw [hs] at h
    unfold Truncated at h
    rwa [hregs] at h

/-! TRAP and BKPT (R297). -/

theorem runOp_own {h : Hd} {imm : W32} {d : Option Dst} {as : List Src} {own : State → Mask → Option Trap}
    {eff : State → Mask → State} {s : State} {t : Trap} (r : Ready h imm d as s) (ho : own s (s.active h) = some t) :
    runOp h imm d as own eff s = .next (s.raise t) := by
  obtain ⟨hoperand, hstrict, hqueue, _⟩ := r
  simp only [State.checkLanes] at hoperand hqueue
  simp only [runOp, hoperand, hstrict, hqueue, ho]

theorem softTrap_none (c : Nat) (o : Opn) : softTrap c o 0 = none := rfl

theorem softTrap_some (c : Nat) (o : Opn) {a : Mask} (ha : a ≠ 0) :
    softTrap c o a = some { cause := c, check := 9, lanes := a, icode := o.imm } := if_neg ha

section
variable {h : Hd} {o : Opn} {m : BitVec 8} {s : State} (r : Ready h o.imm none [] s)
include r

theorem trap_waits (hb : BeforeBoundary s) : Waits (.trap h o m) s :=
  waits_of_holdBoundary (by rw [exec_trap, execTrap, runBoundary_before r rfl hb]) hb.2

theorem exec_trap_active (hb : AtBoundary s) (ha : s.active h ≠ 0) :
    exec (.trap h o m) s = .next (s.edge.raise { cause := cSWTRAP, check := 9, lanes := s.active h, icode := o.imm }) := by
  rw [exec_trap, execTrap, runBoundary_at r rfl hb, softTrap_some cSWTRAP o ha]

theorem exec_trap_inactive (hb : AtBoundary s) (ha : s.active h = 0) : exec (.trap h o m) s = .next s.edge.finishBoundary := by
  rw [exec_trap, execTrap, runBoundary_at r rfl hb, ha, softTrap_none]

theorem exec_bkpt_active (ha : s.active h ≠ 0) :
    exec (.bkpt h o m) s = .next (s.raise { cause := cBKPT, check := 9, lanes := s.active h, icode := o.imm }) := by
  rw [exec_bkpt, execBkpt, runOp_own r (softTrap_some cBKPT o ha)]

theorem exec_bkpt_inactive (ha : s.active h = 0) : exec (.bkpt h o m) s = .next (s.begin.finish h) := by
  rw [exec_bkpt, execBkpt, runOp_ready r (by rw [ha, softTrap_none])]

/-- TRAP raises at the edge of its boundary, BKPT where it stands; either way `raise` meets the same registers. -/
theorem raised_truncated {i : Instr} {t : State} (hi : i = .bkpt h o m ∨ (i = .trap h o m ∧ AtBoundary s)) (ha : s.active h ≠ 0)
    (ht : s.csh.tidy) (hn : s.csh.nwLast = false) (he : exec i s = .next t) (hp : SMap.get? t.sheaves s.cur.sheaf ≠ none) :
    Truncated s.csh (t.sheaf s.cur.sheaf) := by
  rcases hi with rfl | ⟨rfl, hb⟩
  · obtain ⟨hclosed, _⟩ := ht
    rw [exec_bkpt_active r ha] at he
    obtain rfl := Host.Outcome.next.inj he
    exact raise_truncated rfl rfl (show cBKPT ≠ cPAGE by decide) hn hclosed hp
  · have beside := edge_beside s
    rw [exec_trap_active r hb ha] at he
    obtain rfl := Host.Outcome.next.inj he
    rw [← beside.cur] at hp ⊢
    have h := raise_truncated (s := s.edge) rfl rfl (show cSWTRAP ≠ cPAGE by decide) (by rw [beside.csh]; exact hn)
      (by simp [edge_chunks hb]) hp
    unfold Truncated at h
    rwa [beside.regs] at h

end

/-- Settles O45: TRAP ends or waits as a boundary instruction does, BKPT as an instruction of a chunk; what a cause of either leaves of
the sheaf is what `raise` leaves of it, whose chunks are closed or committed by then. -/
theorem softwareTrapsRaise : Obligations.SoftwareTrapsRaise := by
  intro h o m s r
  refine ⟨trap_waits r, exec_trap_active r, ?_, exec_bkpt_active r, ?_, ?_⟩
  · exact fun hb ha => ⟨_, exec_trap_inactive r hb ha, finishBoundary_passes hb⟩
  · exact fun ha => ⟨_, exec_bkpt_inactive r ha, begin_passes s h false⟩
  · exact fun i t hi ha ht hn _ => raised_truncated r hi ha ht hn

end Sys2Proof.Proofs.SoftwareTraps
